-- ==== Sys2Proof/Word.lean ====
section
/-! DEFINITION. The value types of the core. 00_scope.md R7: every value is an unsigned number of a stated
width; bit 0 is the least significant bit. 00_scope.md R8: messages, keys and blocks are byte sequences. -/

namespace Sys2Proof

/-- One byte. -/
abbrev Byte := BitVec 8

/-- A register or command word: 32 bits (10_state.md R21, 30_encoding.md R100). -/
abbrev Word32 := BitVec 32

/-- A subkey or cipher half-block of the Feistel and SP ciphers: 64 bits. -/
abbrev Word64 := BitVec 64

end Sys2Proof
end

