-- ==== Sys2Proof/Syntax.lean ====
section
/-! DEFINITION. The commands of the core: one constructor for each row of the opcode map
(30_encoding.md R105). A command word carries no operand but PSEL and PBS (R101, R102). -/

namespace Sys2Proof

/-- The 22 commands (30_encoding.md R105). -/
inductive Instr where
  /-- OP 0x00, 45_context.md R280. -/
  | nop
  /-- OP 0x01, 45_context.md R282. -/
  | ctxInit
  /-- OP 0x02, 45_context.md R284. -/
  | ctxClear
  /-- OP 0x03, 44_block_commands.md R256. -/
  | algSetkey
  /-- OP 0x08, 44_block_commands.md R258. -/
  | blkEnc
  /-- OP 0x09, 44_block_commands.md R259. -/
  | blkDec
  /-- OP 0x0A, 44_block_commands.md R261. -/
  | fEval
  /-- OP 0x10, 47_modes.md R345. -/
  | encrypt
  /-- OP 0x11, 47_modes.md R347. -/
  | decrypt
  /-- OP 0x18, 48_streaming.md R372. -/
  | sencBegin
  /-- OP 0x19, 48_streaming.md R373. -/
  | sencData
  /-- OP 0x1A, 48_streaming.md R374. -/
  | sencEnd
  /-- OP 0x1C, 48_streaming.md R376. -/
  | sdecBegin
  /-- OP 0x1D, 48_streaming.md R377. -/
  | sdecData
  /-- OP 0x1E, 48_streaming.md R378. -/
  | sdecEnd
  /-- OP 0x1F, 48_streaming.md R380. -/
  | streamAbort
  /-- OP 0x20, 40_gf_arith.md R136. -/
  | gfMul
  /-- OP 0x21, 40_gf_arith.md R137. -/
  | gfCube
  /-- OP 0x22, 40_gf_arith.md R138. -/
  | sbox1
  /-- OP 0x23, 40_gf_arith.md R139. -/
  | sbox2
  /-- OP 0x30, 46_padding.md R306: PSEL is the scheme's tag, PBS the block size in bytes. PSEL 4 to 7 are
  accepted by the decoder (30_encoding.md R103), so the tag is kept as its three bits. -/
  | pad (psel : BitVec 3) (pbs : Byte)
  /-- OP 0x31, 46_padding.md R307. -/
  | unpad (psel : BitVec 3)
deriving DecidableEq, Repr

end Sys2Proof
end

