-- ==== Sys2Proof/WellFormed.lean ====
section
/-! DEFINITION. Which commands have an encoding. The one check: PAD with PBS = 0 is illegal
(30_encoding.md R104). Every other value of PSEL and PBS has one (R103). -/

namespace Sys2Proof

/-- A command that some command word stands for (30_encoding.md R104, R106). -/
def Instr.wf : Instr → Bool
  | .pad _ pbs => pbs != 0#8
  | .unpad _
  | .nop | .ctxInit | .ctxClear | .algSetkey | .blkEnc | .blkDec | .fEval | .encrypt | .decrypt
  | .sencBegin | .sencData | .sencEnd | .sdecBegin | .sdecData | .sdecEnd | .streamAbort | .gfMul
  | .gfCube | .sbox1 | .sbox2 => true

end Sys2Proof
end

