-- ==== Sys2Proof/Decode.lean ====
section
/-! DEFINITION. The decoder (30_encoding.md R105, R106), total on every 32-bit word, and after it the encoder
(R101, R105). A word that stands for no command is rejected by the name of its illegality. -/

namespace Sys2Proof

/-- Why a command word is illegal (30_encoding.md R106). -/
inductive DecodeError where
  /-- Sub-cause 1: the OP field is unassigned. -/
  | unassignedOp
  /-- Sub-cause 2: a reserved bit of the command word is set. -/
  | reservedBits
  /-- Sub-cause 3: PAD with PBS = 0. -/
  | padBlockZero
deriving DecidableEq, Repr

/-- The sub-cause of ILLEGAL_CMD that a decoding error reports (30_encoding.md R106). -/
def DecodeError.sub : DecodeError → Byte
  | .unassignedOp => 1#8
  | .reservedBits => 2#8
  | .padBlockZero => 3#8

/-- A row of the opcode map (30_encoding.md R105): the "match" column, the "mask" column, and the command the
row stands for, given the fields PSEL and PBS of the word. -/
structure OpRow where
  pat : Word32
  mask : Word32
  make : BitVec 3 → Byte → Instr

/-- The opcode map (30_encoding.md R105). -/
def opcodeMap : List OpRow :=
  [ ⟨0x00000000#32, 0xFFFFFFFF#32, fun _ _ => .nop⟩,
    ⟨0x00000001#32, 0xFFFFFFFF#32, fun _ _ => .ctxInit⟩,
    ⟨0x00000002#32, 0xFFFFFFFF#32, fun _ _ => .ctxClear⟩,
    ⟨0x00000003#32, 0xFFFFFFFF#32, fun _ _ => .algSetkey⟩,
    ⟨0x00000008#32, 0xFFFFFFFF#32, fun _ _ => .blkEnc⟩,
    ⟨0x00000009#32, 0xFFFFFFFF#32, fun _ _ => .blkDec⟩,
    ⟨0x0000000A#32, 0xFFFFFFFF#32, fun _ _ => .fEval⟩,
    ⟨0x00000010#32, 0xFFFFFFFF#32, fun _ _ => .encrypt⟩,
    ⟨0x00000011#32, 0xFFFFFFFF#32, fun _ _ => .decrypt⟩,
    ⟨0x00000018#32, 0xFFFFFFFF#32, fun _ _ => .sencBegin⟩,
    ⟨0x00000019#32, 0xFFFFFFFF#32, fun _ _ => .sencData⟩,
    ⟨0x0000001A#32, 0xFFFFFFFF#32, fun _ _ => .sencEnd⟩,
    ⟨0x0000001C#32, 0xFFFFFFFF#32, fun _ _ => .sdecBegin⟩,
    ⟨0x0000001D#32, 0xFFFFFFFF#32, fun _ _ => .sdecData⟩,
    ⟨0x0000001E#32, 0xFFFFFFFF#32, fun _ _ => .sdecEnd⟩,
    ⟨0x0000001F#32, 0xFFFFFFFF#32, fun _ _ => .streamAbort⟩,
    ⟨0x00000020#32, 0xFFFFFFFF#32, fun _ _ => .gfMul⟩,
    ⟨0x00000021#32, 0xFFFFFFFF#32, fun _ _ => .gfCube⟩,
    ⟨0x00000022#32, 0xFFFFFFFF#32, fun _ _ => .sbox1⟩,
    ⟨0x00000023#32, 0xFFFFFFFF#32, fun _ _ => .sbox2⟩,
    ⟨0x00000030#32, 0xFF00F8FF#32, fun psel pbs => .pad psel pbs⟩,
    ⟨0x00000031#32, 0xFFFFF8FF#32, fun psel _ => .unpad psel⟩ ]

/-- The OP field, bits 7:0 (30_encoding.md R101). -/
def opField (w : Word32) : Byte := w.extractLsb' 0 8

/-- The PSEL field, bits 10:8 (30_encoding.md R101). -/
def pselField (w : Word32) : BitVec 3 := w.extractLsb' 8 3

/-- The PBS field, bits 23:16 (30_encoding.md R101). -/
def pbsField (w : Word32) : Byte := w.extractLsb' 16 8

/-- Decoding (30_encoding.md R106). -/
def decode (w : Word32) : Except DecodeError Instr :=
  match opcodeMap.find? (fun row => opField row.pat == opField w) with
  | none => .error .unassignedOp
  | some row =>
    if w &&& row.mask = row.pat then
      let i := row.make (pselField w) (pbsField w)
      if i.wf then .ok i else .error .padBlockZero
    else .error .reservedBits

/-- The OP value of a command (30_encoding.md R105): what STATUS.LASTOP shows after it. -/
def Instr.op : Instr → Byte
  | .nop => 0x00#8
  | .ctxInit => 0x01#8
  | .ctxClear => 0x02#8
  | .algSetkey => 0x03#8
  | .blkEnc => 0x08#8
  | .blkDec => 0x09#8
  | .fEval => 0x0A#8
  | .encrypt => 0x10#8
  | .decrypt => 0x11#8
  | .sencBegin => 0x18#8
  | .sencData => 0x19#8
  | .sencEnd => 0x1A#8
  | .sdecBegin => 0x1C#8
  | .sdecData => 0x1D#8
  | .sdecEnd => 0x1E#8
  | .streamAbort => 0x1F#8
  | .gfMul => 0x20#8
  | .gfCube => 0x21#8
  | .sbox1 => 0x22#8
  | .sbox2 => 0x23#8
  | .pad _ _ => 0x30#8
  | .unpad _ => 0x31#8

/-- The PSEL field of a command's word: 0 where the command has none (30_encoding.md R101). -/
def Instr.psel : Instr → BitVec 3
  | .pad psel _ => psel
  | .unpad psel => psel
  | .nop | .ctxInit | .ctxClear | .algSetkey | .blkEnc | .blkDec | .fEval | .encrypt | .decrypt
  | .sencBegin | .sencData | .sencEnd | .sdecBegin | .sdecData | .sdecEnd | .streamAbort | .gfMul
  | .gfCube | .sbox1 | .sbox2 => 0#3

/-- The PBS field of a command's word: 0 where the command has none (30_encoding.md R101). -/
def Instr.pbs : Instr → Byte
  | .pad _ pbs => pbs
  | .unpad _
  | .nop | .ctxInit | .ctxClear | .algSetkey | .blkEnc | .blkDec | .fEval | .encrypt | .decrypt
  | .sencBegin | .sencData | .sencEnd | .sdecBegin | .sdecData | .sdecEnd | .streamAbort | .gfMul
  | .gfCube | .sbox1 | .sbox2 => 0#8

/-- The command word, format CMD32 (30_encoding.md R101): PBS in 23:16, PSEL in 10:8, OP in 7:0, every other
bit 0. -/
def encode (i : Instr) : Word32 := 0#8 ++ i.pbs ++ 0#5 ++ i.psel ++ i.op

/-- The command the decoder reads from a word of `nbits` bits numbered as spec/opcode_table.json numbers them.
A command is always one whole 32-bit word (30_encoding.md R100), so the bits above `nbits` are 0. -/
def decodeTableWord (nbits w : Nat) : Option Instr :=
  match decode (BitVec.ofNat 32 (w % 2 ^ nbits)) with
  | .ok i => some i
  | .error _ => none

end Sys2Proof
end

