-- ==== Sys2Proof/Config.lean ====
section
/-! DEFINITION. What no rule of the spec fixes, as constants without a body: no proof can see a value of one.

First the OPEN functions and tables of a build that is not the reference build (00_scope.md R5, R6); then the
free values: each is applied to the number of the draw (State.free), so that every draw is unrelated to every
other. The build parameters that are plain data stand in State.build (Machine/State.lean). -/

namespace Sys2Proof

/-- FE_E_TABLE, the Feistel expansion table: 96 bit numbers, any of them (41_feistel.md R163, 92_eei_decisions.md
D32). -/
opaque Config.feExpansion : Vector (Fin 64) 96

/-- FE_P_TABLE, the Feistel permutation: any permutation of the 64 bit numbers (41_feistel.md R167, D32). -/
opaque Config.fePermutation : Equiv.Perm (Fin 64)

/-- H of SP_KS: the high word of subkey `i` (43_sp_cipher.md R232, D39). -/
opaque Config.spHigh : Nat → BitVec 32

/-- Lo of SP_KS: the low word of subkey `i`, a function of the key bytes cycled modulo the key length, and of
`i` alone (43_sp_cipher.md R232, D39). -/
opaque Config.spLow : (Nat → Byte) → Nat → BitVec 32

/-- SP_SUB with its inverse: any bijection on 64 bits (43_sp_cipher.md R234, D39). -/
opaque Config.spSub : Equiv.Perm Word64

/-- SP_DIF with its inverse: any bijection on 64 bits (43_sp_cipher.md R234, D39). -/
opaque Config.spDif : Equiv.Perm Word64

/-- What the BUF byte at an offset holds after the `era`-th power-on reset until it is written: any value, per
byte, independent (20_memory.md R70, 93_implementation_defined.md I1). -/
opaque Config.bufByte : (era offset : Nat) → Byte

/-- A free byte: the `index`-th byte of the draw (I2, I4, I9). -/
opaque Config.freeByte : (draw index : Nat) → Byte

/-- A free 32-bit word (I4, I7). -/
opaque Config.freeWord : (draw : Nat) → Word32

/-- Whether an entropy draw fails, where no answer has been supplied (00_scope.md R13, I9). -/
opaque Config.entropyFails : (draw : Nat) → Bool

/-- Whether the running command sees the byte a host write puts at an offset of its input range while BUSY
(70_reset_and_hazards.md R460, I5). -/
opaque Config.commandSees : (draw offset : Nat) → Bool

/-- Whether a byte of the output range that the host wrote while BUSY keeps the host's value (R460, I6). -/
opaque Config.hostWins : (draw offset : Nat) → Bool

end Sys2Proof
end

