-- ==== Sys2Proof/Machine/State.lean ====
section
/-! DEFINITION. The state of the core as plain data: every register of the register map (10_state.md R21), the
persistent internal state ALGI, CTX and STR (R44 to R46), the buffer memory (R48), the command in progress
(R24, R50), the build parameters (00_scope.md R5), and the outside inputs that wait to be served. -/

namespace Sys2Proof.Machine

/-! ## The build -/

/-- FE_ADD (41_feistel.md R161): the addition of eight-byte arrays. -/
inductive FeAdd where
  /-- With carries, modulo 2^64. -/
  | carry64
  /-- Byte by byte, with no carry between bytes. -/
  | bytewise
deriving DecidableEq, Repr

/-- RC5_MIX_RULE (42_rc5.md R205): how many times the RC5 key schedule mixes. -/
inductive MixRule where
  /-- 3 * max(r, c), the source's words. -/
  | doc
  /-- 3 * max(t, c), the published RC5. -/
  | standard
deriving DecidableEq, Repr

/-- Which tables and functions the build has for the OPEN parameters FE_E_TABLE, FE_P_TABLE, SP_KS, SP_SUB and
SP_DIF (00_scope.md R6; PARAM.REFCFG of 10_state.md R38). -/
inductive Tables where
  /-- The reference configuration REF (41_feistel.md R168, 43_sp_cipher.md R235). -/
  | ref
  /-- Any others: the opaque constants of Config. -/
  | other
deriving DecidableEq, Repr

/-- The build parameters (00_scope.md R5). No step changes them. -/
structure Build where
  /-- BASE: the bus address of the core's window (20_memory.md R71). -/
  base : Nat
  /-- log2(BUF_BYTES), 12 to 16 (R5, 10_state.md R38). -/
  bufLog : {n : Nat // 12 ≤ n ∧ n ≤ 16}
  /-- RC5_ROUNDS, 1 to 255 (42_rc5.md R210). -/
  rc5Rounds : {n : Nat // 1 ≤ n ∧ n ≤ 255}
  /-- REFCFG (10_state.md R38). -/
  tables : Tables
  /-- FE_ADD (41_feistel.md R161). -/
  feAdd : FeAdd
  /-- RC5_MIX_RULE (42_rc5.md R205). -/
  mixRule : MixRule
  /-- S2_MODULUS, a polynomial as an integer (40_gf_arith.md R130, R135; 90_conflicts.md C1). -/
  s2Modulus : Nat
deriving DecidableEq, Repr

/-- The build State.reset stands for: the value the spec names as its own choice or as the default of each
parameter (00_scope.md R5); tables that are not REF, since no claim may assume REF (R6); BASE 0.
DESIGN CHOICE (unsafe, log 11): a statement that rests on one of these values is about this build only. -/
def Build.default : Build where
  base := 0
  bufLog := ⟨16, by decide⟩
  rc5Rounds := ⟨12, by decide⟩
  tables := .other
  feAdd := .carry64
  mixRule := .doc
  s2Modulus := 0xA7

/-! ## The registers a host writes -/

/-- CFG (10_state.md R28). Every defined bit is stored as written; the reserved bits have no storage. -/
structure Cfg where
  alg : BitVec 3
  mode : BitVec 3
  pad : BitVec 3
  rc5w : BitVec 2
  bs : Byte
deriving DecidableEq, Repr

/-- The registers and windows a command takes its operands from (30_encoding.md R102). The host writes them, no
command does (10_state.md R26), and a command reads them as they stood when it was accepted (R50). -/
structure Args where
  /-- SRC (R26). -/
  src : Word32
  /-- LEN (R26). -/
  len : Word32
  /-- DST (R26). -/
  dst : Word32
  /-- CFG (R28). -/
  cfg : Cfg
  /-- KEYLEN[5:0] (R29). -/
  keylen : BitVec 6
  /-- IVLEN[4:0] (R30). -/
  ivlen : BitVec 5
  /-- GF_A[15:0] (R34). -/
  gfA : BitVec 16
  /-- GF_B[15:0] (R34). -/
  gfB : BitVec 16
  /-- GF_MOD[16:0] (R35). -/
  gfMod : BitVec 17
  /-- GF_CFG[4:0] (R36). -/
  gfCfg : BitVec 5
  /-- KEY[0..31] (R39). -/
  key : Vector Byte 32
  /-- IV[0..15] (R40). -/
  iv : Vector Byte 16
deriving DecidableEq, Repr

/-- The reset values of those registers (70_reset_and_hazards.md R450): all 0. -/
def Args.reset : Args where
  src := 0
  len := 0
  dst := 0
  cfg := ⟨0, 0, 0, 0, 0⟩
  keylen := 0
  ivlen := 0
  gfA := 0
  gfB := 0
  gfMod := 0
  gfCfg := 0
  key := Vector.replicate 32 0
  iv := Vector.replicate 16 0

/-! ## The persistent internal state -/

/-- The RC5 word sizes (42_rc5.md R200). -/
inductive WordSize where
  | w16
  | w32
  | w64
deriving DecidableEq, Repr

/-- ALGI.alg, with ALGI.w where it has a meaning: the closed variant over exactly three kinds
(44_block_commands.md R255, 10_state.md R44). -/
inductive AlgKind where
  | feistel
  | rc5 (w : WordSize)
  | sp
deriving DecidableEq, Repr

/-- The algorithm instance ALGI (10_state.md R44). ALGI.bs is the view AlgKind.bs of its kind. -/
structure Algi where
  /-- ALGI.alg and ALGI.w. -/
  kind : AlgKind
  /-- ALGI.key: the raw key bytes. -/
  key : List Byte
  /-- ALGI.sched: 48 words for FEISTEL, 2*(r+1) for RC5, 26 for SP. An RC5 word of w bits stands in the low w
  bits of its entry. -/
  sched : List Word64
deriving DecidableEq, Repr

/-- The modes of operation (10_state.md R28, 47_modes.md). -/
inductive Mode where
  | ecb
  | cbc
  | pcbc
  | cfb
  | ofb
  | ctr
  | randomDelta
deriving DecidableEq, Repr

/-- The padding schemes (10_state.md R28, 46_padding.md). -/
inductive PadScheme where
  | zeros
  | ansiX923
  | pkcs7
  | iso10126
deriving DecidableEq, Repr

/-- The context CTX, beyond the algorithm instance it owns (10_state.md R45). CTX.bs is ALGI.bs. -/
structure Ctx where
  mode : Mode
  pad : PadScheme
  /-- CTX.iv: ALGI.bs bytes in a chained mode; no rule reads it in another (empty then, log 13). -/
  iv : List Byte
deriving DecidableEq, Repr

/-- The fields of an open stream (10_state.md R46). -/
structure StrData where
  /-- STR.pend: the bytes received but not yet output. -/
  pend : List Byte
  /-- STR.chain: the chaining value. -/
  chain : List Byte
  /-- STR.j: the block counter. -/
  j : Nat
  /-- STR.delta; STR.have_delta is that there is one. -/
  delta : Option (List Byte)
deriving DecidableEq, Repr

/-- The stream state STR: STR.dir is the constructor (10_state.md R46). While it is IDLE the other fields are
unspecified and no rule reads them. -/
inductive Str where
  | idle
  | enc (d : StrData)
  | dec (d : StrData)
deriving DecidableEq, Repr

/-- ALGI, CTX and STR together. ALGI is valid exactly when STATUS.ALG_KEYED = 1 (10_state.md R44), CTX exactly
when STATUS.CTX_VALID = 1, which implies ALG_KEYED = 1 (R45), and a stream is open only under a valid context
(48_streaming.md R371). What is invalid has no fields: they are unspecified and never read. -/
inductive Session where
  /-- ALG_KEYED = 0, CTX_VALID = 0. -/
  | none
  /-- ALG_KEYED = 1, CTX_VALID = 0. -/
  | keyed (a : Algi)
  /-- ALG_KEYED = 1, CTX_VALID = 1. -/
  | context (a : Algi) (c : Ctx) (t : Str)
deriving DecidableEq, Repr

/-! ## The buffer memory -/

/-- BUF (20_memory.md R70). `cells` lists the bytes written since the last power-on reset, by strictly rising
offset; any other byte holds the unspecified value Config.bufByte of its offset and of `era`, the number of
power-on resets so far (log 4). -/
structure Memory where
  cells : List Host.Cell
  era : Nat
deriving DecidableEq, Repr

/-! ## The command in progress -/

/-- A command that was accepted and has not completed: STATUS.BUSY = 1 (10_state.md R24, R25, R50). -/
structure Running where
  /-- The command word, latched in full at the CMD write (20_memory.md R84). -/
  word : Word32
  /-- The operand registers as they stood at acceptance (10_state.md R50). -/
  args : Args
  /-- BUF as the command sees it: the snapshot taken at acceptance (20_memory.md R76), with those bytes of host
  writes during BUSY that the command sees (70_reset_and_hazards.md R460). -/
  view : Memory
  /-- The BUF offsets the host wrote since acceptance (R460). -/
  hostWrote : List Nat
  /-- How many more cycles pass before the cycle in which the command completes (R463). -/
  left : Nat
deriving DecidableEq, Repr

/-! ## Outside inputs and outputs -/

/-- The widths of a bus access: 8, 16 or 32 bits (20_memory.md R72). -/
inductive Width where
  | w8
  | w16
  | w32
deriving DecidableEq, Repr

/-- What a bus access does. Of a write narrower than 32 bits, the low 8 or 16 bits of `data` count. -/
inductive BusOp where
  | read
  | write (data : Word32)
deriving DecidableEq, Repr

/-- One host bus access, at a bus address (20_memory.md R71, R72). -/
structure Access where
  addr : Nat
  width : Width
  op : BusOp
deriving DecidableEq, Repr

/-- The core's answer to a bus access: a bus error or not, and the read data (0 for a write). -/
structure BusResp where
  err : Bool
  data : Word32
deriving DecidableEq, Repr

/-- One outside input (log 1). -/
inductive Input where
  /-- The bus delivers a host access. -/
  | bus (a : Access)
  /-- The reset input is asserted (true) or released (false) (70_reset_and_hazards.md R450, R455). -/
  | rst (level : Bool)
deriving DecidableEq, Repr

/-- One answer of the entropy source (00_scope.md R13). -/
inductive EntAnswer where
  /-- The draw fails. -/
  | fail
  /-- The draw delivers these bytes. -/
  | ok (bytes : List Byte)
deriving DecidableEq, Repr

/-- The state of the core and of its surroundings. -/
structure State where
  /-- The build parameters (00_scope.md R5): constants. -/
  build : Build
  /-- SRC, LEN, DST, CFG, KEYLEN, IVLEN, GF_A, GF_B, GF_MOD, GF_CFG, KEY, IV (10_state.md R26 to R40). -/
  args : Args
  /-- OUTLEN (10_state.md R27). -/
  outlen : Word32
  /-- ERRINFO (10_state.md R33). -/
  errinfo : Word32
  /-- GF_RES (10_state.md R37). -/
  gfRes : Word32
  /-- STATUS.ERR (10_state.md R24). -/
  err : Bool
  /-- STATUS.ERRCODE (10_state.md R24). -/
  errcode : Byte
  /-- STATUS.LASTOP (10_state.md R24). -/
  lastop : Byte
  /-- INT_STATUS[2:0]: OVERRUN, ERR, DONE (10_state.md R31). -/
  intStatus : BitVec 3
  /-- INT_ENABLE[2:0] (10_state.md R32). -/
  intEnable : BitVec 3
  /-- ALGI, CTX and STR (10_state.md R44 to R46). -/
  session : Session
  /-- BUF (10_state.md R48). -/
  buf : Memory
  /-- The command in progress: STATUS.BUSY is that there is one (10_state.md R24). -/
  running : Option Running
  /-- The level of the reset input (70_reset_and_hazards.md R455). -/
  inReset : Bool
  /-- Model's own: the outside inputs not yet served, oldest first (log 1). -/
  inbox : List Input
  /-- Model's own: the answer to the last bus access the core served (log 17). -/
  resp : Option BusResp
  /-- Model's own: the entropy source's coming answers, oldest first (I9, log 10). -/
  ent : List EntAnswer
  /-- Model's own: the delays of the coming commands, oldest first (I8, log 2). -/
  delays : List Nat
  /-- Model's own: how many free values have been drawn (log 17). -/
  free : Nat
deriving DecidableEq, Repr

/-- The core never stops with a fault: a command error and a bus error are next states (60_exceptions.md R401,
R407), and the core runs no program that could be stopped (R409). So nobody raises one (log 18). -/
inductive Fault where
deriving DecidableEq, Repr

/-- The reasons to answer nothing for an instruction. -/
inductive Refusal where
  /-- Raised by an arm of exec whose instruction has no meaning yet. No arm is one: nobody raises it. Safe: a
  refusal claims nothing of the hardware. -/
  | notModelled (mnemonic : String)
deriving DecidableEq, Repr

/-- The outcome of a command or of a step. -/
abbrev Res := Host.Outcome State Fault Refusal

/-- The state right after power-on reset of a core of build `b` (70_reset_and_hazards.md R450), with reset
released and nothing pending outside. -/
def State.resetOf (b : Build) : State where
  build := b
  args := Args.reset
  outlen := 0
  errinfo := 0
  gfRes := 0
  err := false
  errcode := 0
  lastop := 0
  intStatus := 0
  intEnable := 0
  session := .none
  buf := ⟨[], 0⟩
  running := none
  inReset := false
  inbox := []
  resp := none
  ent := []
  delays := []
  free := 0

/-- The machine right after reset (70_reset_and_hazards.md R450), of the build Build.default (log 11). -/
def State.reset : State := State.resetOf Build.default

end Sys2Proof.Machine
end

