-- ==== Sys2Proof/Machine/Operands.lean ====
section
/-! DEFINITION. Byte sequences and their numbers (00_scope.md R8, R9), the operands of a command as it sees them
(10_state.md R50, R51; 30_encoding.md R102), and the views of the state that the spec names but that are stored
elsewhere (ALGI.bs, BUF_BYTES, the validity of ALGI, CTX and STR). -/

namespace Sys2Proof.Machine

/-! ## Byte sequences (00_scope.md R8) -/

/-- be_N(s): the bytes read big-endian, the first the most significant. -/
def beNat (s : List Byte) : Nat := s.foldl (fun v b => 256 * v + b.toNat) 0

/-- le_N(s): the bytes read little-endian, the first the least significant. -/
def leNat (s : List Byte) : Nat := s.foldr (fun b v => b.toNat + 256 * v) 0

/-- tobe_N(v) for N = 8 * n: `n` bytes, the most significant first. -/
def toBe : (n v : Nat) → List Byte
  | 0, _ => []
  | n + 1, v => BitVec.ofNat 8 (v / 256 ^ n) :: toBe n v

/-- tole_N(v) for N = 8 * n: `n` bytes, the least significant first. -/
def toLe : (n v : Nat) → List Byte
  | 0, _ => []
  | n + 1, v => BitVec.ofNat 8 v :: toLe n (v / 256)

/-- xorb(a, b). -/
def xorb (a b : List Byte) : List Byte := List.zipWith (· ^^^ ·) a b

/-- Bytewise addition modulo 256 (47_modes.md R339, 41_feistel.md R161 BYTEWISE). -/
def addb (a b : List Byte) : List Byte := List.zipWith (· + ·) a b

/-- Bytewise subtraction modulo 256 (47_modes.md R339, 41_feistel.md R161 BYTEWISE). -/
def subb (a b : List Byte) : List Byte := List.zipWith (· - ·) a b

/-- The number whose binary digits are the list, the most significant first. -/
def natOfBits (s : List Bool) : Nat := s.foldl (fun v b => 2 * v + b.toNat) 0

/-- The first `m` blocks of `bs` bytes of a buffer: X_j = X[j*bs .. (j+1)*bs) (47_modes.md R330). -/
def blocks (bs : Nat) : (m : Nat) → List Byte → List (List Byte)
  | 0, _ => []
  | m + 1, x => x.take bs :: blocks bs m (x.drop bs)

/-- min(n, 255), the cap on a length reported in ERRINFO[15:8] (60_exceptions.md R402). -/
def cap255 (n : Nat) : Byte := BitVec.ofNat 8 (min n 255)

/-! ## Views -/

/-- BUF_BYTES (00_scope.md R5). -/
def Build.bufBytes (b : Build) : Nat := 2 ^ b.bufLog.val

/-- The RC5 word size w in bits (42_rc5.md R200). -/
def WordSize.bits : WordSize → Nat
  | .w16 => 16
  | .w32 => 32
  | .w64 => 64

/-- u = w/8, the bytes of an RC5 word (42_rc5.md R200). -/
def WordSize.bytes : WordSize → Nat
  | .w16 => 2
  | .w32 => 4
  | .w64 => 8

/-- ALGI.bs: 16 for FEISTEL and SP, 2u for RC5 (10_state.md R44). -/
def AlgKind.bs : AlgKind → Nat
  | .feistel => 16
  | .rc5 w => 2 * w.bytes
  | .sp => 16

/-- ALGI, where STATUS.ALG_KEYED = 1 (10_state.md R44). -/
def Session.algi : Session → Option Algi
  | .none => .none
  | .keyed a => some a
  | .context a _ _ => some a

/-- CTX, where STATUS.CTX_VALID = 1 (10_state.md R45). -/
def Session.ctx : Session → Option Ctx
  | .none => .none
  | .keyed _ => .none
  | .context _ c _ => some c

/-- STR (10_state.md R46). -/
def Session.str : Session → Str
  | .none => .idle
  | .keyed _ => .idle
  | .context _ _ t => t

/-- STR.dir <- IDLE, with the other fields unspecified (10_state.md R46). -/
def Session.closeStream : Session → Session
  | .none => .none
  | .keyed a => .keyed a
  | .context a c _ => .context a c .idle

/-- The code of STR.dir in STATUS.STREAM (10_state.md R24). -/
def Str.code : Str → BitVec 2
  | .idle => 0#2
  | .enc _ => 1#2
  | .dec _ => 2#2

/-! ## Operands -/

/-- The operand registers as the command in progress sees them: latched at its acceptance (10_state.md R50). With
no command in progress they are the registers (log 22). -/
def State.opnd (s : State) : Args :=
  match s.running with
  | some r => r.args
  | none => s.args

/-- BUF as the command in progress sees it (20_memory.md R76, 70_reset_and_hazards.md R460). With no command in
progress it is BUF (log 22). -/
def State.inBuf (s : State) : Memory :=
  match s.running with
  | some r => r.view
  | none => s.buf

/-- The BUF offsets the host wrote since the command in progress was accepted (R460). -/
def State.hostWrote (s : State) : List Nat :=
  match s.running with
  | some r => r.hostWrote
  | none => []

/-- KEY[0..k) (10_state.md R29). -/
def Args.keyBytes (a : Args) (k : Nat) : List Byte := a.key.toList.take k

/-- IV[0..k) (10_state.md R30). -/
def Args.ivBytes (a : Args) (k : Nat) : List Byte := a.iv.toList.take k

/-- LEN as a number (10_state.md R26). -/
def State.len (s : State) : Nat := s.opnd.len.toNat

/-- SRC as a number (10_state.md R26). -/
def State.src (s : State) : Nat := s.opnd.src.toNat

/-- DST as a number (10_state.md R26). -/
def State.dst (s : State) : Nat := s.opnd.dst.toNat

end Sys2Proof.Machine
end

