-- ==== Sys2Proof/Machine/Flags.lean ====
section
/-! DEFINITION. The flag registers: STATUS (10_state.md R24), the bits of INT_STATUS and INT_ENABLE (R31, R32), the
interrupt output (60_exceptions.md R411), and the error codes (R402). -/

namespace Sys2Proof.Machine

/-! ## INT_STATUS and IRQ -/

/-- INT_STATUS[0], DONE (10_state.md R31). -/
def intDone : BitVec 3 := 0b001#3

/-- INT_STATUS[1], ERR (10_state.md R31). -/
def intErr : BitVec 3 := 0b010#3

/-- INT_STATUS[2], OVERRUN (10_state.md R31). -/
def intOverrun : BitVec 3 := 0b100#3

/-- The interrupt output (60_exceptions.md R411): it follows INT_STATUS and INT_ENABLE at all times. -/
def State.irq (s : State) : Bool := s.intStatus &&& s.intEnable != 0#3

/-! ## STATUS -/

/-- STATUS.BUSY (10_state.md R24). -/
def State.busy (s : State) : Bool := s.running.isSome

/-- STATUS.CTX_VALID (10_state.md R24, R45). -/
def State.ctxValid (s : State) : Bool := s.session.ctx.isSome

/-- STATUS.ALG_KEYED (10_state.md R24, R44). -/
def State.algKeyed (s : State) : Bool := s.session.algi.isSome

/-- STATUS.STREAM (10_state.md R24, R46). -/
def State.stream (s : State) : BitVec 2 := s.session.str.code

/-- The STATUS word of given ERR, ERRCODE and LASTOP fields; the other fields are the state's (10_state.md R24). -/
def State.statusWith (s : State) (err : Bool) (errcode lastop : Byte) : Word32 :=
  0#8 ++ lastop ++ errcode ++ 0#2 ++ s.stream ++ BitVec.ofBool s.algKeyed ++ BitVec.ofBool s.ctxValid ++
    BitVec.ofBool err ++ BitVec.ofBool s.busy

/-- STATUS (10_state.md R24): LASTOP 23:16, ERRCODE 15:8, STREAM 5:4, ALG_KEYED 3, CTX_VALID 2, ERR 1, BUSY 0. -/
def State.status (s : State) : Word32 := s.statusWith s.err s.errcode s.lastop

/-! ## Errors -/

/-- The errors of a command (60_exceptions.md R402). -/
inductive ErrName where
  | illegalCmd
  | invalidKeySize
  | invalidIvSize
  | invalidBlockSize
  | unsupportedAlg
  | unsupportedMode
  | unsupportedPadding
  | unsupportedWordSize
  | notAligned
  | shortBuffer
  | paddingError
  | entropyFailure
  | noContext
  | notKeyed
  | blockLength
  | bufferRange
  | streamState
  | gfWidth
deriving DecidableEq, Repr

/-- ERRCODE of an error (60_exceptions.md R402). -/
def ErrName.code : ErrName → Byte
  | .illegalCmd => 0x01#8
  | .invalidKeySize => 0x02#8
  | .invalidIvSize => 0x03#8
  | .invalidBlockSize => 0x04#8
  | .unsupportedAlg => 0x05#8
  | .unsupportedMode => 0x06#8
  | .unsupportedPadding => 0x07#8
  | .unsupportedWordSize => 0x08#8
  | .notAligned => 0x09#8
  | .shortBuffer => 0x0A#8
  | .paddingError => 0x0B#8
  | .entropyFailure => 0x0C#8
  | .noContext => 0x0D#8
  | .notKeyed => 0x0E#8
  | .blockLength => 0x0F#8
  | .bufferRange => 0x10#8
  | .streamState => 0x11#8
  | .gfWidth => 0x12#8

/-- An error as it is raised: E(sub-cause, info) (60_exceptions.md R401). -/
structure CmdError where
  name : ErrName
  sub : Byte
  info : Byte
deriving DecidableEq, Repr

/-- What ERRINFO holds for an error: the sub-cause in 7:0, the info value in 15:8, 0 above (10_state.md R33,
60_exceptions.md R401). -/
def CmdError.errinfo (e : CmdError) : Word32 := 0#16 ++ e.info ++ e.sub

end Sys2Proof.Machine
end

