-- ==== Sys2Proof/Machine/Ops.lean ====
section
/-! DEFINITION. The operations every command is made of (00_scope.md R10): reading and writing BUF, the range
checks, the entropy draw, completion, and raising an error with its acknowledgement beside it. -/

namespace Sys2Proof.Machine

/-! ## BUF (20_memory.md R70) -/

/-- The byte a list of cells holds at an offset, if it lists one. -/
def cellAt : List Host.Cell → Nat → Option Byte
  | [], _ => none
  | (k, b) :: r, a => if k = a then some b else cellAt r a

/-- The list with the cell at an offset set, the offsets still rising. -/
def setCell : List Host.Cell → Nat → Byte → List Host.Cell
  | [], a, b => [(a, b)]
  | (k, c) :: r, a, b =>
    if a < k then (a, b) :: (k, c) :: r
    else if a = k then (a, b) :: r
    else (k, c) :: setCell r a b

/-- BUF[a]: the byte written there since the last power-on reset, or the unspecified value the byte has held since
(20_memory.md R70). What an unlisted offset reads as is the free value Config.bufByte (log 4). -/
def Memory.read (m : Memory) (a : Nat) : Byte := (cellAt m.cells a).getD (Config.bufByte m.era a)

/-- BUF[a] <- b. -/
def Memory.write (m : Memory) (a : Nat) (b : Byte) : Memory := { m with cells := setCell m.cells a b }

/-- BUF[a..a+n). -/
def Memory.readN (m : Memory) (a : Nat) : (n : Nat) → List Byte
  | 0 => []
  | n + 1 => m.read a :: m.readN (a + 1) n

/-- BUF[a..a+|s|) <- s. -/
def Memory.writeN (m : Memory) (a : Nat) : List Byte → Memory
  | [] => m
  | b :: s => (m.write a b).writeN (a + 1) s

/-- The offsets rise strictly, from `lo` on. -/
def risingFrom : (lo : Nat) → List Host.Cell → Bool
  | _, [] => true
  | lo, (k, _) :: r => decide (lo ≤ k) && risingFrom (k + 1) r

/-- The canonical form: strictly rising offsets. An unlisted offset has no byte of its own, so no listed cell says
what an unlisted one would, and every write is listed. -/
def Memory.wf (m : Memory) : Bool := risingFrom 0 m.cells

/-! ## Reading and writing BUF from a command -/

/-- MemRead(a, n): from the snapshot taken at acceptance (00_scope.md R10, 20_memory.md R76). -/
def State.memRead (s : State) (a n : Nat) : List Byte := s.inBuf.readN a n

/-- The bytes that end up in BUF[a..a+|s|) when the command writes `s` there: at an offset the host wrote while the
command was BUSY, either the host's byte or the command's (70_reset_and_hazards.md R460). -/
def mergeHost (m : Memory) (hostWrote : List Nat) (draw : Nat) : (a : Nat) → List Byte → List Byte
  | _, [] => []
  | a, b :: s =>
    (if hostWrote.contains a && Config.hostWins draw a then m.read a else b) ::
      mergeHost m hostWrote draw (a + 1) s

/-- MemWrite(a, |bytes|, bytes) (00_scope.md R10). -/
def State.memWrite (s : State) (a : Nat) (bytes : List Byte) : State :=
  { s with
    buf := s.buf.writeN a (mergeHost s.buf s.hostWrote s.free a bytes)
    free := if s.hostWrote.isEmpty then s.free else s.free + 1 }

/-! ## Range checks (20_memory.md R77), on unbounded integers -/

/-- DST + MAXOUT <= BUF_BYTES, or BUFFER_RANGE sub-cause 2. -/
def State.dstCheck (s : State) (maxOut : Nat) : Option CmdError :=
  if s.dst + maxOut ≤ s.build.bufBytes then none else some ⟨.bufferRange, 2#8, 0#8⟩

/-- SRC + LEN <= BUF_BYTES, or BUFFER_RANGE sub-cause 1; then the check of DST. -/
def State.rangeCheck (s : State) (maxOut : Nat) : Option CmdError :=
  if s.src + s.len ≤ s.build.bufBytes then s.dstCheck maxOut else some ⟨.bufferRange, 1#8, 0#8⟩

/-! ## Entropy (00_scope.md R13) -/

/-- The first `n` bytes of an answer, with free bytes where it has fewer. -/
def answerBytes (bytes : List Byte) (draw n : Nat) : List Byte :=
  bytes.take n ++ (List.range (n - bytes.length)).map (Config.freeByte draw)

/-- draw_ent(n): the bytes drawn, or none where the draw fails, and the state after the draw. Where no answer has
been supplied, the answer is a free value (log 10). -/
def State.drawEnt (s : State) (n : Nat) : Option (List Byte) × State :=
  match s.ent with
  | .fail :: rest => (none, { s with ent := rest })
  | .ok bytes :: rest => (some (answerBytes bytes s.free n), { s with ent := rest, free := s.free + 1 })
  | [] =>
    (if Config.entropyFails s.free then none else some (answerBytes [] s.free n), { s with free := s.free + 1 })

/-! ## Completion (60_exceptions.md R400) -/

/-- The writes of complete(outlen) for a command word whose OP field is `op`. -/
def State.completed (s : State) (op : Byte) (outlen : Nat) : State :=
  { s with
    running := none
    err := false
    errcode := 0x00#8
    lastop := op
    errinfo := 0#32
    outlen := BitVec.ofNat 32 outlen
    intStatus := s.intStatus ||| intDone }

/-- complete(outlen): the command ends successfully. -/
def State.complete (s : State) (op : Byte) (outlen : Nat) : Res := .next (s.completed op outlen)

/-! ## Errors: taking the exception (60_exceptions.md R401, R409) and acknowledging it (R410) -/

/-- The writes of raise E(sub-cause, info) for a command word whose OP field is `op`. There is no vector, no saved pc
and no mode: these writes are the whole of the entry (R409). What the command wrote before stays. -/
def State.raised (s : State) (op : Byte) (e : CmdError) : State :=
  { s with
    running := none
    err := true
    errcode := e.name.code
    lastop := op
    errinfo := e.errinfo
    outlen := 0#32
    intStatus := s.intStatus ||| intDone ||| intErr }

/-- raise E(sub-cause, info): the command ends with the error. -/
def State.raise (s : State) (op : Byte) (e : CmdError) : Res := .next (s.raised op e)

/-- The host's acknowledgement, the only "return" there is (60_exceptions.md R410): writing 1 to a bit of INT_STATUS
clears it, writing 0 leaves it (10_state.md R31). -/
def State.ackInt (s : State) (w : Word32) : State :=
  { s with intStatus := s.intStatus &&& ~~~(w.extractLsb' 0 3) }

/-! ## Writes to single registers -/

/-- reg[GF_RES] <- v (10_state.md R37). -/
def State.setGfRes (s : State) (v : Word32) : State := { s with gfRes := v }

/-- Writes ALGI, CTX and STR. -/
def State.setSession (s : State) (x : Session) : State := { s with session := x }

end Sys2Proof.Machine
end

