-- ==== Sys2Proof/Machine/Gf.lean ====
section
/-! DEFINITION. GF(2^n) arithmetic, the two S-boxes, and the commands GF_MUL, GF_CUBE, SBOX1, SBOX2
(40_gf_arith.md). -/

namespace Sys2Proof.Machine

/-! ## Functions -/

/-- The next multiplicand of gf_mul: a << 1, reduced where it has reached 2^n (40_gf_arith.md R132). -/
def gfShift (a m n : Nat) : Nat := if 2 ^ n ≤ 2 * a then (2 * a) ^^^ m else 2 * a

/-- The loop of gf_mul (40_gf_arith.md R132). Every round halves `b`, so `fuel` rounds end it for b < 2^fuel. -/
def gfMulLoop (m n : Nat) : (fuel a b p : Nat) → Nat
  | 0, _, _, p => p
  | fuel + 1, a, b, p =>
    if b = 0 then p
    else gfMulLoop m n fuel (gfShift a m n) (b / 2) (if b % 2 = 1 then p ^^^ a else p)

/-- gf_mul(a, b, m, n), on unbounded integers (40_gf_arith.md R132). The loop runs as long as `b` has bits (log 23). -/
def gfMul (a b m n : Nat) : Nat := gfMulLoop m n (b.log2 + 1) a b 0

/-- gf_cube(x, m, n): the square is the first argument (40_gf_arith.md R133). -/
def gfCube (x m n : Nat) : Nat := gfMul (gfMul x x m n) x m n

/-- S1 (40_gf_arith.md R135). -/
def sboxS1 (x : BitVec 13) : Byte := BitVec.ofNat 8 (gfCube (x ^^^ 0x1FFF#13).toNat 0x2911 13)

/-- S2, for a build's S2_MODULUS (40_gf_arith.md R135, 90_conflicts.md C1). -/
def sboxS2 (s2Modulus : Nat) (x : BitVec 11) : Byte :=
  BitVec.ofNat 8 (gfCube (x ^^^ 0x7FF#11).toNat s2Modulus 11)

/-! ## Commands -/

/-- n = GF_CFG.WIDTH (10_state.md R36). -/
def State.gfWidth (s : State) : Nat := s.opnd.gfCfg.toNat

/-- The check of GF_MUL and GF_CUBE: WIDTH is 1 to 16, or GF_WIDTH (40_gf_arith.md R136). -/
def State.gfWidthCheck (s : State) : Option CmdError :=
  if 1 ≤ s.gfWidth ∧ s.gfWidth ≤ 16 then none else some ⟨.gfWidth, 1#8, BitVec.ofNat 8 s.gfWidth⟩

/-- What GF_MUL computes (40_gf_arith.md R136): operands masked to n bits, the result modulo 2^32. -/
def gfMulResult (a : Args) : Word32 :=
  let n := a.gfCfg.toNat
  BitVec.ofNat 32 (gfMul (a.gfA.toNat % 2 ^ n) (a.gfB.toNat % 2 ^ n) a.gfMod.toNat n)

/-- What GF_CUBE computes (40_gf_arith.md R137). -/
def gfCubeResult (a : Args) : Word32 :=
  let n := a.gfCfg.toNat
  BitVec.ofNat 32 (gfCube (a.gfA.toNat % 2 ^ n) a.gfMod.toNat n)

/-- GF_MUL (40_gf_arith.md R136). -/
def execGfMul (s : State) : Res :=
  match s.gfWidthCheck with
  | some e => s.raise 0x20#8 e
  | none => (s.setGfRes (gfMulResult s.opnd)).complete 0x20#8 0

/-- GF_CUBE (40_gf_arith.md R137). -/
def execGfCube (s : State) : Res :=
  match s.gfWidthCheck with
  | some e => s.raise 0x21#8 e
  | none => (s.setGfRes (gfCubeResult s.opnd)).complete 0x21#8 0

/-- SBOX1 (40_gf_arith.md R138). -/
def execSbox1 (s : State) : Res :=
  (s.setGfRes ((sboxS1 (s.opnd.gfA.extractLsb' 0 13)).setWidth 32)).complete 0x22#8 0

/-- SBOX2 (40_gf_arith.md R139). -/
def execSbox2 (s : State) : Res :=
  (s.setGfRes ((sboxS2 s.build.s2Modulus (s.opnd.gfA.extractLsb' 0 11)).setWidth 32)).complete 0x23#8 0

end Sys2Proof.Machine
end

