-- ==== Sys2Proof/Machine/Feistel.lean ====
section
/-! DEFINITION. The Feistel cipher: the round function f, the key schedule, encryption and decryption
(41_feistel.md). The OPEN parameters are an argument, FeParams. -/

namespace Sys2Proof.Machine

/-- The parameters of the Feistel cipher (00_scope.md R5): the tables E and P, the addition, the S2 modulus. -/
structure FeParams where
  expansion : Vector (Fin 64) 96
  permutation : Equiv.Perm (Fin 64)
  add : FeAdd
  s2Modulus : Nat

/-- FE_E_TABLE of REF (41_feistel.md R168): eight windows of bit numbers counting down modulo 64. -/
def refExpansion : Vector (Fin 64) 96 :=
  #v[4, 3, 2, 1, 0, 63, 62, 61, 60, 59, 58, 57, 56,
     58, 57, 56, 55, 54, 53, 52, 51, 50, 49, 48,
     52, 51, 50, 49, 48, 47, 46, 45, 44, 43, 42, 41, 40,
     42, 41, 40, 39, 38, 37, 36, 35, 34, 33, 32,
     36, 35, 34, 33, 32, 31, 30, 29, 28, 27, 26, 25, 24,
     28, 27, 26, 25, 24, 23, 22, 21, 20, 19, 18,
     20, 19, 18, 17, 16, 15, 14, 13, 12, 11, 10, 9, 8,
     10, 9, 8, 7, 6, 5, 4, 3, 2, 1, 0]

/-- FE_P_TABLE of REF (41_feistel.md R168): the byte transpose P[j] = 8 * (7 - j mod 8) + j / 8. -/
def refPermutation : Equiv.Perm (Fin 64) where
  toFun j := ⟨8 * (7 - j.val % 8) + j.val / 8, by omega⟩
  invFun k := ⟨8 * (k.val % 8) + (7 - k.val / 8), by omega⟩
  left_inv j := by ext; simp only; omega
  right_inv k := by ext; simp only; omega

/-- The Feistel parameters of a build: REF's tables in a REF build, the OPEN ones else (00_scope.md R5, R6). -/
def Build.fe (b : Build) : FeParams where
  expansion := match b.tables with
    | .ref => refExpansion
    | .other => Config.feExpansion
  permutation := match b.tables with
    | .ref => refPermutation
    | .other => Config.fePermutation
  add := b.feAdd
  s2Modulus := b.s2Modulus

/-! ## Additive steps (41_feistel.md R161) -/

/-- fe_add(x, y). -/
def feAdd (m : FeAdd) (x y : Word64) : Word64 :=
  match m with
  | .carry64 => x + y
  | .bytewise => BitVec.ofNat 64 (beNat (addb (toBe 8 x.toNat) (toBe 8 y.toNat)))

/-- fe_sub(x, y). -/
def feSub (m : FeAdd) (x y : Word64) : Word64 :=
  match m with
  | .carry64 => x - y
  | .bytewise => BitVec.ofNat 64 (beNat (subb (toBe 8 x.toNat) (toBe 8 y.toNat)))

/-! ## The round function -/

/-- KP(A, B): bits j of the two halves of A are swapped exactly where bit j of B is 1 (41_feistel.md R162). -/
def feKP (a b : Word64) : Word64 :=
  let al : BitVec 32 := a.extractLsb' 32 32
  let ar : BitVec 32 := a.extractLsb' 0 32
  let k : BitVec 32 := b.extractLsb' 0 32
  ((al &&& ~~~k) ||| (ar &&& k)) ++ ((ar &&& ~~~k) ||| (al &&& k))

/-- E(x): output bit 95 - j is x[FE_E_TABLE[j]] (41_feistel.md R163). -/
def feE (p : FeParams) (x : Word64) : BitVec 96 :=
  BitVec.ofNat 96 (natOfBits (p.expansion.toList.map fun k => x.getLsbD k.val))

/-- A selector of an S-box layer (41_feistel.md R164). -/
inductive SboxSel where
  | s1
  | s2
deriving DecidableEq, Repr

/-- The input width of a box (41_feistel.md R164). -/
def SboxSel.width : SboxSel → Nat
  | .s1 => 13
  | .s2 => 11

/-- The box a selector names, on an input below 2^width (40_gf_arith.md R135). -/
def SboxSel.apply (s2Modulus : Nat) : SboxSel → Nat → Byte
  | .s1, v => sboxS1 (BitVec.ofNat 13 v)
  | .s2, v => sboxS2 s2Modulus (BitVec.ofNat 11 v)

/-- FE_SA_SEQ (41_feistel.md R164). -/
def feSaSeq : List SboxSel := [.s1, .s2, .s1, .s2, .s1, .s2, .s1, .s2]

/-- FE_SB_SEQ (41_feistel.md R164). -/
def feSbSeq : List SboxSel := [.s1, .s2, .s1, .s2, .s1, .s2, .s1, .s2]

/-- The boxes of the unkeyed layer on the `pos` low bits of `e`, fields taken from the top (41_feistel.md R165). -/
def saBoxes (s2Modulus : Nat) (e : Nat) : (seq : List SboxSel) → (pos : Nat) → List Byte
  | [], _ => []
  | box :: seq, pos =>
    let pos' := pos - box.width
    box.apply s2Modulus ((e / 2 ^ pos') % 2 ^ box.width) :: saBoxes s2Modulus e seq pos'

/-- Sa(e): box 0's output is the top byte (41_feistel.md R165). -/
def feSa (p : FeParams) (e : BitVec 96) : Word64 :=
  BitVec.ofNat 64 (beNat (saBoxes p.s2Modulus e.toNat feSaSeq 96))

/-- The boxes of the keyed layer on the data bytes `ys` and the `kpos` low bits of the key word `kh`: box k's input
is the next width - 8 key bits above its data byte (41_feistel.md R166). -/
def sbBoxes (s2Modulus : Nat) (kh : Nat) : (seq : List SboxSel) → (kpos : Nat) → (ys : List Byte) → List Byte
  | box :: seq, kpos, y :: ys =>
    let kpos' := kpos - (box.width - 8)
    let kb := (kh / 2 ^ kpos') % 2 ^ (box.width - 8)
    box.apply s2Modulus (256 * kb + y.toNat) :: sbBoxes s2Modulus kh seq kpos' ys
  | _, _, _ => []

/-- Sb(y, B): the key is B[63:32] (41_feistel.md R166). -/
def feSb (p : FeParams) (y b : Word64) : Word64 :=
  BitVec.ofNat 64 (beNat (sbBoxes p.s2Modulus (b.toNat / 2 ^ 32) feSbSeq 32 (toBe 8 y.toNat)))

/-- P(x): output bit 63 - j is x[FE_P_TABLE[j]] (41_feistel.md R167). -/
def feP (p : FeParams) (x : Word64) : Word64 :=
  BitVec.ofNat 64 (natOfBits ((List.finRange 64).map fun j => x.getLsbD (p.permutation j).val))

/-- f(A, B) = P(Sb(Sa(E(KP(A, B))), B)) (41_feistel.md R169). -/
def feF (p : FeParams) (a b : Word64) : Word64 := feP p (feSb p (feSa p (feE p (feKP a b))) b)

/-! ## Key schedule -/

/-- D_i = (0x9E3779B9 * i) mod 2^64 (41_feistel.md R170). -/
def feDelta (i : Nat) : Word64 := BitVec.ofNat 64 (0x9E3779B9 * i)

/-- g(K1, K3, K2, i) (41_feistel.md R170). -/
def feG (p : FeParams) (k1 k3 k2 : Word64) (i : Nat) : Word64 :=
  feF p (feAdd p.add (feAdd p.add k1 k3) (feDelta i)) k2

/-- `n` subkeys from index `i` on, the four key registers rotating (41_feistel.md R172). -/
def feSubkeys (p : FeParams) : (n i : Nat) → (k1 k2 k3 k4 : Word64) → List Word64
  | 0, _, _, _, _, _ => []
  | n + 1, i, k1, k2, k3, k4 => (k1 ^^^ feG p k1 k3 k2 i) :: feSubkeys p n (i + 1) k4 k1 k2 k3

/-- sched[0..47] of a 16-byte key: K1 = f(Ka, Kb), K2 = f(Kb, Ka), K3 = Kb, K4 = Ka (41_feistel.md R160, R171,
R172). -/
def feSchedule (p : FeParams) (key : List Byte) : List Word64 :=
  let ka : Word64 := BitVec.ofNat 64 (beNat (key.take 8))
  let kb : Word64 := BitVec.ofNat 64 (beNat (key.drop 8))
  feSubkeys p 48 0 (feF p ka kb) (feF p kb ka) kb ka

/-- fe_setkey(key): the schedule, or INVALID_KEY_SIZE where the key is not 16 bytes (41_feistel.md R173). -/
def feSetkey (p : FeParams) (key : List Byte) : Except CmdError (List Word64) :=
  if key.length = 16 then .ok (feSchedule p key)
  else .error ⟨.invalidKeySize, 2#8, BitVec.ofNat 8 key.length⟩

/-! ## Encryption and decryption -/

/-- SK1_i, SK2_i, SK3_i: the subkeys at 3i, 3i - 1 and 3i - 2, modulo 48 (41_feistel.md R174). -/
def feRoundKeys (sched : List Word64) (i : Nat) : Word64 × Word64 × Word64 :=
  (sched.getD (3 * i % 48) 0, sched.getD ((3 * i - 1) % 48) 0, sched.getD ((3 * i - 2) % 48) 0)

/-- Round i of the encryption, on (L, R) (41_feistel.md R175). -/
def feEncRound (p : FeParams) (sched : List Word64) (lr : Word64 × Word64) (i : Nat) : Word64 × Word64 :=
  let sk := feRoundKeys sched i
  let t := feAdd p.add lr.2 sk.1
  (feAdd p.add t sk.2.2, lr.1 ^^^ feF p t sk.2.1)

/-- Round i of the decryption, on (L, R) (41_feistel.md R176). -/
def feDecRound (p : FeParams) (sched : List Word64) (lr : Word64 × Word64) (i : Nat) : Word64 × Word64 :=
  let sk := feRoundKeys sched i
  let t := feSub p.add lr.1 sk.2.2
  (lr.2 ^^^ feF p t sk.2.1, feSub p.add t sk.1)

/-- fe_encrypt(blk): rounds 1 to 16, output R then L (41_feistel.md R160, R175). -/
def feEncrypt (p : FeParams) (sched : List Word64) (blk : List Byte) : List Byte :=
  let l : Word64 := BitVec.ofNat 64 (beNat (blk.take 8))
  let r : Word64 := BitVec.ofNat 64 (beNat (blk.drop 8))
  let lr := (List.range' 1 16).foldl (feEncRound p sched) (l, r)
  toBe 8 lr.2.toNat ++ toBe 8 lr.1.toNat

/-- fe_decrypt(blk): rounds 16 down to 1, input R then L, output L then R (41_feistel.md R160, R176). -/
def feDecrypt (p : FeParams) (sched : List Word64) (blk : List Byte) : List Byte :=
  let r : Word64 := BitVec.ofNat 64 (beNat (blk.take 8))
  let l : Word64 := BitVec.ofNat 64 (beNat (blk.drop 8))
  let lr := (List.range' 1 16).reverse.foldl (feDecRound p sched) (l, r)
  toBe 8 lr.1.toNat ++ toBe 8 lr.2.toNat

end Sys2Proof.Machine
end

