-- ==== Sys2Proof/Machine/Rc5.lean ====
section
/-! DEFINITION. The RC5-family cipher: key schedule, encryption, decryption, for words of 16, 32 or 64 bits
(42_rc5.md). A schedule is kept as 64-bit entries (ALGI.sched, 10_state.md R44) of which the low w bits count. -/

namespace Sys2Proof.Machine

/-- An RC5 word of w bits. -/
abbrev Rc5Word (w : WordSize) := BitVec w.bits

/-- Pw (42_rc5.md R202). -/
def rc5P : WordSize → Nat
  | .w16 => 0xB7E1
  | .w32 => 0xB7E15163
  | .w64 => 0xB7E151628AED2A6B

/-- Qw (42_rc5.md R202). -/
def rc5Q : WordSize → Nat
  | .w16 => 0x9E37
  | .w32 => 0x9E3779B9
  | .w64 => 0x9E3779B97F4A7C15

/-- le_w(s) (42_rc5.md R201). -/
def rc5Word (w : WordSize) (s : List Byte) : Rc5Word w := BitVec.ofNat w.bits (leNat s)

/-! ## Key schedule -/

/-- t = 2 * (r + 1), the number of schedule words (42_rc5.md R204). -/
def rc5T (r : Nat) : Nat := 2 * (r + 1)

/-- c = ceil(b / u), the number of key words (42_rc5.md R203). -/
def rc5C (w : WordSize) (key : List Byte) : Nat := (key.length + w.bytes - 1) / w.bytes

/-- L[0..c-1]: the key packed little-endian, the last word filled up with 0 (42_rc5.md R203). -/
def rc5L (w : WordSize) (key : List Byte) : List (Rc5Word w) :=
  (blocks w.bytes (rc5C w key) key).map (rc5Word w)

/-- `n` words from `cur` on, each Qw more than the one before. -/
def rc5Arith (w : WordSize) : (n : Nat) → (cur : Rc5Word w) → List (Rc5Word w)
  | 0, _ => []
  | n + 1, cur => cur :: rc5Arith w n (cur + BitVec.ofNat w.bits (rc5Q w))

/-- The initial S[0..t-1]: S[0] = Pw, S[i] = S[i-1] + Qw (42_rc5.md R204). -/
def rc5S0 (w : WordSize) (t : Nat) : List (Rc5Word w) := rc5Arith w t (BitVec.ofNat w.bits (rc5P w))

/-- The variables of the mixing loop (42_rc5.md R205). -/
structure Rc5Mix (w : WordSize) where
  s : List (Rc5Word w)
  l : List (Rc5Word w)
  a : Rc5Word w
  b : Rc5Word w
  i : Nat
  j : Nat

/-- One round of the mixing loop (42_rc5.md R205). -/
def rc5MixStep (w : WordSize) (t c : Nat) (m : Rc5Mix w) : Rc5Mix w :=
  let a := (m.s.getD m.i 0 + m.a + m.b).rotateLeft 3
  let b := (m.l.getD m.j 0 + a + m.b).rotateLeft ((a + m.b).toNat % w.bits)
  { s := m.s.set m.i a, l := m.l.set m.j b, a := a, b := b, i := (m.i + 1) % t, j := (m.j + 1) % c }

/-- `n` rounds of the mixing loop. -/
def rc5MixLoop (w : WordSize) (t c : Nat) : (n : Nat) → Rc5Mix w → Rc5Mix w
  | 0, m => m
  | n + 1, m => rc5MixLoop w t c n (rc5MixStep w t c m)

/-- N, the number of mixing rounds (42_rc5.md R205, RC5_MIX_RULE). -/
def rc5MixCount (rule : MixRule) (r c : Nat) : Nat :=
  match rule with
  | .doc => 3 * max r c
  | .standard => 3 * max (rc5T r) c

/-- The expanded key array S[0..t-1] of a key (42_rc5.md R203 to R205). -/
def rc5Schedule (rule : MixRule) (r : Nat) (w : WordSize) (key : List Byte) : List (Rc5Word w) :=
  let t := rc5T r
  let c := rc5C w key
  (rc5MixLoop w t c (rc5MixCount rule r c) ⟨rc5S0 w t, rc5L w key, 0, 0, 0, 0⟩).s

/-- rc5_setkey(key, w): the schedule, or INVALID_KEY_SIZE where the key is empty (42_rc5.md R205). -/
def rc5Setkey (rule : MixRule) (r : Nat) (w : WordSize) (key : List Byte) : Except CmdError (List Word64) :=
  if key.length = 0 then .error ⟨.invalidKeySize, 3#8, 0#8⟩
  else .ok ((rc5Schedule rule r w key).map (BitVec.setWidth 64))

/-! ## Encryption and decryption -/

/-- S[k] of a kept schedule. -/
def rc5Sub (w : WordSize) (sched : List Word64) (k : Nat) : Rc5Word w := (sched.getD k 0).setWidth w.bits

/-- Round i of the encryption, on (A, B) (42_rc5.md R206). -/
def rc5EncRound (w : WordSize) (sched : List Word64) (ab : Rc5Word w × Rc5Word w) (i : Nat) :
    Rc5Word w × Rc5Word w :=
  let a := (ab.1 ^^^ ab.2).rotateLeft (ab.2.toNat % w.bits) + rc5Sub w sched (2 * i)
  let b := (ab.2 ^^^ a).rotateLeft (a.toNat % w.bits) + rc5Sub w sched (2 * i + 1)
  (a, b)

/-- Round i of the decryption, on (A, B) (42_rc5.md R207). -/
def rc5DecRound (w : WordSize) (sched : List Word64) (ab : Rc5Word w × Rc5Word w) (i : Nat) :
    Rc5Word w × Rc5Word w :=
  let b := (ab.2 - rc5Sub w sched (2 * i + 1)).rotateRight (ab.1.toNat % w.bits) ^^^ ab.1
  let a := (ab.1 - rc5Sub w sched (2 * i)).rotateRight (b.toNat % w.bits) ^^^ b
  (a, b)

/-- rc5_encrypt(blk) with `r` rounds (42_rc5.md R201, R206). -/
def rc5Encrypt (r : Nat) (w : WordSize) (sched : List Word64) (blk : List Byte) : List Byte :=
  let a := rc5Word w (blk.take w.bytes) + rc5Sub w sched 0
  let b := rc5Word w (blk.drop w.bytes) + rc5Sub w sched 1
  let ab := (List.range' 1 r).foldl (rc5EncRound w sched) (a, b)
  toLe w.bytes ab.1.toNat ++ toLe w.bytes ab.2.toNat

/-- rc5_decrypt(blk) with `r` rounds (42_rc5.md R201, R207). -/
def rc5Decrypt (r : Nat) (w : WordSize) (sched : List Word64) (blk : List Byte) : List Byte :=
  let a := rc5Word w (blk.take w.bytes)
  let b := rc5Word w (blk.drop w.bytes)
  let ab := (List.range' 1 r).reverse.foldl (rc5DecRound w sched) (a, b)
  let b' := ab.2 - rc5Sub w sched 1
  let a' := ab.1 - rc5Sub w sched 0
  toLe w.bytes a'.toNat ++ toLe w.bytes b'.toNat

end Sys2Proof.Machine
end

