-- ==== Sys2Proof/Machine/Sp.lean ====
section
/-! DEFINITION. The substitution-diffusion (SP) cipher: its shape, with the OPEN functions SP_KS, SP_SUB and SP_DIF
as an argument, SpParams; and the reference functions (43_sp_cipher.md). -/

namespace Sys2Proof.Machine

/-- The OPEN functions of the SP cipher (43_sp_cipher.md R232, R234). -/
structure SpParams where
  /-- H(i). -/
  high : Nat → BitVec 32
  /-- Lo(key, i), of the key bytes cycled modulo the key length. -/
  low : (Nat → Byte) → Nat → BitVec 32
  /-- SP_SUB with SP_SUB_INV. -/
  sub : Equiv.Perm Word64
  /-- SP_DIF with SP_DIF_INV. -/
  dif : Equiv.Perm Word64

/-! ## The reference functions (43_sp_cipher.md R235) -/

/-- SP_SUB_REF: three xorshift steps. -/
def refSubFun (x : Word64) : Word64 :=
  let x := x ^^^ (x <<< 13)
  let x := x ^^^ (x >>> 7)
  x ^^^ (x <<< 17)

/-- What undoes an xorshift by 7 to the right, applied to a word. -/
def unshift7 (x : Word64) : Word64 :=
  x ^^^ (x >>> 7) ^^^ (x >>> 14) ^^^ (x >>> 21) ^^^ (x >>> 28) ^^^ (x >>> 35) ^^^ (x >>> 42) ^^^ (x >>> 49) ^^^
    (x >>> 56) ^^^ (x >>> 63)

/-- The inverse of SP_SUB_REF: the three steps undone in reverse order. -/
def refSubInv (x : Word64) : Word64 :=
  let x := x ^^^ (x <<< 17) ^^^ (x <<< 34) ^^^ (x <<< 51)
  let x := unshift7 x
  x ^^^ (x <<< 13) ^^^ (x <<< 26) ^^^ (x <<< 39) ^^^ (x <<< 52)

/-- SP_DIF_REF. -/
def refDifFun (x : Word64) : Word64 := x ^^^ (x >>> 32)

/-- Shifting left by 64 or more leaves nothing of 64 bits. -/
theorem shl_past (x : Word64) (n : Nat) (h : 64 ≤ n) : x <<< n = 0#64 := BitVec.shiftLeft_eq_zero h

/-- Shifting right by 64 or more leaves nothing of 64 bits. -/
theorem shr_past (x : Word64) (n : Nat) (h : 64 ≤ n) : x >>> n = 0#64 := BitVec.ushiftRight_eq_zero h

/-- XOR, the second argument first. -/
theorem xor_left_swap (a b c : Word64) : a ^^^ (b ^^^ c) = b ^^^ (a ^^^ c) := by
  rw [← BitVec.xor_assoc, BitVec.xor_comm a b, BitVec.xor_assoc]

/-- What undoes an xorshift by 13 to the left undoes it from either side. -/
theorem xorshift13 (x : Word64) :
    (x ^^^ (x <<< 13)) ^^^ ((x ^^^ (x <<< 13)) <<< 13) ^^^ ((x ^^^ (x <<< 13)) <<< 26) ^^^
        ((x ^^^ (x <<< 13)) <<< 39) ^^^ ((x ^^^ (x <<< 13)) <<< 52) = x ∧
      (x ^^^ (x <<< 13) ^^^ (x <<< 26) ^^^ (x <<< 39) ^^^ (x <<< 52)) ^^^
        ((x ^^^ (x <<< 13) ^^^ (x <<< 26) ^^^ (x <<< 39) ^^^ (x <<< 52)) <<< 13) = x := by
  simp only [BitVec.shiftLeft_xor_distrib, ← BitVec.shiftLeft_add, Nat.reduceAdd, shl_past x 65 (by decide)]
  generalize x <<< 13 = a, x <<< 26 = b, x <<< 39 = c, x <<< 52 = d
  simp [BitVec.xor_assoc, BitVec.xor_comm, xor_left_swap]

/-- What undoes an xorshift by 17 to the left undoes it from either side. -/
theorem xorshift17 (x : Word64) :
    (x ^^^ (x <<< 17)) ^^^ ((x ^^^ (x <<< 17)) <<< 17) ^^^ ((x ^^^ (x <<< 17)) <<< 34) ^^^
        ((x ^^^ (x <<< 17)) <<< 51) = x ∧
      (x ^^^ (x <<< 17) ^^^ (x <<< 34) ^^^ (x <<< 51)) ^^^
        ((x ^^^ (x <<< 17) ^^^ (x <<< 34) ^^^ (x <<< 51)) <<< 17) = x := by
  simp only [BitVec.shiftLeft_xor_distrib, ← BitVec.shiftLeft_add, Nat.reduceAdd, shl_past x 68 (by decide)]
  generalize x <<< 17 = a, x <<< 34 = b, x <<< 51 = c
  simp [BitVec.xor_assoc, BitVec.xor_comm, xor_left_swap]

/-- It undoes an xorshift by 7 to the right from either side. -/
theorem xorshift7 (x : Word64) :
    unshift7 (x ^^^ (x >>> 7)) = x ∧ unshift7 x ^^^ (unshift7 x >>> 7) = x := by
  simp only [unshift7, BitVec.ushiftRight_xor_distrib, ← BitVec.shiftRight_add, Nat.reduceAdd,
    shr_past x 70 (by decide)]
  generalize x >>> 7 = a, x >>> 14 = b, x >>> 21 = c, x >>> 28 = d, x >>> 35 = e, x >>> 42 = f, x >>> 49 = g,
    x >>> 56 = h, x >>> 63 = k
  simp [BitVec.xor_assoc, BitVec.xor_comm, xor_left_swap]

/-- SP_SUB of REF with its inverse. -/
def refSub : Equiv.Perm Word64 where
  toFun := refSubFun
  invFun := refSubInv
  left_inv x := by
    simp only [refSubFun, refSubInv, (xorshift17 _).1, (xorshift7 _).1, (xorshift13 _).1]
  right_inv x := by
    simp only [refSubFun, refSubInv, (xorshift17 _).2, (xorshift7 _).2, (xorshift13 _).2]

/-- SP_DIF of REF, its own inverse. -/
def refDif : Equiv.Perm Word64 where
  toFun := refDifFun
  invFun := refDifFun
  left_inv x := by
    simp only [refDifFun, BitVec.ushiftRight_xor_distrib, ← BitVec.shiftRight_add, Nat.reduceAdd,
      shr_past x 64 (by decide), BitVec.xor_zero, BitVec.xor_assoc, BitVec.xor_self]
  right_inv x := by
    simp only [refDifFun, BitVec.ushiftRight_xor_distrib, ← BitVec.shiftRight_add, Nat.reduceAdd,
      shr_past x 64 (by decide), BitVec.xor_zero, BitVec.xor_assoc, BitVec.xor_self]

/-- The reference functions REF (43_sp_cipher.md R235). -/
def refSp : SpParams where
  high i := BitVec.ofNat 32 i
  low k i := k (4 * i) ++ k (4 * i + 1) ++ k (4 * i + 2) ++ k (4 * i + 3)
  sub := refSub
  dif := refDif

/-- The OPEN functions of a build that is not REF (00_scope.md R5). -/
def otherSp : SpParams where
  high := Config.spHigh
  low := Config.spLow
  sub := Config.spSub
  dif := Config.spDif

/-- The SP functions of a build (00_scope.md R5, R6). -/
def Build.sp (b : Build) : SpParams :=
  match b.tables with
  | .ref => refSp
  | .other => otherSp

/-! ## Key schedule -/

/-- key[k mod n], the key bytes cycled modulo the key length (43_sp_cipher.md R232). -/
def cycledKey (key : List Byte) (k : Nat) : Byte := key.getD (k % key.length) 0

/-- ks[i] = (H(i) << 32) | Lo(key, i) (43_sp_cipher.md R232). -/
def spSubkey (p : SpParams) (key : List Byte) (i : Nat) : Word64 := p.high i ++ p.low (cycledKey key) i

/-- ks[0..25] (43_sp_cipher.md R231, R232). -/
def spSchedule (p : SpParams) (key : List Byte) : List Word64 := (List.range 26).map (spSubkey p key)

/-- sp_setkey(key): the schedule, or INVALID_KEY_SIZE where the key is empty (43_sp_cipher.md R233). -/
def spSetkey (p : SpParams) (key : List Byte) : Except CmdError (List Word64) :=
  if key.length = 0 then .error ⟨.invalidKeySize, 3#8, 0#8⟩ else .ok (spSchedule p key)

/-! ## Encryption and decryption -/

/-- Round r of the encryption, on (A, B): A first, then B with the new A (43_sp_cipher.md R236). -/
def spEncRound (p : SpParams) (ks : List Word64) (ab : Word64 × Word64) (r : Nat) : Word64 × Word64 :=
  let a := p.dif (p.sub (ab.1 ^^^ ks.getD (2 * r) 0 ^^^ ab.2))
  let b := p.dif (p.sub (ab.2 ^^^ ks.getD (2 * r + 1) 0 ^^^ a))
  (a, b)

/-- Round r of the decryption, on (A, B): B first, then A with the restored B (43_sp_cipher.md R238). -/
def spDecRound (p : SpParams) (ks : List Word64) (ab : Word64 × Word64) (r : Nat) : Word64 × Word64 :=
  let b := p.sub.symm (p.dif.symm ab.2) ^^^ ks.getD (2 * r + 1) 0 ^^^ ab.1
  let a := p.sub.symm (p.dif.symm ab.1) ^^^ ks.getD (2 * r) 0 ^^^ b
  (a, b)

/-- sp_encrypt(blk) (43_sp_cipher.md R230, R237). -/
def spEncrypt (p : SpParams) (ks : List Word64) (blk : List Byte) : List Byte :=
  let a := BitVec.ofNat 64 (beNat (blk.take 8)) ^^^ ks.getD 0 0
  let b := BitVec.ofNat 64 (beNat (blk.drop 8)) ^^^ ks.getD 1 0
  let ab := (List.range' 1 12).foldl (spEncRound p ks) (a, b)
  toBe 8 ab.1.toNat ++ toBe 8 ab.2.toNat

/-- sp_decrypt(blk) (43_sp_cipher.md R230, R238). -/
def spDecrypt (p : SpParams) (ks : List Word64) (blk : List Byte) : List Byte :=
  let a : Word64 := BitVec.ofNat 64 (beNat (blk.take 8))
  let b : Word64 := BitVec.ofNat 64 (beNat (blk.drop 8))
  let ab := (List.range' 1 12).reverse.foldl (spDecRound p ks) (a, b)
  let a' := ab.1 ^^^ ks.getD 0 0
  let b' := ab.2 ^^^ ks.getD 1 0
  toBe 8 a'.toNat ++ toBe 8 b'.toNat

end Sys2Proof.Machine
end

