-- ==== Sys2Proof/Machine/Algorithm.lean ====
section
/-! DEFINITION. The algorithm instance as a closed variant over three kinds, and the commands ALG_SETKEY, BLK_ENC,
BLK_DEC and F_EVAL (44_block_commands.md). -/

namespace Sys2Proof.Machine

/-! ## Dispatch (44_block_commands.md R255) -/

/-- SETKEY(alg, w, key). -/
def setkey (b : Build) (k : AlgKind) (key : List Byte) : Except CmdError (List Word64) :=
  match k with
  | .feistel => feSetkey b.fe key
  | .rc5 w => rc5Setkey b.mixRule b.rc5Rounds.val w key
  | .sp => spSetkey b.sp key

/-- The instance SETKEY leaves in ALGI: its kind, the raw key, the schedule (10_state.md R44). -/
def keyAlgi (b : Build) (k : AlgKind) (key : List Byte) : Except CmdError Algi :=
  match setkey b k key with
  | .error e => .error e
  | .ok sched => .ok ⟨k, key, sched⟩

/-- ENC(x). It reads ALGI and never writes it. -/
def algEnc (b : Build) (a : Algi) (x : List Byte) : List Byte :=
  match a.kind with
  | .feistel => feEncrypt b.fe a.sched x
  | .rc5 w => rc5Encrypt b.rc5Rounds.val w a.sched x
  | .sp => spEncrypt b.sp a.sched x

/-- DEC(x). It reads ALGI and never writes it. -/
def algDec (b : Build) (a : Algi) (x : List Byte) : List Byte :=
  match a.kind with
  | .feistel => feDecrypt b.fe a.sched x
  | .rc5 w => rc5Decrypt b.rc5Rounds.val w a.sched x
  | .sp => spDecrypt b.sp a.sched x

/-! ## Configuration tags -/

/-- The word size CFG.RC5W selects; 3 is unsupported (10_state.md R28, 42_rc5.md R200). -/
def wordSizeOf (c : BitVec 2) : Option WordSize :=
  match c.toNat with
  | 0 => some .w16
  | 1 => some .w32
  | 2 => some .w64
  | _ => none

/-- The algorithm CFG selects: UNSUPPORTED_ALG for a tag above 2, then UNSUPPORTED_WORD_SIZE for RC5 with RC5W = 3
(44_block_commands.md R256, 45_context.md R282). -/
def algOf (c : Cfg) : Except CmdError AlgKind :=
  match c.alg.toNat with
  | 0 => .ok .feistel
  | 1 =>
    match wordSizeOf c.rc5w with
    | some w => .ok (.rc5 w)
    | none => .error ⟨.unsupportedWordSize, 1#8, 3#8⟩
  | 2 => .ok .sp
  | n => .error ⟨.unsupportedAlg, 1#8, BitVec.ofNat 8 n⟩

/-! ## ALG_SETKEY (44_block_commands.md R256) -/

/-- What ALG_SETKEY makes of the operands: the keyed instance, or the first error in its order. -/
def algSetkeyPlan (b : Build) (a : Args) : Except CmdError Algi :=
  match algOf a.cfg with
  | .error e => .error e
  | .ok kind =>
    let k := a.keylen.toNat
    if 32 < k then .error ⟨.invalidKeySize, 4#8, BitVec.ofNat 8 k⟩ else keyAlgi b kind (a.keyBytes k)

/-- ALG_SETKEY: it invalidates ALGI and CTX and closes any stream first, whatever follows. -/
def execAlgSetkey (s : State) : Res :=
  let s0 := s.setSession .none
  match algSetkeyPlan s.build s.opnd with
  | .error e => s0.raise 0x03#8 e
  | .ok a => (s0.setSession (.keyed a)).complete 0x03#8 0

/-! ## BLK_ENC and BLK_DEC (44_block_commands.md R258, R259) -/

/-- One block through `f`, the block operation of the keyed instance: NOT_KEYED, then BLOCK_LENGTH, then
BUFFER_RANGE. -/
def blockCommand (op : Byte) (f : Build → Algi → List Byte → List Byte) (s : State) : Res :=
  match s.session.algi with
  | none => s.raise op ⟨.notKeyed, 1#8, 0#8⟩
  | some a =>
    if s.len ≠ a.kind.bs then s.raise op ⟨.blockLength, 1#8, cap255 s.len⟩
    else
      match s.rangeCheck a.kind.bs with
      | some e => s.raise op e
      | none => (s.memWrite s.dst (f s.build a (s.memRead s.src a.kind.bs))).complete op a.kind.bs

/-- BLK_ENC (44_block_commands.md R258). -/
def execBlkEnc (s : State) : Res := blockCommand 0x08#8 algEnc s

/-- BLK_DEC (44_block_commands.md R259). -/
def execBlkDec (s : State) : Res := blockCommand 0x09#8 algDec s

/-! ## F_EVAL (44_block_commands.md R261) -/

/-- f on a 16-byte input: A and B big-endian, the result as eight bytes, big-endian. -/
def fEvalBytes (b : Build) (x : List Byte) : List Byte :=
  toBe 8 (feF b.fe (BitVec.ofNat 64 (beNat (x.take 8))) (BitVec.ofNat 64 (beNat (x.drop 8)))).toNat

/-- F_EVAL: BLOCK_LENGTH sub-cause 2, then BUFFER_RANGE; no key and no context is read. -/
def execFEval (s : State) : Res :=
  if s.len ≠ 16 then s.raise 0x0A#8 ⟨.blockLength, 2#8, cap255 s.len⟩
  else
    match s.rangeCheck 8 with
    | some e => s.raise 0x0A#8 e
    | none => (s.memWrite s.dst (fEvalBytes s.build (s.memRead s.src 16))).complete 0x0A#8 8

end Sys2Proof.Machine
end

