-- ==== Sys2Proof/Machine/Context.lean ====
section
/-! DEFINITION. The context commands NOP, CTX_INIT and CTX_CLEAR (45_context.md). -/

namespace Sys2Proof.Machine

/-- The mode CFG.MODE selects; 7 is unsupported (10_state.md R28). -/
def modeOf (tag : BitVec 3) : Option Mode :=
  match tag.toNat with
  | 0 => some .ecb
  | 1 => some .cbc
  | 2 => some .pcbc
  | 3 => some .cfb
  | 4 => some .ofb
  | 5 => some .ctr
  | 6 => some .randomDelta
  | _ => none

/-- The padding scheme a tag selects, in CFG.PAD or PSEL; 4 to 7 are unsupported (10_state.md R28, 30_encoding.md
R101). -/
def padOf (tag : BitVec 3) : Option PadScheme :=
  match tag.toNat with
  | 0 => some .zeros
  | 1 => some .ansiX923
  | 2 => some .pkcs7
  | 3 => some .iso10126
  | _ => none

/-- The chained modes, those that use the IV (45_context.md R281). -/
def Mode.chained : Mode → Bool
  | .ecb => false
  | .cbc => true
  | .pcbc => true
  | .cfb => true
  | .ofb => true
  | .ctr => true
  | .randomDelta => false

/-- The key-length checks of CTX_INIT: KEYLEN above 32, then KEYLEN not in {16, 24, 32, BS} (45_context.md R282). -/
def ctxKeyCheck (k bs : Nat) : Option CmdError :=
  if 32 < k then some ⟨.invalidKeySize, 4#8, BitVec.ofNat 8 k⟩
  else if k = 16 ∨ k = 24 ∨ k = 32 ∨ k = bs then none
  else some ⟨.invalidKeySize, 1#8, BitVec.ofNat 8 k⟩

/-- CTX.iv of a new context: IV[0..BS) in a chained mode whose IVLEN is BS, else INVALID_IV_SIZE; nothing in another
mode, where IVLEN and the IV window are not read (45_context.md R281, R282). -/
def ctxIv (a : Args) (mode : Mode) (bs : Nat) : Except CmdError (List Byte) :=
  if mode.chained then
    if a.ivlen.toNat = bs then .ok (a.ivBytes bs)
    else .error ⟨.invalidIvSize, 1#8, BitVec.ofNat 8 a.ivlen.toNat⟩
  else .ok []

/-- What CTX_INIT makes of the operands: the instance and the context, or the first error in its order: the tags ALG,
RC5W, MODE, PAD, then BS, the key length, set-key, the IV (45_context.md R282). -/
def ctxInitPlan (b : Build) (a : Args) : Except CmdError (Algi × Ctx) :=
  match algOf a.cfg with
  | .error e => .error e
  | .ok kind =>
    match modeOf a.cfg.mode with
    | none => .error ⟨.unsupportedMode, 1#8, 7#8⟩
    | some mode =>
      match padOf a.cfg.pad with
      | none => .error ⟨.unsupportedPadding, 1#8, a.cfg.pad.setWidth 8⟩
      | some pad =>
        if a.cfg.bs.toNat ≠ kind.bs then .error ⟨.invalidBlockSize, 1#8, a.cfg.bs⟩
        else
          match ctxKeyCheck a.keylen.toNat kind.bs with
          | some e => .error e
          | none =>
            match keyAlgi b kind (a.keyBytes a.keylen.toNat) with
            | .error e => .error e
            | .ok alg =>
              match ctxIv a mode kind.bs with
              | .error e => .error e
              | .ok iv => .ok (alg, ⟨mode, pad, iv⟩)

/-- NOP (45_context.md R280). -/
def execNop (s : State) : Res := s.complete 0x00#8 0

/-- CTX_INIT: it invalidates ALGI and CTX and closes any stream first, whatever follows (45_context.md R282). -/
def execCtxInit (s : State) : Res :=
  let s0 := s.setSession .none
  match ctxInitPlan s.build s.opnd with
  | .error e => s0.raise 0x01#8 e
  | .ok (a, c) => (s0.setSession (.context a c .idle)).complete 0x01#8 0

/-- CTX_CLEAR: no context is no error (45_context.md R284). -/
def execCtxClear (s : State) : Res := (s.setSession .none).complete 0x02#8 0

end Sys2Proof.Machine
end

