-- ==== Sys2Proof/Machine/Padding.lean ====
section
/-! DEFINITION. Padding: pad and unpad, and the commands PAD and UNPAD (46_padding.md). -/

namespace Sys2Proof.Machine

/-! ## Functions -/

/-- padlen(L, bs) = bs - (L mod bs) (46_padding.md R300). -/
def padLen (l bs : Nat) : Nat := bs - l % bs

/-- The bytes pad appends, `n` of them: `fill` is the drawn fill of ISO10126 (46_padding.md R301). -/
def padTail (scheme : PadScheme) (n : Nat) (fill : List Byte) : List Byte :=
  match scheme with
  | .zeros => List.replicate n 0#8
  | .ansiX923 => List.replicate (n - 1) 0#8 ++ [BitVec.ofNat 8 n]
  | .pkcs7 => List.replicate n (BitVec.ofNat 8 n)
  | .iso10126 => fill ++ [BitVec.ofNat 8 n]

/-- The fill of `n` bytes of padding and the state after it: one draw of n - 1 bytes for ISO10126, not made where
n = 1; no other scheme draws. None where the draw fails (46_padding.md R301). -/
def State.drawFill (s : State) (scheme : PadScheme) (n : Nat) : Option (List Byte) × State :=
  match scheme with
  | .iso10126 => if n ≤ 1 then (some [], s) else s.drawEnt (n - 1)
  | .zeros => (some [], s)
  | .ansiX923 => (some [], s)
  | .pkcs7 => (some [], s)

/-- pad(data, bs, scheme), with the state after its draw; none where the draw fails (46_padding.md R301). -/
def State.pad (s : State) (data : List Byte) (bs : Nat) (scheme : PadScheme) : Option (List Byte) × State :=
  let n := padLen data.length bs
  match s.drawFill scheme n with
  | (none, s') => (none, s')
  | (some fill, s') => (some (data ++ padTail scheme n fill), s')

/-- The error of a failed fill (46_padding.md R301). -/
def fillFailure : CmdError := ⟨.entropyFailure, 1#8, 0#8⟩

/-- The data without its trailing zero bytes (46_padding.md R302, ZEROS; R304). -/
def stripZeros (data : List Byte) : List Byte := (data.reverse.dropWhile (· == 0#8)).reverse

/-- The pad length byte, checked: not of an empty buffer, not 0, not above the buffer length (46_padding.md R302). -/
def lastByteChecked (data : List Byte) : Except CmdError Nat :=
  match data.getLast? with
  | none => .error ⟨.paddingError, 1#8, 0#8⟩
  | some n =>
    if n = 0#8 then .error ⟨.paddingError, 2#8, 0#8⟩
    else if data.length < n.toNat then .error ⟨.paddingError, 3#8, n⟩
    else .ok n.toNat

/-- unpad(data, scheme) (46_padding.md R302). -/
def unpad (scheme : PadScheme) (data : List Byte) : Except CmdError (List Byte) :=
  match scheme with
  | .zeros => .ok (stripZeros data)
  | .ansiX923 | .iso10126 =>
    match lastByteChecked data with
    | .error e => .error e
    | .ok n => .ok (data.take (data.length - n))
  | .pkcs7 =>
    match lastByteChecked data with
    | .error e => .error e
    | .ok n =>
      if (data.drop (data.length - n)).all (· == BitVec.ofNat 8 n) then .ok (data.take (data.length - n))
      else .error ⟨.paddingError, 4#8, BitVec.ofNat 8 n⟩

/-! ## Commands -/

/-- The error of a PSEL that names no scheme (46_padding.md R306, R307; 30_encoding.md R103). -/
def pselError (psel : BitVec 3) : CmdError := ⟨.unsupportedPadding, 2#8, psel.setWidth 8⟩

/-- PAD (46_padding.md R306). PBS = 0 has no encoding; the meaning of such a term is what its word would report
(30_encoding.md R104, R106; log 19). -/
def execPad (psel : BitVec 3) (pbs : Byte) (s : State) : Res :=
  if pbs = 0#8 then s.raise 0x30#8 ⟨.illegalCmd, 3#8, 0x30#8⟩
  else
    match padOf psel with
    | none => s.raise 0x30#8 (pselError psel)
    | some scheme =>
      let outlen := s.len + padLen s.len pbs.toNat
      match s.rangeCheck outlen with
      | some e => s.raise 0x30#8 e
      | none =>
        match s.pad (s.memRead s.src s.len) pbs.toNat scheme with
        | (none, s') => s'.raise 0x30#8 fillFailure
        | (some y, s') => (s'.memWrite s.dst y).complete 0x30#8 outlen

/-- UNPAD (46_padding.md R307): only the result's bytes are written, and none on PADDING_ERROR. -/
def execUnpad (psel : BitVec 3) (s : State) : Res :=
  match padOf psel with
  | none => s.raise 0x31#8 (pselError psel)
  | some scheme =>
    match s.rangeCheck s.len with
    | some e => s.raise 0x31#8 e
    | none =>
      match unpad scheme (s.memRead s.src s.len) with
      | .error e => s.raise 0x31#8 e
      | .ok y => (s.memWrite s.dst y).complete 0x31#8 y.length

end Sys2Proof.Machine
end

