-- ==== Sys2Proof/Machine/Modes.lean ====
section
/-! DEFINITION. The modes of operation as steps on one block, the whole-buffer functions, and the commands ENCRYPT
and DECRYPT (47_modes.md). -/

namespace Sys2Proof.Machine

/-! ## Block steps -/

/-- A mode's chaining state (s, j) (47_modes.md R330). -/
structure Chain where
  s : List Byte
  j : Nat
deriving DecidableEq, Repr

/-- What a mode works with: the block operations of the keyed instance, the block size, the mode, CTX.iv, and the
delta block of RANDOM_DELTA (47_modes.md R330, R339). -/
structure ModeEnv where
  enc : List Byte → List Byte
  dec : List Byte → List Byte
  bs : Nat
  mode : Mode
  iv : List Byte
  delta : List Byte

/-- The environment of a context (47_modes.md R330). -/
def modeEnv (b : Build) (a : Algi) (c : Ctx) (delta : List Byte) : ModeEnv where
  enc := algEnc b a
  dec := algDec b a
  bs := a.kind.bs
  mode := c.mode
  iv := c.iv
  delta := delta

/-- init = (CTX.iv, 0) (47_modes.md R330). -/
def Ctx.init (c : Ctx) : Chain := ⟨c.iv, 0⟩

/-- ctr(iv, j): the IV plus the block index, big-endian, modulo 2^(8*bs) (47_modes.md R338). -/
def ctrBlock (bs : Nat) (iv : List Byte) (j : Nat) : List Byte := toBe bs ((beNat iv + j) % 2 ^ (8 * bs))

/-- encstep of the mode: the output block and the next chaining state (47_modes.md R332 to R339). -/
def encStep (e : ModeEnv) (st : Chain) (p : List Byte) : List Byte × Chain :=
  match e.mode with
  | .ecb => (e.enc p, ⟨st.s, st.j + 1⟩)
  | .cbc =>
    let c := e.enc (xorb p st.s)
    (c, ⟨c, st.j + 1⟩)
  | .pcbc =>
    let c := e.enc (xorb p st.s)
    (c, ⟨xorb p c, st.j + 1⟩)
  | .cfb =>
    let c := xorb p (e.enc st.s)
    (c, ⟨c, st.j + 1⟩)
  | .ofb =>
    let k := e.enc st.s
    (xorb p k, ⟨k, st.j + 1⟩)
  | .ctr => (xorb p (e.enc (ctrBlock e.bs e.iv st.j)), ⟨st.s, st.j + 1⟩)
  | .randomDelta => (addb p e.delta, st)

/-- decstep of the mode (47_modes.md R332 to R339). -/
def decStep (e : ModeEnv) (st : Chain) (c : List Byte) : List Byte × Chain :=
  match e.mode with
  | .ecb => (e.dec c, ⟨st.s, st.j + 1⟩)
  | .cbc => (xorb (e.dec c) st.s, ⟨c, st.j + 1⟩)
  | .pcbc =>
    let p := xorb (e.dec c) st.s
    (p, ⟨xorb p c, st.j + 1⟩)
  | .cfb => (xorb c (e.enc st.s), ⟨c, st.j + 1⟩)
  | .ofb =>
    let k := e.enc st.s
    (xorb c k, ⟨k, st.j + 1⟩)
  | .ctr => (xorb c (e.enc (ctrBlock e.bs e.iv st.j)), ⟨st.s, st.j + 1⟩)
  | .randomDelta => (subb c e.delta, st)

/-! ## Whole buffers -/

/-- A step over a list of blocks: the output joined, and the last chaining state (47_modes.md R340). -/
def runSteps (step : Chain → List Byte → List Byte × Chain) : Chain → List (List Byte) → List Byte × Chain
  | st, [] => ([], st)
  | st, x :: xs =>
    let y := step st x
    let r := runSteps step y.2 xs
    (y.1 ++ r.1, r.2)

/-- Encrypts the whole blocks of a buffer from a chaining state (47_modes.md R340, R344). -/
def encBlocks (e : ModeEnv) (st : Chain) (x : List Byte) : List Byte × Chain :=
  runSteps (encStep e) st (blocks e.bs (x.length / e.bs) x)

/-- Decrypts the whole blocks of a buffer from a chaining state (47_modes.md R340, R344). -/
def decBlocks (e : ModeEnv) (st : Chain) (x : List Byte) : List Byte × Chain :=
  runSteps (decStep e) st (blocks e.bs (x.length / e.bs) x)

/-- The bytes a RANDOM_DELTA ciphertext has before its body: the delta block (47_modes.md R344). -/
def deltaLen (mode : Mode) (bs : Nat) : Nat :=
  match mode with
  | .randomDelta => bs
  | .ecb | .cbc | .pcbc | .cfb | .ofb | .ctr => 0

/-- The draw of the delta block in RANDOM_DELTA; in another mode there is none (47_modes.md R344). -/
def State.drawDelta (s : State) (mode : Mode) (bs : Nat) : Option (List Byte) × State :=
  match mode with
  | .randomDelta => s.drawEnt bs
  | .ecb | .cbc | .pcbc | .cfb | .ofb | .ctr => (some [], s)

/-- The error of a failed delta draw (47_modes.md R344). -/
def deltaFailure : CmdError := ⟨.entropyFailure, 2#8, 0#8⟩

/-- encrypt_buf(P), with the state after its draws: the ISO 10126 fill first, then the delta (47_modes.md R344). -/
def encryptBuf (b : Build) (a : Algi) (c : Ctx) (p : List Byte) (s : State) : Except CmdError (List Byte) × State :=
  match s.pad p a.kind.bs c.pad with
  | (none, s') => (.error fillFailure, s')
  | (some x, s') =>
    match s'.drawDelta c.mode a.kind.bs with
    | (none, s'') => (.error deltaFailure, s'')
    | (some d, s'') => (.ok (d ++ (encBlocks (modeEnv b a c d) c.init x).1), s'')

/-- The padded plaintext X of decrypt_buf(C) (47_modes.md R344). -/
def decryptBuf (b : Build) (a : Algi) (c : Ctx) (y : List Byte) : List Byte :=
  let d := y.take (deltaLen c.mode a.kind.bs)
  (decBlocks (modeEnv b a c d) c.init (y.drop (deltaLen c.mode a.kind.bs))).1

/-! ## Commands -/

/-- MAXOUT of ENCRYPT (47_modes.md R345). -/
def encryptMaxOut (a : Algi) (c : Ctx) (len : Nat) : Nat :=
  len + padLen len a.kind.bs + deltaLen c.mode a.kind.bs

/-- The error of a command that needs a context (47_modes.md R345). -/
def noContextError : CmdError := ⟨.noContext, 1#8, 0#8⟩

/-- ENCRYPT (47_modes.md R345). -/
def execEncrypt (s : State) : Res :=
  match s.session with
  | .none => s.raise 0x10#8 noContextError
  | .keyed _ => s.raise 0x10#8 noContextError
  | .context a c _ =>
    let maxOut := encryptMaxOut a c s.len
    match s.rangeCheck maxOut with
    | some e => s.raise 0x10#8 e
    | none =>
      match encryptBuf s.build a c (s.memRead s.src s.len) s with
      | (.error e, s') => s'.raise 0x10#8 e
      | (.ok y, s') => (s'.memWrite s.dst y).complete 0x10#8 maxOut

/-- The length checks of DECRYPT: SHORT_BUFFER and NOT_ALIGNED sub-cause 2 in RANDOM_DELTA, NOT_ALIGNED sub-cause 1
in another mode (47_modes.md R347). -/
def decryptLenCheck (mode : Mode) (bs len : Nat) : Option CmdError :=
  match mode with
  | .randomDelta =>
    if len < bs then some ⟨.shortBuffer, 1#8, cap255 len⟩
    else if (len - bs) % bs ≠ 0 then some ⟨.notAligned, 2#8, BitVec.ofNat 8 ((len - bs) % bs)⟩
    else none
  | .ecb | .cbc | .pcbc | .cfb | .ofb | .ctr =>
    if len % bs ≠ 0 then some ⟨.notAligned, 1#8, BitVec.ofNat 8 (len % bs)⟩ else none

/-- MAXOUT of DECRYPT (47_modes.md R347). -/
def decryptMaxOut (a : Algi) (c : Ctx) (len : Nat) : Nat := len - deltaLen c.mode a.kind.bs

/-- The end of DECRYPT and SDEC_END: the padded plaintext X is written whole, then unpadded; on PADDING_ERROR it
stays (47_modes.md R347, 48_streaming.md R378). -/
def State.writeUnpadded (s : State) (op : Byte) (scheme : PadScheme) (x : List Byte) : Res :=
  let s' := s.memWrite s.dst x
  match unpad scheme x with
  | .error e => s'.raise op e
  | .ok p => s'.complete op p.length

/-- DECRYPT (47_modes.md R347). -/
def execDecrypt (s : State) : Res :=
  match s.session with
  | .none => s.raise 0x11#8 noContextError
  | .keyed _ => s.raise 0x11#8 noContextError
  | .context a c _ =>
    match decryptLenCheck c.mode a.kind.bs s.len with
    | some e => s.raise 0x11#8 e
    | none =>
      match s.rangeCheck (decryptMaxOut a c s.len) with
      | some e => s.raise 0x11#8 e
      | none => s.writeUnpadded 0x11#8 c.pad (decryptBuf s.build a c (s.memRead s.src s.len))

end Sys2Proof.Machine
end

