-- ==== Sys2Proof/Machine/Streaming.lean ====
section
/-! DEFINITION. Streaming: SENC_BEGIN, SENC_DATA, SENC_END, SDEC_BEGIN, SDEC_DATA, SDEC_END and STREAM_ABORT
(48_streaming.md). -/

namespace Sys2Proof.Machine

/-! ## Shared parts -/

/-- STREAM_STATE: sub-cause 1 for DATA or END with no open stream of that direction, 2 for BEGIN with a stream open;
the value is STATUS.STREAM (60_exceptions.md R402). -/
def streamStateError (s : State) (sub : Byte) : CmdError := ⟨.streamState, sub, s.stream.setWidth 8⟩

/-- The chaining state an open stream carries (48_streaming.md R370). -/
def StrData.chaining (d : StrData) : Chain := ⟨d.chain, d.j⟩

/-- The environment of an open stream: its delta block is the one STR holds (48_streaming.md R373, R377). -/
def streamEnv (b : Build) (a : Algi) (c : Ctx) (d : StrData) : ModeEnv := modeEnv b a c (d.delta.getD [])

/-! ## Stream encryption -/

/-- The stream SENC_BEGIN opens (48_streaming.md R372). -/
def sencOpen (c : Ctx) (delta : List Byte) : StrData where
  pend := []
  chain := c.init.s
  j := c.init.j
  delta := match c.mode with
    | .randomDelta => some delta
    | .ecb | .cbc | .pcbc | .cfb | .ofb | .ctr => none

/-- SENC_BEGIN (48_streaming.md R372): the delta block of RANDOM_DELTA is output first; in another mode nothing is
checked, drawn or written. -/
def execSencBegin (s : State) : Res :=
  match s.session with
  | .none => s.raise 0x18#8 noContextError
  | .keyed _ => s.raise 0x18#8 noContextError
  | .context _ _ (.enc _) => s.raise 0x18#8 (streamStateError s 2#8)
  | .context _ _ (.dec _) => s.raise 0x18#8 (streamStateError s 2#8)
  | .context a c .idle =>
    match c.mode with
    | .randomDelta =>
      match s.dstCheck a.kind.bs with
      | some e => s.raise 0x18#8 e
      | none =>
        match s.drawEnt a.kind.bs with
        | (none, s') => s'.raise 0x18#8 deltaFailure
        | (some d, s') =>
          ((s'.memWrite s.dst d).setSession (.context a c (.enc (sencOpen c d)))).complete 0x18#8 a.kind.bs
    | .ecb | .cbc | .pcbc | .cfb | .ofb | .ctr =>
      (s.setSession (.context a c (.enc (sencOpen c [])))).complete 0x18#8 0

/-- q of SENC_DATA: the complete blocks of the residue and the input (48_streaming.md R373). -/
def sencBlocks (bs : Nat) (d : StrData) (len : Nat) : Nat := (d.pend.length + len) / bs

/-- SENC_DATA (48_streaming.md R373). -/
def execSencData (s : State) : Res :=
  match s.session with
  | .context a c (.enc d) =>
    let bs := a.kind.bs
    let q := sencBlocks bs d s.len
    match s.rangeCheck (q * bs) with
    | some e => s.raise 0x19#8 e
    | none =>
      let all := d.pend ++ s.memRead s.src s.len
      let r := runSteps (encStep (streamEnv s.build a c d)) d.chaining (blocks bs q all)
      let d' : StrData := { d with pend := all.drop (q * bs), chain := r.2.s, j := r.2.j }
      ((s.memWrite s.dst r.1).setSession (.context a c (.enc d'))).complete 0x19#8 (q * bs)
  | .none | .keyed _ | .context _ _ .idle | .context _ _ (.dec _) => s.raise 0x19#8 (streamStateError s 1#8)

/-- SENC_END (48_streaming.md R374): the stream ends whatever follows. -/
def execSencEnd (s : State) : Res :=
  match s.session with
  | .context a c (.enc d) =>
    let bs := a.kind.bs
    let s0 := s.setSession (.context a c .idle)
    match s0.dstCheck bs with
    | some e => s0.raise 0x1A#8 e
    | none =>
      match s0.pad d.pend bs c.pad with
      | (none, s1) => s1.raise 0x1A#8 fillFailure
      | (some x, s1) =>
        (s1.memWrite s.dst (encStep (streamEnv s.build a c d) d.chaining x).1).complete 0x1A#8 bs
  | .none | .keyed _ | .context _ _ .idle | .context _ _ (.dec _) => s.raise 0x1A#8 (streamStateError s 1#8)

/-! ## Stream decryption -/

/-- The stream SDEC_BEGIN opens (48_streaming.md R376). -/
def sdecOpen (c : Ctx) : StrData where
  pend := []
  chain := c.init.s
  j := c.init.j
  delta := none

/-- SDEC_BEGIN (48_streaming.md R376). -/
def execSdecBegin (s : State) : Res :=
  match s.session with
  | .none => s.raise 0x1C#8 noContextError
  | .keyed _ => s.raise 0x1C#8 noContextError
  | .context _ _ (.enc _) => s.raise 0x1C#8 (streamStateError s 2#8)
  | .context _ _ (.dec _) => s.raise 0x1C#8 (streamStateError s 2#8)
  | .context a c .idle => (s.setSession (.context a c (.dec (sdecOpen c)))).complete 0x1C#8 0

/-- Whether a decryption stream still collects its delta block: RANDOM_DELTA without have_delta (48_streaming.md
R377). -/
def StrData.wantsDelta (d : StrData) (c : Ctx) : Bool := c.mode == .randomDelta && d.delta.isNone

/-- q of SDEC_DATA: the complete blocks beyond the last two, the delta block not counted (48_streaming.md R377). -/
def sdecBlocks (bs : Nat) (c : Ctx) (d : StrData) (len : Nat) : Nat :=
  let t := d.pend.length + len
  let t := if d.wantsDelta c then t - bs else t
  t / bs - 2

/-- The stream after SDEC_DATA has split the delta block off its bytes, where it is due and there, and the bytes that
are left (48_streaming.md R377). -/
def takeDelta (bs : Nat) (c : Ctx) (d : StrData) (all : List Byte) : StrData × List Byte :=
  if d.wantsDelta c ∧ bs ≤ all.length then ({ d with delta := some (all.take bs) }, all.drop bs) else (d, all)

/-- SDEC_DATA (48_streaming.md R377): the final two blocks and a partial one are held back. -/
def execSdecData (s : State) : Res :=
  match s.session with
  | .context a c (.dec d) =>
    let bs := a.kind.bs
    let q := sdecBlocks bs c d s.len
    match s.rangeCheck (q * bs) with
    | some e => s.raise 0x1D#8 e
    | none =>
      let split := takeDelta bs c d (d.pend ++ s.memRead s.src s.len)
      let d1 := split.1
      let rest := split.2
      if d1.wantsDelta c then
        (s.setSession (.context a c (.dec { d1 with pend := rest }))).complete 0x1D#8 0
      else
        let r := runSteps (decStep (streamEnv s.build a c d1)) d1.chaining (blocks bs q rest)
        let d2 : StrData := { d1 with pend := rest.drop (q * bs), chain := r.2.s, j := r.2.j }
        ((s.memWrite s.dst r.1).setSession (.context a c (.dec d2))).complete 0x1D#8 (q * bs)
  | .none | .keyed _ | .context _ _ .idle | .context _ _ (.enc _) => s.raise 0x1D#8 (streamStateError s 1#8)

/-- The checks of SDEC_END on the held bytes: SHORT_BUFFER where the delta block never came, then NOT_ALIGNED
(48_streaming.md R378). -/
def sdecEndCheck (bs : Nat) (c : Ctx) (d : StrData) : Option CmdError :=
  if d.wantsDelta c then some ⟨.shortBuffer, 1#8, cap255 d.pend.length⟩
  else if d.pend.length % bs ≠ 0 then
    some ⟨.notAligned, if c.mode = .randomDelta then 2#8 else 1#8, BitVec.ofNat 8 (d.pend.length % bs)⟩
  else none

/-- SDEC_END (48_streaming.md R378): the stream ends whatever follows. -/
def execSdecEnd (s : State) : Res :=
  match s.session with
  | .context a c (.dec d) =>
    let s0 := s.setSession (.context a c .idle)
    match sdecEndCheck a.kind.bs c d with
    | some e => s0.raise 0x1E#8 e
    | none =>
      match s0.dstCheck d.pend.length with
      | some e => s0.raise 0x1E#8 e
      | none => s0.writeUnpadded 0x1E#8 c.pad (decBlocks (streamEnv s.build a c d) d.chaining d.pend).1
  | .none | .keyed _ | .context _ _ .idle | .context _ _ (.enc _) => s.raise 0x1E#8 (streamStateError s 1#8)

/-! ## Abort -/

/-- STREAM_ABORT: no open stream is no error (48_streaming.md R380). -/
def execStreamAbort (s : State) : Res := (s.setSession s.session.closeStream).complete 0x1F#8 0

end Sys2Proof.Machine
end

