-- ==== Sys2Proof/Machine/Reset.lean ====
section
/-! DEFINITION. The output range of the command in progress (20_memory.md R77, 70_reset_and_hazards.md R460), and the
two resets: the reset input (R450) and CTRL.SRST (R452). -/

namespace Sys2Proof.Machine

/-! ## The output range of a command -/

/-- MAXOUT of a command in a state: the most bytes it could write at DST (20_memory.md R77 and the command's rule). -/
def maxOutOf (i : Instr) (s : State) : Nat :=
  match i with
  | .nop | .ctxInit | .ctxClear | .algSetkey | .sdecBegin | .streamAbort | .gfMul | .gfCube | .sbox1 | .sbox2 => 0
  | .blkEnc | .blkDec =>
    match s.session.algi with
    | none => 0
    | some a => a.kind.bs
  | .fEval => 8
  | .encrypt =>
    match s.session with
    | .none | .keyed _ => 0
    | .context a c _ => encryptMaxOut a c s.len
  | .decrypt =>
    match s.session with
    | .none | .keyed _ => 0
    | .context a c _ => decryptMaxOut a c s.len
  | .sencBegin =>
    match s.session with
    | .context a c .idle => deltaLen c.mode a.kind.bs
    | .none | .keyed _ | .context _ _ (.enc _) | .context _ _ (.dec _) => 0
  | .sencData =>
    match s.session with
    | .context a _ (.enc d) => sencBlocks a.kind.bs d s.len * a.kind.bs
    | .none | .keyed _ | .context _ _ .idle | .context _ _ (.dec _) => 0
  | .sencEnd =>
    match s.session with
    | .context a _ (.enc _) => a.kind.bs
    | .none | .keyed _ | .context _ _ .idle | .context _ _ (.dec _) => 0
  | .sdecData =>
    match s.session with
    | .context a c (.dec d) => sdecBlocks a.kind.bs c d s.len * a.kind.bs
    | .none | .keyed _ | .context _ _ .idle | .context _ _ (.enc _) => 0
  | .sdecEnd =>
    match s.session with
    | .context _ _ (.dec d) => d.pend.length
    | .none | .keyed _ | .context _ _ .idle | .context _ _ (.enc _) => 0
  | .pad _ pbs => s.len + padLen s.len pbs.toNat
  | .unpad _ => s.len

/-- MAXOUT of the command in progress; 0 where there is none or its word is illegal. -/
def State.runningMaxOut (s : State) : Nat :=
  match s.running with
  | none => 0
  | some r =>
    match decode r.word with
    | .error _ => 0
    | .ok i => maxOutOf i s

/-- Whether a BUF offset lies in [DST, DST + MAXOUT) of the command in progress (70_reset_and_hazards.md R460). -/
def State.inOut (s : State) (a : Nat) : Bool := decide (s.dst ≤ a) && decide (a < s.dst + s.runningMaxOut)

/-- The bytes of that range that lie in BUF, as a count from DST on. -/
def State.outBytes (s : State) : Nat := min (s.dst + s.runningMaxOut) s.build.bufBytes - s.dst

/-! ## Resets -/

/-- What a reset leaves besides BUF (70_reset_and_hazards.md R450): every register and the session at its reset value,
no command in progress. What lies outside the core stays: the pending inputs and answers, the last bus response
(R453), and the count of free draws. -/
def State.cleared (s : State) (buf : Memory) : State :=
  { State.resetOf s.build with
    buf := buf
    inReset := s.inReset
    inbox := s.inbox
    resp := s.resp
    ent := s.ent
    delays := s.delays
    free := s.free }

/-- Power-on reset: the bytes of BUF become unspecified anew (R450, 20_memory.md R70). -/
def State.powerOn (s : State) : State := s.cleared ⟨[], s.buf.era + 1⟩

/-- Soft reset: BUF keeps its contents, but for the output range of a command in progress, whose bytes become free
values (70_reset_and_hazards.md R452). -/
def State.softReset (s : State) : State :=
  match s.running with
  | none => s.cleared s.buf
  | some _ =>
    { s.cleared (s.buf.writeN s.dst ((List.range s.outBytes).map (Config.freeByte s.free))) with
      free := s.free + 1 }

/-- The reset input changes its level (70_reset_and_hazards.md R450, R455). -/
def State.setReset (s : State) (level : Bool) : State :=
  match level with
  | true => { s.powerOn with inReset := true }
  | false => { s with inReset := false }

end Sys2Proof.Machine
end

