-- ==== Sys2Proof/Machine/Bus.lean ====
section
/-! DEFINITION. The host bus slave port: the register map (10_state.md R21), the address decoding (20_memory.md R71),
widths and alignment (R74), reads and writes (R72, R75), with what a command in progress makes of them
(70_reset_and_hazards.md R460 to R462). -/

namespace Sys2Proof.Machine

/-! ## Address decoding -/

/-- The control registers (10_state.md R21). -/
inductive Reg where
  | id
  | ctrl
  | status
  | cmd
  | src
  | len
  | dst
  | outlen
  | cfg
  | keylen
  | ivlen
  | intStatus
  | intEnable
  | errinfo
  | gfA
  | gfB
  | gfMod
  | gfCfg
  | gfRes
  | param
deriving DecidableEq, Repr

/-- The offset of a register from BASE (10_state.md R21). -/
def Reg.offset : Reg → Nat
  | .id => 0x000
  | .ctrl => 0x004
  | .status => 0x008
  | .cmd => 0x00C
  | .src => 0x010
  | .len => 0x014
  | .dst => 0x018
  | .outlen => 0x01C
  | .cfg => 0x020
  | .keylen => 0x024
  | .ivlen => 0x028
  | .intStatus => 0x02C
  | .intEnable => 0x030
  | .errinfo => 0x034
  | .gfA => 0x038
  | .gfB => 0x03C
  | .gfMod => 0x040
  | .gfCfg => 0x044
  | .gfRes => 0x048
  | .param => 0x04C

/-- The registers in the order of their offsets (10_state.md R21). -/
def regMap : List Reg :=
  [.id, .ctrl, .status, .cmd, .src, .len, .dst, .outlen, .cfg, .keylen, .ivlen, .intStatus, .intEnable, .errinfo,
    .gfA, .gfB, .gfMod, .gfCfg, .gfRes, .param]

/-- What an offset of the window selects (20_memory.md R71, 10_state.md R21). -/
inductive Target where
  /-- A control register, in one of its four bytes. -/
  | reg (r : Reg)
  /-- KEY[i]. -/
  | key (i : Nat)
  /-- IV[i]. -/
  | iv (i : Nat)
  /-- BUF[a]. -/
  | buf (a : Nat)
  /-- A reserved offset. -/
  | reserved
deriving DecidableEq, Repr

/-- The offsets of the window: 0x20000 of them (20_memory.md R71). -/
def windowSize : Nat := 0x20000

/-- The target an offset of the window selects. -/
def targetOf (b : Build) (o : Nat) : Target :=
  if o < 0x080 then
    match regMap[o / 4]? with
    | some r => .reg r
    | none => .reserved
  else if o < 0x0A0 then .key (o - 0x080)
  else if o < 0x0B0 then .iv (o - 0x0A0)
  else if 0x10000 ≤ o ∧ o < 0x10000 + b.bufBytes then .buf (o - 0x10000)
  else .reserved

/-- The bytes of an access (20_memory.md R72). -/
def Width.bytes : Width → Nat
  | .w8 => 1
  | .w16 => 2
  | .w32 => 4

/-- Whether a target takes an access of a width at an offset (20_memory.md R74): a control register takes 32 bits at
multiples of 4, everything else takes naturally aligned accesses (log 14). -/
def accessLegal (t : Target) (w : Width) (o : Nat) : Bool :=
  match t with
  | .reg _ => w == .w32 && o % 4 == 0
  | .key _ | .iv _ | .buf _ | .reserved => o % w.bytes == 0

/-! ## Responses -/

/-- The core answers an access. -/
def State.respond (s : State) (err : Bool) (data : Word32) : State := { s with resp := some ⟨err, data⟩ }

/-- A bus error: no other change, read data 0 (20_memory.md R74, 60_exceptions.md R407). -/
def State.busError (s : State) : State := s.respond true 0#32

/-! ## Reads -/

/-- CFG as a word: its reserved bits read 0 (10_state.md R28). -/
def Cfg.word (c : Cfg) : Word32 := 0#8 ++ c.bs ++ 0#2 ++ c.rc5w ++ 0#1 ++ c.pad ++ 0#1 ++ c.mode ++ 0#1 ++ c.alg

/-- PARAM: RC5_ROUNDS, log2(BUF_BYTES), REFCFG (10_state.md R38). -/
def Build.param (b : Build) : Word32 :=
  0#15 ++ BitVec.ofBool (b.tables == .ref) ++ BitVec.ofNat 8 b.bufLog.val ++ BitVec.ofNat 8 b.rc5Rounds.val

/-- The value a register reads as with no command in progress (10_state.md R21 to R38). -/
def State.regRead (s : State) (r : Reg) : Word32 :=
  match r with
  | .id => 0x43590007#32
  | .ctrl => 0#32
  | .status => s.status
  | .cmd => 0#32
  | .src => s.args.src
  | .len => s.args.len
  | .dst => s.args.dst
  | .outlen => s.outlen
  | .cfg => s.args.cfg.word
  | .keylen => s.args.keylen.setWidth 32
  | .ivlen => s.args.ivlen.setWidth 32
  | .intStatus => s.intStatus.setWidth 32
  | .intEnable => s.intEnable.setWidth 32
  | .errinfo => s.errinfo
  | .gfA => s.args.gfA.setWidth 32
  | .gfB => s.args.gfB.setWidth 32
  | .gfMod => s.args.gfMod.setWidth 32
  | .gfCfg => s.args.gfCfg.setWidth 32
  | .gfRes => s.gfRes
  | .param => s.build.param

/-- The value a register reads as while BUSY: OUTLEN, GF_RES, ERRINFO and the fields ERR, ERRCODE and LASTOP of STATUS
are free values, every other is current (20_memory.md R80 (c), 70_reset_and_hazards.md R462). -/
def State.regReadBusy (s : State) (r : Reg) : Word32 :=
  let v := Config.freeWord s.free
  match r with
  | .outlen | .gfRes | .errinfo => v
  | .status => s.statusWith (v.getLsbD 1) (v.extractLsb' 8 8) (v.extractLsb' 16 8)
  | .id | .ctrl | .cmd | .src | .len | .dst | .cfg | .keylen | .ivlen | .intStatus | .intEnable | .gfA | .gfB
  | .gfMod | .gfCfg | .param => s.regRead r

/-- A BUF byte as the host reads it: in the output range of a command in progress a free value, else the current byte
(20_memory.md R80 (c), R85). -/
def State.hostByte (s : State) (a : Nat) : Byte := if s.inOut a then Config.freeByte s.free a else s.buf.read a

/-- The bytes an access of `n` bytes reads at a target, the lowest offset first (20_memory.md R72). -/
def State.readBytes (s : State) (t : Target) (n : Nat) : List Byte :=
  match t with
  | .reg r => toLe n (if s.busy then s.regReadBusy r else s.regRead r).toNat
  | .key i => (s.args.key.toList.drop i).take n
  | .iv i => (s.args.iv.toList.drop i).take n
  | .buf a => (List.range' a n).map s.hostByte
  | .reserved => List.replicate n 0#8

/-- A legal read: byte k of the data word is the byte at offset o + k (20_memory.md R72). While BUSY it may show free
values, so the count of draws advances. -/
def State.busRead (s : State) (t : Target) (w : Width) : State :=
  { s.respond false (BitVec.ofNat 32 (leNat (s.readBytes t w.bytes))) with
    free := if s.busy then s.free + 1 else s.free }

/-! ## Writes -/

/-- CFG <- v (10_state.md R28). -/
def cfgOfWord (v : Word32) : Cfg where
  alg := v.extractLsb' 0 3
  mode := v.extractLsb' 4 3
  pad := v.extractLsb' 8 3
  rc5w := v.extractLsb' 12 2
  bs := v.extractLsb' 16 8

/-- The operand registers after a host write to one of them; reserved bits of the value are ignored (10_state.md
R26 to R36, R41). -/
def Args.regWrite (a : Args) (r : Reg) (v : Word32) : Args :=
  match r with
  | .src => { a with src := v }
  | .len => { a with len := v }
  | .dst => { a with dst := v }
  | .cfg => { a with cfg := cfgOfWord v }
  | .keylen => { a with keylen := v.extractLsb' 0 6 }
  | .ivlen => { a with ivlen := v.extractLsb' 0 5 }
  | .gfA => { a with gfA := v.extractLsb' 0 16 }
  | .gfB => { a with gfB := v.extractLsb' 0 16 }
  | .gfMod => { a with gfMod := v.extractLsb' 0 17 }
  | .gfCfg => { a with gfCfg := v.extractLsb' 0 5 }
  | .id | .ctrl | .status | .cmd | .outlen | .intStatus | .intEnable | .errinfo | .gfRes | .param => a

/-- Bytes written into a window from an index on. -/
def vecWrite {n : Nat} (v : Vector Byte n) (i : Nat) : List Byte → Vector Byte n
  | [] => v
  | b :: s => vecWrite (v.setIfInBounds i b) (i + 1) s

/-- How many cycles an accepted command word takes beyond the accepting one: an illegal word completes at once
(30_encoding.md R106), any other takes the oldest of the delays to come, 0 where none is given (log 2). -/
def State.delayOf (s : State) (word : Word32) : Nat :=
  match decode word with
  | .error _ => 0
  | .ok _ => s.delays.headD 0

/-- A CMD write (10_state.md R25, R50; 20_memory.md R76): accepted while BUSY = 0, with every input latched, taking one
of the delays to come; dropped while BUSY = 1, setting OVERRUN (60_exceptions.md R408). -/
def State.submit (s : State) (word : Word32) : State :=
  match s.running with
  | some _ => { s with intStatus := s.intStatus ||| intOverrun }
  | none =>
    { s with
      running := some { word := word, args := s.args, view := s.buf, hostWrote := [], left := s.delayOf word }
      delays := s.delays.tail }

/-- A write to a control register (10_state.md R21): CMD, CTRL and INT_STATUS have side effects (20_memory.md R75);
a read-only register ignores it. -/
def State.regWrite (s : State) (r : Reg) (v : Word32) : State :=
  match r with
  | .cmd => s.submit v
  | .ctrl => if v.getLsbD 0 then s.softReset else s
  | .intStatus => s.ackInt v
  | .intEnable => { s with intEnable := v.extractLsb' 0 3 }
  | .id | .status | .outlen | .errinfo | .gfRes | .param => s
  | .src | .len | .dst | .cfg | .keylen | .ivlen | .gfA | .gfB | .gfMod | .gfCfg =>
    { s with args := s.args.regWrite r v }

/-- BUF as a running command sees it after host writes from an offset on: each byte seen or not, freely
(70_reset_and_hazards.md R460). -/
def viewWrites (draw : Nat) (m : Memory) (a : Nat) : List Byte → Memory
  | [] => m
  | b :: s => viewWrites draw (if Config.commandSees draw a then m.write a b else m) (a + 1) s

/-- A host write to BUF: it takes effect at once; a command in progress may or may not see it, and remembers that it
happened (70_reset_and_hazards.md R460). -/
def State.hostWriteBuf (s : State) (a : Nat) (bytes : List Byte) : State :=
  match s.running with
  | none => { s with buf := s.buf.writeN a bytes }
  | some r =>
    { s with
      buf := s.buf.writeN a bytes
      running := some { r with
        view := viewWrites s.free r.view a bytes
        hostWrote := List.range' a bytes.length ++ r.hostWrote }
      free := s.free + 1 }

/-- A legal write of the low bytes of `v` (20_memory.md R72). A reserved offset ignores it (10_state.md R41). -/
def State.busWrite (s : State) (t : Target) (w : Width) (v : Word32) : State :=
  let bytes := toLe w.bytes v.toNat
  (match t with
    | .reg r => s.regWrite r v
    | .key i => { s with args := { s.args with key := vecWrite s.args.key i bytes } }
    | .iv i => { s with args := { s.args with iv := vecWrite s.args.iv i bytes } }
    | .buf a => s.hostWriteBuf a bytes
    | .reserved => s).respond false 0#32

/-! ## Accesses -/

/-- Whether an access falls into the core's window (20_memory.md R71). -/
def inWindow (b : Build) (a : Access) : Bool := decide (b.base ≤ a.addr) && decide (a.addr < b.base + windowSize)

/-- The target of an access in the window. -/
def targetOfAccess (b : Build) (a : Access) : Target := targetOf b (a.addr - b.base)

/-- An access delivered while reset is asserted is lost: no effect, and a read's data is a free value
(70_reset_and_hazards.md R455, I7; log 9). -/
def State.lostAccess (s : State) (a : Access) : State :=
  match a.op with
  | .read => { s.respond false (Config.freeWord s.free) with free := s.free + 1 }
  | .write _ => { s with resp := none }

/-- One bus access (20_memory.md R71 to R75). An access outside the window is none of the core's: it does not answer
(log 15). -/
def State.access (s : State) (a : Access) : State :=
  if inWindow s.build a = false then { s with resp := none }
  else if s.inReset then s.lostAccess a
  else
    let t := targetOfAccess s.build a
    if accessLegal t a.width (a.addr - s.build.base) then
      match a.op with
      | .read => s.busRead t a.width
      | .write v => s.busWrite t a.width v
    else s.busError

/-- One outside input is served. -/
def State.serve (s : State) (i : Input) : State :=
  match i with
  | .bus a => s.access a
  | .rst level => s.setReset level

/-- Whether an input comes before a command's completion in the same cycle: a reset, which wins, and a write to
INT_STATUS, whose clearing the completion's set wins over (10_state.md R31, 60_exceptions.md R413, log 16). Every
other access comes after it, so that a CMD write in the cycle in which BUSY falls is accepted (R413). -/
def Input.beforeCompletion (b : Build) (i : Input) : Bool :=
  match i with
  | .rst _ => true
  | .bus a =>
    match a.op with
    | .read => false
    | .write _ =>
      inWindow b a && (targetOfAccess b a == .reg .ctrl || targetOfAccess b a == .reg .intStatus)

end Sys2Proof.Machine
end

