-- ==== Sys2Proof/Machine/Dispatch.lean ====
section
/-! DEFINITION. One arm per command: what the command in progress does when it completes (00_scope.md R11). -/

namespace Sys2Proof.Machine

-- The outcome of a command whose inputs are those the state holds as latched (10_state.md R50).
def exec (i : Instr) (s : State) : Host.Outcome State Fault Refusal :=
  match i with
  | .nop => Sys2Proof.Machine.execNop s
  | .ctxInit => Sys2Proof.Machine.execCtxInit s
  | .ctxClear => Sys2Proof.Machine.execCtxClear s
  | .algSetkey => Sys2Proof.Machine.execAlgSetkey s
  | .blkEnc => Sys2Proof.Machine.execBlkEnc s
  | .blkDec => Sys2Proof.Machine.execBlkDec s
  | .fEval => Sys2Proof.Machine.execFEval s
  | .encrypt => Sys2Proof.Machine.execEncrypt s
  | .decrypt => Sys2Proof.Machine.execDecrypt s
  | .sencBegin => Sys2Proof.Machine.execSencBegin s
  | .sencData => Sys2Proof.Machine.execSencData s
  | .sencEnd => Sys2Proof.Machine.execSencEnd s
  | .sdecBegin => Sys2Proof.Machine.execSdecBegin s
  | .sdecData => Sys2Proof.Machine.execSdecData s
  | .sdecEnd => Sys2Proof.Machine.execSdecEnd s
  | .streamAbort => Sys2Proof.Machine.execStreamAbort s
  | .gfMul => Sys2Proof.Machine.execGfMul s
  | .gfCube => Sys2Proof.Machine.execGfCube s
  | .sbox1 => Sys2Proof.Machine.execSbox1 s
  | .sbox2 => Sys2Proof.Machine.execSbox2 s
  | .pad psel pbs => Sys2Proof.Machine.execPad psel pbs s
  | .unpad psel => Sys2Proof.Machine.execUnpad psel s

end Sys2Proof.Machine
end

