-- ==== Sys2Proof/Machine/Engine.lean ====
section
/-! DEFINITION. The command engine and one cycle of the core (10_state.md R25, 60_exceptions.md R413,
70_reset_and_hazards.md R463). -/

namespace Sys2Proof.Machine

/-- One outcome after another. -/
def andThen (x : Res) (f : State → Res) : Res :=
  match x with
  | .next s => f s
  | .fault r => .fault r
  | .refused r => .refused r

/-- An illegal command word: accepted, and completed at once with ILLEGAL_CMD, its sub-cause, and its OP field as the
info value (30_encoding.md R106). -/
def illegalCommand (word : Word32) (e : DecodeError) (s : State) : Res :=
  s.raise (opField word) ⟨.illegalCmd, e.sub, opField word⟩

/-- The command of a word is decoded and does its work (30_encoding.md R106, 00_scope.md R11). -/
def runWord (word : Word32) (s : State) : Res :=
  match decode word with
  | .ok i => exec i s
  | .error e => illegalCommand word e s

/-- The command in progress completes, if its time has come. -/
def finishDue (s : State) : Res :=
  match s.running with
  | none => .next s
  | some r => if r.left = 0 then runWord r.word s else .next s

/-- A cycle passes for the command in progress. -/
def State.countDown (s : State) : State :=
  match s.running with
  | none => s
  | some r => { s with running := some { r with left := r.left - 1 } }

/-- One cycle: time passes for the command in progress, and the oldest pending input is served. A command whose time
has come completes in the cycle: after an input that comes before completion, before any other; and a command that
the input submits with no delay completes at once. -/
def cycle (s : State) : Res :=
  let s1 := s.countDown
  match s1.inbox with
  | [] => finishDue s1
  | i :: rest =>
    let s2 : State := { s1 with inbox := rest }
    if i.beforeCompletion s.build then finishDue (s2.serve i)
    else andThen (finishDue s2) fun s3 => finishDue (s3.serve i)

end Sys2Proof.Machine
end

