-- ==== Sys2Proof/Machine/Step.lean ====
section
/-! DEFINITION. The step of the machine: one cycle (log 1). -/

namespace Sys2Proof.Machine

/-- One step: one cycle of the core. -/
def step (s : State) : Host.Outcome State Fault Refusal := cycle s

/-- The state in which the next step serves a host's 32-bit write of the command word `w` to CMD, with no command in
progress, reset released, and no delay for the new command: that step runs it to its completion (10_state.md R25).
The core loads and fetches no program (R42): a command always comes from outside, and this stands for the host's
sending it (log 1). -/
def State.withFetchWord (s : State) (nbits w : Nat) : State :=
  { s with
    running := none
    inReset := false
    delays := 0 :: s.delays
    inbox :=
      .bus ⟨s.build.base + Reg.cmd.offset, .w32, .write (BitVec.ofNat 32 (w % 2 ^ nbits))⟩ :: s.inbox }

end Sys2Proof.Machine
end

