-- ==== Sys2Proof/Machine/HostAsm.lean ====
section
/-! DEFINITION. The host assembly (30_encoding.md R108, R109): each statement as the bus accesses it stands for. -/

namespace Sys2Proof.Machine

/-- A byte region of the window (30_encoding.md R108). -/
inductive Region where
  | key
  | iv
  | buf
deriving DecidableEq, Repr

/-- The window offset a region begins at (10_state.md R21). -/
def Region.offset : Region → Nat
  | .key => 0x080
  | .iv => 0x0A0
  | .buf => 0x10000

/-- The statements of the host assembly (30_encoding.md R108). -/
inductive HostStmt where
  /-- WR32 reg, value. -/
  | wr32 (r : Reg) (v : Word32)
  /-- WRB region+off, bytes. -/
  | wrb (g : Region) (off : Nat) (bytes : List Byte)
  /-- RD32 reg. -/
  | rd32 (r : Reg)
  /-- RDB region+off, n. -/
  | rdb (g : Region) (off n : Nat)
  /-- CMD mnemonic operands. -/
  | cmd (i : Instr)
  /-- WAIT: STATUS is read `polls` times, the last read the one that shows BUSY = 0 (log 24). -/
  | wait (polls : Nat)
deriving DecidableEq, Repr

/-- A 32-bit write to a register of the build's core. -/
def write32 (b : Build) (r : Reg) (v : Word32) : Input := .bus ⟨b.base + r.offset, .w32, .write v⟩

/-- A 32-bit read of a register of the build's core. -/
def read32 (b : Build) (r : Reg) : Input := .bus ⟨b.base + r.offset, .w32, .read⟩

/-- 8-bit writes of bytes, in order, from a bus address on. -/
def writeBytes (addr : Nat) : List Byte → List Input
  | [] => []
  | x :: s => .bus ⟨addr, .w8, .write (x.setWidth 32)⟩ :: writeBytes (addr + 1) s

/-- RDB: `n` 8-bit reads at rising bus addresses. R108 says only "read n bytes": the width of the accesses and their order
are the model's. DESIGN CHOICE (log 28). -/
def readBytesFrom (addr : Nat) : (n : Nat) → List Input
  | 0 => []
  | n + 1 => .bus ⟨addr, .w8, .read⟩ :: readBytesFrom (addr + 1) n

/-- The bus accesses of a statement (30_encoding.md R108). -/
def HostStmt.accesses (b : Build) : HostStmt → List Input
  | .wr32 r v => [write32 b r v]
  | .wrb g off bytes => writeBytes (b.base + g.offset + off) bytes
  | .rd32 r => [read32 b r]
  | .rdb g off n => readBytesFrom (b.base + g.offset + off) n
  | .cmd i => [write32 b .cmd (encode i)]
  | .wait polls => List.replicate polls (read32 b .status)

/-- CFG alg, mode, pad, bs, w (30_encoding.md R109). -/
def asmCfg (alg mode pad : BitVec 3) (bs : Byte) (rc5w : BitVec 2) : List HostStmt :=
  [.wr32 .cfg (Cfg.word ⟨alg, mode, pad, rc5w, bs⟩)]

/-- KEYSET bytes (30_encoding.md R109). -/
def asmKeyset (bytes : List Byte) : List HostStmt :=
  [.wrb .key 0 bytes, .wr32 .keylen (BitVec.ofNat 32 bytes.length)]

/-- IVSET bytes (30_encoding.md R109). -/
def asmIvset (bytes : List Byte) : List HostStmt :=
  [.wrb .iv 0 bytes, .wr32 .ivlen (BitVec.ofNat 32 bytes.length)]

/-- EXEC mnemonic operands (30_encoding.md R109). -/
def asmExec (i : Instr) (polls : Nat) : List HostStmt := [.cmd i, .wait polls]

/-- RUN mnemonic, src, len, dst (30_encoding.md R109). -/
def asmRun (i : Instr) (src len dst : Word32) (polls : Nat) : List HostStmt :=
  [.wr32 .src src, .wr32 .len len, .wr32 .dst dst] ++ asmExec i polls

/-- The bus accesses of a host program, in order. -/
def asmAccesses (b : Build) (p : List HostStmt) : List Input := p.flatMap (HostStmt.accesses b)

end Sys2Proof.Machine
end

