-- ==== Sys2Proof/Safety.lean ====
section
/-! DEFINITION. The terms claims are stated in: the invariant of the core, what a command stores in BUF, what a
host does between the commands of a stream. -/

namespace Sys2Proof.Machine

/-! ## The invariant -/

/-- BUF in its canonical form, every listed offset below BUF_BYTES (10_state.md R48). -/
def Memory.Ok (b : Build) (m : Memory) : Prop := m.wf = true ∧ ∀ c ∈ m.cells, c.1 < b.bufBytes

/-- The schedule is the one SETKEY makes of the raw key ("created once at key-set time; never recomputed"), and the
key came from the KEY window (10_state.md R39, R44; 44_block_commands.md R257). -/
def Algi.Ok (b : Build) (a : Algi) : Prop := keyAlgi b a.kind a.key = .ok a ∧ a.key.length ≤ 32

/-- CTX.iv is one block in a chained mode (10_state.md R45; log 13 for the others). -/
def Ctx.Ok (bs : Nat) (c : Ctx) : Prop := if c.mode.chained then c.iv.length = bs else c.iv = []

/-- The chaining value of an open stream is one block in a chained mode (10_state.md R46). -/
def StrData.ChainOk (bs : Nat) (c : Ctx) (d : StrData) : Prop := c.mode.chained = true → d.chain.length = bs

/-- A stream encryption: a residue below one block; a delta block in RANDOM_DELTA and in no other mode
(48_streaming.md R371, R372). -/
def StrData.EncOk (bs : Nat) (c : Ctx) (d : StrData) : Prop :=
  d.pend.length < bs ∧ d.ChainOk bs c ∧
    (c.mode = .randomDelta → ∃ x, d.delta = some x ∧ x.length = bs) ∧ (c.mode ≠ .randomDelta → d.delta = none)

/-- A stream decryption: less than one block while the delta block is awaited, less than three otherwise
(48_streaming.md R371). -/
def StrData.DecOk (bs : Nat) (c : Ctx) (d : StrData) : Prop :=
  d.pend.length < (if d.wantsDelta c then bs else 3 * bs) ∧ d.ChainOk bs c ∧
    (c.mode = .randomDelta → ∀ x, d.delta = some x → x.length = bs) ∧ (c.mode ≠ .randomDelta → d.delta = none)

/-- STR under a context (48_streaming.md R371). -/
def Str.Ok (bs : Nat) (c : Ctx) : Str → Prop
  | .idle => True
  | .enc d => d.EncOk bs c
  | .dec d => d.DecOk bs c

/-- ALGI, CTX and STR. -/
def Session.Ok (b : Build) : Session → Prop
  | .none => True
  | .keyed a => a.Ok b
  | .context a c t => a.Ok b ∧ c.Ok a.kind.bs ∧ t.Ok a.kind.bs c

/-- A command in progress: what it sees of BUF has BUF's form and era, and the host wrote inside BUF. -/
def Running.Ok (b : Build) (era : Nat) (r : Running) : Prop :=
  r.view.Ok b ∧ r.view.era = era ∧ ∀ a ∈ r.hostWrote, a < b.bufBytes

/-- What holds between any two steps. -/
structure State.Inv (s : State) : Prop where
  /-- BUF's canonical form. -/
  buf : s.buf.Ok s.build
  /-- The command in progress. -/
  running : ∀ r, s.running = some r → r.Ok s.build s.buf.era
  /-- ALGI, CTX and STR. -/
  session : s.session.Ok s.build
  /-- After a success ERRCODE and ERRINFO are 0 (60_exceptions.md R400). -/
  success : s.err = false → s.errcode = 0#8 ∧ s.errinfo = 0#32
  /-- After an error ERRCODE is one of 0x01 to 0x12, OUTLEN is 0 and ERRINFO[31:16] is 0 (60_exceptions.md R401,
  R402; 10_state.md R33). -/
  failure : s.err = true → 1 ≤ s.errcode.toNat ∧ s.errcode.toNat ≤ 0x12 ∧ s.outlen = 0#32 ∧
    s.errinfo.toNat < 2 ^ 16
  /-- While reset is asserted the core is in its reset state (70_reset_and_hazards.md R450). -/
  inReset : s.inReset = true → s = s.cleared ⟨[], s.buf.era⟩

/-! ## What CFG selects (10_state.md R28) -/

/-- CFG selects this algorithm, and for RC5 this word size. -/
def Cfg.Selects (c : Cfg) : AlgKind → Prop
  | .feistel => c.alg = 0#3
  | .rc5 .w16 => c.alg = 1#3 ∧ c.rc5w = 0#2
  | .rc5 .w32 => c.alg = 1#3 ∧ c.rc5w = 1#2
  | .rc5 .w64 => c.alg = 1#3 ∧ c.rc5w = 2#2
  | .sp => c.alg = 2#3

/-- The encoding of a mode in CFG.MODE. -/
def Mode.tag : Mode → BitVec 3
  | .ecb => 0#3
  | .cbc => 1#3
  | .pcbc => 2#3
  | .cfb => 3#3
  | .ofb => 4#3
  | .ctr => 5#3
  | .randomDelta => 6#3

/-- The encoding of a padding scheme in CFG.PAD and PSEL. -/
def PadScheme.tag : PadScheme → BitVec 3
  | .zeros => 0#3
  | .ansiX923 => 1#3
  | .pkcs7 => 2#3
  | .iso10126 => 3#3

/-- The schedule of a key the algorithm accepts (41_feistel.md R172, 42_rc5.md R205, 43_sp_cipher.md R232). -/
def scheduleOf (b : Build) (k : AlgKind) (key : List Byte) : List Word64 :=
  match k with
  | .feistel => feSchedule b.fe key
  | .rc5 w => (rc5Schedule b.mixRule b.rc5Rounds.val w key).map (BitVec.setWidth 64)
  | .sp => spSchedule b.sp key

/-! ## Buffers in blocks -/

/-- X_j = X[j*bs .. (j+1)*bs) (47_modes.md R330). -/
def blockAt (bs : Nat) (x : List Byte) (j : Nat) : List Byte := (x.drop (j * bs)).take bs

/-! ## What a command stores -/

/-- `m` is BUF after a command has stored `bytes` from offset `a` on: each of those bytes is there, but for one the
host wrote while the command was BUSY, which may be the host's; every other byte is as it was (10_state.md R51,
70_reset_and_hazards.md R460). -/
def State.Stores (s : State) (a : Nat) (bytes : List Byte) (m : Memory) : Prop :=
  (∀ k b, bytes[k]? = some b → m.read (a + k) = b ∨ (a + k ∈ s.hostWrote ∧ m.read (a + k) = s.buf.read (a + k))) ∧
    ∀ x, x < a ∨ a + bytes.length ≤ x → m.read x = s.buf.read x

/-- The command ends with an error and nothing but the error's writes is new against `x` (60_exceptions.md R401). -/
def Raises (i : Instr) (s x : State) (op : Byte) (e : CmdError) : Prop := exec i s = .next (x.raised op e)

/-- The command stores `bytes` at DST and ends successfully with OUTLEN `n`; what else is new is new in `x`. -/
def Succeeds (i : Instr) (s x : State) (op : Byte) (bytes : List Byte) (n : Nat) : Prop :=
  ∃ m k, exec i s = .next ({ x with buf := m, free := k }.completed op n) ∧ s.Stores s.dst bytes m

/-- The command stores `bytes` at DST and ends with an error; what else is new is new in `x`. -/
def StoresAndRaises (i : Instr) (s x : State) (op : Byte) (bytes : List Byte) (e : CmdError) : Prop :=
  ∃ m k, exec i s = .next ({ x with buf := m, free := k }.raised op e) ∧ s.Stores s.dst bytes m

/-- The range errors of a command with an input range (20_memory.md R77). -/
def RangeErrors (i : Instr) (s x : State) (op : Byte) (maxOut : Nat) : Prop :=
  (s.build.bufBytes < s.src + s.len → Raises i s x op ⟨.bufferRange, 1#8, 0#8⟩) ∧
    (s.src + s.len ≤ s.build.bufBytes → s.build.bufBytes < s.dst + maxOut →
      Raises i s x op ⟨.bufferRange, 2#8, 0#8⟩)

/-- Both ranges of a command lie in BUF (20_memory.md R77). -/
def State.InRange (s : State) (maxOut : Nat) : Prop :=
  s.src + s.len ≤ s.build.bufBytes ∧ s.dst + maxOut ≤ s.build.bufBytes

/-! ## A host that sends a stream (48_streaming.md R370) -/

/-- One piece of a stream's input: its bytes, where the host puts them, and where the output goes. -/
structure Piece where
  bytes : List Byte
  src : Word32
  dst : Word32
deriving DecidableEq, Repr

/-- The host writes the piece to BUF and sets SRC, LEN and DST. -/
def Piece.give (p : Piece) (s : State) : State :=
  { s with
    buf := s.buf.writeN p.src.toNat p.bytes
    args := { s.args with src := p.src, len := BitVec.ofNat 32 p.bytes.length, dst := p.dst } }

/-- A piece lies in BUF. -/
def Piece.Fits (b : Build) (p : Piece) : Prop := p.src.toNat + p.bytes.length ≤ b.bufBytes

/-- What the last command put at DST (10_state.md R27). -/
def State.output (s : State) : List Byte := s.buf.readN s.dst s.outlen.toNat

/-- A command on a piece, with its output; none where it does not succeed. -/
def runPiece (i : Instr) (s : State) (p : Piece) : Option (State × List Byte) :=
  match exec i (p.give s) with
  | .next t => if t.err then none else some (t, t.output)
  | .fault _ => none
  | .refused _ => none

/-- The same command on pieces, one after another, with the outputs joined. -/
def runPieces (i : Instr) : State → List Piece → Option (State × List Byte)
  | s, [] => some (s, [])
  | s, p :: ps =>
    match runPiece i s p with
    | none => none
    | some (t, y) =>
      match runPieces i t ps with
      | none => none
      | some (u, ys) => some (u, y ++ ys)

/-- A whole stream: BEGIN, DATA on pieces, END, with the outputs joined (48_streaming.md R370). -/
def runStream (opening data closing : Instr) (s : State) (first : Piece) (ps : List Piece) (last : Piece) :
    Option (List Byte) :=
  match runPiece opening s first with
  | none => none
  | some (t, y) =>
    match runPieces data t ps with
    | none => none
    | some (u, ys) =>
      match runPiece closing u last with
      | none => none
      | some (_, z) => some (y ++ ys ++ z)

end Sys2Proof.Machine
end

