-- ==== Sys2Proof/Certificates/Slice0/Obligations.lean ====
section
/-! DEFINITION. The statements about the core that are to be proved. Each docstring names the rule of spec/ a statement
formalises, or the log entry it rests on. -/

section

open Sys2Proof Sys2Proof.Machine

/-! ## Encoding -/

/-- Every command with an encoding is what its word decodes to, at every value of PSEL and PBS (30_encoding.md R101,
R105, R106). -/
def Obligations.DecodeOfEncodeIsTheCommand : Prop :=
  ∀ i : Instr, i.wf = true → decode (encode i) = .ok i

/-- Every word that decodes is the encoding of the command it stands for: no other word stands for a command
(30_encoding.md R105, R107). -/
def Obligations.EncodeOfDecodeIsTheWord : Prop :=
  ∀ (w : Word32) (i : Instr), decode w = .ok i → i.wf = true ∧ encode i = w

/-- Decoding is total, and an illegal word reports the cause 30_encoding.md R106 gives; written to CMD it is accepted,
completes at once with ILLEGAL_CMD whatever delay is to come, and changes no other state (R104, R106). That one step serves
one access is the model's (log 1), so is that an illegal word takes its number off the delays though it uses none (log 2);
that LASTOP and the value in ERRINFO are bits 7 to 0 of an illegal word is an inference of the model (log 27). -/
def Obligations.IllegalWordsRaiseTheirCause : Prop :=
  ∀ w : Word32,
    let op : Byte := w.extractLsb' 0 8
    let reserved : Word32 := if op = 0x30#8 then 0xFF00F800#32 else if op = 0x31#8 then 0xFFFFF800#32 else 0xFFFFFF00#32
    let assigned : List Byte := [0x00#8, 0x01#8, 0x02#8, 0x03#8, 0x08#8, 0x09#8, 0x0A#8, 0x10#8, 0x11#8, 0x18#8, 0x19#8,
      0x1A#8, 0x1C#8, 0x1D#8, 0x1E#8, 0x1F#8, 0x20#8, 0x21#8, 0x22#8, 0x23#8, 0x30#8, 0x31#8]
    (op ∉ assigned → decode w = .error .unassignedOp) ∧
    (op ∈ assigned → w &&& reserved ≠ 0#32 → decode w = .error .reservedBits) ∧
    (op = 0x30#8 → w &&& reserved = 0#32 → w.extractLsb' 16 8 = 0#8 → decode w = .error .padBlockZero) ∧
    (op ∈ assigned → w &&& reserved = 0#32 → (op ≠ 0x30#8 ∨ w.extractLsb' 16 8 ≠ 0#8) →
      ∃ i, decode w = .ok i ∧ i.op = op ∧ i.psel = w.extractLsb' 8 3 ∧ i.pbs = w.extractLsb' 16 8) ∧
    ∀ (e : DecodeError) (s : State) (rest : List Input), decode w = .error e →
      s.running = none → s.inReset = false → s.inbox = .bus ⟨s.build.base + 0x00C, .w32, .write w⟩ :: rest →
      step s =
        .next ({ s with inbox := rest, delays := s.delays.tail, resp := some ⟨false, 0#32⟩ }.raised op
          ⟨.illegalCmd, (match e with | .unassignedOp => 1#8 | .reservedBits => 2#8 | .padBlockZero => 3#8), op⟩)

/-- A few words written out from the opcode map (30_encoding.md R101, R105). -/
def Obligations.WrittenOutWordsDecode : Prop :=
  decode 0x00000000#32 = .ok .nop ∧ decode 0x00000003#32 = .ok .algSetkey ∧ decode 0x00000010#32 = .ok .encrypt ∧
  decode 0x0000001D#32 = .ok .sdecData ∧ decode 0x00000021#32 = .ok .gfCube ∧
  decode 0x00100230#32 = .ok (.pad 2#3 16#8) ∧ decode 0x00FF0730#32 = .ok (.pad 7#3 255#8) ∧
  decode 0x00000131#32 = .ok (.unpad 1#3)

/-! ## The step -/

/-- A word on CMD is the command it decodes to, run on the inputs as they stand (10_state.md R25, R50). The steps'
arrangement, one bus access a step and the command completing in the step that accepts it where no delay is given, is
the model's (log 1, log 2); so is withFetchWord (log 1). -/
def Obligations.StepRunsTheDecodedCommand : Prop :=
  (∀ (s : State) (w : Word32) (i : Instr) (rest : List Input), decode w = .ok i →
    s.running = none → s.inReset = false → s.delays.headD 0 = 0 →
    s.inbox = .bus ⟨s.build.base + 0x00C, .w32, .write w⟩ :: rest →
    step s = exec i { s with
      inbox := rest, delays := s.delays.tail, resp := some ⟨false, 0#32⟩
      running := some ⟨w, s.args, s.buf, [], 0⟩ }) ∧
  ∀ (s : State) (w : Word32) (i : Instr), decode w = .ok i →
    step (s.withFetchWord 32 w.toNat) = exec i { s with
      inReset := false, resp := some ⟨false, 0#32⟩, running := some ⟨w, s.args, s.buf, [], 0⟩ }

/-- A command with a delay: accepted with its inputs latched, BUSY until its time has come, then run (10_state.md R25,
R50). That a delay is a count of steps is the model's (log 2). -/
def Obligations.DelayedCommandsRunWhenTheirTimeComes : Prop :=
  (∀ (s : State) (w : Word32) (i : Instr) (rest : List Input) (d : Nat) (ds : List Nat), decode w = .ok i →
    s.running = none → s.inReset = false → s.delays = (d + 1) :: ds →
    s.inbox = .bus ⟨s.build.base + 0x00C, .w32, .write w⟩ :: rest →
    step s = .next { s with
      inbox := rest, delays := ds, resp := some ⟨false, 0#32⟩, running := some ⟨w, s.args, s.buf, [], d + 1⟩ }) ∧
  (∀ (s : State) (r : Running) (d : Nat), s.running = some r → r.left = d + 2 → s.inbox = [] →
    step s = .next { s with running := some { r with left := d + 1 } }) ∧
  ∀ (s : State) (r : Running) (i : Instr), s.running = some r → r.left ≤ 1 → decode r.word = .ok i → s.inbox = [] →
    step s = exec i { s with running := some { r with left := 0 } }

/-- The core never stops: every command error and every bus error is a next state (60_exceptions.md R409), and no step
changes a build parameter, so ID and PARAM are constants (10_state.md R22, R38). -/
def Obligations.EveryStepAnswersNextOfTheSameBuild : Prop :=
  ∀ s : State, ∃ t, step s = .next t ∧ t.build = s.build ∧ t.regRead .id = 0x43590007#32 ∧
    t.regRead .param = s.regRead .param

/-- The invariant of Safety.lean is kept by every step from every state (10_state.md R44, R45; 48_streaming.md R371;
60_exceptions.md R400 to R402; 70_reset_and_hazards.md R450). -/
def Obligations.EveryStepKeepsTheInvariant : Prop :=
  ∀ s t : State, s.Inv → step s = .next t → t.Inv

/-- The reset state of every build meets the invariant, State.reset among them. -/
def Obligations.ResetMeetsTheInvariant : Prop :=
  (∀ b : Build, (State.resetOf b).Inv) ∧ State.reset.Inv

/-! ## Reset -/

/-- Every register of the map reads its reset value, on every build, and nothing is valid, open, busy or pending
(70_reset_and_hazards.md R450). That BUF, which has no reset value, reads the unspecified bytes of the first power-on
is log 4. -/
def Obligations.ResetGivesEveryRegisterItsValue : Prop :=
  ∀ b : Build,
    let s := State.resetOf b
    s.regRead .id = 0x43590007#32 ∧
    (∀ r : Reg, r ≠ .id → r ≠ .param → s.regRead r = 0#32) ∧
    (s.regRead .param).extractLsb' 0 8 = BitVec.ofNat 8 b.rc5Rounds.val ∧
    2 ^ ((s.regRead .param).extractLsb' 8 8).toNat = b.bufBytes ∧
    ((s.regRead .param).getLsbD 16 = true ↔ b.tables = .ref) ∧ (s.regRead .param).extractLsb' 17 15 = 0#15 ∧
    s.args.key = Vector.replicate 32 0#8 ∧ s.args.iv = Vector.replicate 16 0#8 ∧
    s.session = .none ∧ s.stream = 0#2 ∧ s.busy = false ∧ s.irq = false

/-- The first command after reset, on every build (70_reset_and_hazards.md R451, the spec's own inference: "derived: from
rule R450 and the command rules"). -/
def Obligations.FirstCommandsAfterReset : Prop :=
  ∀ b : Build,
    let s := State.resetOf b
    exec .encrypt s = .next (s.raised 0x10#8 ⟨.noContext, 1#8, 0#8⟩) ∧
    exec .decrypt s = .next (s.raised 0x11#8 ⟨.noContext, 1#8, 0#8⟩) ∧
    exec .sencBegin s = .next (s.raised 0x18#8 ⟨.noContext, 1#8, 0#8⟩) ∧
    exec .sdecBegin s = .next (s.raised 0x1C#8 ⟨.noContext, 1#8, 0#8⟩) ∧
    exec .blkEnc s = .next (s.raised 0x08#8 ⟨.notKeyed, 1#8, 0#8⟩) ∧
    exec .blkDec s = .next (s.raised 0x09#8 ⟨.notKeyed, 1#8, 0#8⟩) ∧
    exec .fEval s = .next (s.raised 0x0A#8 ⟨.blockLength, 2#8, 0#8⟩) ∧
    exec .sencData s = .next (s.raised 0x19#8 ⟨.streamState, 1#8, 0#8⟩) ∧
    exec .sencEnd s = .next (s.raised 0x1A#8 ⟨.streamState, 1#8, 0#8⟩) ∧
    exec .sdecData s = .next (s.raised 0x1D#8 ⟨.streamState, 1#8, 0#8⟩) ∧
    exec .sdecEnd s = .next (s.raised 0x1E#8 ⟨.streamState, 1#8, 0#8⟩) ∧
    exec .gfMul s = .next (s.raised 0x20#8 ⟨.gfWidth, 1#8, 0#8⟩) ∧
    exec .gfCube s = .next (s.raised 0x21#8 ⟨.gfWidth, 1#8, 0#8⟩) ∧
    exec .ctxInit s = .next (s.raised 0x01#8 ⟨.invalidBlockSize, 1#8, 0#8⟩) ∧
    (s.raised 0x01#8 ⟨.invalidBlockSize, 1#8, 0#8⟩).status = 0x00010402#32 ∧
    exec .algSetkey s = .next (s.raised 0x03#8 ⟨.invalidKeySize, 2#8, 0#8⟩) ∧
    exec .nop s = .next (s.completed 0x00#8 0) ∧ exec .ctxClear s = .next (s.completed 0x02#8 0) ∧
    exec .streamAbort s = .next (s.completed 0x1F#8 0) ∧
    exec .sbox1 s = .next ({ s with gfRes := 0x27#32 }.completed 0x22#8 0) ∧
    (b.s2Modulus = 0xA7 → exec .sbox2 s = .next ({ s with gfRes := 0xD7#32 }.completed 0x23#8 0))

/-- CTRL.SRST: the bus write completes, every register and the session are at their reset values, BUF keeps every byte
but those the abandoned command could have written, and a write of 0 to the bit has no effect (70_reset_and_hazards.md
R452). -/
def Obligations.SoftResetKeepsOnlyBuf : Prop :=
  ∀ (s : State) (v : Word32) (rest : List Input), s.inReset = false →
    s.inbox = .bus ⟨s.build.base + 0x004, .w32, .write v⟩ :: rest →
    (v.getLsbD 0 = true → ∃ m k,
      step s = .next { State.resetOf s.build with
        buf := m, inbox := rest, resp := some ⟨false, 0#32⟩, ent := s.ent, delays := s.delays, free := k } ∧
      ∀ a, (s.running = none ∨ a < s.dst ∨ s.dst + s.runningMaxOut ≤ a) → m.read a = s.buf.read a) ∧
    (v.getLsbD 0 = false → s.running = none →
      step s = .next { s with inbox := rest, resp := some ⟨false, 0#32⟩ })

/-- The reset input: asserted, it puts the core into its reset state at once, even in the cycle in which a command would
complete; while it is asserted every access is lost; released, it leaves that state (70_reset_and_hazards.md R450,
R455; 60_exceptions.md R413). -/
def Obligations.ResetInputWinsAndHolds : Prop :=
  (∀ (s : State) (rest : List Input), s.inbox = .rst true :: rest →
    step s = .next { State.resetOf s.build with
      buf := ⟨[], s.buf.era + 1⟩, inReset := true
      inbox := rest, resp := s.resp, ent := s.ent, delays := s.delays, free := s.free }) ∧
  (∀ (s : State) (a : Access) (rest : List Input), s.inReset = true → s.running = none →
    s.inbox = .bus a :: rest →
    ∃ r k, step s = .next { s with inbox := rest, resp := r, free := k }) ∧
  ∀ (s : State) (rest : List Input), s.running = none → s.inbox = .rst false :: rest →
    step s = .next { s with inbox := rest, inReset := false }

/-! ## Completion and errors -/

/-- complete(outlen) and raise E(s, v): the writes of 60_exceptions.md R400 and R401, all at once, and no other. -/
def Obligations.CompletionAndErrorWrites : Prop :=
  (∀ (s : State) (op : Byte) (n : Nat), s.complete op n = .next { s with
    running := none, err := false, errcode := 0x00#8, lastop := op, errinfo := 0#32, outlen := BitVec.ofNat 32 n
    intStatus := s.intStatus ||| 0b001#3 }) ∧
  ∀ (s : State) (op : Byte) (e : CmdError), s.raise op e = .next { s with
    running := none, err := true, errcode := e.name.code, lastop := op
    errinfo := (e.info.setWidth 32 <<< 8) ||| e.sub.setWidth 32, outlen := 0#32
    intStatus := s.intStatus ||| 0b011#3 }

/-- After an error everything is as it was but the error's writes and what the command wrote before: the invalidation of
CTX_INIT and ALG_SETKEY, the stream closed by SENC_END and SDEC_END, the padded plaintext of DECRYPT and SDEC_END, which
lies in [DST, DST + MAXOUT) (60_exceptions.md R401). The answers drawn from the entropy source and the counts are the model's (log 10, log 17). -/
def Obligations.ErrorsChangeNothingElse : Prop :=
  ∀ (i : Instr) (s t : State), exec i s = .next t → t.err = true →
    (∃ e : CmdError, t.errcode = e.name.code ∧
      t.errinfo = (e.info.setWidth 32 <<< 8) ||| e.sub.setWidth 32) ∧
    t.lastop = i.op ∧ t.outlen = 0#32 ∧ t.intStatus = s.intStatus ||| 0b011#3 ∧ t.running = none ∧
    t.build = s.build ∧ t.args = s.args ∧ t.gfRes = s.gfRes ∧ t.intEnable = s.intEnable ∧ t.inReset = s.inReset ∧
    t.inbox = s.inbox ∧ t.resp = s.resp ∧ t.delays = s.delays ∧
    (i ≠ .ctxInit → i ≠ .algSetkey → i ≠ .sencEnd → i ≠ .sdecEnd → t.session = s.session) ∧
    (i = .ctxInit ∨ i = .algSetkey → t.session = .none) ∧
    (i = .sencEnd ∨ i = .sdecEnd →
      t.session = if t.errcode = 0x11#8 then s.session else s.session.closeStream) ∧
    (t.errcode = 0x0B#8 ∧ (i = .decrypt ∨ i = .sdecEnd) ∨ t.buf = s.buf) ∧
    ∀ a, a < s.dst ∨ s.dst + maxOutOf i s ≤ a → t.buf.read a = s.buf.read a

/-- A command writes BUF only in [DST, DST + MAXOUT), takes every operand from the latched inputs, and writes no register
beyond those its rule names and the completion writes (10_state.md R51, R50). -/
def Obligations.CommandsWriteOnlyTheirRange : Prop :=
  ∀ (i : Instr) (s t : State), s.Inv → exec i s = .next t →
    (∀ a, a < s.dst ∨ s.dst + maxOutOf i s ≤ a → t.buf.read a = s.buf.read a) ∧
    t.build = s.build ∧ t.args = s.args ∧ t.intEnable = s.intEnable ∧ t.inReset = s.inReset ∧ t.inbox = s.inbox ∧
    t.resp = s.resp ∧ t.delays = s.delays ∧ t.running = none ∧ t.lastop = i.op ∧
    (t.err = false → t.errcode = 0x00#8 ∧ t.errinfo = 0#32 ∧ t.intStatus = s.intStatus ||| 0b001#3) ∧
    (i ≠ .gfMul → i ≠ .gfCube → i ≠ .sbox1 → i ≠ .sbox2 → t.gfRes = s.gfRes) ∧
    ∀ x : Args, s.running.isSome = true → exec i { s with args := x } = .next { t with args := x }

/-- ALGI changes only by CTX_INIT, ALG_SETKEY, CTX_CLEAR and reset, and CTX only by those: every other command leaves
both, and a step that runs none of them and sees no reset leaves both (44_block_commands.md R257, 45_context.md R285,
70_reset_and_hazards.md R465, which the spec marks as its own inferences: "derived: from rule R255, rule R256"). -/
def Obligations.OnlySetupCommandsAndResetChangeTheKey : Prop :=
  (∀ (i : Instr) (s t : State), i ≠ .ctxInit → i ≠ .algSetkey → i ≠ .ctxClear → exec i s = .next t →
    t.session.algi = s.session.algi ∧ t.session.ctx = s.session.ctx) ∧
  ∀ s t : State, step s = .next t → t.session.algi ≠ s.session.algi ∨ t.session.ctx ≠ s.session.ctx →
    (∃ l rest, s.inbox = .rst l :: rest) ∨
    (∃ v rest, s.inbox = .bus ⟨s.build.base + 0x004, .w32, .write v⟩ :: rest ∧ v.getLsbD 0 = true) ∨
    (∃ w : Word32, (decode w = .ok .ctxInit ∨ decode w = .ok .algSetkey ∨ decode w = .ok .ctxClear) ∧
      ((∃ r, s.running = some r ∧ r.word = w) ∨
        ∃ rest, s.inbox = .bus ⟨s.build.base + 0x00C, .w32, .write w⟩ :: rest))

/-- ENCRYPT, DECRYPT, BLK_ENC, BLK_DEC, F_EVAL, PAD, UNPAD, the GF commands and NOP may be issued whatever stream is open:
they neither read nor write STR; CTX_INIT, CTX_CLEAR, ALG_SETKEY and STREAM_ABORT close any stream, SENC_END an open
encryption stream and SDEC_END an open decryption stream, whether they succeed or not (48_streaming.md R381, R374, R378,
R380). -/
def Obligations.OtherCommandsLeaveTheStream : Prop :=
  (∀ (i : Instr) (s : State),
    (i ∈ [.nop, .blkEnc, .blkDec, .fEval, .encrypt, .decrypt, .gfMul, .gfCube, .sbox1, .sbox2] ∨
      (∃ psel pbs, i = .pad psel pbs) ∨ ∃ psel, i = .unpad psel) →
    ∃ t, exec i s = .next t ∧ t.session = s.session ∧
      ∀ a c x y, s.session = .context a c x →
        exec i { s with session := .context a c y } = .next { t with session := .context a c y }) ∧
  (∀ (i : Instr) (s : State), i = .ctxInit ∨ i = .ctxClear ∨ i = .algSetkey ∨ i = .streamAbort →
    ∃ t, exec i s = .next t ∧ t.session.str = .idle ∧ t.stream = 0#2) ∧
  ∀ (s : State) (a : Algi) (c : Ctx) (d : StrData),
    (s.session = .context a c (.enc d) →
      ∃ t, exec .sencEnd s = .next t ∧ t.session = .context a c .idle ∧ t.stream = 0#2) ∧
    (s.session = .context a c (.dec d) →
      ∃ t, exec .sdecEnd s = .next t ∧ t.session = .context a c .idle ∧ t.stream = 0#2)

/-! ## Commands without data -/

/-- NOP, CTX_CLEAR and STREAM_ABORT always succeed: NOP changes nothing beyond its completion, CTX_CLEAR discards the
instance, the context and the stream but not the KEY and IV windows, STREAM_ABORT closes the stream and keeps the context
(45_context.md R280, R284; 48_streaming.md R380). -/
def Obligations.NopClearAndAbortComplete : Prop :=
  (decode 0x00000000#32 = .ok .nop ∧ ∀ s : State, exec .nop s = .next (s.completed 0x00#8 0)) ∧
  (decode 0x00000002#32 = .ok .ctxClear ∧
    ∀ s : State, exec .ctxClear s = .next ({ s with session := .none }.completed 0x02#8 0)) ∧
  decode 0x0000001F#32 = .ok .streamAbort ∧
  (∀ s : State, s.session.ctx = none → exec .streamAbort s = .next (s.completed 0x1F#8 0)) ∧
  ∀ (s : State) (a : Algi) (c : Ctx) (str : Str), s.session = .context a c str →
    exec .streamAbort s = .next ({ s with session := .context a c .idle }.completed 0x1F#8 0)

/-! ## GF arithmetic -/

/-- GF_MUL: the operands masked to WIDTH bits, the product of the shift-and-add algorithm in GF_RES; GF_WIDTH outside 1 to
16; and the corner cases of the rule (40_gf_arith.md R136). That the result is below 2^32, which the spec marks as its own
inference, is in GfProductIsThePolynomialProduct. -/
def Obligations.GfMulMultiplies : Prop :=
  decode 0x00000020#32 = .ok .gfMul ∧
  (∀ s : State,
    let n := s.opnd.gfCfg.toNat
    (n < 1 ∨ 16 < n → exec .gfMul s = .next (s.raised 0x20#8 ⟨.gfWidth, 1#8, BitVec.ofNat 8 n⟩)) ∧
    (1 ≤ n → n ≤ 16 → exec .gfMul s = .next ({ s with
      gfRes := BitVec.ofNat 32 (gfMul (s.opnd.gfA.toNat % 2 ^ n) (s.opnd.gfB.toNat % 2 ^ n) s.opnd.gfMod.toNat n)
      }.completed 0x20#8 0))) ∧
  (∀ b m n, gfMul 0 b m n = 0) ∧
  (∀ a m n, gfMul a 0 m n = 0 ∧ gfMul a 1 m n = a) ∧
  (∀ a b n, a < 2 ^ 16 → b < 2 ^ 16 → gfMul a b 0 n =
    ((List.range 16).filter b.testBit).foldl (fun p k => p ^^^ (a <<< k)) 0) ∧
  gfMul 0x57 0x83 0x11B 8 = 0xC1

/-- GF_CUBE: GF_A masked to WIDTH bits, squared and multiplied by itself, the low 32 bits of the cube in GF_RES; GF_B is
not read; GF_WIDTH outside 1 to 16; and the corner cases of the rule (40_gf_arith.md R137). The bounds on the square and
the cube are in GfProductIsThePolynomialProduct. -/
def Obligations.GfCubeCubes : Prop :=
  decode 0x00000021#32 = .ok .gfCube ∧
  (∀ s : State,
    let n := s.opnd.gfCfg.toNat
    let x := s.opnd.gfA.toNat % 2 ^ n
    (n < 1 ∨ 16 < n → exec .gfCube s = .next (s.raised 0x21#8 ⟨.gfWidth, 1#8, BitVec.ofNat 8 n⟩)) ∧
    (1 ≤ n → n ≤ 16 → exec .gfCube s =
      .next ({ s with
        gfRes := BitVec.ofNat 32 (gfMul (gfMul x x s.opnd.gfMod.toNat n) x s.opnd.gfMod.toNat n) }.completed 0x21#8 0))) ∧
  (∀ m n, gfCube 0 m n = 0 ∧ (1 ≤ n → gfCube 1 m n = 1)) ∧ gfCube 0x1000 0x2911 13 = 0x5A5

/-- SBOX1 and SBOX2 always succeed: the complement of the low 13 or 11 bits of GF_A, cubed in the box's field, its low
byte in GF_RES; no higher bit of GF_A, no other operand matters (40_gf_arith.md R135, R138, R139). -/
def Obligations.SboxCommandsLookUp : Prop :=
  decode 0x00000022#32 = .ok .sbox1 ∧ decode 0x00000023#32 = .ok .sbox2 ∧
  (∀ s : State, exec .sbox1 s = .next ({ s with
    gfRes := BitVec.ofNat 32 (gfCube (8191 - s.opnd.gfA.toNat % 8192) 0x2911 13 % 256) }.completed 0x22#8 0)) ∧
  (∀ s : State, exec .sbox2 s = .next ({ s with
    gfRes := BitVec.ofNat 32 (gfCube (2047 - s.opnd.gfA.toNat % 2048) s.build.s2Modulus 11 % 256) }.completed 0x23#8 0)) ∧
  sboxS1 0x1FFF#13 = 0#8 ∧ (∀ m, sboxS2 m 0x7FF#11 = 0#8) ∧ sboxS1 0#13 = 0x27#8 ∧ sboxS2 0xA7 0#11 = 0xD7#8 ∧
  ∃ x : BitVec 11, 2 ^ 11 ≤ gfCube (x ^^^ 0x7FF#11).toNat 0xA7 11

/-- GF_MUL, GF_CUBE, SBOX1 and SBOX2 end in any state, and neither read nor write BUF, ALGI, CTX or STR
(40_gf_arith.md R140). -/
def Obligations.GfCommandsTouchNothingElse : Prop :=
  ∀ (i : Instr) (s : State), i = .gfMul ∨ i = .gfCube ∨ i = .sbox1 ∨ i = .sbox2 →
    ∃ t, exec i s = .next t ∧ t.buf = s.buf ∧ t.session = s.session ∧
      (∀ (m : Memory) (x : Session),
        exec i { s with buf := m, session := x } = .next { t with buf := m, session := x }) ∧
      ∀ (r : Running) (m : Memory), s.running = some r →
        exec i { s with running := some { r with view := m } } = .next t

/-- gf_mul is multiplication in GF(2)[x] modulo m where m has degree n; where it has not, bit n survives the reduction
step, and with S2's 0xA7 products leave the field, are bounded, and do not commute; and what GF_MUL and GF_CUBE compute is
below 2^32 and 2^47. All of it is the spec's own inference: "derived: from rule R132 and rule R133" (40_gf_arith.md R134,
and R136, R137). -/
def Obligations.GfProductIsThePolynomialProduct : Prop :=
  let poly : Nat → Polynomial (ZMod 2) := fun v =>
    ∑ k ∈ Finset.range v, if v.testBit k then (Polynomial.X : Polynomial (ZMod 2)) ^ k else 0
  (∀ n m a b, 2 ^ n ≤ m → m < 2 ^ (n + 1) → a < 2 ^ n → b < 2 ^ n →
    gfShift a m n < 2 ^ n ∧ gfMul a b m n < 2 ^ n ∧ gfMul a b m n = gfMul b a m n ∧
    poly m ∣ poly (gfMul a b m n) - poly a * poly b) ∧
  (∀ n m a, m.testBit n = false → (gfShift a m n).testBit n = (2 * a).testBit n) ∧
  (∀ n m a b, n ≤ 16 → m < 2 ^ 17 → a < 2 ^ n → b < 2 ^ n → gfMul a b m n < 2 ^ 32 ∧ gfCube a m n < 2 ^ 47) ∧
  (∀ a b, a < 2 ^ 11 → b < 2 ^ 11 → gfMul a b 0xA7 11 < 2 ^ 22) ∧ (∀ a, a < 2 ^ 11 → gfCube a 0xA7 11 < 2 ^ 33) ∧
  (∃ a b, a < 2 ^ 11 ∧ b < 2 ^ 11 ∧ 2 ^ 11 ≤ gfMul a b 0xA7 11) ∧
  ∃ a b, a < 2 ^ 11 ∧ b < 2 ^ 11 ∧ gfMul a b 0xA7 11 ≠ gfMul b a 0xA7 11

/-! ## The Feistel cipher -/

/-- KP swaps bits j of the two halves of A exactly where bit j of B is 1, E's output bit 95 - j is x[E[j]], P's output bit
63 - j is x[P[j]], for any tables (41_feistel.md R163, R167, and R162, which the spec marks "derived: from the quoted
sentence"). -/
def Obligations.FeistelBitSelections : Prop :=
  (∀ (a b : Word64) (j : Nat), j < 32 →
    (feKP a b).getLsbD j = (if b.getLsbD j then a.getLsbD (j + 32) else a.getLsbD j) ∧
    (feKP a b).getLsbD (j + 32) = (if b.getLsbD j then a.getLsbD j else a.getLsbD (j + 32))) ∧
  (∀ (p : FeParams) (x : Word64) (j : Fin 96), (feE p x).getLsbD (95 - j.val) = x.getLsbD p.expansion[j].val) ∧
  ∀ (p : FeParams) (x : Word64) (j : Fin 64), (feP p x).getLsbD (63 - j.val) = x.getLsbD (p.permutation j).val

/-- fe_add and fe_sub: with carries modulo 2^64, or byte by byte without (41_feistel.md R161). -/
def Obligations.FeistelAdditionsOfBothKinds : Prop :=
  ∀ x y : Word64, (feAdd .carry64 x y).toNat = (x.toNat + y.toNat) % 2 ^ 64 ∧
    (feSub .carry64 x y).toNat = (x.toNat + 2 ^ 64 - y.toNat) % 2 ^ 64 ∧
    ∀ k, k < 8 →
      (feAdd .bytewise x y).extractLsb' (8 * k) 8 = x.extractLsb' (8 * k) 8 + y.extractLsb' (8 * k) 8 ∧
      (feSub .bytewise x y).extractLsb' (8 * k) 8 = x.extractLsb' (8 * k) 8 - y.extractLsb' (8 * k) 8

/-- The two S-box layers, box by box: fields from the top, S1 and S2 in turn, the keyed layer's high input bits from
B[63:32] (41_feistel.md R164, R165, R166). -/
def Obligations.FeistelSboxLayers : Prop :=
  ∀ (p : FeParams) (k : Nat), k < 4 →
    (∀ e : BitVec 96,
      (feSa p e).extractLsb' (56 - 16 * k) 8 = sboxS1 (e.extractLsb' (83 - 24 * k) 13) ∧
      (feSa p e).extractLsb' (48 - 16 * k) 8 = sboxS2 p.s2Modulus (e.extractLsb' (72 - 24 * k) 11)) ∧
    ∀ y b : Word64,
      (feSb p y b).extractLsb' (56 - 16 * k) 8 =
        sboxS1 (b.extractLsb' (59 - 8 * k) 5 ++ y.extractLsb' (56 - 16 * k) 8) ∧
      (feSb p y b).extractLsb' (48 - 16 * k) 8 =
        sboxS2 p.s2Modulus (b.extractLsb' (56 - 8 * k) 3 ++ y.extractLsb' (48 - 16 * k) 8)

/-- The 48 subkeys in closed form: the registers rotate with period 4 from the seeds, and the three subkeys of the 16
rounds are all of them, once each (41_feistel.md R170, R171, R172; the last clause is R174, which the spec marks "derived:
from the quoted sentence and rule R172"). -/
def Obligations.FeistelSubkeys : Prop :=
  (∀ (p : FeParams) (key : List Byte),
    let ka : Word64 := BitVec.ofNat 64 (beNat (key.take 8))
    let kb : Word64 := BitVec.ofNat 64 (beNat (key.drop 8))
    let seed : Nat → Word64 := fun n => [feF p ka kb, feF p kb ka, kb, ka].getD (n % 4) 0
    (feSchedule p key).length = 48 ∧ ∀ i, i < 48 →
      (feSchedule p key)[i]? = some (seed (4 - i % 4) ^^^
        feF p (feAdd p.add (feAdd p.add (seed (4 - i % 4)) (seed (6 - i % 4))) (BitVec.ofNat 64 (0x9E3779B9 * i)))
          (seed (5 - i % 4)))) ∧
  ∀ sched : List Word64, sched.length = 48 →
    ((List.range' 1 16).flatMap fun i =>
      [(feRoundKeys sched i).1, (feRoundKeys sched i).2.1, (feRoundKeys sched i).2.2]).Perm sched

/-! ## RC5 and the ciphers' inverses -/

/-- The RC5 key words hold the key bytes least significant first, filled up with 0; the array starts as the arithmetic
series of the magic constants (42_rc5.md R204; R202, whose constants are "from general knowledge, not in source"; R203,
which the spec marks "derived: from packed little-endian"). -/
def Obligations.Rc5ArraysBeforeMixing : Prop :=
  ∀ (w : WordSize) (key : List Byte),
    let u := w.bits / 8
    let c := (key.length + u - 1) / u
    let pq : Nat × Nat := match w with
      | .w16 => (0xB7E1, 0x9E37)
      | .w32 => (0xB7E15163, 0x9E3779B9)
      | .w64 => (0xB7E151628AED2A6B, 0x9E3779B97F4A7C15)
    (rc5L w key).length = c ∧
    (∀ k v, k < c * u → (rc5L w key)[k / u]? = some v →
      v.toNat / 256 ^ (k % u) % 256 = ((key[k]?).getD 0#8).toNat) ∧
    ∀ r i, i < 2 * (r + 1) → ((rc5S0 w (rc5T r))[i]?).map BitVec.toNat = some ((pq.1 + i * pq.2) % 2 ^ w.bits)

/-- Each cipher's decryption undoes its encryption, for every schedule, every value of the OPEN tables and functions, every
addition, word size and number of rounds (the spec's own inferences 41_feistel.md R177, "derived: from rule R175 and rule
R176", 42_rc5.md R208 and 43_sp_cipher.md R239). -/
def Obligations.EveryCipherDecryptsItsEncryption : Prop :=
  (∀ (p : FeParams) (sched : List Word64) (x : List Byte), x.length = 16 →
    feDecrypt p sched (feEncrypt p sched x) = x) ∧
  (∀ (r : Nat) (w : WordSize) (sched : List Word64) (x : List Byte), x.length = 2 * w.bytes →
    rc5Decrypt r w sched (rc5Encrypt r w sched x) = x) ∧
  ∀ (p : SpParams) (ks : List Word64) (x : List Byte), x.length = 16 → spDecrypt p ks (spEncrypt p ks x) = x

/-! ## Keys and contexts -/

/-- ALG_SETKEY: the errors in their order, each leaving no instance; otherwise the keyed instance with the schedule of
KEY[0..KEYLEN), no context and no stream (44_block_commands.md R256). -/
def Obligations.AlgSetkeyKeysTheInstance : Prop :=
  decode 0x00000003#32 = .ok .algSetkey ∧
  ∀ s : State,
    let cfg := s.opnd.cfg
    let k := s.opnd.keylen.toNat
    let x : State := { s with session := .none }
    (2 < cfg.alg.toNat → Raises .algSetkey s x 0x03#8 ⟨.unsupportedAlg, 1#8, cfg.alg.setWidth 8⟩) ∧
    (cfg.alg = 1#3 → cfg.rc5w = 3#2 → Raises .algSetkey s x 0x03#8 ⟨.unsupportedWordSize, 1#8, 3#8⟩) ∧
    ∀ kind, cfg.Selects kind →
      (32 < k → Raises .algSetkey s x 0x03#8 ⟨.invalidKeySize, 4#8, BitVec.ofNat 8 k⟩) ∧
      (k ≤ 32 → kind = .feistel → k ≠ 16 → Raises .algSetkey s x 0x03#8 ⟨.invalidKeySize, 2#8, BitVec.ofNat 8 k⟩) ∧
      (kind ≠ .feistel → k = 0 → Raises .algSetkey s x 0x03#8 ⟨.invalidKeySize, 3#8, 0#8⟩) ∧
      (1 ≤ k → k ≤ 32 → (kind = .feistel → k = 16) → exec .algSetkey s = .next ({ s with
        session := .keyed ⟨kind, s.opnd.key.toList.take k, scheduleOf s.build kind (s.opnd.key.toList.take k)⟩
        }.completed 0x03#8 0))

/-- CTX_INIT: the errors in their order, each leaving no instance and no context; otherwise both, with no stream open
(45_context.md R282, R281, R283). That CTX.iv is empty in ECB and RANDOM_DELTA, where no rule reads it, is the model's choice
(log 13). -/
def Obligations.CtxInitBuildsTheContext : Prop :=
  decode 0x00000001#32 = .ok .ctxInit ∧
  ∀ s : State,
    let a := s.opnd
    let k := a.keylen.toNat
    let fails : CmdError → Prop := Raises .ctxInit s { s with session := .none } 0x01#8
    (2 < a.cfg.alg.toNat → fails ⟨.unsupportedAlg, 1#8, a.cfg.alg.setWidth 8⟩) ∧
    (a.cfg.alg = 1#3 → a.cfg.rc5w = 3#2 → fails ⟨.unsupportedWordSize, 1#8, 3#8⟩) ∧
    ∀ kind, a.cfg.Selects kind →
      (a.cfg.mode = 7#3 → fails ⟨.unsupportedMode, 1#8, 7#8⟩) ∧
      ∀ mode : Mode, a.cfg.mode = mode.tag →
        (3 < a.cfg.pad.toNat → fails ⟨.unsupportedPadding, 1#8, a.cfg.pad.setWidth 8⟩) ∧
        ∀ pad : PadScheme, a.cfg.pad = pad.tag →
          (a.cfg.bs.toNat ≠ kind.bs → fails ⟨.invalidBlockSize, 1#8, a.cfg.bs⟩) ∧
          (a.cfg.bs.toNat = kind.bs →
            (32 < k → fails ⟨.invalidKeySize, 4#8, BitVec.ofNat 8 k⟩) ∧
            (k ≤ 32 → k ∉ [16, 24, 32, kind.bs] → fails ⟨.invalidKeySize, 1#8, BitVec.ofNat 8 k⟩) ∧
            (k ∈ [16, 24, 32, kind.bs] → kind = .feistel → k ≠ 16 →
              fails ⟨.invalidKeySize, 2#8, BitVec.ofNat 8 k⟩) ∧
            (k ∈ [16, 24, 32, kind.bs] → (kind = .feistel → k = 16) →
              (mode.chained = true → a.ivlen.toNat ≠ kind.bs →
                fails ⟨.invalidIvSize, 1#8, BitVec.ofNat 8 a.ivlen.toNat⟩) ∧
              ((mode.chained = true → a.ivlen.toNat = kind.bs) → exec .ctxInit s = .next ({ s with
                session := .context ⟨kind, a.key.toList.take k, scheduleOf s.build kind (a.key.toList.take k)⟩
                  ⟨mode, pad, if mode.chained then a.iv.toList.take kind.bs else []⟩ .idle }.completed 0x01#8 0))))

/-! ## Single blocks -/

/-- BLK_ENC: NOT_KEYED, BLOCK_LENGTH, BUFFER_RANGE in that order; otherwise one block encrypted at DST
(44_block_commands.md R258). -/
def Obligations.BlkEncEncryptsOneBlock : Prop :=
  decode 0x00000008#32 = .ok .blkEnc ∧
  ∀ s : State,
    (s.session.algi = none → Raises .blkEnc s s 0x08#8 ⟨.notKeyed, 1#8, 0#8⟩) ∧
    ∀ a, s.session.algi = some a →
      (s.len ≠ a.kind.bs → Raises .blkEnc s s 0x08#8 ⟨.blockLength, 1#8, BitVec.ofNat 8 (min s.len 255)⟩) ∧
      (s.len = a.kind.bs →
        RangeErrors .blkEnc s s 0x08#8 a.kind.bs ∧
        (s.InRange a.kind.bs →
          Succeeds .blkEnc s s 0x08#8 (algEnc s.build a (s.memRead s.src a.kind.bs)) a.kind.bs))

/-- BLK_DEC: as BLK_ENC, with DEC (44_block_commands.md R259). -/
def Obligations.BlkDecDecryptsOneBlock : Prop :=
  decode 0x00000009#32 = .ok .blkDec ∧
  ∀ s : State,
    (s.session.algi = none → Raises .blkDec s s 0x09#8 ⟨.notKeyed, 1#8, 0#8⟩) ∧
    ∀ a, s.session.algi = some a →
      (s.len ≠ a.kind.bs → Raises .blkDec s s 0x09#8 ⟨.blockLength, 1#8, BitVec.ofNat 8 (min s.len 255)⟩) ∧
      (s.len = a.kind.bs →
        RangeErrors .blkDec s s 0x09#8 a.kind.bs ∧
        (s.InRange a.kind.bs →
          Succeeds .blkDec s s 0x09#8 (algDec s.build a (s.memRead s.src a.kind.bs)) a.kind.bs))

/-- BLK_DEC of what BLK_ENC wrote gives back the input block, on every build and for every instance, wherever the buffers
lie (44_block_commands.md R260, the spec's own inference: "derived: from rule R258, rule R259"). The commands are run on
states with no command in progress, where they take the registers and BUF themselves: the model's (log 22). -/
def Obligations.BlkDecUndoesBlkEnc : Prop :=
  ∀ (s t : State) (d : Word32), s.running = none → exec .blkEnc s = .next t → t.err = false →
    d.toNat + t.outlen.toNat ≤ s.build.bufBytes →
    ∃ v, exec .blkDec { t with args := { t.args with src := s.args.dst, dst := d } } = .next v ∧ v.err = false ∧
      v.outlen = s.args.len ∧ v.session = s.session ∧
      v.buf.readN d.toNat s.args.len.toNat = s.buf.readN s.args.src.toNat s.args.len.toNat

/-- F_EVAL: BLOCK_LENGTH, BUFFER_RANGE; otherwise f of the two halves of the input, big-endian, whatever the key, the
context and the stream are (44_block_commands.md R261). -/
def Obligations.FEvalEvaluatesF : Prop :=
  decode 0x0000000A#32 = .ok .fEval ∧
  ∀ s : State,
    (s.len ≠ 16 → Raises .fEval s s 0x0A#8 ⟨.blockLength, 2#8, BitVec.ofNat 8 (min s.len 255)⟩) ∧
    (s.len = 16 →
      RangeErrors .fEval s s 0x0A#8 8 ∧
      (s.InRange 8 →
        Succeeds .fEval s s 0x0A#8
          (toBe 8 (feF s.build.fe (BitVec.ofNat 64 (beNat (s.memRead s.src 8)))
            (BitVec.ofNat 64 (beNat (s.memRead (s.src + 8) 8)))).toNat) 8))

/-! ## Padding -/

/-- unpad: ZEROS strips every trailing zero byte, the others trust the last byte after the checks on it, PKCS7 compares
every pad byte (46_padding.md R302). -/
def Obligations.UnpadRemovesWhatItTrusts : Prop :=
  (∀ x : List Byte, ∃ y k, unpad .zeros x = .ok y ∧ x = y ++ List.replicate k 0#8 ∧ y.getLast? ≠ some 0#8) ∧
  ∀ scheme, scheme ≠ .zeros →
    unpad scheme [] = .error ⟨.paddingError, 1#8, 0#8⟩ ∧
    ∀ (x : List Byte) (n : Byte),
      let d := x ++ [n]
      (n = 0#8 → unpad scheme d = .error ⟨.paddingError, 2#8, 0#8⟩) ∧
      (d.length < n.toNat → unpad scheme d = .error ⟨.paddingError, 3#8, n⟩) ∧
      (n ≠ 0#8 → n.toNat ≤ d.length →
        ((scheme ≠ .pkcs7 ∨ ∀ b ∈ d.drop (d.length - n.toNat), b = n) →
          unpad scheme d = .ok (d.take (d.length - n.toNat))) ∧
        (scheme = .pkcs7 → (∃ b ∈ d.drop (d.length - n.toNat), b ≠ n) →
          unpad scheme d = .error ⟨.paddingError, 4#8, n⟩))

/-- What pad appends, unpad removes, for every data, block size and answer of the entropy source; ZEROS exactly where the
data does not end in a zero byte, and then without the data's own trailing zeros (46_padding.md R303, the spec's own
inference: "derived: from rule R301 and rule R302"). -/
def Obligations.UnpadUndoesPad : Prop :=
  ∀ (s s' : State) (data x : List Byte) (bs : Nat) (scheme : PadScheme), 0 < bs → bs ≤ 255 →
    s.pad data bs scheme = (some x, s') →
    (scheme ≠ .zeros → unpad scheme x = .ok data) ∧
    (scheme = .zeros →
      (unpad scheme x = .ok data ↔ data.getLast? ≠ some 0#8) ∧
      ∀ y k, data = y ++ List.replicate k 0#8 → y.getLast? ≠ some 0#8 → unpad scheme x = .ok y)

/-- PAD: UNSUPPORTED_PADDING, BUFFER_RANGE, ENTROPY_FAILURE in that order; otherwise the data with its padding at DST, for
every scheme and block size (46_padding.md R306, R300, R301). -/
def Obligations.PadAppendsPadding : Prop :=
  decode 0x00100230#32 = .ok (.pad 2#3 16#8) ∧
  ∀ (psel : BitVec 3) (pbs : Byte) (s : State), pbs ≠ 0#8 →
    let i : Instr := .pad psel pbs
    let n := pbs.toNat - s.len % pbs.toNat
    let x := s.memRead s.src s.len
    (3 < psel.toNat → Raises i s s 0x30#8 ⟨.unsupportedPadding, 2#8, psel.setWidth 8⟩) ∧
    (psel.toNat ≤ 3 → RangeErrors i s s 0x30#8 (s.len + n)) ∧
    (s.InRange (s.len + n) →
      (psel = 0#3 → Succeeds i s s 0x30#8 (x ++ List.replicate n 0#8) (s.len + n)) ∧
      (psel = 1#3 → Succeeds i s s 0x30#8 (x ++ List.replicate (n - 1) 0#8 ++ [BitVec.ofNat 8 n]) (s.len + n)) ∧
      (psel = 2#3 → Succeeds i s s 0x30#8 (x ++ List.replicate n (BitVec.ofNat 8 n)) (s.len + n)) ∧
      (psel = 3#3 → n = 1 → Succeeds i s s 0x30#8 (x ++ [1#8]) (s.len + n)) ∧
      (psel = 3#3 → 1 < n →
        (∀ fill s', s.drawEnt (n - 1) = (some fill, s') →
          Succeeds i s s' 0x30#8 (x ++ fill ++ [BitVec.ofNat 8 n]) (s.len + n)) ∧
        ∀ s', s.drawEnt (n - 1) = (none, s') → Raises i s s' 0x30#8 ⟨.entropyFailure, 1#8, 0#8⟩))

/-- UNPAD: UNSUPPORTED_PADDING, BUFFER_RANGE, PADDING_ERROR in that order, none of them writing BUF; otherwise only the
bytes that remain are written (46_padding.md R307). -/
def Obligations.UnpadRemovesPadding : Prop :=
  decode 0x00000131#32 = .ok (.unpad 1#3) ∧
  ∀ (psel : BitVec 3) (s : State),
    (3 < psel.toNat → Raises (.unpad psel) s s 0x31#8 ⟨.unsupportedPadding, 2#8, psel.setWidth 8⟩) ∧
    ∀ scheme : PadScheme, psel = scheme.tag →
      RangeErrors (.unpad psel) s s 0x31#8 s.len ∧
      (s.InRange s.len →
        (∀ y, unpad scheme (s.memRead s.src s.len) = .ok y → Succeeds (.unpad psel) s s 0x31#8 y y.length) ∧
        ∀ e, unpad scheme (s.memRead s.src s.len) = .error e → Raises (.unpad psel) s s 0x31#8 e)

/-! ## Modes -/

/-- Each output block of every mode as an equation in the input blocks, the output blocks before it, the IV and the delta
block (47_modes.md R332 to R340; 46_padding.md for the padded buffer). -/
def Obligations.EncryptedBlocksChain : Prop :=
  ∀ (b : Build) (a : Algi) (c : Ctx) (d x : List Byte),
    let bs := a.kind.bs
    let y := (encBlocks (modeEnv b a c d) c.init x).1
    let xj := blockAt bs x
    let yj := blockAt bs y
    bs ∣ x.length → c.Ok bs → (c.mode = .randomDelta → d.length = bs) →
    y.length = x.length ∧ ∀ j, j < x.length / bs →
      yj j = match c.mode with
        | .ecb => algEnc b a (xj j)
        | .cbc => algEnc b a (xorb (xj j) (if j = 0 then c.iv else yj (j - 1)))
        | .pcbc => algEnc b a (xorb (xj j) (if j = 0 then c.iv else xorb (xj (j - 1)) (yj (j - 1))))
        | .cfb => xorb (xj j) (algEnc b a (if j = 0 then c.iv else yj (j - 1)))
        | .ofb => xorb (xj j) (algEnc b a (if j = 0 then c.iv else xorb (xj (j - 1)) (yj (j - 1))))
        | .ctr => xorb (xj j) (algEnc b a (toBe bs ((beNat c.iv + j) % 2 ^ (8 * bs))))
        | .randomDelta => addb (xj j) d

/-- The direction laws: CFB, OFB and CTR decrypt without DEC, OFB and CTR decrypt as they encrypt, and every mode's
decryption undoes its encryption (47_modes.md R342, the spec's own inference: "derived: from rules R332 to R337"). -/
def Obligations.ModesUndoThemselves : Prop :=
  ∀ (b : Build) (a : Algi) (c : Ctx) (d x : List Byte),
    let e := modeEnv b a c d
    a.kind.bs ∣ x.length → c.Ok a.kind.bs → (c.mode = .randomDelta → d.length = a.kind.bs) →
    (c.mode = .cfb ∨ c.mode = .ofb ∨ c.mode = .ctr →
      ∀ f, decBlocks { e with dec := f } c.init x = decBlocks e c.init x) ∧
    (c.mode = .ofb ∨ c.mode = .ctr → decBlocks e c.init x = encBlocks e c.init x) ∧
    (decBlocks e c.init (encBlocks e c.init x).1).1 = x

/-- ENCRYPT: NO_CONTEXT, BUFFER_RANGE, ENTROPY_FAILURE in that order, none of them writing BUF; otherwise the delta block
of RANDOM_DELTA and the padded plaintext through the mode from (CTX.iv, 0) (47_modes.md R345, R344, R346). -/
def Obligations.EncryptEncryptsTheBuffer : Prop :=
  decode 0x00000010#32 = .ok .encrypt ∧
  ∀ s : State,
    (s.session.ctx = none → Raises .encrypt s s 0x10#8 ⟨.noContext, 1#8, 0#8⟩) ∧
    ∀ a c str, s.session = .context a c str →
      let bs := a.kind.bs
      let n := bs - s.len % bs
      let maxOut := s.len + n + (if c.mode = .randomDelta then bs else 0)
      RangeErrors .encrypt s s 0x10#8 maxOut ∧
      (s.InRange maxOut →
        (∀ s1, s.drawFill c.pad n = (none, s1) → Raises .encrypt s s1 0x10#8 ⟨.entropyFailure, 1#8, 0#8⟩) ∧
        ∀ fill s1, s.drawFill c.pad n = (some fill, s1) →
          (∀ s2, s1.drawDelta c.mode bs = (none, s2) → Raises .encrypt s s2 0x10#8 ⟨.entropyFailure, 2#8, 0#8⟩) ∧
          ∀ d s2, s1.drawDelta c.mode bs = (some d, s2) →
            Succeeds .encrypt s s2 0x10#8
              (d ++ (encBlocks (modeEnv s.build a c d) ⟨c.iv, 0⟩
                (s.memRead s.src s.len ++ padTail c.pad n fill)).1) maxOut)

/-- DECRYPT: NO_CONTEXT, SHORT_BUFFER, NOT_ALIGNED, BUFFER_RANGE, PADDING_ERROR in that order; the whole padded plaintext
is written, on PADDING_ERROR too, and OUTLEN counts the plaintext (47_modes.md R347, R344). -/
def Obligations.DecryptDecryptsTheBuffer : Prop :=
  decode 0x00000011#32 = .ok .decrypt ∧
  ∀ s : State,
    (s.session.ctx = none → Raises .decrypt s s 0x11#8 ⟨.noContext, 1#8, 0#8⟩) ∧
    ∀ a c str, s.session = .context a c str →
      let bs := a.kind.bs
      let lead := if c.mode = .randomDelta then bs else 0
      let y := s.memRead s.src s.len
      let x := (decBlocks (modeEnv s.build a c (y.take lead)) ⟨c.iv, 0⟩ (y.drop lead)).1
      (s.len < lead → Raises .decrypt s s 0x11#8 ⟨.shortBuffer, 1#8, BitVec.ofNat 8 (min s.len 255)⟩) ∧
      (lead ≤ s.len → (s.len - lead) % bs ≠ 0 → Raises .decrypt s s 0x11#8
        ⟨.notAligned, if c.mode = .randomDelta then 2#8 else 1#8, BitVec.ofNat 8 ((s.len - lead) % bs)⟩) ∧
      (lead ≤ s.len → (s.len - lead) % bs = 0 →
        RangeErrors .decrypt s s 0x11#8 (s.len - lead) ∧
        (s.InRange (s.len - lead) →
          (∀ p, unpad c.pad x = .ok p → Succeeds .decrypt s s 0x11#8 x p.length) ∧
          ∀ e, unpad c.pad x = .error e → StoresAndRaises .decrypt s s 0x11#8 x e))

/-- DECRYPT of what ENCRYPT wrote, with the same context, gives back the plaintext and its length: every algorithm, mode,
scheme and entropy answer; with ZEROS where the plaintext does not end in a zero byte (47_modes.md R348, the spec's own
inference: "derived: from rule R342, rule R344 and 46_padding.md rule R303"). The commands are run on states with no command in
progress, where they take the registers and BUF themselves: the model's (log 22). -/
def Obligations.DecryptUndoesEncrypt : Prop :=
  ∀ (s t : State) (a : Algi) (c : Ctx) (str : Str) (d : Word32),
    s.running = none → s.session = .context a c str → c.Ok a.kind.bs →
    exec .encrypt s = .next t → t.err = false → d.toNat + t.outlen.toNat ≤ s.build.bufBytes →
    (c.pad ≠ .zeros ∨ (s.buf.readN s.args.src.toNat s.args.len.toNat).getLast? ≠ some 0#8) →
    ∃ v, exec .decrypt { t with args := { t.args with src := s.args.dst, len := t.outlen, dst := d } } = .next v ∧
      v.err = false ∧ v.outlen = s.args.len ∧
      v.buf.readN d.toNat s.args.len.toNat = s.buf.readN s.args.src.toNat s.args.len.toNat

/-! ## Streams -/

/-- SENC_BEGIN (48_streaming.md R372). -/
def Obligations.SencBeginOpensTheStream : Prop :=
  decode 0x00000018#32 = .ok .sencBegin ∧
  ∀ s : State,
    (s.session.ctx = none → Raises .sencBegin s s 0x18#8 ⟨.noContext, 1#8, 0#8⟩) ∧
    ∀ a c str, s.session = .context a c str →
      (str ≠ .idle → Raises .sencBegin s s 0x18#8 ⟨.streamState, 2#8, s.stream.setWidth 8⟩) ∧
      (str = .idle → c.mode ≠ .randomDelta → exec .sencBegin s = .next ({ s with
        session := .context a c (.enc ⟨[], c.iv, 0, none⟩) }.completed 0x18#8 0)) ∧
      (str = .idle → c.mode = .randomDelta →
        (s.build.bufBytes < s.dst + a.kind.bs → Raises .sencBegin s s 0x18#8 ⟨.bufferRange, 2#8, 0#8⟩) ∧
        (s.dst + a.kind.bs ≤ s.build.bufBytes →
          (∀ s1, s.drawEnt a.kind.bs = (none, s1) → Raises .sencBegin s s1 0x18#8 ⟨.entropyFailure, 2#8, 0#8⟩) ∧
          ∀ d s1, s.drawEnt a.kind.bs = (some d, s1) →
            Succeeds .sencBegin s { s1 with session := .context a c (.enc ⟨[], c.iv, 0, some d⟩) } 0x18#8 d a.kind.bs))

/-- SENC_DATA (48_streaming.md R373). -/
def Obligations.SencDataEncryptsWholeBlocks : Prop :=
  decode 0x00000019#32 = .ok .sencData ∧
  ∀ s : State,
    ((∀ a c d, s.session ≠ .context a c (.enc d)) →
      Raises .sencData s s 0x19#8 ⟨.streamState, 1#8, s.stream.setWidth 8⟩) ∧
    ∀ a c d, s.session = .context a c (.enc d) →
      let bs := a.kind.bs
      let q := (d.pend.length + s.len) / bs
      let all := d.pend ++ s.memRead s.src s.len
      let r := runSteps (encStep (modeEnv s.build a c (d.delta.getD []))) ⟨d.chain, d.j⟩ (blocks bs q all)
      RangeErrors .sencData s s 0x19#8 (q * bs) ∧
      (s.InRange (q * bs) →
        Succeeds .sencData s { s with
          session := .context a c (.enc ⟨all.drop (q * bs), r.2.s, r.2.j, d.delta⟩) } 0x19#8 r.1 (q * bs))

/-- SENC_END (48_streaming.md R374). -/
def Obligations.SencEndPadsAndCloses : Prop :=
  decode 0x0000001A#32 = .ok .sencEnd ∧
  ∀ s : State,
    ((∀ a c d, s.session ≠ .context a c (.enc d)) →
      Raises .sencEnd s s 0x1A#8 ⟨.streamState, 1#8, s.stream.setWidth 8⟩) ∧
    ∀ a c d, s.session = .context a c (.enc d) →
      let bs := a.kind.bs
      let n := bs - d.pend.length % bs
      let x : State := { s with session := .context a c .idle }
      (s.build.bufBytes < s.dst + bs → Raises .sencEnd s x 0x1A#8 ⟨.bufferRange, 2#8, 0#8⟩) ∧
      (s.dst + bs ≤ s.build.bufBytes →
        (∀ s1, x.drawFill c.pad n = (none, s1) → Raises .sencEnd s s1 0x1A#8 ⟨.entropyFailure, 1#8, 0#8⟩) ∧
        ∀ fill s1, x.drawFill c.pad n = (some fill, s1) →
          Succeeds .sencEnd s s1 0x1A#8
            (encStep (modeEnv s.build a c (d.delta.getD [])) ⟨d.chain, d.j⟩
              (d.pend ++ padTail c.pad n fill)).1 bs)

/-- SDEC_BEGIN (48_streaming.md R376). -/
def Obligations.SdecBeginOpensTheStream : Prop :=
  decode 0x0000001C#32 = .ok .sdecBegin ∧
  ∀ s : State,
    (s.session.ctx = none → Raises .sdecBegin s s 0x1C#8 ⟨.noContext, 1#8, 0#8⟩) ∧
    ∀ a c str, s.session = .context a c str →
      (str ≠ .idle → Raises .sdecBegin s s 0x1C#8 ⟨.streamState, 2#8, s.stream.setWidth 8⟩) ∧
      (str = .idle → exec .sdecBegin s = .next ({ s with
        session := .context a c (.dec ⟨[], c.iv, 0, none⟩) }.completed 0x1C#8 0))

/-- SDEC_DATA (48_streaming.md R377). -/
def Obligations.SdecDataHoldsBackTwoBlocks : Prop :=
  decode 0x0000001D#32 = .ok .sdecData ∧
  ∀ s : State,
    ((∀ a c d, s.session ≠ .context a c (.dec d)) →
      Raises .sdecData s s 0x1D#8 ⟨.streamState, 1#8, s.stream.setWidth 8⟩) ∧
    ∀ a c d, s.session = .context a c (.dec d) →
      let bs := a.kind.bs
      let all := d.pend ++ s.memRead s.src s.len
      let awaited := c.mode = .randomDelta ∧ d.delta = none
      let delta := if awaited then some (all.take bs) else d.delta
      let rest := if awaited then all.drop bs else all
      let t := d.pend.length + s.len
      let q := (if awaited then t - bs else t) / bs - 2
      let r := runSteps (decStep (modeEnv s.build a c (delta.getD []))) ⟨d.chain, d.j⟩ (blocks bs q rest)
      RangeErrors .sdecData s s 0x1D#8 (q * bs) ∧
      (s.InRange (q * bs) →
        (awaited → all.length < bs → exec .sdecData s = .next ({ s with
          session := .context a c (.dec ⟨all, d.chain, d.j, none⟩) }.completed 0x1D#8 0)) ∧
        (¬ (awaited ∧ all.length < bs) →
          Succeeds .sdecData s { s with
            session := .context a c (.dec ⟨rest.drop (q * bs), r.2.s, r.2.j, delta⟩) } 0x1D#8 r.1 (q * bs)))

/-- SDEC_END (48_streaming.md R378). -/
def Obligations.SdecEndUnpadsAndCloses : Prop :=
  decode 0x0000001E#32 = .ok .sdecEnd ∧
  ∀ s : State,
    ((∀ a c d, s.session ≠ .context a c (.dec d)) →
      Raises .sdecEnd s s 0x1E#8 ⟨.streamState, 1#8, s.stream.setWidth 8⟩) ∧
    ∀ a c d, s.session = .context a c (.dec d) →
      let bs := a.kind.bs
      let h := d.pend.length
      let awaited := c.mode = .randomDelta ∧ d.delta = none
      let closed : State := { s with session := .context a c .idle }
      let x := (decBlocks (modeEnv s.build a c (d.delta.getD [])) ⟨d.chain, d.j⟩ d.pend).1
      (awaited → Raises .sdecEnd s closed 0x1E#8 ⟨.shortBuffer, 1#8, BitVec.ofNat 8 (min h 255)⟩) ∧
      (¬ awaited → h % bs ≠ 0 → Raises .sdecEnd s closed 0x1E#8
        ⟨.notAligned, if c.mode = .randomDelta then 2#8 else 1#8, BitVec.ofNat 8 (h % bs)⟩) ∧
      (¬ awaited → h % bs = 0 → s.build.bufBytes < s.dst + h →
        Raises .sdecEnd s closed 0x1E#8 ⟨.bufferRange, 2#8, 0#8⟩) ∧
      (¬ awaited → h % bs = 0 → s.dst + h ≤ s.build.bufBytes →
        (∀ p, unpad c.pad x = .ok p → Succeeds .sdecEnd s closed 0x1E#8 x p.length) ∧
        ∀ e, unpad c.pad x = .error e → StoresAndRaises .sdecEnd s closed 0x1E#8 x e)

/-- A stream's outputs, joined, are ENCRYPT of its pieces, joined, on the same context and with the same delta block and
fill, which the stream draws in the other order (48_streaming.md R375, the spec's own inference: "derived: from rules R372
to R374"). The commands are run on states with no command in progress, where they take the registers and BUF themselves: the
model's (log 22); the answers of the entropy source are the model's list (log 10). -/
def Obligations.StreamEncryptionIsWholeBufferEncryption : Prop :=
  ∀ (s : State) (a : Algi) (c : Ctx) (first last : Piece) (ps : List Piece) (delta fill out : List Byte),
    let plain := ps.flatMap Piece.bytes
    let n := padLen plain.length a.kind.bs
    let fills := if c.pad = .iso10126 ∧ 1 < n then [EntAnswer.ok fill] else []
    let deltas := if c.mode = .randomDelta then [EntAnswer.ok delta] else []
    s.running = none → s.session = .context a c .idle → c.Ok a.kind.bs → (∀ p ∈ ps, p.Fits s.build) →
    fill.length = n - 1 → delta.length = a.kind.bs → s.ent = deltas ++ fills →
    runStream .sencBegin .sencData .sencEnd s first ps last = some out →
    (encryptBuf s.build a c plain { s with ent := fills ++ deltas }).1 = .ok out

/-- A stream decryption that succeeds gives, joined, what DECRYPT of the joined pieces gives, for every scheme but ZEROS
(48_streaming.md R379, the spec's own inference: "derived: from rules R376 to R378"). The half of R379 that a stream succeeds
where DECRYPT does, and its sentence about ZEROS, are not stated here. The commands are run on states with no command in
progress, where they take the registers and BUF themselves: the model's (log 22). -/
def Obligations.StreamDecryptionIsWholeBufferDecryption : Prop :=
  ∀ (s : State) (a : Algi) (c : Ctx) (first last : Piece) (ps : List Piece) (out : List Byte),
    let cipher := ps.flatMap Piece.bytes
    s.running = none → s.session = .context a c .idle → c.Ok a.kind.bs → c.pad ≠ .zeros →
    (∀ p ∈ ps, p.Fits s.build) →
    runStream .sdecBegin .sdecData .sdecEnd s first ps last = some out →
    decryptLenCheck c.mode a.kind.bs cipher.length = none ∧ unpad c.pad (decryptBuf s.build a c cipher) = .ok out

/-! ## The bus -/

/-- A 32-bit read of each register of the map answers its value and changes nothing else; the map's offsets, the field each
register shows, zero-extended, and the fields of STATUS and CFG (10_state.md R21 to R38; 20_memory.md R75). That PARAM
reads the build constants is in ResetGivesEveryRegisterItsValue and EveryStepAnswersNextOfTheSameBuild. -/
def Obligations.RegisterReadsAnswerAndChangeNothing : Prop :=
  (∀ (s : State) (r : Reg) (rest : List Input), s.running = none → s.inReset = false →
    s.inbox = .bus ⟨s.build.base + r.offset, .w32, .read⟩ :: rest →
    step s = .next { s with inbox := rest, resp := some ⟨false, s.regRead r⟩ }) ∧
  [Reg.id, .ctrl, .status, .cmd, .src, .len, .dst, .outlen, .cfg, .keylen, .ivlen, .intStatus, .intEnable, .errinfo,
    .gfA, .gfB, .gfMod, .gfCfg, .gfRes, .param].map Reg.offset =
    [0x000, 0x004, 0x008, 0x00C, 0x010, 0x014, 0x018, 0x01C, 0x020, 0x024, 0x028, 0x02C, 0x030, 0x034, 0x038, 0x03C,
      0x040, 0x044, 0x048, 0x04C] ∧
  ∀ s : State,
    (s.regRead .id = 0x43590007#32 ∧ s.regRead .ctrl = 0#32 ∧ s.regRead .cmd = 0#32) ∧
    (s.regRead .src = s.args.src ∧ s.regRead .len = s.args.len ∧ s.regRead .dst = s.args.dst) ∧
    (s.regRead .outlen = s.outlen ∧ s.regRead .errinfo = s.errinfo ∧ s.regRead .gfRes = s.gfRes) ∧
    ((s.regRead .intStatus).toNat = s.intStatus.toNat ∧ (s.regRead .intEnable).toNat = s.intEnable.toNat) ∧
    ((s.regRead .keylen).toNat = s.args.keylen.toNat ∧ (s.regRead .ivlen).toNat = s.args.ivlen.toNat) ∧
    ((s.regRead .gfA).toNat = s.args.gfA.toNat ∧ (s.regRead .gfB).toNat = s.args.gfB.toNat ∧
      (s.regRead .gfMod).toNat = s.args.gfMod.toNat ∧ (s.regRead .gfCfg).toNat = s.args.gfCfg.toNat) ∧
    (s.regRead .cfg).toNat = s.args.cfg.bs.toNat * 2 ^ 16 + s.args.cfg.rc5w.toNat * 2 ^ 12 +
      s.args.cfg.pad.toNat * 2 ^ 8 + s.args.cfg.mode.toNat * 2 ^ 4 + s.args.cfg.alg.toNat ∧
    (s.regRead .status).toNat = s.lastop.toNat * 2 ^ 16 + s.errcode.toNat * 2 ^ 8 +
      (match s.session.str with | .idle => 0 | .enc _ => 1 | .dec _ => 2) * 2 ^ 4 +
      (if s.session.algi.isSome then 2 ^ 3 else 0) + (if s.session.ctx.isSome then 2 ^ 2 else 0) +
      (if s.err then 2 else 0) + (if s.running.isSome then 1 else 0)

/-- A step of an idle core that serves a 32-bit write to a register of the map stores the register's defined bits where it
is writable and does nothing where it is read-only; reserved bits read 0; the register that is written is the one that a
read shows, and no other (10_state.md R22, R24, R26 to R30, R32 to R38, R41). That a step serves one access is the model's
(log 1). -/
def Obligations.RegisterWritesStoreTheDefinedBits : Prop :=
  ∀ (s : State) (v : Word32),
    (∀ r rest, r ≠ .cmd → r ≠ .ctrl → s.running = none → s.inReset = false →
      s.inbox = .bus ⟨s.build.base + r.offset, .w32, .write v⟩ :: rest →
      step s = .next { s.regWrite r v with inbox := rest, resp := some ⟨false, 0#32⟩ }) ∧
    (∀ r m, (r, m) ∈ [(Reg.src, 0xFFFFFFFF#32), (.len, 0xFFFFFFFF#32), (.dst, 0xFFFFFFFF#32), (.cfg, 0x00FF3777#32),
        (.keylen, 0x3F#32), (.ivlen, 0x1F#32), (.intEnable, 0x7#32), (.gfA, 0xFFFF#32), (.gfB, 0xFFFF#32),
        (.gfMod, 0x1FFFF#32), (.gfCfg, 0x1F#32)] →
      (s.regWrite r v).regRead r = v &&& m ∧
      (∀ r', r' ≠ r → (s.regWrite r v).regRead r' = s.regRead r') ∧
      ∃ x en, s.regWrite r v = { s with args := x, intEnable := en } ∧ x.key = s.args.key ∧ x.iv = s.args.iv) ∧
    ∀ r ∈ [Reg.id, .status, .outlen, .errinfo, .gfRes, .param], s.regWrite r v = s

/-- The byte at offset o + k is bits 8k+7 to 8k of the data word, in BUF and in both windows, for reads and writes of every
width; no other byte changes (20_memory.md R72; 10_state.md R39, R40). -/
def Obligations.AccessesAreLittleEndian : Prop :=
  ∀ (s : State) (rest : List Input) (w : Width) (o : Nat), s.running = none → s.inReset = false → o % w.bytes = 0 →
    (∀ v : Word32, s.inbox = .bus ⟨s.build.base + o, w, .write v⟩ :: rest →
      (0x10000 ≤ o → o < 0x10000 + s.build.bufBytes → ∃ m,
        step s = .next { s with inbox := rest, resp := some ⟨false, 0#32⟩, buf := m } ∧
        (∀ k, k < w.bytes → m.read (o - 0x10000 + k) = v.extractLsb' (8 * k) 8) ∧
        ∀ x, x < o - 0x10000 ∨ o - 0x10000 + w.bytes ≤ x → m.read x = s.buf.read x) ∧
      (0x080 ≤ o → o < 0x0A0 → ∃ y : Vector Byte 32,
        step s = .next { s with inbox := rest, resp := some ⟨false, 0#32⟩, args := { s.args with key := y } } ∧
        (∀ k, k < w.bytes → y[o - 0x080 + k]? = some (v.extractLsb' (8 * k) 8)) ∧
        ∀ x, x < o - 0x080 ∨ o - 0x080 + w.bytes ≤ x → y[x]? = s.args.key[x]?) ∧
      (0x0A0 ≤ o → o < 0x0B0 → ∃ y : Vector Byte 16,
        step s = .next { s with inbox := rest, resp := some ⟨false, 0#32⟩, args := { s.args with iv := y } } ∧
        (∀ k, k < w.bytes → y[o - 0x0A0 + k]? = some (v.extractLsb' (8 * k) 8)) ∧
        ∀ x, x < o - 0x0A0 ∨ o - 0x0A0 + w.bytes ≤ x → y[x]? = s.args.iv[x]?)) ∧
    (s.inbox = .bus ⟨s.build.base + o, w, .read⟩ :: rest →
      (0x080 ≤ o → o < 0x0B0 ∨ 0x10000 ≤ o ∧ o < 0x10000 + s.build.bufBytes → ∃ d : Word32,
        step s = .next { s with inbox := rest, resp := some ⟨false, d⟩ } ∧
        (∀ k, w.bytes ≤ k → d.extractLsb' (8 * k) 8 = 0#8) ∧
        ∀ k, k < w.bytes → some (d.extractLsb' (8 * k) 8) =
          if o < 0x0A0 then s.args.key[o - 0x080 + k]? else if o < 0x0B0 then s.args.iv[o - 0x0A0 + k]?
          else some (s.buf.read (o - 0x10000 + k))))

/-- A misaligned access, or one of a width a control register does not take, is a bus error: read data 0, no other change
and no bit of INT_STATUS; an aligned access to a reserved offset is none: it reads 0 and writes nothing
(60_exceptions.md R407; 20_memory.md R74; 10_state.md R41). That the reserved offsets 0x050 to 0x07F take any aligned
width is log 14. -/
def Obligations.BadAccessesAreBusErrors : Prop :=
  ∀ (s : State) (rest : List Input) (w : Width) (o : Nat) (op : BusOp), s.running = none → s.inReset = false →
    s.inbox = .bus ⟨s.build.base + o, w, op⟩ :: rest →
    ((o < 0x050 ∧ (w ≠ .w32 ∨ o % 4 ≠ 0)) ∨
        (0x080 ≤ o ∧ o < 0x0B0 ∨ 0x10000 ≤ o ∧ o < 0x10000 + s.build.bufBytes) ∧ o % w.bytes ≠ 0 →
      step s = .next { s with inbox := rest, resp := some ⟨true, 0#32⟩ }) ∧
    ((0x050 ≤ o ∧ o < 0x080 ∨ 0x0B0 ≤ o ∧ o < 0x10000 ∨ 0x10000 + s.build.bufBytes ≤ o ∧ o < 0x20000) →
      o % w.bytes = 0 → step s = .next { s with inbox := rest, resp := some ⟨false, 0#32⟩ })

/-- IRQ is the or of the enabled pending bits, in every state; a write to INT_STATUS clears the bits written as 1 and no
other (60_exceptions.md R411; 10_state.md R31, R32). -/
def Obligations.IrqFollowsPendingAndEnable : Prop :=
  (∀ s : State, s.irq =
    ((s.intStatus.getLsbD 0 && s.intEnable.getLsbD 0) || (s.intStatus.getLsbD 1 && s.intEnable.getLsbD 1) ||
      (s.intStatus.getLsbD 2 && s.intEnable.getLsbD 2))) ∧
  (∀ b : Build, (State.resetOf b).irq = false) ∧
  ∀ (s : State) (v : Word32) (rest : List Input), s.running = none → s.inReset = false →
    s.inbox = .bus ⟨s.build.base + 0x02C, .w32, .write v⟩ :: rest →
    ∃ p, step s = .next { s with inbox := rest, resp := some ⟨false, 0#32⟩, intStatus := p } ∧
      ∀ k, p.getLsbD k = (s.intStatus.getLsbD k && !v.getLsbD k)

/-! ## A command in progress -/

/-- In one cycle with a completion: a write to INT_STATUS does not clear the DONE that the completion sets, and a CMD write
is accepted, not dropped (60_exceptions.md R413; 10_state.md R31). -/
def Obligations.CompletionMeetsAnAccess : Prop :=
  (∀ (s : State) (r : Running) (v : Word32) (rest : List Input), s.running = some r → r.left ≤ 1 →
    s.inReset = false → s.inbox = .bus ⟨s.build.base + 0x02C, .w32, .write v⟩ :: rest →
    ∃ t, step s = .next t ∧ t.running = none ∧ t.intStatus.getLsbD 0 = true ∧
      (t.err = true → t.intStatus.getLsbD 1 = true)) ∧
  ∀ (s t : State) (r : Running) (i j : Instr) (w : Word32) (rest : List Input) (d : Nat) (ds : List Nat),
    s.running = some r → r.left ≤ 1 → decode r.word = .ok i → decode w = .ok j → s.inReset = false →
    s.inbox = .bus ⟨s.build.base + 0x00C, .w32, .write w⟩ :: rest → s.delays = (d + 1) :: ds →
    exec i { s with inbox := rest, running := some { r with left := 0 } } = .next t →
    step s = .next { t with
      delays := ds, resp := some ⟨false, 0#32⟩, running := some ⟨w, t.args, t.buf, [], d + 1⟩ }

/-- While a command runs on: a CMD write is dropped and sets OVERRUN and nothing else; any other write of a register or a
window is performed at once and leaves the command's inputs, an INT_STATUS write clears the bits written as 1, a write to a
read-only register or of SRST = 0 does nothing; a BUF write of any width is performed at once, and of its bytes the
command sees the old or the new; a read of a register that a completion does not write, of a window, of the fields of STATUS
that a completion does not write, and of each BUF byte outside the output range is current (60_exceptions.md R408;
10_state.md R25, R31, R50; 70_reset_and_hazards.md R460, R461, R462). The free choices are the model's form of what R460
leaves open (log 5, log 6). -/
def Obligations.AccessesToABusyCore : Prop :=
  ∀ (s : State) (r : Running) (n : Nat) (rest : List Input), s.running = some r → r.left = n + 2 → s.inReset = false →
    let goesOn : State := { s with
      inbox := rest, resp := some ⟨false, 0#32⟩, running := some { r with left := n + 1 } }
    (∀ v, s.inbox = .bus ⟨s.build.base + 0x00C, .w32, .write v⟩ :: rest →
      step s = .next { goesOn with intStatus := s.intStatus ||| 0b100#3 }) ∧
    (∀ g v, g ∈ [Reg.src, .len, .dst, .cfg, .keylen, .ivlen, .gfA, .gfB, .gfMod, .gfCfg] →
      s.inbox = .bus ⟨s.build.base + g.offset, .w32, .write v⟩ :: rest →
      step s = .next { goesOn with args := s.args.regWrite g v }) ∧
    (∀ v, s.inbox = .bus ⟨s.build.base + 0x030, .w32, .write v⟩ :: rest →
      step s = .next { goesOn with intEnable := v.extractLsb' 0 3 }) ∧
    (∀ v, s.inbox = .bus ⟨s.build.base + 0x02C, .w32, .write v⟩ :: rest →
      ∃ p, step s = .next { goesOn with intStatus := p } ∧
        ∀ k, p.getLsbD k = (s.intStatus.getLsbD k && !v.getLsbD k)) ∧
    (∀ g v, g ∈ [Reg.id, .status, .outlen, .errinfo, .gfRes, .param] ∨ g = .ctrl ∧ v.getLsbD 0 = false →
      s.inbox = .bus ⟨s.build.base + g.offset, .w32, .write v⟩ :: rest → step s = .next goesOn) ∧
    (∀ (w : Width) (o : Nat) (v : Word32), o % w.bytes = 0 →
      s.inbox = .bus ⟨s.build.base + o, w, .write v⟩ :: rest →
      (0x080 ≤ o → o < 0x0A0 → ∃ y : Vector Byte 32,
        step s = .next { goesOn with args := { s.args with key := y } } ∧
        (∀ k, k < w.bytes → y[o - 0x080 + k]? = some (v.extractLsb' (8 * k) 8)) ∧
        ∀ x, x < o - 0x080 ∨ o - 0x080 + w.bytes ≤ x → y[x]? = s.args.key[x]?) ∧
      (0x0A0 ≤ o → o < 0x0B0 → ∃ y : Vector Byte 16,
        step s = .next { goesOn with args := { s.args with iv := y } } ∧
        (∀ k, k < w.bytes → y[o - 0x0A0 + k]? = some (v.extractLsb' (8 * k) 8)) ∧
        ∀ x, x < o - 0x0A0 ∨ o - 0x0A0 + w.bytes ≤ x → y[x]? = s.args.iv[x]?) ∧
      (0x10000 ≤ o → o < 0x10000 + s.build.bufBytes → ∃ m view k,
        step s = .next { goesOn with
          buf := m, free := k
          running := some { r with
            left := n + 1, view := view, hostWrote := List.range' (o - 0x10000) w.bytes ++ r.hostWrote } } ∧
        (∀ k, k < w.bytes → m.read (o - 0x10000 + k) = v.extractLsb' (8 * k) 8 ∧
          (view.read (o - 0x10000 + k) = r.view.read (o - 0x10000 + k) ∨
            view.read (o - 0x10000 + k) = v.extractLsb' (8 * k) 8)) ∧
        ∀ x, x < o - 0x10000 ∨ o - 0x10000 + w.bytes ≤ x →
          m.read x = s.buf.read x ∧ view.read x = r.view.read x)) ∧
    (∀ (w : Width) (o : Nat), o % w.bytes = 0 → s.inbox = .bus ⟨s.build.base + o, w, .read⟩ :: rest →
      (0x080 ≤ o → o < 0x0B0 ∨ 0x10000 ≤ o ∧ o < 0x10000 + s.build.bufBytes → ∃ (d : Word32) (f : Nat),
        step s = .next { goesOn with resp := some ⟨false, d⟩, free := f } ∧
        (∀ k, w.bytes ≤ k → d.extractLsb' (8 * k) 8 = 0#8) ∧
        ∀ k, k < w.bytes →
          (o < 0x0A0 → some (d.extractLsb' (8 * k) 8) = s.args.key[o - 0x080 + k]?) ∧
          (0x0A0 ≤ o → o < 0x0B0 → some (d.extractLsb' (8 * k) 8) = s.args.iv[o - 0x0A0 + k]?) ∧
          (0x10000 ≤ o → o - 0x10000 + k < s.dst ∨ s.dst + s.runningMaxOut ≤ o - 0x10000 + k →
            d.extractLsb' (8 * k) 8 = s.buf.read (o - 0x10000 + k)))) ∧
    ∀ g : Reg, s.inbox = .bus ⟨s.build.base + g.offset, .w32, .read⟩ :: rest →
      ∃ (d : Word32) (f : Nat), step s = .next { goesOn with resp := some ⟨false, d⟩, free := f } ∧
        (g ∉ [Reg.status, .outlen, .errinfo, .gfRes] → d = s.regRead g) ∧
        (g = .status → d.extractLsb' 0 1 = 1#1 ∧ d.extractLsb' 2 6 = (s.regRead .status).extractLsb' 2 6 ∧
          d.extractLsb' 24 8 = 0#8)

end
end

