-- ==== Sys2Proof/Laws/Memory.lean ====
section
/-! SUPPORT. BUF: a read after a write, and that every operation keeps the canonical form (20_memory.md R70). -/

namespace Sys2Proof.Machine

/-! ## Cells -/

theorem cellAt_setCell_same (l : List Host.Cell) (a : Nat) (b : Byte) : cellAt (setCell l a b) a = some b := by
  induction l with
  | nil => simp [setCell, cellAt]
  | cons c r ih =>
    obtain ⟨k, x⟩ := c
    simp only [setCell]
    split_ifs with h1 h2
    · simp [cellAt]
    · simp [cellAt]
    · simp [cellAt, Ne.symm h2, ih]

theorem cellAt_setCell_other (l : List Host.Cell) {a x : Nat} (b : Byte) (h : x ≠ a) :
    cellAt (setCell l a b) x = cellAt l x := by
  induction l with
  | nil => simp [setCell, cellAt, Ne.symm h]
  | cons c r ih =>
    obtain ⟨k, y⟩ := c
    simp only [setCell]
    split_ifs with h1 h2
    · simp [cellAt, Ne.symm h]
    · subst h2
      simp [cellAt, Ne.symm h]
    · simp [cellAt, ih]

/-! ## Reads after writes -/

@[simp] theorem Memory.read_write_same (m : Memory) (a : Nat) (b : Byte) : (m.write a b).read a = b := by
  simp [Memory.read, Memory.write, cellAt_setCell_same]

theorem Memory.read_write_other (m : Memory) {a x : Nat} (b : Byte) (h : x ≠ a) :
    (m.write a b).read x = m.read x := by
  simp [Memory.read, Memory.write, cellAt_setCell_other _ _ h]

@[simp] theorem Memory.write_era (m : Memory) (a : Nat) (b : Byte) : (m.write a b).era = m.era := rfl

@[simp] theorem Memory.writeN_era (m : Memory) (a : Nat) (s : List Byte) : (m.writeN a s).era = m.era := by
  induction s generalizing m a with
  | nil => rfl
  | cons b s ih => simp [Memory.writeN, ih]

/-- A byte outside the bytes written. -/
theorem Memory.read_writeN_outside (m : Memory) (a x : Nat) (s : List Byte) (h : x < a ∨ a + s.length ≤ x) :
    (m.writeN a s).read x = m.read x := by
  induction s generalizing m a with
  | nil => rfl
  | cons b s ih =>
    rw [List.length_cons] at h
    rw [Memory.writeN, ih _ _ (by omega), Memory.read_write_other _ _ (by omega)]

/-- A byte among the bytes written. -/
theorem Memory.read_writeN_inside (m : Memory) (a k : Nat) (s : List Byte) (b : Byte) (h : s[k]? = some b) :
    (m.writeN a s).read (a + k) = b := by
  induction s generalizing m a k with
  | nil => simp at h
  | cons c s ih =>
    cases k with
    | zero =>
      obtain rfl : c = b := by simpa using h
      rw [Memory.writeN, Memory.read_writeN_outside _ _ _ _ (.inl (by omega))]
      exact Memory.read_write_same m a c
    | succ k =>
      rw [Memory.writeN, show a + (k + 1) = a + 1 + k by omega]
      exact ih _ _ _ (by simpa using h)

@[simp] theorem Memory.readN_length (m : Memory) (a n : Nat) : (m.readN a n).length = n := by
  induction n generalizing a with
  | zero => rfl
  | succ n ih => simp [Memory.readN, ih]

theorem Memory.readN_getElem? (m : Memory) (a n k : Nat) (h : k < n) : (m.readN a n)[k]? = some (m.read (a + k)) := by
  induction n generalizing a k with
  | zero => omega
  | succ n ih =>
    cases k with
    | zero => simp [Memory.readN]
    | succ k =>
      rw [Memory.readN, List.getElem?_cons_succ, ih _ _ (by omega)]
      congr 2
      omega

/-- Two memories that agree on a range give the same bytes there. -/
theorem Memory.readN_congr {m m' : Memory} {a n : Nat} (h : ∀ k, k < n → m.read (a + k) = m'.read (a + k)) :
    m.readN a n = m'.readN a n := by
  induction n generalizing a with
  | zero => rfl
  | succ n ih =>
    have h0 : m.read a = m'.read a := h 0 (by omega)
    rw [Memory.readN, Memory.readN, h0, ih fun k hk => ?_]
    have := h (k + 1) (by omega)
    rwa [show a + (k + 1) = a + 1 + k by omega] at this

/-- Reading back the bytes written. -/
theorem Memory.readN_writeN (m : Memory) (a : Nat) (s : List Byte) : (m.writeN a s).readN a s.length = s := by
  apply List.ext_getElem?
  intro k
  by_cases hk : k < s.length
  · rw [Memory.readN_getElem? _ _ _ _ hk, List.getElem?_eq_getElem hk]
    rw [Memory.read_writeN_inside _ _ _ _ _ (List.getElem?_eq_getElem hk)]
  · rw [List.getElem?_eq_none (by simp; omega), List.getElem?_eq_none (by omega)]

/-! ## The canonical form -/

theorem risingFrom_mono {lo lo' : Nat} {l : List Host.Cell} (h : lo' ≤ lo) (hl : risingFrom lo l = true) :
    risingFrom lo' l = true := by
  cases l with
  | nil => rfl
  | cons c r =>
    simp only [risingFrom, Bool.and_eq_true, decide_eq_true_eq] at hl ⊢
    exact ⟨by omega, hl.2⟩

theorem risingFrom_setCell {lo : Nat} {l : List Host.Cell} (a : Nat) (b : Byte) (ha : lo ≤ a)
    (hl : risingFrom lo l = true) : risingFrom lo (setCell l a b) = true := by
  induction l generalizing lo with
  | nil => simp [setCell, risingFrom, ha]
  | cons c r ih =>
    obtain ⟨k, x⟩ := c
    simp only [risingFrom, Bool.and_eq_true, decide_eq_true_eq] at hl
    simp only [setCell]
    split_ifs with h1 h2
    · simp only [risingFrom, Bool.and_eq_true, decide_eq_true_eq]
      exact ⟨ha, by omega, hl.2⟩
    · subst h2
      simp only [risingFrom, Bool.and_eq_true, decide_eq_true_eq]
      exact ⟨ha, hl.2⟩
    · simp only [risingFrom, Bool.and_eq_true, decide_eq_true_eq]
      exact ⟨hl.1, ih (by omega) hl.2⟩

theorem Memory.wf_write (m : Memory) (a : Nat) (b : Byte) (h : m.wf = true) : (m.write a b).wf = true :=
  risingFrom_setCell a b (Nat.zero_le a) h

theorem Memory.wf_writeN (m : Memory) (a : Nat) (s : List Byte) (h : m.wf = true) : (m.writeN a s).wf = true := by
  induction s generalizing m a with
  | nil => exact h
  | cons b s ih => exact ih _ _ (m.wf_write a b h)

/-- The memory after reset has the canonical form. -/
theorem Memory.wf_empty (era : Nat) : (Memory.mk [] era).wf = true := rfl

/-! ## Where the listed offsets lie -/

theorem mem_setCell {l : List Host.Cell} {a : Nat} {b : Byte} {c : Host.Cell} (h : c ∈ setCell l a b) :
    c = (a, b) ∨ c ∈ l := by
  induction l with
  | nil => simpa [setCell] using h
  | cons d r ih =>
    obtain ⟨k, x⟩ := d
    simp only [setCell] at h
    split_ifs at h with h1 h2
    · simpa using h
    · rcases List.mem_cons.mp h with h | h
      · exact .inl h
      · exact .inr (List.mem_cons_of_mem _ h)
    · rcases List.mem_cons.mp h with h | h
      · exact .inr (h ▸ List.mem_cons_self)
      · rcases ih h with h | h
        · exact .inl h
        · exact .inr (List.mem_cons_of_mem _ h)

/-- Bytes written below a bound leave every listed offset below it. -/
theorem Memory.writeN_below (m : Memory) (a n : Nat) (s : List Byte) (hs : a + s.length ≤ n ∨ s = [])
    (h : ∀ c ∈ m.cells, c.1 < n) : ∀ c ∈ (m.writeN a s).cells, c.1 < n := by
  induction s generalizing m a with
  | nil => exact h
  | cons b s ih =>
    have hs' : a + (b :: s).length ≤ n := by simpa using hs
    rw [List.length_cons] at hs'
    refine ih _ _ (.inl (by omega)) fun c hc => ?_
    rcases mem_setCell hc with rfl | hc
    · simp only; omega
    · exact h c hc

/-! ## The bytes a command stores -/

@[simp] theorem mergeHost_length (m : Memory) (l : List Nat) (draw a : Nat) (s : List Byte) :
    (mergeHost m l draw a s).length = s.length := by
  induction s generalizing a with
  | nil => rfl
  | cons b s ih => simp [mergeHost, ih]

/-- Each stored byte is the command's, or, where the host wrote, what BUF holds (70_reset_and_hazards.md R460). -/
theorem mergeHost_getElem? (m : Memory) (l : List Nat) (draw a k : Nat) (s : List Byte) (b : Byte)
    (h : s[k]? = some b) :
    (mergeHost m l draw a s)[k]? = some b ∨ (a + k ∈ l ∧ (mergeHost m l draw a s)[k]? = some (m.read (a + k))) := by
  induction s generalizing a k with
  | nil => simp at h
  | cons c s ih =>
    cases k with
    | zero =>
      obtain rfl : c = b := by simpa using h
      by_cases hc : (l.contains a && Config.hostWins draw a) = true
      · right
        simp only [mergeHost, hc, if_true, List.getElem?_cons_zero, Nat.add_zero, and_true]
        simpa using (Bool.and_eq_true_iff.mp hc).1
      · left
        simp only [mergeHost, hc, List.getElem?_cons_zero]
        rfl
    | succ k =>
      have := ih (a + 1) k (by simpa using h)
      rw [show a + 1 + k = a + (k + 1) by omega] at this
      simpa [mergeHost] using this

/-- With no host write the command's bytes are stored as they are. -/
@[simp] theorem mergeHost_nil (m : Memory) (draw a : Nat) (s : List Byte) : mergeHost m [] draw a s = s := by
  induction s generalizing a with
  | nil => rfl
  | cons b s ih => simp [mergeHost, ih]

end Sys2Proof.Machine
end

