-- ==== Sys2Proof/Laws/Bytes.lean ====
section
/-! SUPPORT. Byte sequences and the numbers they spell (00_scope.md R8): lengths, and that the conversions undo each
other. -/

namespace Sys2Proof.Machine

/-! ## Lengths -/

@[simp] theorem toBe_length (n v : Nat) : (toBe n v).length = n := by
  induction n with
  | zero => rfl
  | succ n ih => simp [toBe, ih]

@[simp] theorem toLe_length (n v : Nat) : (toLe n v).length = n := by
  induction n generalizing v with
  | zero => rfl
  | succ n ih => simp [toLe, ih]

@[simp] theorem xorb_length (a b : List Byte) : (xorb a b).length = min a.length b.length := by simp [xorb]

@[simp] theorem addb_length (a b : List Byte) : (addb a b).length = min a.length b.length := by simp [addb]

@[simp] theorem subb_length (a b : List Byte) : (subb a b).length = min a.length b.length := by simp [subb]

@[simp] theorem blocks_length (bs m : Nat) (x : List Byte) : (blocks bs m x).length = m := by
  induction m generalizing x with
  | zero => rfl
  | succ m ih => simp [blocks, ih]

/-- Every block of a long enough buffer has the block size. -/
theorem blocks_block_length {bs m : Nat} {x : List Byte} (h : m * bs ≤ x.length) :
    ∀ y ∈ blocks bs m x, y.length = bs := by
  induction m generalizing x with
  | zero => simp [blocks]
  | succ m ih =>
    rw [Nat.succ_mul] at h
    intro y hy
    rcases List.mem_cons.mp hy with rfl | hy
    · simp only [List.length_take]; omega
    · exact ih (by simp only [List.length_drop]; omega) y hy

/-- No block is longer than the block size. -/
theorem blocks_block_le {bs m : Nat} {x : List Byte} : ∀ y ∈ blocks bs m x, y.length ≤ bs := by
  induction m generalizing x with
  | zero => simp [blocks]
  | succ m ih =>
    intro y hy
    rcases List.mem_cons.mp hy with rfl | hy
    · simp only [List.length_take]; omega
    · exact ih y hy

/-- The blocks of a buffer, joined, are its beginning. -/
theorem blocks_flatten {bs m : Nat} {x : List Byte} : (blocks bs m x).flatten = x.take (m * bs) := by
  induction m generalizing x with
  | zero => simp [blocks]
  | succ m ih => rw [blocks, List.flatten_cons, ih, Nat.succ_mul, Nat.add_comm, List.take_add]

/-- The blocks of two joined buffers, the first of whole blocks. -/
theorem blocks_append {bs m : Nat} {x : List Byte} (n : Nat) (y : List Byte) (h : x.length = m * bs) :
    blocks bs (m + n) (x ++ y) = blocks bs m x ++ blocks bs n y := by
  induction m generalizing x with
  | zero =>
    have hx : x = [] := by simpa using h
    simp [hx, blocks]
  | succ m ih =>
    rw [Nat.succ_mul] at h
    have hle : bs ≤ x.length := by omega
    rw [Nat.succ_add, blocks, blocks, List.take_append_of_le_length hle, List.drop_append_of_le_length hle,
      ih (by simp only [List.length_drop]; omega)]
    rfl

/-! ## Big-endian numbers -/

theorem beNat_append_one (x : List Byte) (b : Byte) : beNat (x ++ [b]) = 256 * beNat x + b.toNat := by
  simp [beNat]

theorem beNat_cons (b : Byte) (x : List Byte) : beNat (b :: x) = b.toNat * 256 ^ x.length + beNat x := by
  induction x using List.reverseRecOn with
  | nil => simp [beNat]
  | append_singleton x c ih =>
    rw [← List.cons_append, beNat_append_one, ih, beNat_append_one, List.length_append, List.length_singleton, pow_succ]
    ring

theorem beNat_lt (x : List Byte) : beNat x < 256 ^ x.length := by
  induction x with
  | nil => simp [beNat]
  | cons b x ih =>
    have := b.isLt
    rw [beNat_cons, List.length_cons, pow_succ]
    nlinarith

/-- Reading back what was spelt out: the number modulo 256^n. -/
theorem beNat_toBe (n v : Nat) : beNat (toBe n v) = v % 256 ^ n := by
  induction n with
  | zero => simp [toBe, beNat, Nat.mod_one]
  | succ n ih =>
    rw [toBe, beNat_cons, ih, toBe_length, BitVec.toNat_ofNat, pow_succ 256 n, Nat.mod_mul, Nat.mul_comm, Nat.add_comm]

/-- Only the number modulo 256^n is spelt out. -/
theorem toBe_mod (n v : Nat) : toBe n (v % 256 ^ n) = toBe n v := by
  suffices h : ∀ k, n ≤ k → toBe n (v % 256 ^ k) = toBe n v from h n le_rfl
  induction n with
  | zero => intro k _; rfl
  | succ n ih =>
    intro k hk
    have hd : (256 : Nat) ^ k = 256 ^ n * 256 ^ (k - n) := by rw [← pow_add]; congr 1; omega
    have h8 : (256 : Nat) ∣ 256 ^ (k - n) := dvd_pow_self _ (by omega)
    rw [toBe, toBe, ih k (by omega)]
    congr 1
    apply BitVec.eq_of_toNat_eq
    simp only [BitVec.toNat_ofNat]
    rw [hd, Nat.mod_mul_right_div_self, show (2 : Nat) ^ 8 = 256 from rfl, Nat.mod_mod_of_dvd _ h8]

/-- Spelling out a number that was read: the same bytes. -/
theorem toBe_beNat (x : List Byte) : toBe x.length (beNat x) = x := by
  induction x with
  | nil => rfl
  | cons b x ih =>
    have hb := b.isLt
    have hx := beNat_lt x
    have hp : 0 < 256 ^ x.length := by positivity
    rw [List.length_cons, toBe, beNat_cons, ← toBe_mod x.length, Nat.mul_add_mod_self_right,
      Nat.mod_eq_of_lt hx, ih, Nat.mul_comm, Nat.mul_add_div hp, Nat.div_eq_of_lt hx, Nat.add_zero]
    simp

/-! ## Little-endian numbers -/

theorem leNat_cons (b : Byte) (x : List Byte) : leNat (b :: x) = b.toNat + 256 * leNat x := rfl

theorem leNat_lt (x : List Byte) : leNat x < 256 ^ x.length := by
  induction x with
  | nil => simp [leNat]
  | cons b x ih =>
    have := b.isLt
    rw [leNat_cons, List.length_cons, pow_succ]
    omega

/-- Reading back what was spelt out: the number modulo 256^n. -/
theorem leNat_toLe (n v : Nat) : leNat (toLe n v) = v % 256 ^ n := by
  induction n generalizing v with
  | zero => simp [toLe, leNat, Nat.mod_one]
  | succ n ih =>
    rw [toLe, leNat_cons, ih, BitVec.toNat_ofNat, pow_succ 256 n, Nat.mul_comm _ 256, Nat.mod_mul]

/-- Spelling out a number that was read: the same bytes. -/
theorem toLe_leNat (x : List Byte) : toLe x.length (leNat x) = x := by
  induction x with
  | nil => rfl
  | cons b x ih =>
    have hb := b.isLt
    rw [List.length_cons, toLe, leNat_cons, Nat.add_mul_div_left _ _ (by decide), Nat.div_eq_of_lt hb, Nat.zero_add, ih]
    congr 1
    apply BitVec.eq_of_toNat_eq
    simp only [BitVec.toNat_ofNat]
    omega

/-! ## XOR and bytewise addition undo themselves -/

theorem xorb_xorb_cancel (x y : List Byte) (h : x.length ≤ y.length) : xorb (xorb x y) y = x := by
  induction x generalizing y with
  | nil => cases y <;> rfl
  | cons a x ih =>
    cases y with
    | nil => simp at h
    | cons b y =>
      simp only [List.length_cons, Nat.add_le_add_iff_right] at h
      simpa [xorb, BitVec.xor_assoc] using ih y h

theorem subb_addb_cancel (x y : List Byte) (h : x.length ≤ y.length) : subb (addb x y) y = x := by
  induction x generalizing y with
  | nil => cases y <;> rfl
  | cons a x ih =>
    cases y with
    | nil => simp at h
    | cons b y =>
      simp only [List.length_cons, Nat.add_le_add_iff_right] at h
      simpa [subb, addb] using ih y h

theorem addb_subb_cancel (x y : List Byte) (h : x.length ≤ y.length) : addb (subb x y) y = x := by
  induction x generalizing y with
  | nil => cases y <;> rfl
  | cons a x ih =>
    cases y with
    | nil => simp at h
    | cons b y =>
      simp only [List.length_cons, Nat.add_le_add_iff_right] at h
      simpa [subb, addb] using ih y h

/-! ## The windows -/

theorem Args.keyBytes_length (a : Args) (k : Nat) : (a.keyBytes k).length = min k 32 := by simp [Args.keyBytes]

theorem Args.ivBytes_length (a : Args) (k : Nat) : (a.ivBytes k).length = min k 16 := by simp [Args.ivBytes]

theorem AlgKind.bs_pos (k : AlgKind) : 0 < k.bs := by
  cases k with
  | feistel => decide
  | rc5 w => cases w <;> decide
  | sp => decide

theorem AlgKind.bs_le (k : AlgKind) : k.bs ≤ 16 := by
  cases k with
  | feistel => decide
  | rc5 w => cases w <;> decide
  | sp => decide

theorem WordSize.bits_eq (w : WordSize) : w.bits = 8 * w.bytes := by cases w <;> rfl

theorem WordSize.bytes_pos (w : WordSize) : 0 < w.bytes := by cases w <;> decide

end Sys2Proof.Machine
end

