-- ==== Sys2Proof/Laws/State.lean ====
section
/-! SUPPORT. What each update of the state leaves in each field: one lemma per field per update, so that no later
proof unfolds a record update. -/

namespace Sys2Proof.Machine

variable (s : State)

/-! ## complete -/

@[simp] theorem State.completed_build (op : Byte) (n : Nat) : (s.completed op n).build = s.build := rfl
@[simp] theorem State.completed_args (op : Byte) (n : Nat) : (s.completed op n).args = s.args := rfl
@[simp] theorem State.completed_outlen (op : Byte) (n : Nat) : (s.completed op n).outlen = BitVec.ofNat 32 n := rfl
@[simp] theorem State.completed_errinfo (op : Byte) (n : Nat) : (s.completed op n).errinfo = 0#32 := rfl
@[simp] theorem State.completed_gfRes (op : Byte) (n : Nat) : (s.completed op n).gfRes = s.gfRes := rfl
@[simp] theorem State.completed_err (op : Byte) (n : Nat) : (s.completed op n).err = false := rfl
@[simp] theorem State.completed_errcode (op : Byte) (n : Nat) : (s.completed op n).errcode = 0x00#8 := rfl
@[simp] theorem State.completed_lastop (op : Byte) (n : Nat) : (s.completed op n).lastop = op := rfl
@[simp] theorem State.completed_intStatus (op : Byte) (n : Nat) : (s.completed op n).intStatus = s.intStatus ||| intDone := rfl
@[simp] theorem State.completed_intEnable (op : Byte) (n : Nat) : (s.completed op n).intEnable = s.intEnable := rfl
@[simp] theorem State.completed_session (op : Byte) (n : Nat) : (s.completed op n).session = s.session := rfl
@[simp] theorem State.completed_buf (op : Byte) (n : Nat) : (s.completed op n).buf = s.buf := rfl
@[simp] theorem State.completed_running (op : Byte) (n : Nat) : (s.completed op n).running = none := rfl
@[simp] theorem State.completed_inReset (op : Byte) (n : Nat) : (s.completed op n).inReset = s.inReset := rfl
@[simp] theorem State.completed_inbox (op : Byte) (n : Nat) : (s.completed op n).inbox = s.inbox := rfl
@[simp] theorem State.completed_resp (op : Byte) (n : Nat) : (s.completed op n).resp = s.resp := rfl
@[simp] theorem State.completed_ent (op : Byte) (n : Nat) : (s.completed op n).ent = s.ent := rfl
@[simp] theorem State.completed_delays (op : Byte) (n : Nat) : (s.completed op n).delays = s.delays := rfl
@[simp] theorem State.completed_free (op : Byte) (n : Nat) : (s.completed op n).free = s.free := rfl

/-! ## raise -/

@[simp] theorem State.raised_build (op : Byte) (e : CmdError) : (s.raised op e).build = s.build := rfl
@[simp] theorem State.raised_args (op : Byte) (e : CmdError) : (s.raised op e).args = s.args := rfl
@[simp] theorem State.raised_outlen (op : Byte) (e : CmdError) : (s.raised op e).outlen = 0#32 := rfl
@[simp] theorem State.raised_errinfo (op : Byte) (e : CmdError) : (s.raised op e).errinfo = e.errinfo := rfl
@[simp] theorem State.raised_gfRes (op : Byte) (e : CmdError) : (s.raised op e).gfRes = s.gfRes := rfl
@[simp] theorem State.raised_err (op : Byte) (e : CmdError) : (s.raised op e).err = true := rfl
@[simp] theorem State.raised_errcode (op : Byte) (e : CmdError) : (s.raised op e).errcode = e.name.code := rfl
@[simp] theorem State.raised_lastop (op : Byte) (e : CmdError) : (s.raised op e).lastop = op := rfl
@[simp] theorem State.raised_intStatus (op : Byte) (e : CmdError) : (s.raised op e).intStatus = s.intStatus ||| intDone ||| intErr := rfl
@[simp] theorem State.raised_intEnable (op : Byte) (e : CmdError) : (s.raised op e).intEnable = s.intEnable := rfl
@[simp] theorem State.raised_session (op : Byte) (e : CmdError) : (s.raised op e).session = s.session := rfl
@[simp] theorem State.raised_buf (op : Byte) (e : CmdError) : (s.raised op e).buf = s.buf := rfl
@[simp] theorem State.raised_running (op : Byte) (e : CmdError) : (s.raised op e).running = none := rfl
@[simp] theorem State.raised_inReset (op : Byte) (e : CmdError) : (s.raised op e).inReset = s.inReset := rfl
@[simp] theorem State.raised_inbox (op : Byte) (e : CmdError) : (s.raised op e).inbox = s.inbox := rfl
@[simp] theorem State.raised_resp (op : Byte) (e : CmdError) : (s.raised op e).resp = s.resp := rfl
@[simp] theorem State.raised_ent (op : Byte) (e : CmdError) : (s.raised op e).ent = s.ent := rfl
@[simp] theorem State.raised_delays (op : Byte) (e : CmdError) : (s.raised op e).delays = s.delays := rfl
@[simp] theorem State.raised_free (op : Byte) (e : CmdError) : (s.raised op e).free = s.free := rfl

/-! ## MemWrite -/

@[simp] theorem State.memWrite_build (a : Nat) (x : List Byte) : (s.memWrite a x).build = s.build := rfl
@[simp] theorem State.memWrite_args (a : Nat) (x : List Byte) : (s.memWrite a x).args = s.args := rfl
@[simp] theorem State.memWrite_outlen (a : Nat) (x : List Byte) : (s.memWrite a x).outlen = s.outlen := rfl
@[simp] theorem State.memWrite_errinfo (a : Nat) (x : List Byte) : (s.memWrite a x).errinfo = s.errinfo := rfl
@[simp] theorem State.memWrite_gfRes (a : Nat) (x : List Byte) : (s.memWrite a x).gfRes = s.gfRes := rfl
@[simp] theorem State.memWrite_err (a : Nat) (x : List Byte) : (s.memWrite a x).err = s.err := rfl
@[simp] theorem State.memWrite_errcode (a : Nat) (x : List Byte) : (s.memWrite a x).errcode = s.errcode := rfl
@[simp] theorem State.memWrite_lastop (a : Nat) (x : List Byte) : (s.memWrite a x).lastop = s.lastop := rfl
@[simp] theorem State.memWrite_intStatus (a : Nat) (x : List Byte) : (s.memWrite a x).intStatus = s.intStatus := rfl
@[simp] theorem State.memWrite_intEnable (a : Nat) (x : List Byte) : (s.memWrite a x).intEnable = s.intEnable := rfl
@[simp] theorem State.memWrite_session (a : Nat) (x : List Byte) : (s.memWrite a x).session = s.session := rfl
@[simp] theorem State.memWrite_buf (a : Nat) (x : List Byte) : (s.memWrite a x).buf = s.buf.writeN a (mergeHost s.buf s.hostWrote s.free a x) := rfl
@[simp] theorem State.memWrite_running (a : Nat) (x : List Byte) : (s.memWrite a x).running = s.running := rfl
@[simp] theorem State.memWrite_inReset (a : Nat) (x : List Byte) : (s.memWrite a x).inReset = s.inReset := rfl
@[simp] theorem State.memWrite_inbox (a : Nat) (x : List Byte) : (s.memWrite a x).inbox = s.inbox := rfl
@[simp] theorem State.memWrite_resp (a : Nat) (x : List Byte) : (s.memWrite a x).resp = s.resp := rfl
@[simp] theorem State.memWrite_ent (a : Nat) (x : List Byte) : (s.memWrite a x).ent = s.ent := rfl
@[simp] theorem State.memWrite_delays (a : Nat) (x : List Byte) : (s.memWrite a x).delays = s.delays := rfl
@[simp] theorem State.memWrite_free (a : Nat) (x : List Byte) : (s.memWrite a x).free = if s.hostWrote.isEmpty then s.free else s.free + 1 := rfl

/-! ## a write of ALGI, CTX and STR -/

@[simp] theorem State.setSession_build (x : Session) : (s.setSession x).build = s.build := rfl
@[simp] theorem State.setSession_args (x : Session) : (s.setSession x).args = s.args := rfl
@[simp] theorem State.setSession_outlen (x : Session) : (s.setSession x).outlen = s.outlen := rfl
@[simp] theorem State.setSession_errinfo (x : Session) : (s.setSession x).errinfo = s.errinfo := rfl
@[simp] theorem State.setSession_gfRes (x : Session) : (s.setSession x).gfRes = s.gfRes := rfl
@[simp] theorem State.setSession_err (x : Session) : (s.setSession x).err = s.err := rfl
@[simp] theorem State.setSession_errcode (x : Session) : (s.setSession x).errcode = s.errcode := rfl
@[simp] theorem State.setSession_lastop (x : Session) : (s.setSession x).lastop = s.lastop := rfl
@[simp] theorem State.setSession_intStatus (x : Session) : (s.setSession x).intStatus = s.intStatus := rfl
@[simp] theorem State.setSession_intEnable (x : Session) : (s.setSession x).intEnable = s.intEnable := rfl
@[simp] theorem State.setSession_session (x : Session) : (s.setSession x).session = x := rfl
@[simp] theorem State.setSession_buf (x : Session) : (s.setSession x).buf = s.buf := rfl
@[simp] theorem State.setSession_running (x : Session) : (s.setSession x).running = s.running := rfl
@[simp] theorem State.setSession_inReset (x : Session) : (s.setSession x).inReset = s.inReset := rfl
@[simp] theorem State.setSession_inbox (x : Session) : (s.setSession x).inbox = s.inbox := rfl
@[simp] theorem State.setSession_resp (x : Session) : (s.setSession x).resp = s.resp := rfl
@[simp] theorem State.setSession_ent (x : Session) : (s.setSession x).ent = s.ent := rfl
@[simp] theorem State.setSession_delays (x : Session) : (s.setSession x).delays = s.delays := rfl
@[simp] theorem State.setSession_free (x : Session) : (s.setSession x).free = s.free := rfl

/-! ## a write of GF_RES -/

@[simp] theorem State.setGfRes_build (v : Word32) : (s.setGfRes v).build = s.build := rfl
@[simp] theorem State.setGfRes_args (v : Word32) : (s.setGfRes v).args = s.args := rfl
@[simp] theorem State.setGfRes_outlen (v : Word32) : (s.setGfRes v).outlen = s.outlen := rfl
@[simp] theorem State.setGfRes_errinfo (v : Word32) : (s.setGfRes v).errinfo = s.errinfo := rfl
@[simp] theorem State.setGfRes_gfRes (v : Word32) : (s.setGfRes v).gfRes = v := rfl
@[simp] theorem State.setGfRes_err (v : Word32) : (s.setGfRes v).err = s.err := rfl
@[simp] theorem State.setGfRes_errcode (v : Word32) : (s.setGfRes v).errcode = s.errcode := rfl
@[simp] theorem State.setGfRes_lastop (v : Word32) : (s.setGfRes v).lastop = s.lastop := rfl
@[simp] theorem State.setGfRes_intStatus (v : Word32) : (s.setGfRes v).intStatus = s.intStatus := rfl
@[simp] theorem State.setGfRes_intEnable (v : Word32) : (s.setGfRes v).intEnable = s.intEnable := rfl
@[simp] theorem State.setGfRes_session (v : Word32) : (s.setGfRes v).session = s.session := rfl
@[simp] theorem State.setGfRes_buf (v : Word32) : (s.setGfRes v).buf = s.buf := rfl
@[simp] theorem State.setGfRes_running (v : Word32) : (s.setGfRes v).running = s.running := rfl
@[simp] theorem State.setGfRes_inReset (v : Word32) : (s.setGfRes v).inReset = s.inReset := rfl
@[simp] theorem State.setGfRes_inbox (v : Word32) : (s.setGfRes v).inbox = s.inbox := rfl
@[simp] theorem State.setGfRes_resp (v : Word32) : (s.setGfRes v).resp = s.resp := rfl
@[simp] theorem State.setGfRes_ent (v : Word32) : (s.setGfRes v).ent = s.ent := rfl
@[simp] theorem State.setGfRes_delays (v : Word32) : (s.setGfRes v).delays = s.delays := rfl
@[simp] theorem State.setGfRes_free (v : Word32) : (s.setGfRes v).free = s.free := rfl

/-! ## the acknowledgement -/

@[simp] theorem State.ackInt_build (w : Word32) : (s.ackInt w).build = s.build := rfl
@[simp] theorem State.ackInt_args (w : Word32) : (s.ackInt w).args = s.args := rfl
@[simp] theorem State.ackInt_outlen (w : Word32) : (s.ackInt w).outlen = s.outlen := rfl
@[simp] theorem State.ackInt_errinfo (w : Word32) : (s.ackInt w).errinfo = s.errinfo := rfl
@[simp] theorem State.ackInt_gfRes (w : Word32) : (s.ackInt w).gfRes = s.gfRes := rfl
@[simp] theorem State.ackInt_err (w : Word32) : (s.ackInt w).err = s.err := rfl
@[simp] theorem State.ackInt_errcode (w : Word32) : (s.ackInt w).errcode = s.errcode := rfl
@[simp] theorem State.ackInt_lastop (w : Word32) : (s.ackInt w).lastop = s.lastop := rfl
@[simp] theorem State.ackInt_intStatus (w : Word32) : (s.ackInt w).intStatus = s.intStatus &&& ~~~(w.extractLsb' 0 3) := rfl
@[simp] theorem State.ackInt_intEnable (w : Word32) : (s.ackInt w).intEnable = s.intEnable := rfl
@[simp] theorem State.ackInt_session (w : Word32) : (s.ackInt w).session = s.session := rfl
@[simp] theorem State.ackInt_buf (w : Word32) : (s.ackInt w).buf = s.buf := rfl
@[simp] theorem State.ackInt_running (w : Word32) : (s.ackInt w).running = s.running := rfl
@[simp] theorem State.ackInt_inReset (w : Word32) : (s.ackInt w).inReset = s.inReset := rfl
@[simp] theorem State.ackInt_inbox (w : Word32) : (s.ackInt w).inbox = s.inbox := rfl
@[simp] theorem State.ackInt_resp (w : Word32) : (s.ackInt w).resp = s.resp := rfl
@[simp] theorem State.ackInt_ent (w : Word32) : (s.ackInt w).ent = s.ent := rfl
@[simp] theorem State.ackInt_delays (w : Word32) : (s.ackInt w).delays = s.delays := rfl
@[simp] theorem State.ackInt_free (w : Word32) : (s.ackInt w).free = s.free := rfl

/-! ## a bus response -/

@[simp] theorem State.respond_build (err : Bool) (data : Word32) : (s.respond err data).build = s.build := rfl
@[simp] theorem State.respond_args (err : Bool) (data : Word32) : (s.respond err data).args = s.args := rfl
@[simp] theorem State.respond_outlen (err : Bool) (data : Word32) : (s.respond err data).outlen = s.outlen := rfl
@[simp] theorem State.respond_errinfo (err : Bool) (data : Word32) : (s.respond err data).errinfo = s.errinfo := rfl
@[simp] theorem State.respond_gfRes (err : Bool) (data : Word32) : (s.respond err data).gfRes = s.gfRes := rfl
@[simp] theorem State.respond_err (err : Bool) (data : Word32) : (s.respond err data).err = s.err := rfl
@[simp] theorem State.respond_errcode (err : Bool) (data : Word32) : (s.respond err data).errcode = s.errcode := rfl
@[simp] theorem State.respond_lastop (err : Bool) (data : Word32) : (s.respond err data).lastop = s.lastop := rfl
@[simp] theorem State.respond_intStatus (err : Bool) (data : Word32) : (s.respond err data).intStatus = s.intStatus := rfl
@[simp] theorem State.respond_intEnable (err : Bool) (data : Word32) : (s.respond err data).intEnable = s.intEnable := rfl
@[simp] theorem State.respond_session (err : Bool) (data : Word32) : (s.respond err data).session = s.session := rfl
@[simp] theorem State.respond_buf (err : Bool) (data : Word32) : (s.respond err data).buf = s.buf := rfl
@[simp] theorem State.respond_running (err : Bool) (data : Word32) : (s.respond err data).running = s.running := rfl
@[simp] theorem State.respond_inReset (err : Bool) (data : Word32) : (s.respond err data).inReset = s.inReset := rfl
@[simp] theorem State.respond_inbox (err : Bool) (data : Word32) : (s.respond err data).inbox = s.inbox := rfl
@[simp] theorem State.respond_resp (err : Bool) (data : Word32) : (s.respond err data).resp = some ⟨err, data⟩ := rfl
@[simp] theorem State.respond_ent (err : Bool) (data : Word32) : (s.respond err data).ent = s.ent := rfl
@[simp] theorem State.respond_delays (err : Bool) (data : Word32) : (s.respond err data).delays = s.delays := rfl
@[simp] theorem State.respond_free (err : Bool) (data : Word32) : (s.respond err data).free = s.free := rfl

/-! ## a reset -/

@[simp] theorem State.cleared_build (m : Memory) : (s.cleared m).build = s.build := rfl
@[simp] theorem State.cleared_args (m : Memory) : (s.cleared m).args = Args.reset := rfl
@[simp] theorem State.cleared_outlen (m : Memory) : (s.cleared m).outlen = 0 := rfl
@[simp] theorem State.cleared_errinfo (m : Memory) : (s.cleared m).errinfo = 0 := rfl
@[simp] theorem State.cleared_gfRes (m : Memory) : (s.cleared m).gfRes = 0 := rfl
@[simp] theorem State.cleared_err (m : Memory) : (s.cleared m).err = false := rfl
@[simp] theorem State.cleared_errcode (m : Memory) : (s.cleared m).errcode = 0 := rfl
@[simp] theorem State.cleared_lastop (m : Memory) : (s.cleared m).lastop = 0 := rfl
@[simp] theorem State.cleared_intStatus (m : Memory) : (s.cleared m).intStatus = 0 := rfl
@[simp] theorem State.cleared_intEnable (m : Memory) : (s.cleared m).intEnable = 0 := rfl
@[simp] theorem State.cleared_session (m : Memory) : (s.cleared m).session = .none := rfl
@[simp] theorem State.cleared_buf (m : Memory) : (s.cleared m).buf = m := rfl
@[simp] theorem State.cleared_running (m : Memory) : (s.cleared m).running = none := rfl
@[simp] theorem State.cleared_inReset (m : Memory) : (s.cleared m).inReset = s.inReset := rfl
@[simp] theorem State.cleared_inbox (m : Memory) : (s.cleared m).inbox = s.inbox := rfl
@[simp] theorem State.cleared_resp (m : Memory) : (s.cleared m).resp = s.resp := rfl
@[simp] theorem State.cleared_ent (m : Memory) : (s.cleared m).ent = s.ent := rfl
@[simp] theorem State.cleared_delays (m : Memory) : (s.cleared m).delays = s.delays := rfl
@[simp] theorem State.cleared_free (m : Memory) : (s.cleared m).free = s.free := rfl

/-! ## The operands of a command under the updates it makes -/

@[simp] theorem State.memWrite_opnd (a : Nat) (x : List Byte) : (s.memWrite a x).opnd = s.opnd := rfl
@[simp] theorem State.memWrite_hostWrote (a : Nat) (x : List Byte) : (s.memWrite a x).hostWrote = s.hostWrote := rfl
@[simp] theorem State.memWrite_len (a : Nat) (x : List Byte) : (s.memWrite a x).len = s.len := rfl
@[simp] theorem State.memWrite_src (a : Nat) (x : List Byte) : (s.memWrite a x).src = s.src := rfl
@[simp] theorem State.memWrite_dst (a : Nat) (x : List Byte) : (s.memWrite a x).dst = s.dst := rfl
@[simp] theorem State.setSession_opnd (x : Session) : (s.setSession x).opnd = s.opnd := rfl
@[simp] theorem State.setSession_inBuf (x : Session) : (s.setSession x).inBuf = s.inBuf := rfl
@[simp] theorem State.setSession_hostWrote (x : Session) : (s.setSession x).hostWrote = s.hostWrote := rfl
@[simp] theorem State.setSession_len (x : Session) : (s.setSession x).len = s.len := rfl
@[simp] theorem State.setSession_src (x : Session) : (s.setSession x).src = s.src := rfl
@[simp] theorem State.setSession_dst (x : Session) : (s.setSession x).dst = s.dst := rfl
@[simp] theorem State.setSession_memRead (x : Session) (c n : Nat) : (s.setSession x).memRead c n = s.memRead c n := rfl
@[simp] theorem State.setGfRes_opnd (v : Word32) : (s.setGfRes v).opnd = s.opnd := rfl
@[simp] theorem State.setGfRes_inBuf (v : Word32) : (s.setGfRes v).inBuf = s.inBuf := rfl
@[simp] theorem State.setGfRes_hostWrote (v : Word32) : (s.setGfRes v).hostWrote = s.hostWrote := rfl
@[simp] theorem State.setGfRes_len (v : Word32) : (s.setGfRes v).len = s.len := rfl
@[simp] theorem State.setGfRes_src (v : Word32) : (s.setGfRes v).src = s.src := rfl
@[simp] theorem State.setGfRes_dst (v : Word32) : (s.setGfRes v).dst = s.dst := rfl
@[simp] theorem State.setGfRes_memRead (v : Word32) (c n : Nat) : (s.setGfRes v).memRead c n = s.memRead c n := rfl

/-! ## The views of a session -/

@[simp] theorem Session.none_algi : Session.none.algi = .none := rfl
@[simp] theorem Session.keyed_algi (a : Algi) : (Session.keyed a).algi = some a := rfl
@[simp] theorem Session.context_algi (a : Algi) (c : Ctx) (t : Str) : (Session.context a c t).algi = some a := rfl
@[simp] theorem Session.none_ctx : Session.none.ctx = .none := rfl
@[simp] theorem Session.keyed_ctx (a : Algi) : (Session.keyed a).ctx = .none := rfl
@[simp] theorem Session.context_ctx (a : Algi) (c : Ctx) (t : Str) : (Session.context a c t).ctx = some c := rfl
@[simp] theorem Session.none_str : Session.none.str = .idle := rfl
@[simp] theorem Session.keyed_str (a : Algi) : (Session.keyed a).str = .idle := rfl
@[simp] theorem Session.context_str (a : Algi) (c : Ctx) (t : Str) : (Session.context a c t).str = t := rfl

end Sys2Proof.Machine
end

