-- ==== Sys2Proof/Laws/Ops.lean ====
section
/-! SUPPORT. What each shared operation can do, said once: the range checks, the entropy draws, the store, padding. -/

namespace Sys2Proof.Machine

/-! ## Range checks (20_memory.md R77) -/

theorem State.dstCheck_eq_none (s : State) (n : Nat) : s.dstCheck n = none ↔ s.dst + n ≤ s.build.bufBytes := by
  unfold State.dstCheck
  split <;> simp_all

/-- The check of DST answers nothing or BUFFER_RANGE sub-cause 2. -/
theorem State.dstCheck_cases (s : State) (n : Nat) :
    (s.dstCheck n = none ∧ s.dst + n ≤ s.build.bufBytes) ∨
      (s.dstCheck n = some ⟨.bufferRange, 2#8, 0#8⟩ ∧ s.build.bufBytes < s.dst + n) := by
  unfold State.dstCheck
  split_ifs with h
  · exact .inl ⟨rfl, h⟩
  · exact .inr ⟨rfl, by omega⟩

theorem State.rangeCheck_eq_none (s : State) (n : Nat) : s.rangeCheck n = none ↔ s.InRange n := by
  unfold State.rangeCheck State.InRange
  split_ifs with h
  · simp [State.dstCheck_eq_none, h]
  · simp [h]

/-- The range check answers nothing, sub-cause 1, or sub-cause 2. -/
theorem State.rangeCheck_cases (s : State) (n : Nat) :
    (s.rangeCheck n = none ∧ s.InRange n) ∨
      (s.rangeCheck n = some ⟨.bufferRange, 1#8, 0#8⟩ ∧ s.build.bufBytes < s.src + s.len) ∨
      (s.rangeCheck n = some ⟨.bufferRange, 2#8, 0#8⟩ ∧ s.src + s.len ≤ s.build.bufBytes ∧
        s.build.bufBytes < s.dst + n) := by
  unfold State.rangeCheck State.InRange
  split_ifs with h
  · rcases s.dstCheck_cases n with ⟨h1, h2⟩ | ⟨h1, h2⟩
    · exact .inl ⟨h1, h, h2⟩
    · exact .inr (.inr ⟨h1, h, h2⟩)
  · exact .inr (.inl ⟨rfl, by omega⟩)

/-! ## Entropy (00_scope.md R13) -/

@[simp] theorem answerBytes_length (bytes : List Byte) (draw n : Nat) : (answerBytes bytes draw n).length = n := by
  simp [answerBytes]
  omega

/-- A draw that does not fail gives as many bytes as were asked for. -/
theorem State.drawEnt_length {s s' : State} {n : Nat} {x : List Byte} (h : s.drawEnt n = (some x, s')) :
    x.length = n := by
  unfold State.drawEnt at h
  split at h
  · simp at h
  · obtain ⟨rfl, rfl⟩ := by simpa using h
    exact answerBytes_length _ _ _
  · simp only [Prod.mk.injEq] at h
    obtain ⟨h, -⟩ := h
    split at h
    · simp at h
    · obtain rfl := by simpa using h
      exact answerBytes_length _ _ _

/-- A draw takes an answer and counts the draw: nothing else changes. -/
theorem State.drawEnt_frame (s : State) (n : Nat) : ∃ e k, (s.drawEnt n).2 = { s with ent := e, free := k } := by
  unfold State.drawEnt
  split
  · exact ⟨_, _, rfl⟩
  · exact ⟨_, _, rfl⟩
  · exact ⟨_, _, rfl⟩

/-- An answer that was supplied whole is what the draw gives. -/
theorem State.drawEnt_supplied {s : State} {x : List Byte} {rest : List EntAnswer} (h : s.ent = .ok x :: rest) :
    s.drawEnt x.length = (some x, { s with ent := rest, free := s.free + 1 }) := by
  simp [State.drawEnt, h, answerBytes]

/-- A supplied failure makes the draw fail. -/
theorem State.drawEnt_failed {s : State} {rest : List EntAnswer} (n : Nat) (h : s.ent = .fail :: rest) :
    s.drawEnt n = (none, { s with ent := rest }) := by
  simp [State.drawEnt, h]

/-- The delta draw: nothing in a mode other than RANDOM_DELTA (47_modes.md R344). -/
theorem State.drawDelta_frame (s : State) (mode : Mode) (n : Nat) :
    ∃ e k, (s.drawDelta mode n).2 = { s with ent := e, free := k } := by
  cases mode with
  | randomDelta => exact s.drawEnt_frame n
  | ecb | cbc | pcbc | cfb | ofb | ctr => exact ⟨_, _, rfl⟩

theorem State.drawDelta_length {s s' : State} {mode : Mode} {n : Nat} {x : List Byte}
    (h : s.drawDelta mode n = (some x, s')) : x.length = deltaLen mode n := by
  cases mode with
  | randomDelta => exact State.drawEnt_length h
  | ecb | cbc | pcbc | cfb | ofb | ctr =>
    obtain ⟨rfl, -⟩ := by simpa [State.drawDelta] using h
    rfl

/-! ## Padding (46_padding.md) -/

theorem padLen_pos (l : Nat) {bs : Nat} (h : 0 < bs) : 0 < padLen l bs := by
  have := Nat.mod_lt l h
  unfold padLen
  omega

theorem padLen_le (l bs : Nat) : padLen l bs ≤ bs := by
  unfold padLen
  omega

/-- The padded length is a multiple of the block size (46_padding.md R300). -/
theorem padLen_dvd (l : Nat) {bs : Nat} (h : 0 < bs) : bs ∣ l + padLen l bs := by
  have h1 := Nat.mod_lt l h
  have h2 := Nat.div_add_mod l bs
  have h3 : l + padLen l bs = bs * (l / bs + 1) := by
    unfold padLen
    rw [Nat.mul_add, Nat.mul_one]
    omega
  exact h3 ▸ Nat.dvd_mul_right _ _

/-- The fill that pad draws: a byte less than the padding for ISO10126, nothing for any other scheme. -/
theorem State.drawFill_length {s s' : State} {scheme : PadScheme} {n : Nat} {x : List Byte}
    (h : s.drawFill scheme n = (some x, s')) :
    x.length = match scheme with
      | .iso10126 => n - 1
      | .zeros | .ansiX923 | .pkcs7 => 0 := by
  cases scheme with
  | iso10126 =>
    simp only [State.drawFill] at h
    split_ifs at h with hn
    · obtain ⟨rfl, -⟩ := by simpa using h
      simp only [List.length_nil]; omega
    · exact State.drawEnt_length h
  | zeros | ansiX923 | pkcs7 =>
    obtain ⟨rfl, -⟩ := by simpa [State.drawFill] using h
    rfl

theorem State.drawFill_frame (s : State) (scheme : PadScheme) (n : Nat) :
    ∃ e k, (s.drawFill scheme n).2 = { s with ent := e, free := k } := by
  cases scheme with
  | iso10126 =>
    simp only [State.drawFill]
    split_ifs
    · exact ⟨_, _, rfl⟩
    · exact s.drawEnt_frame _
  | zeros | ansiX923 | pkcs7 => exact ⟨_, _, rfl⟩

theorem padTail_length {scheme : PadScheme} {n : Nat} {fill : List Byte} (hn : 0 < n)
    (hf : scheme = .iso10126 → fill.length = n - 1) : (padTail scheme n fill).length = n := by
  cases scheme with
  | zeros | pkcs7 => simp [padTail]
  | ansiX923 => simp only [padTail, List.length_append, List.length_replicate, List.length_singleton]; omega
  | iso10126 =>
    simp only [padTail, List.length_append, List.length_singleton, hf rfl]; omega

/-- The data keeps its place and its padded length is L + n (46_padding.md R301). -/
theorem State.pad_spec {s s' : State} {data x : List Byte} {bs : Nat} {scheme : PadScheme} (hbs : 0 < bs)
    (h : s.pad data bs scheme = (some x, s')) :
    ∃ fill, s.drawFill scheme (padLen data.length bs) = (some fill, s') ∧
      x = data ++ padTail scheme (padLen data.length bs) fill ∧ x.length = data.length + padLen data.length bs := by
  simp only [State.pad] at h
  split at h
  · simp at h
  · next fill s'' hd =>
    obtain ⟨rfl, rfl⟩ := by simpa using h
    refine ⟨fill, hd, rfl, ?_⟩
    rw [List.length_append, padTail_length (padLen_pos _ hbs)]
    intro hs
    subst hs
    simpa using State.drawFill_length hd

theorem State.pad_frame (s : State) (data : List Byte) (bs : Nat) (scheme : PadScheme) :
    ∃ e k, (s.pad data bs scheme).2 = { s with ent := e, free := k } := by
  obtain ⟨e, k, h⟩ := s.drawFill_frame scheme (padLen data.length bs)
  refine ⟨e, k, ?_⟩
  rw [← h]
  simp only [State.pad]
  split <;> simp_all

/-- What unpad returns is the beginning of its data (46_padding.md R302). -/
theorem unpad_isPrefix {scheme : PadScheme} {x y : List Byte} (h : unpad scheme x = .ok y) : y <+: x := by
  cases scheme with
  | zeros =>
    obtain rfl := by simpa [unpad] using h
    refine ⟨(x.reverse.takeWhile (· == 0#8)).reverse, ?_⟩
    rw [stripZeros, ← List.reverse_append, List.takeWhile_append_dropWhile, List.reverse_reverse]
  | ansiX923 | iso10126 =>
    simp only [unpad] at h
    split at h
    · simp at h
    · obtain rfl := by simpa using h
      exact List.take_prefix _ _
  | pkcs7 =>
    simp only [unpad] at h
    split at h
    · simp at h
    · split_ifs at h
      obtain rfl := by simpa using h
      exact List.take_prefix _ _

/-! ## The store -/

/-- The store puts its bytes into BUF and leaves every other byte (00_scope.md R10, 70_reset_and_hazards.md R460). -/
theorem State.memWrite_stores (s : State) (a : Nat) (x : List Byte) : s.Stores a x (s.memWrite a x).buf := by
  rw [State.memWrite_buf]
  refine ⟨fun k b h => ?_, fun y hy => Memory.read_writeN_outside _ _ _ _ (by simpa using hy)⟩
  rcases mergeHost_getElem? s.buf s.hostWrote s.free a k x b h with h | ⟨h1, h2⟩
  · exact .inl (Memory.read_writeN_inside _ _ _ _ _ h)
  · exact .inr ⟨h1, Memory.read_writeN_inside _ _ _ _ _ h2⟩

/-- A store changes BUF and the count of draws. -/
theorem State.memWrite_eq (s : State) (a : Nat) (x : List Byte) :
    s.memWrite a x = { s with buf := (s.memWrite a x).buf, free := (s.memWrite a x).free } := rfl

/-- A store inside BUF keeps BUF's form. -/
theorem State.memWrite_ok {s : State} {a : Nat} {x : List Byte} (h : s.buf.Ok s.build)
    (hx : a + x.length ≤ s.build.bufBytes ∨ x = []) : (s.memWrite a x).buf.Ok s.build := by
  rw [State.memWrite_buf]
  refine ⟨Memory.wf_writeN _ _ _ h.1, Memory.writeN_below _ _ _ _ ?_ h.2⟩
  rcases hx with hx | rfl
  · exact .inl (by simpa using hx)
  · exact .inr rfl

/-- With no host write during the command the bytes stored are the command's. -/
theorem State.Stores.readN {s : State} {a : Nat} {x : List Byte} {m : Memory} (h : s.Stores a x m)
    (hw : s.hostWrote = []) : m.readN a x.length = x := by
  apply List.ext_getElem?
  intro k
  by_cases hk : k < x.length
  · rw [Memory.readN_getElem? _ _ _ _ hk, List.getElem?_eq_getElem hk]
    rcases h.1 k _ (List.getElem?_eq_getElem hk) with h | ⟨h, -⟩
    · rw [h]
    · simp [hw] at h
  · rw [List.getElem?_eq_none (by simp; omega), List.getElem?_eq_none (by omega)]

/-- Nothing stored, nothing changed. -/
theorem State.stores_nil (s : State) (a : Nat) : s.Stores a [] s.buf := ⟨by simp, fun _ _ => rfl⟩

end Sys2Proof.Machine
end

