-- ==== Sys2Proof/Laws/Modes.lean ====
section
/-! SUPPORT. Lengths of blocks and buffers through the ciphers and the modes, and how a run over blocks splits
(44_block_commands.md R255, 47_modes.md R330 to R344). -/

namespace Sys2Proof.Machine

/-! ## The block operations give one block -/

@[simp] theorem feEncrypt_length (p : FeParams) (sched : List Word64) (x : List Byte) :
    (feEncrypt p sched x).length = 16 := by simp [feEncrypt]

@[simp] theorem feDecrypt_length (p : FeParams) (sched : List Word64) (x : List Byte) :
    (feDecrypt p sched x).length = 16 := by simp [feDecrypt]

@[simp] theorem rc5Encrypt_length (r : Nat) (w : WordSize) (sched : List Word64) (x : List Byte) :
    (rc5Encrypt r w sched x).length = 2 * w.bytes := by
  simp [rc5Encrypt]
  omega

@[simp] theorem rc5Decrypt_length (r : Nat) (w : WordSize) (sched : List Word64) (x : List Byte) :
    (rc5Decrypt r w sched x).length = 2 * w.bytes := by
  simp [rc5Decrypt]
  omega

@[simp] theorem spEncrypt_length (p : SpParams) (ks : List Word64) (x : List Byte) :
    (spEncrypt p ks x).length = 16 := by simp [spEncrypt]

@[simp] theorem spDecrypt_length (p : SpParams) (ks : List Word64) (x : List Byte) :
    (spDecrypt p ks x).length = 16 := by simp [spDecrypt]

/-- ENC gives one block. -/
@[simp] theorem algEnc_length (b : Build) (a : Algi) (x : List Byte) : (algEnc b a x).length = a.kind.bs := by
  unfold algEnc
  split <;> simp_all [AlgKind.bs]

/-- DEC gives one block. -/
@[simp] theorem algDec_length (b : Build) (a : Algi) (x : List Byte) : (algDec b a x).length = a.kind.bs := by
  unfold algDec
  split <;> simp_all [AlgKind.bs]

/-! ## The block steps -/

/-- An environment made of a context: its block operations give one block. -/
theorem modeEnv_enc_length (b : Build) (a : Algi) (c : Ctx) (d x : List Byte) :
    ((modeEnv b a c d).enc x).length = (modeEnv b a c d).bs := algEnc_length b a x

theorem modeEnv_dec_length (b : Build) (a : Algi) (c : Ctx) (d x : List Byte) :
    ((modeEnv b a c d).dec x).length = (modeEnv b a c d).bs := algDec_length b a x

/-- What a chaining state needs in a mode: a block in a chained mode, a delta block in RANDOM_DELTA. -/
def ModeEnv.Ready (e : ModeEnv) (st : Chain) : Prop :=
  (∀ x, (e.enc x).length = e.bs) ∧ (∀ x, (e.dec x).length = e.bs) ∧
    (e.mode.chained = true → st.s.length = e.bs) ∧ (e.mode = .randomDelta → e.delta.length = e.bs)

/-- An encryption step gives one block and a state that is ready again. -/
theorem encStep_ready {e : ModeEnv} {st : Chain} {p : List Byte} (h : e.Ready st) (hp : p.length = e.bs) :
    (encStep e st p).1.length = e.bs ∧ e.Ready (encStep e st p).2 := by
  obtain ⟨he, hd, hs, hr⟩ := h
  unfold ModeEnv.Ready
  cases hm : e.mode <;> simp_all [encStep, Mode.chained]

/-- A decryption step gives one block and a state that is ready again. -/
theorem decStep_ready {e : ModeEnv} {st : Chain} {p : List Byte} (h : e.Ready st) (hp : p.length = e.bs) :
    (decStep e st p).1.length = e.bs ∧ e.Ready (decStep e st p).2 := by
  obtain ⟨he, hd, hs, hr⟩ := h
  unfold ModeEnv.Ready
  cases hm : e.mode <;> simp_all [decStep, Mode.chained]

/-- A step never gives more than a block where the input is no longer than one. -/
theorem encStep_length_le {e : ModeEnv} {st : Chain} {p : List Byte} (he : ∀ x, (e.enc x).length = e.bs)
    (hp : p.length ≤ e.bs) : (encStep e st p).1.length ≤ e.bs := by
  cases hm : e.mode <;> (simp [encStep, hm, he]; try omega)

theorem decStep_length_le {e : ModeEnv} {st : Chain} {p : List Byte} (he : ∀ x, (e.enc x).length = e.bs)
    (hd : ∀ x, (e.dec x).length = e.bs) (hp : p.length ≤ e.bs) : (decStep e st p).1.length ≤ e.bs := by
  cases hm : e.mode <;> (simp [decStep, hm, he, hd]; try omega)

/-! ## Runs over blocks -/

/-- A run over joined lists of blocks is the first run and then the second from where the first ended. -/
theorem runSteps_append (f : Chain → List Byte → List Byte × Chain) (st : Chain) (xs ys : List (List Byte)) :
    runSteps f st (xs ++ ys) =
      ((runSteps f st xs).1 ++ (runSteps f (runSteps f st xs).2 ys).1,
        (runSteps f (runSteps f st xs).2 ys).2) := by
  induction xs generalizing st with
  | nil => simp [runSteps]
  | cons x xs ih => simp [runSteps, ih]

/-- A run gives at most a block for each block. -/
theorem runSteps_length_le {f : Chain → List Byte → List Byte × Chain} {bs : Nat} {st : Chain} {xs : List (List Byte)}
    (hf : ∀ st x, x.length ≤ bs → (f st x).1.length ≤ bs) (hx : ∀ x ∈ xs, x.length ≤ bs) :
    (runSteps f st xs).1.length ≤ xs.length * bs := by
  induction xs generalizing st with
  | nil => simp [runSteps]
  | cons x xs ih =>
    have h1 := hf st x (hx x List.mem_cons_self)
    have h2 := ih (st := (f st x).2) fun y hy => hx y (List.mem_cons_of_mem _ hy)
    simp only [runSteps, List.length_append, List.length_cons, Nat.succ_mul]
    omega

/-- A run from a ready state gives a block for each block and ends in a ready state. -/
theorem runSteps_ready {f : Chain → List Byte → List Byte × Chain} {bs : Nat} {P : Chain → Prop}
    (hf : ∀ st x, P st → x.length = bs → (f st x).1.length = bs ∧ P (f st x).2) {st : Chain} {xs : List (List Byte)}
    (hs : P st) (hx : ∀ x ∈ xs, x.length = bs) :
    (runSteps f st xs).1.length = xs.length * bs ∧ P (runSteps f st xs).2 := by
  induction xs generalizing st with
  | nil => simp [runSteps, hs]
  | cons x xs ih =>
    have h1 := hf st x hs (hx x List.mem_cons_self)
    have h2 := ih h1.2 fun y hy => hx y (List.mem_cons_of_mem _ hy)
    simp only [runSteps, List.length_append, List.length_cons, Nat.succ_mul]
    exact ⟨by omega, h2.2⟩

/-- A whole buffer of whole blocks keeps its length through encryption. -/
theorem encBlocks_length {e : ModeEnv} {st : Chain} {x : List Byte} (h : e.Ready st) (hx : e.bs ∣ x.length) :
    (encBlocks e st x).1.length = x.length ∧ e.Ready (encBlocks e st x).2 := by
  have hm : x.length / e.bs * e.bs = x.length := Nat.div_mul_cancel hx
  have := runSteps_ready (f := encStep e) (P := e.Ready) (fun st x hs hx => encStep_ready hs hx) (xs := blocks e.bs (x.length / e.bs) x)
    h (blocks_block_length hm.le)
  rwa [blocks_length, hm] at this

/-- A whole buffer of whole blocks keeps its length through decryption. -/
theorem decBlocks_length {e : ModeEnv} {st : Chain} {x : List Byte} (h : e.Ready st) (hx : e.bs ∣ x.length) :
    (decBlocks e st x).1.length = x.length ∧ e.Ready (decBlocks e st x).2 := by
  have hm : x.length / e.bs * e.bs = x.length := Nat.div_mul_cancel hx
  have := runSteps_ready (f := decStep e) (P := e.Ready) (fun st x hs hx => decStep_ready hs hx) (xs := blocks e.bs (x.length / e.bs) x)
    h (blocks_block_length hm.le)
  rwa [blocks_length, hm] at this

/-! ## Set-key -/

/-- SETKEY gives an instance of the kind and key it was asked for (44_block_commands.md R255). -/
theorem keyAlgi_eq_ok {b : Build} {k : AlgKind} {key : List Byte} {a : Algi} (h : keyAlgi b k key = .ok a) :
    a.kind = k ∧ a.key = key ∧ setkey b k key = .ok a.sched := by
  unfold keyAlgi at h
  split at h
  · simp at h
  · next sched hs =>
    obtain rfl := by simpa using h
    exact ⟨rfl, rfl, hs⟩

end Sys2Proof.Machine
end

