-- ==== Sys2Proof/Laws/Exec.lean ====
section
/-! SUPPORT. What a command can do, said once: it ends by complete or by raise (60_exceptions.md R400, R401), and before
that it touches GF_RES, the session, BUF, the entropy answers and the count of draws, nothing else. -/

namespace Sys2Proof.Machine

/-- `x` is `s` with only those fields changed that a command may change before its completion writes. -/
def State.Touched (s x : State) : Prop :=
  ∃ g se b e k, x = { s with gfRes := g, session := se, buf := b, ent := e, free := k }

/-- The outcome of a command with opcode `op` from `s`: its completion or error writes on a touched state. -/
def Ends (op : Byte) (s : State) (r : Res) : Prop :=
  ∃ x, s.Touched x ∧ ((∃ n, r = x.complete op n) ∨ ∃ e, r = x.raise op e)

theorem State.Touched.refl (s : State) : s.Touched s := ⟨_, _, _, _, _, rfl⟩

theorem State.Touched.trans {s x y : State} (h : s.Touched x) (h' : x.Touched y) : s.Touched y := by
  obtain ⟨_, _, _, _, _, rfl⟩ := h
  obtain ⟨_, _, _, _, _, rfl⟩ := h'
  exact ⟨_, _, _, _, _, rfl⟩

theorem State.touched_setSession (s : State) (x : Session) : s.Touched (s.setSession x) := ⟨_, _, _, _, _, rfl⟩

theorem State.touched_setGfRes (s : State) (v : Word32) : s.Touched (s.setGfRes v) := ⟨_, _, _, _, _, rfl⟩

theorem State.touched_memWrite (s : State) (a : Nat) (x : List Byte) : s.Touched (s.memWrite a x) :=
  ⟨_, _, _, _, _, rfl⟩

theorem State.touched_drawEnt (s : State) (n : Nat) : s.Touched (s.drawEnt n).2 := by
  obtain ⟨e, k, h⟩ := s.drawEnt_frame n
  exact ⟨_, _, _, e, k, h⟩

theorem State.touched_pad (s : State) (data : List Byte) (bs : Nat) (scheme : PadScheme) :
    s.Touched (s.pad data bs scheme).2 := by
  obtain ⟨e, k, h⟩ := s.pad_frame data bs scheme
  exact ⟨_, _, _, e, k, h⟩

theorem State.touched_drawDelta (s : State) (mode : Mode) (n : Nat) : s.Touched (s.drawDelta mode n).2 := by
  obtain ⟨e, k, h⟩ := s.drawDelta_frame mode n
  exact ⟨_, _, _, e, k, h⟩

theorem State.touched_encryptBuf (b : Build) (a : Algi) (c : Ctx) (p : List Byte) (s : State) :
    s.Touched (encryptBuf b a c p s).2 := by
  have hp := s.touched_pad p a.kind.bs c.pad
  unfold encryptBuf
  split
  · next h => rwa [h] at hp
  · next x s' h =>
    rw [h] at hp
    have ht := hp.trans (s'.touched_drawDelta c.mode a.kind.bs)
    split
    · next h => rwa [h] at ht
    · next h => rwa [h] at ht

theorem Ends.complete {op : Byte} {s x : State} (n : Nat) (h : s.Touched x) : Ends op s (x.complete op n) :=
  ⟨x, h, .inl ⟨n, rfl⟩⟩

theorem Ends.raise {op : Byte} {s x : State} (e : CmdError) (h : s.Touched x) : Ends op s (x.raise op e) :=
  ⟨x, h, .inr ⟨e, rfl⟩⟩

theorem Ends.writeUnpadded {op : Byte} {s x : State} (scheme : PadScheme) (y : List Byte) (h : s.Touched x) :
    Ends op s (x.writeUnpadded op scheme y) := by
  unfold State.writeUnpadded
  split
  · exact .raise _ (h.trans (x.touched_memWrite _ _))
  · exact .complete _ (h.trans (x.touched_memWrite _ _))

theorem execNop_ends (s : State) : Ends 0x00#8 s (execNop s) := .complete _ (.refl s)

theorem execCtxClear_ends (s : State) : Ends 0x02#8 s (execCtxClear s) := .complete _ (s.touched_setSession _)

theorem execStreamAbort_ends (s : State) : Ends 0x1F#8 s (execStreamAbort s) := .complete _ (s.touched_setSession _)

theorem execCtxInit_ends (s : State) : Ends 0x01#8 s (execCtxInit s) := by
  simp only [execCtxInit]
  split
  · exact .raise _ (s.touched_setSession _)
  · exact .complete _ ((s.touched_setSession _).trans (State.touched_setSession _ _))

theorem execAlgSetkey_ends (s : State) : Ends 0x03#8 s (execAlgSetkey s) := by
  simp only [execAlgSetkey]
  split
  · exact .raise _ (s.touched_setSession _)
  · exact .complete _ ((s.touched_setSession _).trans (State.touched_setSession _ _))

theorem blockCommand_ends (op : Byte) (f : Build → Algi → List Byte → List Byte) (s : State) :
    Ends op s (blockCommand op f s) := by
  unfold blockCommand
  split
  · exact .raise _ (.refl s)
  · split_ifs
    · exact .raise _ (.refl s)
    · split
      · exact .raise _ (.refl s)
      · exact .complete _ (s.touched_memWrite _ _)

theorem execFEval_ends (s : State) : Ends 0x0A#8 s (execFEval s) := by
  unfold execFEval
  split_ifs
  · exact .raise _ (.refl s)
  · split
    · exact .raise _ (.refl s)
    · exact .complete _ (s.touched_memWrite _ _)

theorem execGfMul_ends (s : State) : Ends 0x20#8 s (execGfMul s) := by
  unfold execGfMul
  split
  · exact .raise _ (.refl s)
  · exact .complete _ (s.touched_setGfRes _)

theorem execGfCube_ends (s : State) : Ends 0x21#8 s (execGfCube s) := by
  unfold execGfCube
  split
  · exact .raise _ (.refl s)
  · exact .complete _ (s.touched_setGfRes _)

theorem execSbox1_ends (s : State) : Ends 0x22#8 s (execSbox1 s) := .complete _ (s.touched_setGfRes _)

theorem execSbox2_ends (s : State) : Ends 0x23#8 s (execSbox2 s) := .complete _ (s.touched_setGfRes _)

theorem execPad_ends (psel : BitVec 3) (pbs : Byte) (s : State) : Ends 0x30#8 s (execPad psel pbs s) := by
  unfold execPad
  split_ifs
  · exact .raise _ (.refl s)
  · split
    · exact .raise _ (.refl s)
    · next scheme _ =>
      have hp := s.touched_pad (s.memRead s.src s.len) pbs.toNat scheme
      dsimp only
      split
      · exact .raise _ (.refl s)
      · split
        · next h => rw [h] at hp; exact .raise _ hp
        · next h => rw [h] at hp; exact .complete _ (hp.trans (State.touched_memWrite _ _ _))

theorem execUnpad_ends (psel : BitVec 3) (s : State) : Ends 0x31#8 s (execUnpad psel s) := by
  unfold execUnpad
  split
  · exact .raise _ (.refl s)
  · split
    · exact .raise _ (.refl s)
    · split
      · exact .raise _ (.refl s)
      · exact .complete _ (s.touched_memWrite _ _)

theorem execEncrypt_ends (s : State) : Ends 0x10#8 s (execEncrypt s) := by
  unfold execEncrypt
  split
  · exact .raise _ (.refl s)
  · exact .raise _ (.refl s)
  · next a c _ _ =>
    have he := s.touched_encryptBuf s.build a c (s.memRead s.src s.len)
    dsimp only
    split
    · exact .raise _ (.refl s)
    · split
      · next h => rw [h] at he; exact .raise _ he
      · next h => rw [h] at he; exact .complete _ (he.trans (State.touched_memWrite _ _ _))

theorem execDecrypt_ends (s : State) : Ends 0x11#8 s (execDecrypt s) := by
  unfold execDecrypt
  split
  · exact .raise _ (.refl s)
  · exact .raise _ (.refl s)
  · split
    · exact .raise _ (.refl s)
    · split
      · exact .raise _ (.refl s)
      · exact .writeUnpadded _ _ (.refl s)

theorem execSencBegin_ends (s : State) : Ends 0x18#8 s (execSencBegin s) := by
  unfold execSencBegin
  split
  · exact .raise _ (.refl s)
  · exact .raise _ (.refl s)
  · exact .raise _ (.refl s)
  · exact .raise _ (.refl s)
  · next a c _ =>
    have hd := s.touched_drawEnt a.kind.bs
    split
    · split
      · exact .raise _ (.refl s)
      · split
        · next h => rw [h] at hd; exact .raise _ hd
        · next h =>
          rw [h] at hd
          exact .complete _ ((hd.trans (State.touched_memWrite _ _ _)).trans (State.touched_setSession _ _))
    all_goals exact .complete _ (s.touched_setSession _)

theorem execSencData_ends (s : State) : Ends 0x19#8 s (execSencData s) := by
  unfold execSencData
  split
  · dsimp only
    split
    · exact .raise _ (.refl s)
    · exact .complete _ ((s.touched_memWrite _ _).trans (State.touched_setSession _ _))
  all_goals exact .raise _ (.refl s)

theorem execSencEnd_ends (s : State) : Ends 0x1A#8 s (execSencEnd s) := by
  unfold execSencEnd
  split
  · next a c d _ =>
    have hs := s.touched_setSession (.context a c .idle)
    have hp := hs.trans (State.touched_pad _ d.pend a.kind.bs c.pad)
    dsimp only
    split
    · exact .raise _ hs
    · split
      · next h => rw [h] at hp; exact .raise _ hp
      · next h => rw [h] at hp; exact .complete _ (hp.trans (State.touched_memWrite _ _ _))
  all_goals exact .raise _ (.refl s)

theorem execSdecBegin_ends (s : State) : Ends 0x1C#8 s (execSdecBegin s) := by
  unfold execSdecBegin
  split
  · exact .raise _ (.refl s)
  · exact .raise _ (.refl s)
  · exact .raise _ (.refl s)
  · exact .raise _ (.refl s)
  · exact .complete _ (s.touched_setSession _)

theorem execSdecData_ends (s : State) : Ends 0x1D#8 s (execSdecData s) := by
  unfold execSdecData
  split
  · dsimp only
    split
    · exact .raise _ (.refl s)
    · split_ifs
      · exact .complete _ (s.touched_setSession _)
      · exact .complete _ ((s.touched_memWrite _ _).trans (State.touched_setSession _ _))
  all_goals exact .raise _ (.refl s)

theorem execSdecEnd_ends (s : State) : Ends 0x1E#8 s (execSdecEnd s) := by
  unfold execSdecEnd
  split
  · next a c d _ =>
    have hs := s.touched_setSession (.context a c .idle)
    dsimp only
    split
    · exact .raise _ hs
    · split
      · exact .raise _ hs
      · exact .writeUnpadded _ _ hs
  all_goals exact .raise _ (.refl s)

/-- Every command ends by complete or by raise, with its own opcode as LASTOP. -/
theorem exec_ends (i : Instr) (s : State) : Ends i.op s (exec i s) := by
  cases i with
  | nop => exact execNop_ends s
  | ctxInit => exact execCtxInit_ends s
  | ctxClear => exact execCtxClear_ends s
  | algSetkey => exact execAlgSetkey_ends s
  | blkEnc => exact blockCommand_ends _ _ s
  | blkDec => exact blockCommand_ends _ _ s
  | fEval => exact execFEval_ends s
  | encrypt => exact execEncrypt_ends s
  | decrypt => exact execDecrypt_ends s
  | sencBegin => exact execSencBegin_ends s
  | sencData => exact execSencData_ends s
  | sencEnd => exact execSencEnd_ends s
  | sdecBegin => exact execSdecBegin_ends s
  | sdecData => exact execSdecData_ends s
  | sdecEnd => exact execSdecEnd_ends s
  | streamAbort => exact execStreamAbort_ends s
  | gfMul => exact execGfMul_ends s
  | gfCube => exact execGfCube_ends s
  | sbox1 => exact execSbox1_ends s
  | sbox2 => exact execSbox2_ends s
  | pad psel pbs => exact execPad_ends psel pbs s
  | unpad psel => exact execUnpad_ends psel s

/-- A command word, legal or not, ends by complete or by raise. -/
theorem runWord_ends (w : Word32) (s : State) : Ends (opField w) s (runWord w s) ∨
    ∃ i, decode w = .ok i ∧ Ends i.op s (runWord w s) := by
  unfold runWord
  split
  · next i h => exact .inr ⟨i, h, exec_ends i s⟩
  · exact .inl (.raise _ (.refl s))

end Sys2Proof.Machine
end

