-- ==== Sys2Proof/Laws/Step.lean ====
section
/-! SUPPORT. What a step can do, said once: time passes, the command that is due completes, the oldest input is served,
in the order that the input asks for (log 16). -/

namespace Sys2Proof.Machine

/-! ## Pieces of a step -/

@[simp] theorem State.complete_eq (s : State) (op : Byte) (n : Nat) : s.complete op n = .next (s.completed op n) := rfl

@[simp] theorem State.raise_eq (s : State) (op : Byte) (e : CmdError) : s.raise op e = .next (s.raised op e) := rfl

@[simp] theorem andThen_next (s : State) (f : State → Res) : andThen (.next s) f = f s := rfl

theorem State.countDown_eq (s : State) :
    s.countDown = { s with running := s.running.map fun r => { r with left := r.left - 1 } } := by
  unfold State.countDown
  cases s
  next running _ _ _ _ _ _ => cases running <;> rfl

/-- A command word of either kind ends in a next state that has no command in progress. -/
theorem runWord_next (w : Word32) (s : State) : ∃ t x op, runWord w s = .next t ∧ s.Touched x ∧
    ((∃ n, t = x.completed op n) ∨ ∃ e, t = x.raised op e) := by
  rcases runWord_ends w s with h | ⟨i, -, h⟩
  all_goals
    obtain ⟨x, hx, ⟨n, hr⟩ | ⟨e, hr⟩⟩ := h
    · exact ⟨_, x, _, hr, hx, .inl ⟨n, rfl⟩⟩
    · exact ⟨_, x, _, hr, hx, .inr ⟨e, rfl⟩⟩

/-- The completion, if any, of a cycle: nothing is due, or the command in progress runs. -/
theorem finishDue_cases (s : State) :
    (finishDue s = .next s ∧ ∀ r, s.running = some r → r.left ≠ 0) ∨
      ∃ r, s.running = some r ∧ r.left = 0 ∧ finishDue s = runWord r.word s := by
  unfold finishDue
  split
  · next h => exact .inl ⟨rfl, by simp [h]⟩
  · next r h =>
    split_ifs with h0
    · exact .inr ⟨r, h, h0, rfl⟩
    · exact .inl ⟨rfl, by simp [h, h0]⟩

/-- A completion that is due or not always gives a next state. -/
theorem finishDue_next (s : State) : ∃ t, finishDue s = .next t := by
  rcases finishDue_cases s with ⟨h, -⟩ | ⟨r, -, -, h⟩
  · exact ⟨s, h⟩
  · obtain ⟨t, -, -, ht, -⟩ := runWord_next r.word s
    exact ⟨t, h.trans ht⟩

/-- With no command in progress nothing is due. -/
theorem finishDue_idle {s : State} (h : s.running = none) : finishDue s = .next s := by simp [finishDue, h]

/-! ## The step -/

/-- The three shapes of a step. -/
theorem step_cases {s t : State} (h : step s = .next t) :
    (s.inbox = [] ∧ finishDue s.countDown = .next t) ∨
      (∃ i rest, s.inbox = i :: rest ∧ i.beforeCompletion s.build = true ∧
        finishDue ({ s.countDown with inbox := rest }.serve i) = .next t) ∨
      ∃ i rest u, s.inbox = i :: rest ∧ i.beforeCompletion s.build = false ∧
        finishDue { s.countDown with inbox := rest } = .next u ∧ finishDue (u.serve i) = .next t := by
  have hi : s.countDown.inbox = s.inbox := by rw [State.countDown_eq]
  simp only [step, cycle, hi] at h
  split at h
  · next h0 => exact .inl ⟨h0, h⟩
  · next i rest h0 =>
    split_ifs at h with hb
    · exact .inr (.inl ⟨i, rest, h0, hb, h⟩)
    · obtain ⟨u, hu⟩ := finishDue_next { s.countDown with inbox := rest }
      rw [hu, andThen_next] at h
      exact .inr (.inr ⟨i, rest, u, h0, by simpa using hb, hu, h⟩)

end Sys2Proof.Machine
end

