-- ==== Sys2Proof/Laws/Bus.lean ====
section
/-! SUPPORT. What a bus access can do, said once: address decoding (20_memory.md R71), reads and writes of registers
(10_state.md R21), of the windows and of BUF byte by byte (20_memory.md R72; 70_reset_and_hazards.md R460), and a step
that serves one. -/

namespace Sys2Proof.Machine

/-! ## Address decoding (20_memory.md R71) -/

theorem inWindow_offset (b : Build) {o : Nat} (h : o < 0x20000) (w : Width) (op : BusOp) :
    inWindow b ⟨b.base + o, w, op⟩ = true := by simp [inWindow, windowSize, h]

theorem targetOfAccess_offset (b : Build) (o : Nat) (w : Width) (op : BusOp) :
    targetOfAccess b ⟨b.base + o, w, op⟩ = targetOf b o := by simp [targetOfAccess]

theorem targetOf_reg (b : Build) (r : Reg) : targetOf b r.offset = .reg r := by cases r <;> rfl

theorem Reg.offset_lt (r : Reg) : r.offset < 0x050 := by cases r <;> decide

theorem Reg.offset_mod (r : Reg) : r.offset % 4 = 0 := by cases r <;> decide

theorem Width.bytes_cases (w : Width) : w.bytes = 1 ∨ w.bytes = 2 ∨ w.bytes = 4 := by cases w <;> decide

/-- BUF ends at a multiple of 4, so an aligned access that begins in it lies in it; and it fits the window. -/
theorem Build.bufBytes_form (b : Build) : 4 ∣ b.bufBytes ∧ b.bufBytes ≤ 0x10000 := by
  have h := b.bufLog.2
  unfold Build.bufBytes
  exact ⟨pow_dvd_pow 2 (show 2 ≤ b.bufLog.val by omega),
    (Nat.pow_le_pow_right (by omega) h.2).trans (by decide : 2 ^ 16 ≤ 0x10000)⟩

/-! ## Bytes of a data word (20_memory.md R72) -/

theorem toLe_getElem? {n k : Nat} (v : Nat) (h : k < n) : (toLe n v)[k]? = some (BitVec.ofNat 8 (v / 256 ^ k)) := by
  induction n generalizing v k with
  | zero => omega
  | succ n ih =>
    cases k with
    | zero => simp [toLe]
    | succ k => simp [toLe, ih _ (Nat.lt_of_succ_lt_succ h), Nat.div_div_eq_div_mul, Nat.pow_succ, Nat.mul_comm]

/-- Byte k of a written word is its bits 8k+7 to 8k. -/
theorem toLe_word_getElem? {n k : Nat} (v : Word32) (h : k < n) :
    (toLe n v.toNat)[k]? = some (v.extractLsb' (8 * k) 8) := by
  rw [toLe_getElem? _ h]
  refine congrArg some (BitVec.eq_of_toNat_eq ?_)
  simp [Nat.shiftRight_eq_div_pow, Nat.pow_mul]

/-- A register's four bytes, read as a word, are the register. -/
theorem word_of_toLe (v : Word32) : BitVec.ofNat 32 (leNat (toLe 4 v.toNat)) = v := by
  rw [leNat_toLe, Nat.mod_eq_of_lt (show v.toNat < 256 ^ 4 from v.isLt), BitVec.ofNat_toNat, BitVec.setWidth_eq]

/-! ## Writes byte by byte -/

/-- A window after a write: the bytes written where they lie in it, every other as it was. -/
theorem vecWrite_getElem? {n : Nat} (v : Vector Byte n) (i : Nat) (l : List Byte) (x : Nat) :
    (vecWrite v i l)[x]? = if i ≤ x ∧ x < i + l.length ∧ x < n then l[x - i]? else v[x]? := by
  induction l generalizing v i with
  | nil => simp only [vecWrite, List.length_nil]; rw [if_neg (by omega)]
  | cons b l ih =>
    simp only [vecWrite, ih, List.length_cons]
    rcases Nat.lt_trichotomy x i with h | rfl | h
    · rw [if_neg (by omega), if_neg (by omega), Vector.getElem?_setIfInBounds_ne (by omega)]
    · by_cases hn : x < n <;> simp [hn]
    · obtain ⟨k, rfl⟩ := Nat.exists_eq_add_of_lt h
      rw [show i + k + 1 - i = k + 1 by omega, show i + k + 1 - (i + 1) = k by omega,
        Vector.getElem?_setIfInBounds_ne (by omega), List.getElem?_cons_succ]
      exact if_congr (by omega) rfl rfl

/-- BUF as a running command sees it after a host write: of each byte written the old or the new, every other as it was
(70_reset_and_hazards.md R460). -/
theorem viewWrites_spec (draw : Nat) (m : Memory) (a : Nat) (l : List Byte) :
    (∀ k b, l[k]? = some b → (viewWrites draw m a l).read (a + k) = m.read (a + k) ∨
      (viewWrites draw m a l).read (a + k) = b) ∧
    ∀ x, x < a ∨ a + l.length ≤ x → (viewWrites draw m a l).read x = m.read x := by
  induction l generalizing m a with
  | nil => simp [viewWrites]
  | cons b l ih =>
    obtain ⟨h1, h2⟩ := ih (if Config.commandSees draw a then m.write a b else m) (a + 1)
    have hother : ∀ x, x ≠ a → (if Config.commandSees draw a then m.write a b else m).read x = m.read x := by
      intro x hx
      split_ifs
      · exact Memory.read_write_other _ _ hx
      · rfl
    simp only [viewWrites, List.length_cons]
    refine ⟨fun k c hk => ?_, fun x hx => (h2 x (by omega)).trans (hother x (by omega))⟩
    cases k with
    | zero =>
      obtain rfl : b = c := by simpa using hk
      rw [h2 _ (by omega)]
      split_ifs <;> simp
    | succ k =>
      have := h1 k c (by simpa using hk)
      rw [show a + 1 + k = a + (k + 1) by omega, hother _ (by omega)] at this
      exact this

/-! ## Register accesses (10_state.md R21) -/

/-- A 32-bit write to a register, with reset released. -/
theorem State.access_write_reg (s : State) (r : Reg) (v : Word32) (h : s.inReset = false) :
    s.access ⟨s.build.base + r.offset, .w32, .write v⟩ = (s.regWrite r v).respond false 0#32 := by
  have h1 := inWindow_offset s.build (show r.offset < 0x20000 from r.offset_lt.trans (by decide)) .w32 (.write v)
  simp [State.access, h1, h, targetOfAccess_offset, targetOf_reg, accessLegal, r.offset_mod, State.busWrite]

/-- A 32-bit read of a register with no command in progress: its value, and nothing else changes. -/
theorem State.access_read_reg (s : State) (r : Reg) (h : s.inReset = false) (hr : s.running = none) :
    s.access ⟨s.build.base + r.offset, .w32, .read⟩ = s.respond false (s.regRead r) := by
  have h1 := inWindow_offset s.build (show r.offset < 0x20000 from r.offset_lt.trans (by decide)) .w32 .read
  simp [State.access, h1, h, targetOfAccess_offset, targetOf_reg, accessLegal, r.offset_mod, State.busRead,
    State.readBytes, State.busy, hr, Width.bytes, word_of_toLe, State.respond]

/-- A 32-bit read of a register while BUSY (70_reset_and_hazards.md R462). -/
theorem State.access_read_reg_busy (s : State) (r : Reg) (h : s.inReset = false) {x : Running}
    (hr : s.running = some x) :
    s.access ⟨s.build.base + r.offset, .w32, .read⟩ =
      { s.respond false (s.regReadBusy r) with free := s.free + 1 } := by
  have h1 := inWindow_offset s.build (show r.offset < 0x20000 from r.offset_lt.trans (by decide)) .w32 .read
  simp [State.access, h1, h, targetOfAccess_offset, targetOf_reg, accessLegal, r.offset_mod, State.busRead,
    State.readBytes, State.busy, hr, Width.bytes, word_of_toLe, State.respond]

/-- Only writes to CTRL and INT_STATUS come before a completion in their cycle (log 16). -/
theorem beforeCompletion_write_reg (b : Build) (r : Reg) (v : Word32) :
    Input.beforeCompletion b (.bus ⟨b.base + r.offset, .w32, .write v⟩) = (r == .ctrl || r == .intStatus) := by
  have h1 := inWindow_offset b (show r.offset < 0x20000 from r.offset_lt.trans (by decide)) .w32 (.write v)
  simp only [Input.beforeCompletion, h1, targetOfAccess_offset, targetOf_reg, Bool.true_and]
  cases r <;> rfl

@[simp] theorem beforeCompletion_read (b : Build) (a : Nat) (w : Width) :
    Input.beforeCompletion b (.bus ⟨a, w, .read⟩) = false := rfl

/-! ## A step that serves an input -/

/-- With no command in progress a step serves the oldest input, and runs the command it submits if that has no delay. -/
theorem step_idle {s : State} {i : Input} {rest : List Input} (hr : s.running = none) (hi : s.inbox = i :: rest) :
    step s = finishDue (State.serve { s with inbox := rest } i) := by
  have hc : s.countDown = s := by simp [State.countDown, hr]
  simp only [step, cycle, hc, hi]
  split
  · rfl
  · rw [finishDue_idle (by exact hr), andThen_next]

/-- While a command runs on, a step takes a cycle off its time and serves the oldest input, in either order. -/
theorem step_busy {s : State} {r : Running} {n : Nat} {i : Input} {rest : List Input} (hr : s.running = some r)
    (hl : r.left = n + 2) (hi : s.inbox = i :: rest) :
    step s = finishDue (State.serve { s with inbox := rest, running := some { r with left := n + 1 } } i) := by
  have hc : s.countDown = { s with running := some { r with left := n + 1 } } := by simp [State.countDown, hr, hl]
  simp only [step, cycle, hc, hi]
  split
  · rfl
  · simp [finishDue]

end Sys2Proof.Machine
end

