-- ==== Sys2Proof/Laws/PerInstr.lean ====
section
/-! SUPPORT. The fields of every command's word (30_encoding.md R101), command by command. -/

namespace Sys2Proof.Laws

/-- What the word of a command holds in each field, and that its reserved bits are 0 (30_encoding.md R101). -/
abbrev EncodingFields.Statement (i : Instr) : Prop :=
  opField (encode i) = i.op ∧ pselField (encode i) = i.psel ∧ pbsField (encode i) = i.pbs ∧
    encode i &&& 0xFF00F800#32 = 0#32

theorem EncodingFields.nop : EncodingFields.Statement .nop := by decide

theorem EncodingFields.ctxInit : EncodingFields.Statement .ctxInit := by decide

theorem EncodingFields.ctxClear : EncodingFields.Statement .ctxClear := by decide

theorem EncodingFields.algSetkey : EncodingFields.Statement .algSetkey := by decide

theorem EncodingFields.blkEnc : EncodingFields.Statement .blkEnc := by decide

theorem EncodingFields.blkDec : EncodingFields.Statement .blkDec := by decide

theorem EncodingFields.fEval : EncodingFields.Statement .fEval := by decide

theorem EncodingFields.encrypt : EncodingFields.Statement .encrypt := by decide

theorem EncodingFields.decrypt : EncodingFields.Statement .decrypt := by decide

theorem EncodingFields.sencBegin : EncodingFields.Statement .sencBegin := by decide

theorem EncodingFields.sencData : EncodingFields.Statement .sencData := by decide

theorem EncodingFields.sencEnd : EncodingFields.Statement .sencEnd := by decide

theorem EncodingFields.sdecBegin : EncodingFields.Statement .sdecBegin := by decide

theorem EncodingFields.sdecData : EncodingFields.Statement .sdecData := by decide

theorem EncodingFields.sdecEnd : EncodingFields.Statement .sdecEnd := by decide

theorem EncodingFields.streamAbort : EncodingFields.Statement .streamAbort := by decide

theorem EncodingFields.gfMul : EncodingFields.Statement .gfMul := by decide

theorem EncodingFields.gfCube : EncodingFields.Statement .gfCube := by decide

theorem EncodingFields.sbox1 : EncodingFields.Statement .sbox1 := by decide

theorem EncodingFields.sbox2 : EncodingFields.Statement .sbox2 := by decide

theorem EncodingFields.pad (psel : BitVec 3) (pbs : Byte) : EncodingFields.Statement (.pad psel pbs) := by
  revert psel pbs
  decide +kernel

theorem EncodingFields.unpad (psel : BitVec 3) : EncodingFields.Statement (.unpad psel) := by
  revert psel
  decide +kernel

end Sys2Proof.Laws
end

