-- ==== Sys2Proof/Tests/Slice0.lean ====
section
/-! SUPPORT. Tests: expected values are those of spec/95_test_vectors.md or worked out by hand from the rule named. After
them, for every statement with hypotheses, states and operands that meet them (witness_<statement>). -/

namespace Sys2Proof.Tests

set_option Elab.async false

open Sys2Proof.Machine

/-! ## Encoding -/

/-- The ill-formed term, PAD with PBS = 0, is refused by the check, and its word by the decoder (R104). -/
theorem test_wf_refuses_pad_zero :
    (∀ psel, (Instr.pad psel 0#8).wf = false) ∧ decode (encode (.pad 2#3 0#8)) = .error .padBlockZero := by decide

/-- R105, the words as the map gives them. -/
theorem test_decode_context :
    decode 0x00000000#32 = .ok .nop ∧ decode 0x00000001#32 = .ok .ctxInit ∧ decode 0x00000002#32 = .ok .ctxClear ∧
    decode 0x00000003#32 = .ok .algSetkey := by decide

theorem test_decode_blocks :
    decode 0x00000008#32 = .ok .blkEnc ∧ decode 0x00000009#32 = .ok .blkDec ∧ decode 0x0000000A#32 = .ok .fEval ∧
    decode 0x00000010#32 = .ok .encrypt ∧ decode 0x00000011#32 = .ok .decrypt := by decide

theorem test_decode_streams :
    decode 0x00000018#32 = .ok .sencBegin ∧ decode 0x00000019#32 = .ok .sencData ∧
    decode 0x0000001A#32 = .ok .sencEnd ∧ decode 0x0000001C#32 = .ok .sdecBegin ∧
    decode 0x0000001D#32 = .ok .sdecData ∧ decode 0x0000001E#32 = .ok .sdecEnd ∧
    decode 0x0000001F#32 = .ok .streamAbort := by decide

theorem test_decode_gf :
    decode 0x00000020#32 = .ok .gfMul ∧ decode 0x00000021#32 = .ok .gfCube ∧ decode 0x00000022#32 = .ok .sbox1 ∧
    decode 0x00000023#32 = .ok .sbox2 := by decide

/-- R101: PSEL in 10:8, PBS in 23:16; the words of 95_test_vectors.md 2.1 and 2.8. -/
theorem test_decode_padding :
    decode 0x00100230#32 = .ok (.pad 2#3 16#8) ∧ decode 0x00FF0730#32 = .ok (.pad 7#3 255#8) ∧
    decode 0x00080430#32 = .ok (.pad 4#3 8#8) ∧ decode 0x00000131#32 = .ok (.unpad 1#3) ∧
    decode 0x00000731#32 = .ok (.unpad 7#3) := by decide

/-- 95_test_vectors.md 2.1. -/
theorem test_decode_illegal :
    decode 0x00000004#32 = .error .unassignedOp ∧ decode 0x000000FF#32 = .error .unassignedOp ∧
    decode 0x00000108#32 = .error .reservedBits ∧ decode 0x00010231#32 = .error .reservedBits ∧
    decode 0x00000230#32 = .error .padBlockZero ∧ decodeTableWord 8 0x04 = none ∧
    decodeTableWord 32 0x00100230 = some (.pad 2#3 16#8) := by decide

/-! ## States to test on -/

/-- The build of the vectors: REF, 12 rounds, 65536 bytes. -/
def refBuild : Build := { Build.default with tables := .ref }

/-- A small build: REF, one RC5 round, 4096 bytes. -/
def tiny : Build := { refBuild with rc5Rounds := ⟨1, by decide⟩, bufLog := ⟨12, by decide⟩ }

/-- Bytes from numbers. -/
def bytes (l : List Nat) : List Byte := l.map (BitVec.ofNat 8)

/-- The bytes `a`, `a + 1`, ... -/
def upFrom (a n : Nat) : List Byte := (List.range' a n).map (BitVec.ofNat 8)

/-- SRC, LEN and DST. -/
def aim (s : State) (src len dst : Nat) : State :=
  { s with args := { s.args with
    src := BitVec.ofNat 32 src, len := BitVec.ofNat 32 len, dst := BitVec.ofNat 32 dst } }

/-- BUF[a..) holds the bytes. -/
def holding (s : State) (a : Nat) (x : List Byte) : State := { s with buf := s.buf.writeN a x }

/-- KEY is 00 01 02 .., IV is 0, IVLEN 16, and CFG and KEYLEN as given. -/
def keyed (b : Build) (cfg : Word32) (keylen : Nat) : State :=
  { State.resetOf b with args := { Args.reset with
    cfg := cfgOfWord cfg, key := Vector.ofFn fun i => BitVec.ofNat 8 i.val
    keylen := BitVec.ofNat 6 keylen, ivlen := 16#5 } }

/-- The state a command leaves. -/
def run (i : Instr) (s : State) : State :=
  match exec i s with
  | .next t => t
  | .fault _ => s
  | .refused _ => s

/-- Every command ends in a next state. -/
theorem run_eq (i : Instr) (s : State) : exec i s = .next (run i s) := by
  obtain ⟨x, _, ⟨n, h⟩ | ⟨e, h⟩⟩ := exec_ends i s <;> simp only [run, h] <;> rfl

/-- STATUS, ERRINFO and OUTLEN. -/
def report (s : State) : Nat × Nat × Nat := (s.status.toNat, s.errinfo.toNat, s.outlen.toNat)

/-- The RC5-64 context of the vectors: key 00 .. 0F, IV 0. -/
def rc64 (cfg : Word32) : State := run .ctxInit (keyed refBuild cfg 16)

/-- "Hello, ChatYouCry!!!" -/
def hello : List Byte :=
  bytes [0x48, 0x65, 0x6C, 0x6C, 0x6F, 0x2C, 0x20, 0x43, 0x68, 0x61, 0x74, 0x59, 0x6F, 0x75, 0x43, 0x72, 0x79, 0x21,
    0x21, 0x21]

/-- Its CBC, PKCS7 ciphertext (95_test_vectors.md S7). -/
def helloCbc : List Byte :=
  bytes [0xE8, 0xD2, 0x95, 0xEC, 0xF7, 0x1F, 0x5C, 0xD0, 0x68, 0xAE, 0xEC, 0x8D, 0xC2, 0xB0, 0x45, 0x3C, 0x2B, 0xA4,
    0x98, 0x95, 0x99, 0x75, 0x9F, 0x1B, 0x19, 0x81, 0x89, 0x1D, 0x00, 0x58, 0xCF, 0x65]

/-- E(0) of the RC5-64 key 00 .. 0F. -/
def rc64Zero : List Byte :=
  bytes [0x22, 0xE3, 0xB4, 0xB0, 0xB4, 0x22, 0xE8, 0x28, 0x82, 0xA5, 0x47, 0x10, 0xD3, 0xDF, 0x9A, 0xA2]

/-! ## Commands -/

/-- R280: NOP after an error clears ERR, ERRCODE and ERRINFO. -/
theorem test_nop : report (run .nop (run .encrypt State.reset)) = (0, 0, 0) := by decide +kernel

/-- R454: STATUS after CTX_INIT of RC5-64, CBC, PKCS7. -/
theorem test_ctxInit : report (rc64 0x00102211#32) = (0x0001000C, 0, 0) := by decide +kernel

/-- R282: the example with BS = 16 for w = 16. -/
theorem test_ctxInit_block_size :
    report (run .ctxInit (keyed refBuild 0x00100211#32 16)) = (0x00010402, 0x1001, 0) := by decide +kernel

/-- R284: no context afterwards. -/
theorem test_ctxClear :
    report (run .encrypt (run .ctxClear (rc64 0x00102211#32))) = (0x00100D02, 1, 0) := by decide +kernel

/-- R256: sched[0] of the example. -/
theorem test_algSetkey :
    ((run .algSetkey (keyed refBuild 0x00002001#32 16)).session.algi.map fun a => (a.sched.getD 0 0).toNat) =
      some 0x6DAE4802A6FDF09D := by decide +kernel

/-- 95_test_vectors.md 2.6: KEYLEN 40. -/
theorem test_algSetkey_long_key :
    report (run .algSetkey (keyed refBuild 0x00000001#32 40)) = (0x00030202, 0x2804, 0) := by decide +kernel

/-- R258: the zero block. -/
theorem test_blkEnc :
    (run .blkEnc (aim (holding (rc64 0x00102211#32) 0 (bytes (List.replicate 16 0))) 0 16 0x20)).buf.readN 0x20 16 =
      rc64Zero := by decide +kernel

/-- R259: in place. -/
theorem test_blkDec :
    (run .blkDec (aim (holding (rc64 0x00102211#32) 0x10 rc64Zero) 0x10 16 0x10)).buf.readN 0x10 16 =
      bytes (List.replicate 16 0) := by decide +kernel

/-- R261 [REF]: f(0123456789ABCDEF, 0). -/
theorem test_fEval :
    (run .fEval (aim (holding (State.resetOf refBuild) 0
      (bytes ([0x01, 0x23, 0x45, 0x67, 0x89, 0xAB, 0xCD, 0xEF] ++ List.replicate 8 0))) 0 16 0x20)).buf.readN 0x20 8 =
      bytes [0x9B, 0x4D, 0xE9, 0x04, 0xE4, 0x42, 0xC7, 0x75] := by decide +kernel

/-- 95_test_vectors.md S7, and its length (R346). -/
theorem test_encrypt :
    let t := run .encrypt (aim (holding (rc64 0x00102211#32) 0 hello) 0 20 0)
    report t = (0x0010000C, 0, 32) ∧ t.buf.readN 0 32 = helloCbc := by decide +kernel

/-- 95_test_vectors.md V-MODE-1: CTR, and V-MODE-5: one byte too far. -/
theorem test_encrypt_ctr :
    (run .encrypt (aim (holding (rc64 0x00102251#32) 0 hello) 0 20 0)).buf.readN 16 16 =
      bytes [0x8D, 0x05, 0x1F, 0xD6, 0xB1, 0x61, 0x7A, 0x10, 0x3E, 0x94, 0xB3, 0xCE, 0xE7, 0x0D, 0x25, 0x96] ∧
    report (run .encrypt (aim (rc64 0x00102251#32) 0 20 65505)) = (0x0010100E, 2, 0) := by decide +kernel

/-- R347: the example, with the padding bytes after the plaintext. -/
theorem test_decrypt :
    let t := run .decrypt (aim (holding (rc64 0x00102211#32) 0 helloCbc) 0 32 0x40)
    report t = (0x0011000C, 0, 20) ∧ t.buf.readN 0x40 32 = hello ++ List.replicate 12 0x0C#8 := by decide +kernel

/-- 95_test_vectors.md V-MODE-5: PADDING_ERROR leaves X at DST. -/
theorem test_decrypt_padding_error :
    let t := run .decrypt (aim (holding (rc64 0x00102211#32) 0 (bytes (List.replicate 16 0))) 0 16 0x200)
    report t = (0x00110B0E, 0xD203, 0) ∧ t.buf.readN 0x200 2 = bytes [0x7F, 0xAE] := by decide +kernel

/-- 95_test_vectors.md V-STR-1: pieces of 7 and 13 bytes give the CBC ciphertext of S7. -/
theorem test_senc :
    runStream .sencBegin .sencData .sencEnd (rc64 0x00102211#32) ⟨[], 0, 0⟩
      [⟨hello.take 7, 0, 0x100⟩, ⟨hello.drop 7, 0, 0x100⟩] ⟨[], 0, 0x100⟩ = some helloCbc := by decide +kernel

/-- R373: 20 and 12 bytes put out one block each. -/
theorem test_sencData :
    let t := run .sencData (aim (holding (run .sencBegin (rc64 0x00102211#32)) 0 hello) 0 20 0x40)
    report t = (0x0019001C, 0, 16) ∧ (run .sencData (aim t 0 12 0x40)).outlen = 16#32 := by decide +kernel

/-- 95_test_vectors.md V-STR-3: BEGIN with a stream open, END with none. -/
theorem test_stream_state :
    report (run .sdecBegin (run .sencBegin (rc64 0x00102211#32))) = (0x001C111E, 0x102, 0) ∧
    report (run .sencEnd (rc64 0x00102211#32)) = (0x001A110E, 1, 0) := by decide +kernel

/-- The stream decryption of S7's ciphertext, one byte in the first piece. -/
theorem test_sdec :
    runStream .sdecBegin .sdecData .sdecEnd (rc64 0x00102211#32) ⟨[], 0, 0⟩
      [⟨helloCbc.take 1, 0, 0x100⟩, ⟨helloCbc.drop 1, 0, 0x100⟩] ⟨[], 0, 0x100⟩ = some hello := by decide +kernel

/-- R377: 64 bytes put out 32; V-STR-3: 17 bytes then END is NOT_ALIGNED and closes the stream. -/
theorem test_sdecData :
    let s := run .sdecBegin (rc64 0x00102211#32)
    report (run .sdecData (aim (holding s 0 (upFrom 0 64)) 0 64 0x100)) = (0x001D002C, 0, 32) ∧
    report (run .sdecEnd (run .sdecData (aim (holding s 0 (upFrom 0 17)) 0 17 0x100))) =
      (0x001E090E, 0x101, 0) := by decide +kernel

/-- 95_test_vectors.md V-STR-3. -/
theorem test_streamAbort :
    report (run .streamAbort (run .sencBegin (rc64 0x00102211#32))) = (0x001F000C, 0, 0) := by decide +kernel

/-- The registers of the GF commands. -/
def gf (a b m n : Nat) : State :=
  { State.reset with args := { Args.reset with
    gfA := BitVec.ofNat 16 a, gfB := BitVec.ofNat 16 b, gfMod := BitVec.ofNat 17 m, gfCfg := BitVec.ofNat 5 n } }

/-- 95_test_vectors.md 2.2: masked operands, and no reduction. -/
theorem test_gfMul :
    (run .gfMul (gf 0x157 0x183 0x11B 8)).gfRes = 0xC1#32 ∧ (run .gfMul (gf 0x57 0x83 0 8)).gfRes = 0x2B79#32 ∧
    (run .gfMul (gf 0xFFFF 0xFFFF 0x1002B 16)).gfRes = 0xABFA#32 ∧
    report (run .gfMul (gf 1 1 0x11B 0)) = (0x00201202, 1, 0) := by decide +kernel

/-- 95_test_vectors.md 2.2: the example, the low 32 bits of a cube, and WIDTH 31. -/
theorem test_gfCube :
    (run .gfCube (gf 0x1000 0 0x2911 13)).gfRes = 0x5A5#32 ∧
    (run .gfCube (gf 0x400 0 0xA7 11)).gfRes = 0x462FFF9D#32 ∧
    report (run .gfCube (gf 0 0 0 31)) = (0x00211202, 0x1F01, 0) := by decide +kernel

/-- 95_test_vectors.md 2.2. -/
theorem test_sbox1 :
    (run .sbox1 (gf 0 0 0 0)).gfRes = 0x27#32 ∧ (run .sbox1 (gf 0xFFFF 0 0 0)).gfRes = 0#32 ∧
    (run .sbox1 (gf 0x1234 0 0 0)).gfRes = 0x07#32 := by decide +kernel

/-- 95_test_vectors.md 2.2. -/
theorem test_sbox2 :
    (run .sbox2 (gf 0xF800 0 0 0)).gfRes = 0xD7#32 ∧ (run .sbox2 (gf 0x456 0 0 0)).gfRes = 0x2D#32 := by
  decide +kernel

/-- 95_test_vectors.md 2.8: ISO10126 with eleven bytes drawn, then a failing draw. -/
theorem test_pad :
    let s := aim (holding (State.resetOf tiny) 0 (bytes [0x41, 0x42, 0x43, 0x44])) 0 4 0x40
    let t := run (.pad 3#3 16#8) { s with ent := [.ok (List.replicate 11 0x99#8), .fail] }
    report t = (0x00300000, 0, 16) ∧
    t.buf.readN 0x40 16 = bytes [0x41, 0x42, 0x43, 0x44] ++ List.replicate 11 0x99#8 ++ [0x0C#8] ∧
    report (run (.pad 3#3 16#8) t) = (0x00300C02, 1, 0) := by decide +kernel

/-- 95_test_vectors.md 2.8: PKCS7 with a whole block, and PSEL 4. -/
theorem test_pad_pkcs7 :
    let s := aim (holding (State.resetOf tiny) 0 (bytes [0x41, 0x42, 0x43, 0x44])) 0 4 0x40
    (run (.pad 2#3 4#8) s).buf.readN 0x44 4 = bytes [4, 4, 4, 4] ∧
    report (run (.pad 4#3 8#8) s) = (0x00300702, 0x402, 0) := by decide +kernel

/-- 95_test_vectors.md 2.8. -/
theorem test_unpad :
    let s := aim (holding (State.resetOf tiny) 0 (bytes [0x41, 0x42, 0x03, 0x03])) 0 4 0x40
    report (run (.unpad 2#3) s) = (0x00310B02, 0x304, 0) ∧ report (run (.unpad 1#3) s) = (0x00310000, 0, 1) ∧
    (run (.unpad 3#3) s).buf.readN 0x40 1 = bytes [0x41] := by decide +kernel

/-- 95_test_vectors.md 2.8: every zero is stripped; an empty buffer. -/
theorem test_unpad_zeros :
    let s := aim (holding (State.resetOf tiny) 0 (bytes [0, 0])) 0 2 0x40
    report (run (.unpad 0#3) s) = (0x00310000, 0, 0) ∧
    report (run (.unpad 2#3) (aim s 0 0 0)) = (0x00310B02, 1, 0) := by decide +kernel

/-! ## Ciphers -/

/-- 95_test_vectors.md 2.4, row 1: w = 16, zero key, zero block. -/
theorem test_rc5_16 :
    (match rc5Setkey .doc 12 .w16 (bytes (List.replicate 16 0)) with
      | .ok sched => rc5Encrypt 12 .w16 sched (bytes [0, 0, 0, 0])
      | .error _ => []) = bytes [0x76, 0x71, 0x94, 0x5D] := by decide +kernel

/-- 95_test_vectors.md 2.4: w = 32, zero key, with RC5_MIX_RULE = STANDARD. -/
theorem test_rc5_32_standard :
    (match rc5Setkey .standard 12 .w32 (bytes (List.replicate 16 0)) with
      | .ok sched => rc5Encrypt 12 .w32 sched (bytes (List.replicate 8 0))
      | .error _ => []) = bytes [0x21, 0xA5, 0xDB, 0xEE, 0x15, 0x4B, 0x8F, 0x6D] := by decide +kernel

/-- 95_test_vectors.md 2.5 [REF]. -/
theorem test_sp :
    spEncrypt refSp (spSchedule refSp (upFrom 0 16)) (bytes (List.replicate 16 0)) =
      bytes [0x2E, 0xCB, 0x75, 0x50, 0x2C, 0xAF, 0xE6, 0x4A, 0x74, 0x62, 0x24, 0xDD, 0xF5, 0xAD, 0xEC, 0x1C] := by
  decide +kernel

/-- 95_test_vectors.md 2.3. -/
theorem test_feKP :
    feKP 0x0123456789ABCDEF#64 0x00000000FFFFFFFF#64 = 0x89ABCDEF01234567#64 ∧
    feKP 0xFFFFFFFF00000000#64 0xFFFFFFFF0000FFFF#64 = 0xFFFF00000000FFFF#64 := by decide +kernel

/-! ## The bus -/

/-- The answer to the last of some accesses. -/
def answer (s : State) (l : List Input) : Option BusResp :=
  (l.foldl (fun t i => match step { t with inbox := [i] } with
    | .next u => u
    | .fault _ => t
    | .refused _ => t) s).resp

/-- 95_test_vectors.md 2.11: reserved bits of CFG, ID, a narrow read of STATUS, little-endian lanes. -/
theorem test_bus :
    answer State.reset [write32 Build.default .cfg 0xFFFFFFFF#32, read32 Build.default .cfg] =
      some ⟨false, 0x00FF3777#32⟩ ∧
    answer (State.resetOf refBuild) [read32 refBuild .param] = some ⟨false, 0x0001100C#32⟩ ∧
    answer State.reset [.bus ⟨0x008, .w8, .read⟩] = some ⟨true, 0#32⟩ ∧
    answer State.reset [.bus ⟨0x10000, .w32, .write 0x44434241#32⟩, .bus ⟨0x10001, .w8, .read⟩] =
      some ⟨false, 0x42#32⟩ := by decide +kernel

/-- R109: CFG rc5, cbc, pkcs7, 16, 64 is WR32 CFG, 0x00102211 (R454). -/
theorem test_hostAsm :
    asmCfg 1#3 1#3 2#3 16#8 2#2 = [.wr32 .cfg 0x00102211#32] ∧
    HostStmt.accesses Build.default (.cmd (.pad 2#3 16#8)) =
      [.bus ⟨0x00C, .w32, .write 0x00100230#32⟩] := by decide +kernel

/-- 95_test_vectors.md P1: GF_MUL sent over the bus; the step after withFetchWord runs the word. -/
theorem test_step :
    (match step ((gf 0x57 0x83 0x11B 8).withFetchWord 32 0x20) with
      | .next t => some (t.gfRes, t.status, t.intStatus)
      | .fault _ => none
      | .refused _ => none) = some (0xC1#32, 0x00200000#32, 1#3) := by decide +kernel

/-! ## Witnesses: each statement's hypotheses, met -/

/-- An RC5-16 instance of one round. -/
def tAlgi : Algi :=
  ⟨.rc5 .w16, upFrom 0 4, (rc5Schedule .doc 1 .w16 (upFrom 0 4)).map (BitVec.setWidth 64)⟩

/-- A context over it, in a mode and a padding scheme, with the IV 01 02 03 04 where the mode is chained. -/
def tCtx (mode : Mode) (pad : PadScheme) : Ctx := ⟨mode, pad, if mode.chained then upFrom 1 4 else []⟩

/-- The core with that context and a stream. -/
def under (mode : Mode) (pad : PadScheme) (str : Str) : State :=
  { State.resetOf tiny with session := .context tAlgi (tCtx mode pad) str }

/-- A command of a word in progress, `left` cycles from its end, in a state. -/
def busyWith (word : Word32) (left : Nat) (s : State) : State :=
  { s with running := some ⟨word, s.args, s.buf, [], left⟩ }

/-- One pending input. -/
def sends (s : State) (i : Input) : State := { s with inbox := [i] }

/-- An open stream encryption and an open stream decryption of that context. -/
def encStr : StrData := ⟨bytes [9], upFrom 1 4, 0, none⟩
def decStr (held : Nat) : StrData := ⟨upFrom 0 held, upFrom 1 4, 0, none⟩

/-- A state with a context, an open stream and a written byte meets the invariant. -/
theorem inv_under : (holding (under .cbc .pkcs7 (.enc encStr)) 5 [7#8]).Inv where
  buf := ⟨by decide, by decide⟩
  running := by intro r h; cases h
  session := ⟨⟨by decide +kernel, by decide⟩, rfl, by decide, fun _ => rfl, fun h => absurd h (by decide), fun _ => rfl⟩
  success := fun _ => ⟨rfl, rfl⟩
  failure := fun h => by cases h
  inReset := fun h => by cases h

theorem witness_DecodeOfEncodeIsTheCommand :
    (Instr.pad 7#3 255#8).wf = true ∧ (Instr.unpad 7#3).wf = true ∧ Instr.nop.wf = true := by decide

theorem witness_EncodeOfDecodeIsTheWord : decode 0x00FF0730#32 = .ok (.pad 7#3 255#8) := by decide

/-- A word for each of the four clauses, and a state that receives an illegal one. -/
theorem witness_IllegalWordsRaiseTheirCause :
    opField 0x00000004#32 = 0x04#8 ∧ 0x00000108#32 &&& 0xFFFFFF00#32 ≠ 0#32 ∧
    opField 0x00000730#32 = 0x30#8 ∧ 0x00000730#32 &&& 0xFF00F800#32 = 0#32 ∧ pbsField 0x00000730#32 = 0#8 ∧
    0x00FF0730#32 &&& 0xFF00F800#32 = 0#32 ∧ decode 0x00000108#32 = .error .reservedBits ∧
    (let s := sends State.reset (.bus ⟨0x00C, .w32, .write 0x00000108#32⟩);
      s.running = none ∧ s.inReset = false ∧
        s.inbox = .bus ⟨s.build.base + 0x00C, .w32, .write 0x00000108#32⟩ :: []) := by decide +kernel

theorem witness_StepRunsTheDecodedCommand :
    let s := sends (under .cbc .pkcs7 .idle) (.bus ⟨0x00C, .w32, .write 0x10#32⟩)
    decode 0x10#32 = .ok .encrypt ∧ s.running = none ∧ s.inReset = false ∧ s.delays.headD 0 = 0 ∧
    s.inbox = .bus ⟨s.build.base + 0x00C, .w32, .write 0x10#32⟩ :: [] := by decide +kernel

/-- A state for each of the three clauses; `left` is 0 and 1 for the last. -/
theorem witness_DelayedCommandsRunWhenTheirTimeComes :
    let s : State := { sends State.reset (.bus ⟨0x00C, .w32, .write 0x20#32⟩) with delays := [1] }
    (decode 0x20#32 = .ok .gfMul ∧ s.running = none ∧ s.inReset = false ∧ s.delays = (0 + 1) :: [] ∧
      s.inbox = .bus ⟨s.build.base + 0x00C, .w32, .write 0x20#32⟩ :: []) ∧
    ((busyWith 0x20#32 2 State.reset).running = some ⟨0x20#32, Args.reset, ⟨[], 0⟩, [], 2⟩ ∧
      (busyWith 0x20#32 2 State.reset).inbox = []) ∧
    (busyWith 0x20#32 1 State.reset).running = some ⟨0x20#32, Args.reset, ⟨[], 0⟩, [], 1⟩ ∧
    (busyWith 0x20#32 0 State.reset).running = some ⟨0x20#32, Args.reset, ⟨[], 0⟩, [], 0⟩ := by decide +kernel

/-- The command is in progress, or waits on the bus. -/
theorem witness_EveryStepKeepsTheInvariant :
    ∃ s t : State, s.Inv ∧ step s = .next t ∧ s.session ≠ .none := ⟨_, _, inv_under, rfl, by decide +kernel⟩

/-- The boundary registers of the map: neither ID nor PARAM. -/
theorem witness_ResetGivesEveryRegisterItsValue : Reg.ctrl ≠ .id ∧ Reg.gfRes ≠ .param := by decide

theorem witness_FirstCommandsAfterReset : tiny.s2Modulus = 0xA7 := by decide

/-- Idle and busy, with SRST 1 and 0. -/
theorem witness_SoftResetKeepsOnlyBuf :
    let s (v : Word32) (x : State) := sends x (.bus ⟨0x004, .w32, .write v⟩)
    let idle := State.resetOf tiny
    (s 1 idle).inReset = false ∧ (s 1 idle).inbox = .bus ⟨idle.build.base + 0x004, .w32, .write 1#32⟩ :: [] ∧
    (1#32).getLsbD 0 = true ∧ (s 1 (busyWith 0x0A#32 3 idle)).running.isSome = true ∧
    (s 1 (busyWith 0x0A#32 3 idle)).runningMaxOut = 8 ∧
    (0xFFFFFFFE#32).getLsbD 0 = false ∧ (s 0xFFFFFFFE#32 idle).running = none := by decide +kernel

theorem witness_ResetInputWinsAndHolds :
    (sends (busyWith 0x10#32 1 (under .cbc .pkcs7 .idle)) (.rst true)).inbox = .rst true :: [] ∧
    (let s : State := { sends State.reset (.bus ⟨0x008, .w32, .read⟩) with inReset := true };
      s.inReset = true ∧ s.running = none ∧ s.inbox = .bus ⟨0x008, .w32, .read⟩ :: []) ∧
    (sends State.reset (.rst false)).running = none ∧
    (sends State.reset (.rst false)).inbox = .rst false :: [] := by decide +kernel

/-- An error of a plain command, of each command that invalidates or closes, and with BUF written; the bytes
beside the range that it writes. -/
theorem witness_ErrorsChangeNothingElse :
    (∀ i ∈ [Instr.blkEnc, .ctxInit, .algSetkey, .sencEnd, .sdecEnd], ∃ t, exec i (State.resetOf tiny) = .next t ∧
      t.err = true) ∧
    (let s := aim (under .cbc .pkcs7 (.enc encStr)) 0 0 4093;
      ∃ t, exec .sencEnd s = .next t ∧ t.err = true ∧ t.errcode = 0x10#8) ∧
    (let s := aim (holding (under .ecb .pkcs7 .idle) 0 (bytes [0, 0, 0, 0])) 0 4 4;
      (∃ t, exec .decrypt s = .next t ∧ t.err = true ∧ t.errcode = 0x0B#8) ∧
        3 < s.dst ∧ s.dst + maxOutOf .decrypt s ≤ 8) := by
  refine ⟨?_, ⟨_, rfl, by decide +kernel, by decide +kernel⟩, ⟨_, rfl, by decide +kernel, by decide +kernel⟩,
    by decide +kernel, by decide +kernel⟩
  intro i hi
  fin_cases hi <;> exact ⟨_, rfl, by decide +kernel⟩

theorem witness_CommandsWriteOnlyTheirRange :
    (∃ s t : State, s.Inv ∧ exec .sencEnd s = .next t ∧ t.err = false) ∧
    (busyWith 0x1A#32 0 (under .cbc .pkcs7 (.enc encStr))).running.isSome = true :=
  ⟨⟨_, _, inv_under, rfl, by decide +kernel⟩, by decide +kernel⟩

theorem witness_OnlySetupCommandsAndResetChangeTheKey :
    (∃ t, exec .encrypt (under .cbc .pkcs7 .idle) = .next t) ∧
    ∃ s t : State, step s = .next t ∧ t.session.algi ≠ s.session.algi :=
  ⟨⟨_, rfl⟩, sends (under .cbc .pkcs7 .idle) (.bus ⟨0x00C, .w32, .write 2#32⟩), _, rfl, by decide +kernel⟩

/-- A command of each group, on a context with a stream of each direction. -/
theorem witness_OtherCommandsLeaveTheStream :
    Instr.nop ∈ [Instr.nop, .blkEnc, .blkDec, .fEval, .encrypt, .decrypt, .gfMul, .gfCube, .sbox1, .sbox2] ∧
    (under .cbc .pkcs7 (.enc encStr)).session = .context tAlgi (tCtx .cbc .pkcs7) (.enc encStr) ∧
    (under .cbc .pkcs7 (.dec (decStr 4))).session = .context tAlgi (tCtx .cbc .pkcs7) (.dec (decStr 4)) :=
  ⟨by decide, rfl, rfl⟩

theorem witness_NopClearAndAbortComplete :
    State.reset.session.ctx = none ∧
    (under .cbc .pkcs7 (.enc encStr)).session = .context tAlgi (tCtx .cbc .pkcs7) (.enc encStr) := ⟨rfl, rfl⟩

/-- WIDTH 0 and 17 outside, 1 and 16 inside. -/
theorem witness_GfMulMultiplies :
    (∀ n ∈ [0, 17, 31], (gf 1 1 1 n).opnd.gfCfg.toNat < 1 ∨ 16 < (gf 1 1 1 n).opnd.gfCfg.toNat) ∧
    ∀ n ∈ [1, 16], 1 ≤ (gf 1 1 1 n).opnd.gfCfg.toNat ∧ (gf 1 1 1 n).opnd.gfCfg.toNat ≤ 16 := by decide

theorem witness_GfCubeCubes :
    (∀ n ∈ [0, 17, 31], (gf 1 0 1 n).opnd.gfCfg.toNat < 1 ∨ 16 < (gf 1 0 1 n).opnd.gfCfg.toNat) ∧
    ∀ n ∈ [1, 16], 1 ≤ (gf 1 0 1 n).opnd.gfCfg.toNat ∧ (gf 1 0 1 n).opnd.gfCfg.toNat ≤ 16 := by decide

theorem witness_GfCommandsTouchNothingElse :
    (Instr.sbox2 = .gfMul ∨ Instr.sbox2 = .gfCube ∨ Instr.sbox2 = .sbox1 ∨ Instr.sbox2 = .sbox2) ∧
    (busyWith 0x20#32 0 State.reset).running = some ⟨0x20#32, Args.reset, ⟨[], 0⟩, [], 0⟩ := by decide +kernel

/-- S1's field, the field of two elements, S2's modulus, which has no bit 11, and the widest operands. -/
theorem witness_GfProductIsThePolynomialProduct :
    (2 ^ 13 ≤ 0x2911 ∧ 0x2911 < 2 ^ 14 ∧ 0x1FFF < 2 ^ 13 ∧ 2 ^ 1 ≤ 3 ∧ 3 < 2 ^ 2) ∧
    Nat.testBit 0xA7 11 = false ∧ 0x1FFFF < 2 ^ 17 ∧ 0xFFFF < 2 ^ 16 ∧ 0x7FF < 2 ^ 11 := by decide

/-- The first and the last box, subkey, byte and bit: FeistelBitSelections, FeistelAdditionsOfBothKinds,
FeistelSboxLayers and FeistelSubkeys. -/
theorem witness_FeistelIndices :
    0 < 32 ∧ 31 < 32 ∧ 7 < 8 ∧ 3 < 4 ∧ 47 < 48 ∧ (List.replicate 48 0#64).length = 48 := by decide

/-- The last key byte's place and the last word of the array. -/
theorem witness_Rc5ArraysBeforeMixing :
    3 < (4 + 2 - 1) / 2 * 2 ∧ ((rc5L .w16 (upFrom 0 4))[3 / 2]?).isSome = true ∧ 3 < 2 * (1 + 1) := by decide +kernel

theorem witness_EveryCipherDecryptsItsEncryption :
    (upFrom 0 16).length = 16 ∧ (upFrom 0 4).length = 2 * WordSize.w16.bytes := by decide

/-- An unsupported tag, RC5W 3, each algorithm, and key lengths 33, 15, 0, 1, 16 and 32. -/
theorem witness_AlgSetkeyKeysTheInstance :
    (∀ n ∈ [3, 7], 2 < (keyed tiny (BitVec.ofNat 32 n) 16).opnd.cfg.alg.toNat) ∧
    ((keyed tiny 0x3001#32 16).opnd.cfg.alg = 1#3 ∧ (keyed tiny 0x3001#32 16).opnd.cfg.rc5w = 3#2) ∧
    (keyed tiny 0x0000#32 16).opnd.cfg.Selects .feistel ∧ (keyed tiny 0x0001#32 16).opnd.cfg.Selects (.rc5 .w16) ∧
    (keyed tiny 0x1001#32 16).opnd.cfg.Selects (.rc5 .w32) ∧ (keyed tiny 0x2001#32 16).opnd.cfg.Selects (.rc5 .w64) ∧
    (keyed tiny 0x3002#32 16).opnd.cfg.Selects .sp ∧
    ∀ k ∈ [33, 15, 0, 1, 16, 32], (keyed tiny 0#32 k).opnd.keylen.toNat = k := by
  refine ⟨by decide, ⟨by decide, by decide⟩, ?_, ⟨?_, ?_⟩, ⟨?_, ?_⟩, ⟨?_, ?_⟩, ?_, by decide⟩
  · show (keyed tiny 0x0000#32 16).opnd.cfg.alg = 0#3
    decide
  all_goals first | decide | (show (keyed tiny 0x3002#32 16).opnd.cfg.alg = 2#3; decide)

/-- MODE 7, PAD 4, BS 15 and 16, key lengths 33, 20, 24 and 16, IVLEN 16. -/
theorem witness_CtxInitBuildsTheContext :
    2 < (keyed tiny 3#32 16).opnd.cfg.alg.toNat ∧ (keyed tiny 0x3001#32 16).opnd.cfg.rc5w = 3#2 ∧
    (keyed tiny 0x70#32 16).opnd.cfg.mode = 7#3 ∧ (keyed tiny 0x100010#32 16).opnd.cfg.mode = Mode.cbc.tag ∧
    3 < (keyed tiny 0x400#32 16).opnd.cfg.pad.toNat ∧ (keyed tiny 0x100310#32 16).opnd.cfg.pad = PadScheme.iso10126.tag ∧
    (keyed tiny 0x0F0000#32 16).opnd.cfg.bs.toNat ≠ AlgKind.feistel.bs ∧
    (keyed tiny 0x100000#32 16).opnd.cfg.bs.toNat = AlgKind.feistel.bs ∧
    (∀ k ∈ [33, 20, 24, 16], (keyed tiny 0#32 k).opnd.keylen.toNat = k) ∧ 20 ∉ [16, 24, 32, AlgKind.feistel.bs] ∧
    24 ∈ [16, 24, 32, AlgKind.feistel.bs] ∧ Mode.cbc.chained = true ∧ Mode.randomDelta.chained = false ∧
    (keyed tiny 0#32 16).opnd.ivlen.toNat = AlgKind.feistel.bs := by decide

/-- BlkEncEncryptsOneBlock and BlkDecDecryptsOneBlock: no instance; a wrong length; both ranges at their last legal and first illegal place. -/
theorem witness_BlockCommands :
    State.reset.session.algi = none ∧ (under .ecb .zeros .idle).session.algi = some tAlgi ∧
    (aim (under .ecb .zeros .idle) 0 5 0).len ≠ tAlgi.kind.bs ∧
    (aim (under .ecb .zeros .idle) 4092 4 4092).len = tAlgi.kind.bs ∧
    (aim (under .ecb .zeros .idle) 4092 4 4092).InRange tAlgi.kind.bs ∧
    (let s := aim (under .ecb .zeros .idle) 4093 4 0;
      s.build.bufBytes < s.src + s.len) ∧
    (let s := aim (under .ecb .zeros .idle) 4092 4 4093;
      s.src + s.len ≤ s.build.bufBytes ∧ s.build.bufBytes < s.dst + tAlgi.kind.bs) :=
  ⟨rfl, rfl, by decide +kernel, by decide +kernel, ⟨by decide +kernel, by decide +kernel⟩, by decide +kernel,
    by decide +kernel⟩

theorem witness_BlkDecUndoesBlkEnc :
    let s := aim (holding (under .ecb .zeros .idle) 0 (upFrom 1 4)) 0 4 2
    s.running = none ∧ exec .blkEnc s = .next (run .blkEnc s) ∧ (run .blkEnc s).err = false ∧
    (4092#32).toNat + (run .blkEnc s).outlen.toNat ≤ s.build.bufBytes :=
  ⟨rfl, run_eq _ _, by decide +kernel, by decide +kernel⟩

theorem witness_FEvalEvaluatesF :
    (aim (State.resetOf tiny) 0 15 0).len ≠ 16 ∧ (aim (State.resetOf tiny) 4080 16 4088).len = 16 ∧
    (aim (State.resetOf tiny) 4080 16 4088).InRange 8 :=
  ⟨by decide, by decide, ⟨by decide, by decide⟩⟩

/-- The pad length byte 0, one too large, equal to the length, and a byte that does not match. -/
theorem witness_UnpadRemovesWhatItTrusts :
    PadScheme.iso10126 ≠ .zeros ∧ (bytes [1] ++ [3#8]).length < (3#8).toNat ∧
    (2#8 ≠ 0#8 ∧ (2#8).toNat ≤ (bytes [1] ++ [2#8]).length) ∧
    (∃ b ∈ (bytes [1] ++ [2#8]).drop ((bytes [1] ++ [2#8]).length - (2#8).toNat), b ≠ 2#8) ∧
    ∀ b ∈ (bytes [2] ++ [2#8]).drop ((bytes [2] ++ [2#8]).length - (2#8).toNat), b = 2#8 := by decide

theorem witness_UnpadUndoesPad :
    0 < 255 ∧ 255 ≤ 255 ∧ (State.resetOf tiny).pad (upFrom 1 3) 4 .pkcs7 =
      (some (upFrom 1 3 ++ [1#8]), State.resetOf tiny) ∧
    (State.resetOf tiny).pad [] 1 .zeros = (some [0#8], State.resetOf tiny) ∧
    bytes [5, 0] = bytes [5] ++ List.replicate 1 0#8 ∧ (bytes [5]).getLast? ≠ some 0#8 := by decide +kernel

/-- PBS 1 and 255, PSEL 3 and 4, one pad byte and more, a draw that answers and one that fails. -/
theorem witness_PadAppendsPadding :
    1#8 ≠ 0#8 ∧ 255#8 ≠ 0#8 ∧ 3 < (4#3).toNat ∧ (3#3).toNat ≤ 3 ∧
    (let s := aim (State.resetOf tiny) 4093 3 4092;
      s.InRange (s.len + (4 - s.len % 4)) ∧ 4 - s.len % 4 = 1) ∧
    (let s : State := { aim (State.resetOf tiny) 0 2 0 with ent := [.ok [5#8]] };
      1 < 4 - s.len % 4 ∧ s.drawEnt 1 = (some [5#8], { s with ent := [], free := 1 })) ∧
    (let s : State := { aim (State.resetOf tiny) 0 2 0 with ent := [.fail] };
      s.drawEnt 1 = (none, { s with ent := [] })) ∧
    (let s := aim (State.resetOf tiny) 4093 4 0;
      s.build.bufBytes < s.src + s.len) ∧
    (let s := aim (State.resetOf tiny) 0 4 4089;
      s.src + s.len ≤ s.build.bufBytes ∧ s.build.bufBytes < s.dst + (s.len + (4 - s.len % 4))) :=
  ⟨by decide, by decide, by decide, by decide, ⟨⟨by decide, by decide⟩, by decide⟩, by decide +kernel, rfl,
    by decide, by decide⟩

theorem witness_UnpadRemovesPadding :
    3 < (4#3).toNat ∧ 3#3 = PadScheme.iso10126.tag ∧
    (let s := aim (holding (State.resetOf tiny) 0 (bytes [7, 1])) 0 2 4094;
      s.InRange s.len ∧ unpad .iso10126 (s.memRead s.src s.len) = .ok (bytes [7])) ∧
    unpad .iso10126 (bytes [7, 0]) = .error ⟨.paddingError, 2#8, 0#8⟩ :=
  ⟨by decide, rfl, ⟨⟨by decide, by decide⟩, by decide +kernel⟩, by decide +kernel⟩

/-- Two blocks in a chained mode, and in RANDOM_DELTA with its delta block. -/
theorem witness_EncryptedBlocksChain :
    tAlgi.kind.bs ∣ (upFrom 0 8).length ∧ (tCtx .cbc .pkcs7).Ok tAlgi.kind.bs ∧
    (tCtx .randomDelta .pkcs7).Ok tAlgi.kind.bs ∧ (upFrom 5 4).length = tAlgi.kind.bs ∧
    1 < (upFrom 0 8).length / tAlgi.kind.bs := ⟨by decide, rfl, rfl, rfl, by decide⟩

theorem witness_ModesUndoThemselves :
    tAlgi.kind.bs ∣ (upFrom 0 8).length ∧ (tCtx .ctr .pkcs7).Ok tAlgi.kind.bs ∧ (tCtx .ofb .pkcs7).mode = .ofb ∧
    (tCtx .randomDelta .pkcs7).mode = .randomDelta ∧ (upFrom 5 4).length = tAlgi.kind.bs :=
  ⟨by decide, rfl, rfl, rfl, rfl⟩

/-- No context; both ranges at their edge; the fill and the delta drawn, each failing. -/
theorem witness_EncryptEncryptsTheBuffer :
    State.reset.session.ctx = none ∧
    (under .randomDelta .iso10126 .idle).session = .context tAlgi (tCtx .randomDelta .iso10126) .idle ∧
    (aim (under .randomDelta .iso10126 .idle) 4091 5 4084).InRange (5 + 3 + 4) ∧
    (let s : State := { under .randomDelta .iso10126 .idle with ent := [.ok (upFrom 0 2), .ok (upFrom 0 4)] };
      s.drawFill .iso10126 3 = (some (upFrom 0 2), { s with ent := [.ok (upFrom 0 4)], free := 1 }) ∧
      s.drawDelta .randomDelta 4 = (some (answerBytes (upFrom 0 2) 0 4),
        { s with ent := [.ok (upFrom 0 4)], free := 1 })) ∧
    (let s : State := { under .randomDelta .iso10126 .idle with ent := [.fail] };
      s.drawFill .iso10126 3 = (none, { s with ent := [] }) ∧
      s.drawDelta .randomDelta 4 = (none, { s with ent := [] })) :=
  ⟨rfl, rfl, ⟨by decide +kernel, by decide +kernel⟩, ⟨by decide +kernel, rfl⟩, ⟨rfl, rfl⟩⟩

/-- A RANDOM_DELTA buffer too short, one not aligned, one in range; both outcomes of the unpadding. -/
theorem witness_DecryptDecryptsTheBuffer :
    State.reset.session.ctx = none ∧ (tCtx .randomDelta .pkcs7).mode = .randomDelta ∧ 3 < tAlgi.kind.bs ∧
    (5 - 4) % tAlgi.kind.bs ≠ 0 ∧ (4 - 4) % tAlgi.kind.bs = 0 ∧ (aim (under .cbc .zeros .idle) 4088 8 4088).InRange 8 ∧
    unpad .zeros (upFrom 1 4) = .ok (upFrom 1 4) ∧ unpad .pkcs7 [] = .error ⟨.paddingError, 1#8, 0#8⟩ :=
  ⟨rfl, rfl, by decide, by decide, by decide, ⟨by decide +kernel, by decide +kernel⟩, by decide +kernel,
    by decide +kernel⟩

theorem witness_DecryptUndoesEncrypt :
    let s := aim (holding (under .cbc .zeros .idle) 0 (upFrom 1 5)) 0 5 0x40
    s.running = none ∧ s.session = .context tAlgi (tCtx .cbc .zeros) .idle ∧ (tCtx .cbc .zeros).Ok tAlgi.kind.bs ∧
    exec .encrypt s = .next (run .encrypt s) ∧ (run .encrypt s).err = false ∧
    (4088#32).toNat + (run .encrypt s).outlen.toNat ≤ s.build.bufBytes ∧
    (s.buf.readN s.args.src.toNat s.args.len.toNat).getLast? ≠ some 0#8 :=
  ⟨rfl, rfl, rfl, run_eq _ _, by decide +kernel, by decide +kernel, by decide +kernel⟩

/-- No context, a stream open, none open; DST at the edge; the draw answering and failing. -/
theorem witness_SencBeginOpensTheStream :
    State.reset.session.ctx = none ∧ Str.enc encStr ≠ .idle ∧
    (let s := aim (under .randomDelta .pkcs7 .idle) 0 0 4092;
      s.dst + tAlgi.kind.bs ≤ s.build.bufBytes) ∧
    (let s := aim (under .randomDelta .pkcs7 .idle) 0 0 4093;
      s.build.bufBytes < s.dst + tAlgi.kind.bs) ∧
    (let s : State := { under .randomDelta .pkcs7 .idle with ent := [.ok (upFrom 0 4), .fail] };
      s.drawEnt 4 = (some (upFrom 0 4), { s with ent := [.fail], free := 1 })) ∧
    (let s : State := { under .randomDelta .pkcs7 .idle with ent := [.fail] };
      s.drawEnt 4 = (none, { s with ent := [] })) :=
  ⟨rfl, by decide, by decide +kernel, by decide +kernel, by decide +kernel, rfl⟩

/-- No encryption stream open, and one open; a piece that gives a block exactly, at the end of BUF. -/
theorem witness_SencDataEncryptsWholeBlocks :
    (∀ a c d, (under .cbc .pkcs7 (.dec (decStr 1))).session ≠ .context a c (.enc d)) ∧
    (under .cbc .pkcs7 (.enc encStr)).session = .context tAlgi (tCtx .cbc .pkcs7) (.enc encStr) ∧
    (encStr.pend.length + 3) / tAlgi.kind.bs = 1 ∧ (encStr.pend.length + 2) / tAlgi.kind.bs = 0 ∧
    (aim (under .cbc .pkcs7 (.enc encStr)) 4093 3 4092).InRange (1 * tAlgi.kind.bs) :=
  ⟨fun _ _ _ => by show Session.context _ _ (Str.dec _) ≠ _; simp, rfl, rfl, rfl, ⟨by decide +kernel, by decide +kernel⟩⟩

theorem witness_SencEndPadsAndCloses :
    (∀ a c d, State.reset.session ≠ .context a c (.enc d)) ∧
    (under .cbc .iso10126 (.enc encStr)).session = .context tAlgi (tCtx .cbc .iso10126) (.enc encStr) ∧
    (let s := aim (under .cbc .iso10126 (.enc encStr)) 0 0 4092;
      s.dst + tAlgi.kind.bs ≤ s.build.bufBytes) ∧
    (let s := aim (under .cbc .iso10126 (.enc encStr)) 0 0 4093;
      s.build.bufBytes < s.dst + tAlgi.kind.bs) ∧
    (let s : State := { under .cbc .iso10126 .idle with ent := [.ok (upFrom 0 2)] };
      s.drawFill .iso10126 (tAlgi.kind.bs - encStr.pend.length % tAlgi.kind.bs) =
        (some (upFrom 0 2), { s with ent := [], free := 1 })) ∧
    (let s : State := { under .cbc .iso10126 .idle with ent := [.fail] };
      s.drawFill .iso10126 (tAlgi.kind.bs - encStr.pend.length % tAlgi.kind.bs) = (none, { s with ent := [] })) :=
  ⟨fun _ _ _ => by show Session.none ≠ _; simp, rfl, by decide +kernel, by decide +kernel, by decide +kernel, rfl⟩

theorem witness_SdecBeginOpensTheStream :
    State.reset.session.ctx = none ∧
    (under .cbc .pkcs7 .idle).session = .context tAlgi (tCtx .cbc .pkcs7) .idle ∧ Str.dec (decStr 1) ≠ .idle :=
  ⟨rfl, rfl, by decide⟩

/-- Ten bytes held and two more release one block; in RANDOM_DELTA three bytes still await the delta block, four do not. -/
theorem witness_SdecDataHoldsBackTwoBlocks :
    (∀ a c d, (under .cbc .pkcs7 (.enc encStr)).session ≠ .context a c (.dec d)) ∧
    (under .cbc .pkcs7 (.dec (decStr 10))).session = .context tAlgi (tCtx .cbc .pkcs7) (.dec (decStr 10)) ∧
    (aim (under .cbc .pkcs7 (.dec (decStr 10))) 4094 2 4092).InRange (((10 + 2) / 4 - 2) * 4) ∧
    ((tCtx .randomDelta .pkcs7).mode = .randomDelta ∧ (decStr 1).delta = none) ∧ (upFrom 0 3).length < tAlgi.kind.bs ∧
    ¬ (upFrom 0 4).length < tAlgi.kind.bs :=
  ⟨fun _ _ _ => by show Session.context _ _ (Str.enc _) ≠ _; simp, rfl, ⟨by decide +kernel, by decide +kernel⟩, ⟨rfl, rfl⟩, by decide, by decide⟩

/-- The delta block awaited; nine bytes held, not aligned; eight held, at the end of BUF and beyond; both unpaddings. -/
theorem witness_SdecEndUnpadsAndCloses :
    (∀ a c d, State.reset.session ≠ .context a c (.dec d)) ∧
    ((tCtx .randomDelta .pkcs7).mode = .randomDelta ∧ (decStr 1).delta = none) ∧ (tCtx .cbc .pkcs7).mode ≠ .randomDelta ∧
    (decStr 9).pend.length % tAlgi.kind.bs ≠ 0 ∧ (decStr 8).pend.length % tAlgi.kind.bs = 0 ∧
    (let s := aim (under .cbc .pkcs7 (.dec (decStr 8))) 0 0 4088;
      s.dst + 8 ≤ s.build.bufBytes) ∧
    (let s := aim (under .cbc .pkcs7 (.dec (decStr 8))) 0 0 4089;
      s.build.bufBytes < s.dst + 8) ∧
    unpad .zeros (upFrom 1 4) = .ok (upFrom 1 4) ∧ unpad .pkcs7 [] = .error ⟨.paddingError, 1#8, 0#8⟩ :=
  ⟨fun _ _ _ => by show Session.none ≠ _; simp, ⟨rfl, rfl⟩, by decide, by decide, by decide, by decide +kernel, by decide +kernel,
    by decide +kernel, by decide +kernel⟩

/-- RANDOM_DELTA with ISO10126: two pieces, both draws answered. -/
theorem witness_StreamEncryptionIsWholeBufferEncryption :
    let ps : List Piece := [⟨upFrom 1 3, 0, 0x10⟩, ⟨upFrom 4 2, 4094, 0x10⟩]
    let s : State := { under .randomDelta .iso10126 .idle with ent := [.ok (upFrom 0 4)] ++ [.ok (upFrom 7 2)] }
    s.running = none ∧ s.session = .context tAlgi (tCtx .randomDelta .iso10126) .idle ∧
    (tCtx .randomDelta .iso10126).Ok tAlgi.kind.bs ∧ (∀ p ∈ ps, p.Fits s.build) ∧
    (upFrom 7 2).length = padLen (ps.flatMap Piece.bytes).length tAlgi.kind.bs - 1 ∧
    (upFrom 0 4).length = tAlgi.kind.bs ∧
    (runStream .sencBegin .sencData .sencEnd s ⟨[], 0, 0⟩ ps ⟨[], 0, 0x20⟩).isSome = true := by
  refine ⟨rfl, rfl, rfl, ?_, rfl, rfl, by decide +kernel⟩
  intro p hp
  unfold Piece.Fits
  fin_cases hp <;> decide +kernel

/-- The stream decryption of a CBC ciphertext made by ENCRYPT. -/
theorem witness_StreamDecryptionIsWholeBufferDecryption :
    let s := under .cbc .pkcs7 .idle
    let x := (run .encrypt (aim (holding s 0 (upFrom 1 5)) 0 5 0x40)).buf.readN 0x40 8
    s.running = none ∧ s.session = .context tAlgi (tCtx .cbc .pkcs7) .idle ∧ (tCtx .cbc .pkcs7).Ok tAlgi.kind.bs ∧
    (tCtx .cbc .pkcs7).pad ≠ .zeros ∧ Piece.Fits s.build ⟨x, 0, 0x10⟩ ∧
    runStream .sdecBegin .sdecData .sdecEnd s ⟨[], 0, 0⟩ [⟨x, 0, 0x10⟩] ⟨[], 0, 0x20⟩ = some (upFrom 1 5) := by
  refine ⟨rfl, rfl, rfl, by decide, ?_, by decide +kernel⟩
  unfold Piece.Fits
  decide +kernel

theorem witness_RegisterReadsAnswerAndChangeNothing :
    let s := sends State.reset (.bus ⟨0x04C, .w32, .read⟩)
    s.running = none ∧ s.inReset = false ∧
    s.inbox = .bus ⟨s.build.base + Reg.param.offset, .w32, .read⟩ :: [] := by decide +kernel

theorem witness_RegisterWritesStoreTheDefinedBits :
    (Reg.cfg, 0x00FF3777#32) ∈ [(Reg.src, 0xFFFFFFFF#32), (.cfg, 0x00FF3777#32)] ∧ Reg.gfCfg ≠ Reg.cfg ∧
    Reg.param ∈ [Reg.id, .status, .outlen, .errinfo, .gfRes, .param] ∧ Reg.cfg ≠ .cmd ∧ Reg.cfg ≠ .ctrl ∧
    (let s := sends State.reset (.bus ⟨0x020, .w32, .write 0xFFFFFFFF#32⟩);
      s.running = none ∧ s.inReset = false ∧
        s.inbox = .bus ⟨s.build.base + Reg.cfg.offset, .w32, .write 0xFFFFFFFF#32⟩ :: []) := by decide +kernel

/-- A 32-bit access at each end of BUF, of the KEY window and of the IV window, and an 8-bit one at their last byte. -/
theorem witness_AccessesAreLittleEndian :
    (∀ o ∈ [0x080, 0x09C, 0x0A0, 0x0AC, 0x10000, 0x10FFC], o % Width.w32.bytes = 0) ∧
    (∀ o ∈ [0x09F, 0x0AF, 0x10FFF], o % Width.w8.bytes = 0) ∧ 0x10FFF < 0x10000 + tiny.bufBytes ∧
    (let s := sends (State.resetOf tiny) (.bus ⟨0x10FFC, .w32, .write 0x44434241#32⟩);
      s.running = none ∧ s.inReset = false ∧
        s.inbox = .bus ⟨s.build.base + 0x10FFC, .w32, .write 0x44434241#32⟩ :: []) ∧
    (sends (State.resetOf tiny) (.bus ⟨0x09F, .w8, .read⟩)).inbox = .bus ⟨tiny.base + 0x09F, .w8, .read⟩ :: [] := by
  decide +kernel

/-- STATUS read in 8 bits, a misaligned KEY access, and the ends of each reserved range. -/
theorem witness_BadAccessesAreBusErrors :
    (0x04C < 0x050 ∧ Width.w8 ≠ Width.w32) ∧ 0x04E % 4 ≠ 0 ∧ 0x09E % Width.w32.bytes ≠ 0 ∧
    (∀ o ∈ [0x050, 0x07C, 0x0B0, 0xFFFC, 0x10000 + tiny.bufBytes, 0x1FFFC], o % Width.w32.bytes = 0) ∧
    (let s := sends (State.resetOf tiny) (.bus ⟨0x1FFFC, .w32, .read⟩);
      s.running = none ∧ s.inReset = false ∧ s.inbox = .bus ⟨s.build.base + 0x1FFFC, .w32, .read⟩ :: []) := by
  decide +kernel

theorem witness_IrqFollowsPendingAndEnable :
    let s : State := { sends State.reset (.bus ⟨0x02C, .w32, .write 2#32⟩) with intStatus := 7#3, intEnable := 2#3 }
    s.running = none ∧ s.inReset = false ∧
    s.inbox = .bus ⟨s.build.base + 0x02C, .w32, .write 2#32⟩ :: [] := by decide +kernel

theorem witness_CompletionMeetsAnAccess :
    (let s := sends (busyWith 0x00#32 1 State.reset) (.bus ⟨0x02C, .w32, .write 7#32⟩);
      s.running = some ⟨0#32, Args.reset, ⟨[], 0⟩, [], 1⟩ ∧ s.inReset = false ∧
        s.inbox = .bus ⟨s.build.base + 0x02C, .w32, .write 7#32⟩ :: []) ∧
    (let s : State := { sends (busyWith 0x00#32 0 State.reset) (.bus ⟨0x00C, .w32, .write 0x20#32⟩) with delays := [1] };
      s.running = some ⟨0#32, Args.reset, ⟨[], 0⟩, [], 0⟩ ∧ decode 0#32 = .ok .nop ∧ decode 0x20#32 = .ok .gfMul ∧
        s.inReset = false ∧ s.inbox = .bus ⟨s.build.base + 0x00C, .w32, .write 0x20#32⟩ :: [] ∧
        s.delays = (0 + 1) :: []) ∧
    ∃ t, exec .nop (busyWith 0x00#32 0 State.reset) = .next t := by
  refine ⟨by decide +kernel, by decide +kernel, ⟨_, rfl⟩⟩

/-- A command two cycles from its end, and any access to it; each window and BUF at their first and last aligned place;
F_EVAL, whose output range is [0, 8), with bytes on either side of its end. -/
theorem witness_AccessesToABusyCore :
    let s (i : Input) := sends (busyWith 0x0A#32 2 (State.resetOf tiny)) i
    (∀ i, (s i).running = some ⟨0x0A#32, Args.reset, ⟨[], 0⟩, [], 0 + 2⟩ ∧ (s i).inReset = false ∧
      (s i).inbox = i :: [] ∧ (s i).build.base = 0 ∧ (s i).dst + (s i).runningMaxOut = 8) ∧
    Reg.gfCfg ∈ [Reg.src, .len, .dst, .cfg, .keylen, .ivlen, .gfA, .gfB, .gfMod, .gfCfg] ∧
    Reg.param ∈ [Reg.id, .status, .outlen, .errinfo, .gfRes, .param] ∧ (0xFFFFFFFE#32).getLsbD 0 = false ∧
    (∀ o ∈ [0x080, 0x09C, 0x0A0, 0x0AC, 0x10000, 0x10008, 0x10FFC], o % Width.w32.bytes = 0) ∧
    0x10FFC < 0x10000 + tiny.bufBytes ∧ Reg.param ∉ [Reg.status, .outlen, .errinfo, .gfRes] := by
  refine ⟨fun i => ⟨rfl, rfl, rfl, rfl, rfl⟩, by decide, by decide, by decide, by decide, by decide,
    by decide⟩

end Sys2Proof.Tests
end

section
/-! A CMD write served by an idle core: the command is accepted with its inputs latched (10_state.md R25, R50), and, with
no delay, completes in the accepting step (70_reset_and_hazards.md R463; logs 1 and 2). -/

namespace Sys2Proof.Machine

/-! ## Pieces of an accepting step -/

/-- The word of a command runs that command (30_encoding.md R106). -/
theorem runWord_of_decode {w : Word32} {i : Instr} (h : decode w = .ok i) (s : State) : runWord w s = exec i s := by
  simp only [runWord, h]

/-- A command takes the oldest of the delays to come (log 2). -/
theorem State.delayOf_of_decode {w : Word32} {i : Instr} (h : decode w = .ok i) (s : State) :
    s.delayOf w = s.delays.headD 0 := by
  simp only [State.delayOf, h]

/-- A command in progress whose time has come runs its word. -/
theorem finishDue_due {s : State} {r : Running} (hr : s.running = some r) (hl : r.left = 0) :
    finishDue s = runWord r.word s := by
  simp only [finishDue, hr, hl, if_true]

/-- A CMD write while BUSY = 0 latches the word, the operand registers and BUF, and uses up one delay (10_state.md R25,
R50; 20_memory.md R76). -/
theorem State.submit_idle {s : State} (h : s.running = none) (w : Word32) :
    s.submit w = { s with running := some ⟨w, s.args, s.buf, [], s.delayOf w⟩, delays := s.delays.tail } := by
  simp only [State.submit, h]

/-! ## The accepting step -/

/-- A step of an idle core that serves a CMD write, of any word: the write is accepted and acknowledged, and the word
runs in the same step if its delay is 0. -/
theorem step_cmd_write {s : State} {w : Word32} {rest : List Input} (hrun : s.running = none)
    (hreset : s.inReset = false)
    (hin : s.inbox = .bus ⟨s.build.base + Reg.cmd.offset, .w32, .write w⟩ :: rest) :
    step s = finishDue { s with
      inbox := rest, delays := s.delays.tail, resp := some ⟨false, 0#32⟩
      running := some ⟨w, s.args, s.buf, [], s.delayOf w⟩ } := by
  have hserve : State.serve { s with inbox := rest } (.bus ⟨s.build.base + Reg.cmd.offset, .w32, .write w⟩) =
      (State.submit { s with inbox := rest } w).respond false 0#32 :=
    State.access_write_reg { s with inbox := rest } .cmd w hreset
  rw [step_idle hrun hin, hserve, State.submit_idle (by exact hrun)]
  rfl

/-- Such a step runs a command that has no delay, on the inputs it latches. -/
theorem step_cmd_write_runs {s : State} {w : Word32} {i : Instr} {rest : List Input} (hdec : decode w = .ok i)
    (hrun : s.running = none) (hreset : s.inReset = false) (hdelay : s.delays.headD 0 = 0)
    (hin : s.inbox = .bus ⟨s.build.base + Reg.cmd.offset, .w32, .write w⟩ :: rest) :
    step s = exec i { s with
      inbox := rest, delays := s.delays.tail, resp := some ⟨false, 0#32⟩
      running := some ⟨w, s.args, s.buf, [], 0⟩ } := by
  rw [step_cmd_write hrun hreset hin, State.delayOf_of_decode hdec, hdelay, finishDue_due rfl rfl,
    runWord_of_decode hdec]

/-- The state for a command word has the CMD write of that word as its oldest input. -/
theorem State.withFetchWord_inbox (s : State) (w : Word32) :
    (s.withFetchWord 32 w.toNat).inbox =
      .bus ⟨s.build.base + Reg.cmd.offset, .w32, .write w⟩ :: s.inbox := by
  have hword : BitVec.ofNat 32 (w.toNat % 2 ^ 32) = w := by
    rw [Nat.mod_eq_of_lt w.isLt, BitVec.ofNat_toNat, BitVec.setWidth_eq]
  simp only [State.withFetchWord, hword]

/-! ## The obligation -/

/-- Settles O5: the first clause is the accepting step of a command without a delay; the second is the first at the
state `withFetchWord` makes, whose own delay and input that step uses up. -/
theorem stepRunsTheDecodedCommand : Obligations.StepRunsTheDecodedCommand := by
  unfold Obligations.StepRunsTheDecodedCommand
  constructor
  · intro s w i rest hdec hrun hreset hdelay hin
    exact step_cmd_write_runs hdec hrun hreset hdelay hin
  · intro s w i hdec
    exact step_cmd_write_runs hdec rfl rfl rfl (s.withFetchWord_inbox w)

end Sys2Proof.Machine
end

section
/-! A command and its word determine each other (30_encoding.md R101, R105, R106). The key fact is about the rows of the
opcode map: a row matches a word exactly where the word is the encoding of the command the row makes of its fields. -/

namespace Sys2Proof.Laws

/-! ## A word by its fields (30_encoding.md R101) -/

/-- Concatenations with parts of the same widths agree part by part. -/
theorem append_eq_append_iff {m n : Nat} {a c : BitVec m} {b d : BitVec n} : a ++ b = c ++ d ↔ a = c ∧ b = d := by
  constructor
  · intro h
    have hhi := congrArg (BitVec.extractLsb' n m) h
    have hlo := congrArg (BitVec.extractLsb' 0 n) h
    rw [BitVec.extractLsb'_append_eq_left, BitVec.extractLsb'_append_eq_left] at hhi
    rw [BitVec.extractLsb'_append_eq_right, BitVec.extractLsb'_append_eq_right] at hlo
    exact ⟨hhi, hlo⟩
  · rintro ⟨rfl, rfl⟩
    rfl

/-- The fields of a word and its reserved bits, 31:24 and 15:11, put together again. -/
theorem fields_append (w : Word32) :
    w.extractLsb' 24 8 ++ pbsField w ++ w.extractLsb' 11 5 ++ pselField w ++ opField w = w := by
  unfold pbsField pselField opField
  iterate 4 rw [BitVec.extractLsb'_append_extractLsb'_eq_extractLsb' (by rfl)]
  exact BitVec.extractLsb'_eq_self

/-- A word is its fields and its reserved bits, and no other word has the same. -/
theorem eq_append_iff {w : Word32} {hi pbs op : Byte} {mid : BitVec 5} {psel : BitVec 3} :
    w = hi ++ pbs ++ mid ++ psel ++ op ↔
      w.extractLsb' 24 8 = hi ∧ pbsField w = pbs ∧ w.extractLsb' 11 5 = mid ∧ pselField w = psel ∧ opField w = op := by
  conv_lhs => rw [← fields_append w]
  refine (append_eq_append_iff (n := 8)).trans ?_
  simp only [append_eq_append_iff, and_assoc]

/-- The word of a command holds that command's fields. -/
theorem encodingFields : ∀ i : Instr, EncodingFields.Statement i
  | .nop => EncodingFields.nop
  | .ctxInit => EncodingFields.ctxInit
  | .ctxClear => EncodingFields.ctxClear
  | .algSetkey => EncodingFields.algSetkey
  | .blkEnc => EncodingFields.blkEnc
  | .blkDec => EncodingFields.blkDec
  | .fEval => EncodingFields.fEval
  | .encrypt => EncodingFields.encrypt
  | .decrypt => EncodingFields.decrypt
  | .sencBegin => EncodingFields.sencBegin
  | .sencData => EncodingFields.sencData
  | .sencEnd => EncodingFields.sencEnd
  | .sdecBegin => EncodingFields.sdecBegin
  | .sdecData => EncodingFields.sdecData
  | .sdecEnd => EncodingFields.sdecEnd
  | .streamAbort => EncodingFields.streamAbort
  | .gfMul => EncodingFields.gfMul
  | .gfCube => EncodingFields.gfCube
  | .sbox1 => EncodingFields.sbox1
  | .sbox2 => EncodingFields.sbox2
  | .pad psel pbs => EncodingFields.pad psel pbs
  | .unpad psel => EncodingFields.unpad psel

/-! ## The rows of the opcode map (30_encoding.md R105) -/

/-- A row is one word of a command without operands, or PAD's row, or UNPAD's. -/
theorem opcodeMap_cases {row : OpRow} (h : row ∈ opcodeMap) :
    (∃ i, row = ⟨encode i, BitVec.allOnes 32, fun _ _ => i⟩) ∨
      row = ⟨0x00000030#32, 0xFF00F8FF#32, fun psel pbs => .pad psel pbs⟩ ∨
      row = ⟨0x00000031#32, 0xFFFFF8FF#32, fun psel _ => .unpad psel⟩ := by
  simp only [opcodeMap, List.mem_cons, List.not_mem_nil, or_false] at h
  iterate 20
    obtain rfl | h := h
    · exact .inl ⟨_, by congr; decide⟩
  exact .inr h

/-- A mask that is all ones in bits 31:24, 23:16 or 7:0 keeps that byte. -/
theorem and_fullByte (b : Byte) : b &&& 0xFF#8 = b := BitVec.and_allOnes

/-- A mask that is all ones in the reserved bits 15:11 keeps them. -/
theorem and_fullGap (b : BitVec 5) : b &&& 0x1F#5 = b := BitVec.and_allOnes

/-- PAD's row leaves PSEL and PBS free and fixes every other bit. -/
theorem pad_row_matches_iff (w : Word32) :
    w &&& 0xFF00F8FF#32 = 0x00000030#32 ↔ w = encode (.pad (pselField w) (pbsField w)) := by
  refine Iff.trans (eq_append_iff (hi := 0#8) (pbs := 0#8) (mid := 0#5) (psel := 0#3) (op := 0x30#8))
    (.trans ?_ eq_append_iff.symm)
  simp [pbsField, pselField, opField, BitVec.extractLsb'_and, Instr.pbs, Instr.psel, Instr.op, and_fullByte,
    and_fullGap]

/-- UNPAD's row leaves PSEL free and fixes every other bit. -/
theorem unpad_row_matches_iff (w : Word32) :
    w &&& 0xFFFFF8FF#32 = 0x00000031#32 ↔ w = encode (.unpad (pselField w)) := by
  refine Iff.trans (eq_append_iff (hi := 0#8) (pbs := 0#8) (mid := 0#5) (psel := 0#3) (op := 0x31#8))
    (.trans ?_ eq_append_iff.symm)
  simp [pbsField, pselField, opField, BitVec.extractLsb'_and, Instr.pbs, Instr.psel, Instr.op, and_fullByte,
    and_fullGap]

/-- A row matches a word exactly where the word is the encoding of the row's command. -/
theorem row_matches_iff {row : OpRow} (h : row ∈ opcodeMap) (w : Word32) :
    w &&& row.mask = row.pat ↔ w = encode (row.make (pselField w) (pbsField w)) := by
  obtain ⟨i, rfl⟩ | rfl | rfl := opcodeMap_cases h
  · rw [BitVec.and_allOnes]
  · exact pad_row_matches_iff w
  · exact unpad_row_matches_iff w

/-- Every command has a row that makes it of its fields. -/
theorem exists_row_make (i : Instr) : ∃ row ∈ opcodeMap, row.make i.psel i.pbs = i := by
  cases i with
  | pad psel pbs => exact ⟨opcodeMap[20], List.getElem_mem _, rfl⟩
  | unpad psel => exact ⟨opcodeMap[21], List.getElem_mem _, rfl⟩
  | _ => decide

/-- The OP field is part of what a row fixes. -/
theorem opField_eq_of_matches {row : OpRow} (h : row ∈ opcodeMap) {w : Word32} (hm : w &&& row.mask = row.pat) :
    opField row.pat = opField w := by
  have hmask : ∀ row ∈ opcodeMap, opField row.mask = BitVec.allOnes 8 := by decide
  have hop : opField row.pat = opField w &&& opField row.mask := by
    rw [← hm]
    exact BitVec.extractLsb'_and
  rw [hop, hmask row h, BitVec.and_allOnes]

/-- No two rows have the same OP. -/
theorem opcodeMap_op_inj {row row' : OpRow} (h : row ∈ opcodeMap) (h' : row' ∈ opcodeMap)
    (hop : opField row.pat = opField row'.pat) : row = row' := by
  have hnodup : (opcodeMap.map (fun row => opField row.pat)).Nodup := by decide
  exact List.inj_on_of_nodup_map hnodup h h' hop

/-- A matching row is the row the decoder selects by OP. -/
theorem find?_opcodeMap_of_matches {row : OpRow} (h : row ∈ opcodeMap) {w : Word32} (hm : w &&& row.mask = row.pat) :
    opcodeMap.find? (fun row => opField row.pat == opField w) = some row := by
  have hop := opField_eq_of_matches h hm
  obtain ⟨row', hfind⟩ : ∃ row', opcodeMap.find? (fun row => opField row.pat == opField w) = some row' :=
    Option.isSome_iff_exists.mp (List.find?_isSome.mpr ⟨row, h, by simp [hop]⟩)
  have hop' : opField row'.pat = opField w := by simpa using List.find?_some hfind
  rw [hfind, opcodeMap_op_inj (List.mem_of_find?_eq_some hfind) h (hop'.trans hop.symm)]

/-! ## The decoder (30_encoding.md R106) -/

/-- A word decodes to what a row that matches it makes of its fields, if that is well-formed. -/
theorem decode_eq_ok_iff_row {w : Word32} {i : Instr} :
    decode w = .ok i ↔
      ∃ row ∈ opcodeMap, w &&& row.mask = row.pat ∧ row.make (pselField w) (pbsField w) = i ∧ i.wf = true := by
  constructor
  · intro h
    unfold decode at h
    split at h
    · cases h
    next row hfind =>
      split at h
      next hm =>
        dsimp only at h
        split at h
        next hwf =>
          cases h
          exact ⟨row, List.mem_of_find?_eq_some hfind, hm, rfl, hwf⟩
        · cases h
      · cases h
  · rintro ⟨row, hrow, hm, rfl, hwf⟩
    simp only [decode, find?_opcodeMap_of_matches hrow hm, hm, hwf, if_true]

/-- Decoding and encoding are inverse: a word decodes to a command exactly where the command is well-formed and the word
is its encoding. -/
theorem decode_eq_ok_iff {w : Word32} {i : Instr} : decode w = .ok i ↔ i.wf = true ∧ encode i = w := by
  rw [decode_eq_ok_iff_row]
  constructor
  · rintro ⟨row, hrow, hm, rfl, hwf⟩
    exact ⟨hwf, ((row_matches_iff hrow w).mp hm).symm⟩
  · rintro ⟨hwf, rfl⟩
    obtain ⟨row, hrow, hmake⟩ := exists_row_make i
    obtain ⟨-, hpsel, hpbs, -⟩ := encodingFields i
    have hi : row.make (pselField (encode i)) (pbsField (encode i)) = i := by rw [hpsel, hpbs, hmake]
    exact ⟨row, hrow, (row_matches_iff hrow _).mpr (by rw [hi]), hi, hwf⟩

/-- A command that has an encoding is what its word decodes to. -/
theorem decode_encode {i : Instr} (hwf : i.wf = true) : decode (encode i) = .ok i :=
  decode_eq_ok_iff.mpr ⟨hwf, rfl⟩

/-! ## The obligations -/

/-- Settles O1: the row that makes the command matches its word, and the decoder selects that row. -/
theorem decodeOfEncodeIsTheCommand : Obligations.DecodeOfEncodeIsTheCommand := by
  unfold Obligations.DecodeOfEncodeIsTheCommand
  intro i hwf
  exact decode_encode hwf

/-- Settles O2: the row a word is decoded by fixes every bit that the command's fields do not hold. -/
theorem encodeOfDecodeIsTheWord : Obligations.EncodeOfDecodeIsTheWord := by
  unfold Obligations.EncodeOfDecodeIsTheWord
  intro w i hdec
  exact decode_eq_ok_iff.mp hdec

/-- Settles O4: each of the words is the encoding of its command. -/
theorem writtenOutWordsDecode : Obligations.WrittenOutWordsDecode := by
  unfold Obligations.WrittenOutWordsDecode
  simp only [decode_eq_ok_iff]
  decide

end Sys2Proof.Laws
end

section
/-! The value of gf_mul (40_gf_arith.md R132). Its recursion on the bits of b, said once without the loop's fuel, is what
every property below is proved from: the corner cases of R136 and R137, the bounds and the product in GF(2)[x] of R134. -/

namespace Sys2Proof.Machine

variable {m n : Nat}

/-! ## The recursion on the bits of b -/

theorem gfMulLoop_zero_right (fuel a p : Nat) : gfMulLoop m n fuel a 0 p = p := by
  cases fuel with
  | zero => rfl
  | succ fuel => simp only [gfMulLoop, if_true]

/-- The loop only adds to what it has gathered. -/
theorem gfMulLoop_xor (fuel a b p q : Nat) :
    gfMulLoop m n fuel a b (p ^^^ q) = p ^^^ gfMulLoop m n fuel a b q := by
  induction fuel generalizing a b q with
  | zero => rfl
  | succ fuel ih =>
    by_cases hb : b = 0
    · simp only [hb, gfMulLoop_zero_right]
    · by_cases hbit : b % 2 = 1
      · simp only [gfMulLoop, hb, hbit, if_true, if_false, Nat.xor_assoc, ih]
      · simp only [gfMulLoop, hb, hbit, if_false, ih]

/-- Any fuel that covers the bits of b gives the same value (log 23). -/
theorem gfMulLoop_fuel {fuel fuel' b : Nat} (h : b < 2 ^ fuel) (h' : b < 2 ^ fuel') (a p : Nat) :
    gfMulLoop m n fuel a b p = gfMulLoop m n fuel' a b p := by
  induction fuel generalizing fuel' a b p with
  | zero =>
    obtain rfl : b = 0 := by simpa using h
    simp only [gfMulLoop_zero_right]
  | succ fuel ih =>
    cases fuel' with
    | zero =>
      obtain rfl : b = 0 := by simpa using h'
      simp only [gfMulLoop_zero_right]
    | succ fuel' =>
      have hhalf : b / 2 < 2 ^ fuel := by omega
      have hhalf' : b / 2 < 2 ^ fuel' := by omega
      simp only [gfMulLoop, ih hhalf hhalf']

theorem gfMulLoop_eq_xor_gfMul {fuel b : Nat} (h : b < 2 ^ fuel) (a p : Nat) :
    gfMulLoop m n fuel a b p = p ^^^ gfMul a b m n := by
  rw [gfMul, ← gfMulLoop_xor, Nat.xor_zero, gfMulLoop_fuel h Nat.lt_log2_self]

@[simp] theorem gfMul_zero_right (a : Nat) : gfMul a 0 m n = 0 := gfMulLoop_zero_right _ _ _

/-- One round of gf_mul: a counts where bit 0 of b is 1, and the other bits of b multiply the shifted a. -/
theorem gfMul_eq_xor (a b m n : Nat) :
    gfMul a b m n = (if b % 2 = 1 then a else 0) ^^^ gfMul (gfShift a m n) (b / 2) m n := by
  by_cases hb : b = 0
  · simp [hb]
  · have hhalf : b / 2 < 2 ^ b.log2 := by
      have hlog : b < 2 ^ (b.log2 + 1) := Nat.lt_log2_self
      omega
    rw [gfMul, gfMulLoop, if_neg hb, Nat.zero_xor, gfMulLoop_eq_xor_gfMul hhalf]

/-! ## Corner cases (40_gf_arith.md R136, R137) -/

@[simp] theorem gfShift_zero : gfShift 0 m n = 0 := by
  simp [gfShift]

/-- m = 0 disables the reduction. -/
@[simp] theorem gfShift_zero_modulus (a n : Nat) : gfShift a 0 n = 2 * a := by
  simp only [gfShift, Nat.xor_zero, ite_self]

@[simp] theorem gfMul_one_right (a : Nat) : gfMul a 1 m n = a := by
  rw [gfMul_eq_xor]
  simp

@[simp] theorem gfMul_zero_left (b : Nat) : gfMul 0 b m n = 0 := by
  induction b using Nat.div2Induction with
  | ind b ih =>
    obtain rfl | hb := b.eq_zero_or_pos
    · simp
    · rw [gfMul_eq_xor, gfShift_zero, ih hb]
      simp

/-- Adding up the shifted a for the bits of b, from the lowest up, is gf_mul without reduction. -/
theorem foldl_shifts_eq_gfMul (n : Nat) {w b : Nat} (hb : b < 2 ^ w) (a p : Nat) :
    ((List.range w).filter b.testBit).foldl (fun p k => p ^^^ (a <<< k)) p = p ^^^ gfMul a b 0 n := by
  induction w generalizing a b p with
  | zero =>
    obtain rfl : b = 0 := by simpa using hb
    simp
  | succ w ih =>
    have hhalf : b / 2 < 2 ^ w := by omega
    have hbits : b.testBit ∘ Nat.succ = (b / 2).testBit := funext (Nat.testBit_succ b)
    have hshift (k : Nat) : a <<< k.succ = (2 * a) <<< k := by
      rw [Nat.shiftLeft_succ_inside]
    rw [gfMul_eq_xor, gfShift_zero_modulus, ← Nat.xor_assoc, ← ih hhalf, List.range_succ_eq_map, List.filter_cons,
      List.filter_map, hbits]
    by_cases hbit : b % 2 = 1
    · simp [Nat.testBit_zero, hbit, List.foldl_map, hshift]
    · simp [Nat.testBit_zero, hbit, List.foldl_map, hshift]

/-! ## Bounds (40_gf_arith.md R134) -/

/-- Where m is not wider than the doubled a, a shift makes a at most one bit wider. -/
theorem gfShift_lt_succ {a c : Nat} (ha : a < 2 ^ c) (hm : m < 2 ^ (c + 1)) : gfShift a m n < 2 ^ (c + 1) := by
  have hdouble : 2 * a < 2 ^ (c + 1) := by omega
  unfold gfShift
  split
  · exact Nat.xor_lt_two_pow hdouble hm
  · exact hdouble

/-- Products grow by a bit for each bit of b beyond the first, whatever the degree of m. -/
theorem gfMul_lt_add {a b c k : Nat} (ha : a < 2 ^ c) (hm : m < 2 ^ (c + 1)) (hb : b < 2 ^ (k + 1)) :
    gfMul a b m n < 2 ^ (c + k) := by
  induction k generalizing a b c with
  | zero =>
    obtain rfl | rfl : b = 0 ∨ b = 1 := by omega
    · simp
    · simpa using ha
  | succ k ih =>
    have hterm : (if b % 2 = 1 then a else 0) < 2 ^ (c + (k + 1)) := by
      have hwide : a < 2 ^ (c + (k + 1)) := ha.trans_le (Nat.pow_le_pow_right (by decide) (by omega))
      split
      · exact hwide
      · exact Nat.two_pow_pos _
    have hrest : gfMul (gfShift a m n) (b / 2) m n < 2 ^ (c + 1 + k) :=
      ih (gfShift_lt_succ ha hm) (hm.trans (Nat.pow_lt_pow_succ (by decide))) (by omega)
    rw [gfMul_eq_xor]
    exact Nat.xor_lt_two_pow hterm (by rwa [Nat.add_assoc, Nat.add_comm 1 k] at hrest)

/-- R134 (b): without bit n in m, the reduction leaves bit n of the doubled a. -/
theorem testBit_gfShift (a : Nat) (hm : m.testBit n = false) : (gfShift a m n).testBit n = (2 * a).testBit n := by
  unfold gfShift
  split
  · rw [Nat.testBit_xor, hm, Bool.xor_false]
  · rfl

/-- GF_MUL's and GF_CUBE's bounds, at the widest operands and moduli. -/
theorem gfMul_gfCube_lt {a b : Nat} (hn : n ≤ 16) (hm : m < 2 ^ 17) (ha : a < 2 ^ n) (hb : b < 2 ^ n) :
    gfMul a b m n < 2 ^ 32 ∧ gfCube a m n < 2 ^ 47 := by
  have hwidth : 2 ^ n ≤ 2 ^ 16 := Nat.pow_le_pow_right (by decide) hn
  have hmul {y : Nat} (hy : y < 2 ^ n) : gfMul a y m n < 2 ^ (16 + 15) :=
    gfMul_lt_add (ha.trans_le hwidth) hm (hy.trans_le hwidth)
  have hcube : gfCube a m n < 2 ^ (31 + 15) := gfMul_lt_add (hmul ha) (by omega) (ha.trans_le hwidth)
  have hproduct := hmul hb
  exact ⟨by omega, by omega⟩

section
variable (hlo : 2 ^ n ≤ m) (hhi : m < 2 ^ (n + 1))
include hlo hhi

/-- R134 (a): where m has degree n, the bits n of m and of the doubled a cancel. -/
theorem gfShift_lt {a : Nat} (ha : a < 2 ^ n) : gfShift a m n < 2 ^ n := by
  unfold gfShift
  split
  next hover =>
    have hdouble : 2 * a < 2 ^ (n + 1) := by omega
    have hbitn : (2 * a ^^^ m).testBit n = false := by
      rw [Nat.testBit_xor, Nat.testBit_of_two_pow_le_and_two_pow_add_one_gt hover hdouble,
        Nat.testBit_of_two_pow_le_and_two_pow_add_one_gt hlo hhi, Bool.xor_self]
    refine Nat.lt_pow_two_of_testBit _ fun i hi => ?_
    obtain rfl | hi := hi.eq_or_lt
    · exact hbitn
    · exact Nat.testBit_lt_two_pow
        ((Nat.xor_lt_two_pow hdouble hhi).trans_le (Nat.pow_le_pow_right (by decide) hi))
  next hunder => omega

theorem gfMul_lt {a : Nat} (ha : a < 2 ^ n) (b : Nat) : gfMul a b m n < 2 ^ n := by
  induction b using Nat.div2Induction generalizing a with
  | ind b ih =>
    obtain rfl | hb := b.eq_zero_or_pos
    · simp
    · rw [gfMul_eq_xor]
      refine Nat.xor_lt_two_pow ?_ (ih hb (gfShift_lt hlo hhi ha))
      split
      · exact ha
      · exact Nat.two_pow_pos n

end

/-! ## The polynomial of a number (40_gf_arith.md R130) -/

open Polynomial

/-- The polynomial over GF(2) whose coefficient of x^k is bit k of v. -/
noncomputable def gfPoly (v : Nat) : (ZMod 2)[X] :=
  ∑ k ∈ Finset.range v, if v.testBit k then X ^ k else 0

theorem coeff_gfPoly (v k : Nat) : (gfPoly v).coeff k = if v.testBit k then 1 else 0 := by
  have hterm (j : Nat) : (if v.testBit j then (X : (ZMod 2)[X]) ^ j else 0).coeff k =
      if k = j then (if v.testBit k then 1 else 0) else 0 := by
    split_ifs <;> simp_all [coeff_X_pow]
  rw [gfPoly, finsetSum_coeff, Finset.sum_congr rfl fun j _ => hterm j, Finset.sum_ite_eq]
  split
  · rfl
  next hk =>
    have hv : v < 2 ^ k := (by simpa using hk : v ≤ k).trans_lt Nat.lt_two_pow_self
    simp [Nat.testBit_lt_two_pow hv]

/-- The exclusive or of two bits is their sum in GF(2). -/
theorem ite_xor_eq_add : ∀ p q : Bool,
    (if p ^^ q then (1 : ZMod 2) else 0) = (if p then 1 else 0) + (if q then 1 else 0) := by decide

theorem eq_of_ite_eq_ite : ∀ p q : Bool, (if p then (1 : ZMod 2) else 0) = (if q then 1 else 0) → p = q := by decide

theorem gfPoly_zero : gfPoly 0 = 0 := by simp [gfPoly]

/-- Addition of elements is XOR. -/
theorem gfPoly_xor (a b : Nat) : gfPoly (a ^^^ b) = gfPoly a + gfPoly b := by
  ext k
  rw [coeff_add, coeff_gfPoly, coeff_gfPoly, coeff_gfPoly, Nat.testBit_xor, ite_xor_eq_add]

/-- Doubling is multiplication by x. -/
theorem gfPoly_two_mul (a : Nat) : gfPoly (2 * a) = X * gfPoly a := by
  ext k
  cases k with
  | zero => simp [coeff_gfPoly]
  | succ k => simp [coeff_gfPoly, Nat.testBit_succ]

/-- A number is its bit 0 and twice its half. -/
theorem gfPoly_eq_add (b : Nat) : gfPoly b = (if b % 2 = 1 then 1 else 0) + X * gfPoly (b / 2) := by
  ext k
  cases k with
  | zero => by_cases hbit : b % 2 = 1 <;> simp [coeff_gfPoly, Nat.testBit_zero, hbit]
  | succ k => by_cases hbit : b % 2 = 1 <;> simp [coeff_gfPoly, Nat.testBit_succ, hbit, coeff_one]

theorem gfPoly_injective : Function.Injective gfPoly := by
  intro a b h
  refine Nat.eq_of_testBit_eq fun k => eq_of_ite_eq_ite _ _ ?_
  rw [← coeff_gfPoly, ← coeff_gfPoly, h]

theorem degree_gfPoly_lt {v n : Nat} (h : v < 2 ^ n) : (gfPoly v).degree < n := by
  refine (degree_lt_iff_coeff_zero _ n).mpr fun k hk => ?_
  have hv : v < 2 ^ k := h.trans_le (Nat.pow_le_pow_right (by decide) hk)
  simp [coeff_gfPoly, Nat.testBit_lt_two_pow hv]

/-- A number with bit n as its highest is a polynomial of degree n, at least. -/
theorem le_degree_gfPoly {v n : Nat} (hlo : 2 ^ n ≤ v) (hhi : v < 2 ^ (n + 1)) : n ≤ (gfPoly v).degree := by
  refine le_degree_of_ne_zero ?_
  simp [coeff_gfPoly, Nat.testBit_of_two_pow_le_and_two_pow_add_one_gt hlo hhi]

/-! ## The product modulo m (40_gf_arith.md R134) -/

/-- The next multiplicand is x times a, modulo m. -/
theorem gfPoly_dvd_gfShift_sub (a m n : Nat) : gfPoly m ∣ gfPoly (gfShift a m n) - X * gfPoly a := by
  unfold gfShift
  split
  · simp [gfPoly_xor, gfPoly_two_mul]
  · simp [gfPoly_two_mul]

/-- gf_mul multiplies modulo m, for every m, n, a and b. -/
theorem gfPoly_dvd_gfMul_sub (a b m n : Nat) : gfPoly m ∣ gfPoly (gfMul a b m n) - gfPoly a * gfPoly b := by
  induction b using Nat.div2Induction generalizing a with
  | ind b ih =>
    obtain rfl | hb := b.eq_zero_or_pos
    · simp [gfPoly_zero]
    · have hterm : gfPoly (if b % 2 = 1 then a else 0) = gfPoly a * (if b % 2 = 1 then 1 else 0) := by
        split
        · rw [mul_one]
        · rw [gfPoly_zero, mul_zero]
      have hsplit : gfPoly (gfMul a b m n) - gfPoly a * gfPoly b =
          (gfPoly (gfMul (gfShift a m n) (b / 2) m n) - gfPoly (gfShift a m n) * gfPoly (b / 2)) +
            (gfPoly (gfShift a m n) - X * gfPoly a) * gfPoly (b / 2) := by
        rw [gfMul_eq_xor, gfPoly_xor, hterm, gfPoly_eq_add b]
        ring
      rw [hsplit]
      exact dvd_add (ih hb _) ((gfPoly_dvd_gfShift_sub a m n).mul_right _)

section
variable (hlo : 2 ^ n ≤ m) (hhi : m < 2 ^ (n + 1))
include hlo hhi

/-- Modulo an m of degree n, no two numbers below 2^n are the same. -/
theorem eq_of_gfPoly_dvd_sub {a b : Nat} (ha : a < 2 ^ n) (hb : b < 2 ^ n) (h : gfPoly m ∣ gfPoly a - gfPoly b) :
    a = b := by
  have hdegree : (gfPoly a - gfPoly b).degree < n :=
    (degree_sub_le _ _).trans_lt (max_lt (degree_gfPoly_lt ha) (degree_gfPoly_lt hb))
  have hzero : gfPoly a - gfPoly b = 0 :=
    eq_zero_of_dvd_of_degree_lt h (hdegree.trans_le (le_degree_gfPoly hlo hhi))
  exact gfPoly_injective (sub_eq_zero.mp hzero)

theorem gfMul_comm {a b : Nat} (ha : a < 2 ^ n) (hb : b < 2 ^ n) : gfMul a b m n = gfMul b a m n := by
  refine eq_of_gfPoly_dvd_sub hlo hhi (gfMul_lt hlo hhi ha b) (gfMul_lt hlo hhi hb a) ?_
  have hdvd := dvd_sub (gfPoly_dvd_gfMul_sub a b m n) (gfPoly_dvd_gfMul_sub b a m n)
  rwa [mul_comm (gfPoly b), sub_sub_sub_cancel_right] at hdvd

end

end Sys2Proof.Machine
end

section
/-! The four GF commands (40_gf_arith.md R136 to R140). Each ends with an answer that is a function of the build and of
the latched operands alone: a value for GF_RES, or an error. -/

namespace Sys2Proof.Machine

/-! ## What a GF command does with its answer -/

/-- The state after a GF command with this answer: the error's writes, or GF_RES and the completion writes. -/
def State.gfEnd (s : State) (op : Byte) : Except CmdError Word32 → State
  | .error e => s.raised op e
  | .ok v => (s.setGfRes v).completed op 0

/-- The answer `v` of GF_MUL and GF_CUBE, where WIDTH passes their check. -/
def gfWidthChecked (x : Args) (v : Word32) : Except CmdError Word32 :=
  if 1 ≤ x.gfCfg.toNat ∧ x.gfCfg.toNat ≤ 16 then .ok v else .error ⟨.gfWidth, 1#8, BitVec.ofNat 8 x.gfCfg.toNat⟩

theorem gfWidthChecked_inside {x : Args} (v : Word32) (hlo : 1 ≤ x.gfCfg.toNat) (hhi : x.gfCfg.toNat ≤ 16) :
    gfWidthChecked x v = .ok v := if_pos ⟨hlo, hhi⟩

theorem gfWidthChecked_outside {x : Args} (v : Word32) (h : x.gfCfg.toNat < 1 ∨ 16 < x.gfCfg.toNat) :
    gfWidthChecked x v = .error ⟨.gfWidth, 1#8, BitVec.ofNat 8 x.gfCfg.toNat⟩ := if_neg (by omega)

theorem exec_gfMul (s : State) :
    exec .gfMul s = .next (s.gfEnd 0x20#8 (gfWidthChecked s.opnd (gfMulResult s.opnd))) := by
  change execGfMul s = _
  unfold execGfMul State.gfWidthCheck gfWidthChecked State.gfWidth
  split_ifs <;> rfl

theorem exec_gfCube (s : State) :
    exec .gfCube s = .next (s.gfEnd 0x21#8 (gfWidthChecked s.opnd (gfCubeResult s.opnd))) := by
  change execGfCube s = _
  unfold execGfCube State.gfWidthCheck gfWidthChecked State.gfWidth
  split_ifs <;> rfl

theorem exec_sbox1 (s : State) :
    exec .sbox1 s = .next (s.gfEnd 0x22#8 (.ok ((sboxS1 (s.opnd.gfA.extractLsb' 0 13)).setWidth 32))) := rfl

theorem exec_sbox2 (s : State) :
    exec .sbox2 s =
      .next (s.gfEnd 0x23#8 (.ok ((sboxS2 s.build.s2Modulus (s.opnd.gfA.extractLsb' 0 11)).setWidth 32))) := rfl

/-- A GF command's answer depends on the build and the latched operands, on nothing else. -/
theorem exec_gf_eq_gfEnd {i : Instr} (hi : i = .gfMul ∨ i = .gfCube ∨ i = .sbox1 ∨ i = .sbox2) :
    ∃ answer : Build → Args → Except CmdError Word32,
      ∀ s : State, exec i s = .next (s.gfEnd i.op (answer s.build s.opnd)) := by
  obtain rfl | rfl | rfl | rfl := hi
  · exact ⟨fun _ x => gfWidthChecked x (gfMulResult x), exec_gfMul⟩
  · exact ⟨fun _ x => gfWidthChecked x (gfCubeResult x), exec_gfCube⟩
  · exact ⟨fun _ x => .ok ((sboxS1 (x.gfA.extractLsb' 0 13)).setWidth 32), exec_sbox1⟩
  · exact ⟨fun b x => .ok ((sboxS2 b.s2Modulus (x.gfA.extractLsb' 0 11)).setWidth 32), exec_sbox2⟩

/-! ## What the answer's writes leave alone (40_gf_arith.md R140) -/

@[simp] theorem State.gfEnd_buf (s : State) (op : Byte) (r : Except CmdError Word32) : (s.gfEnd op r).buf = s.buf := by
  cases r <;> rfl

@[simp] theorem State.gfEnd_session (s : State) (op : Byte) (r : Except CmdError Word32) :
    (s.gfEnd op r).session = s.session := by
  cases r <;> rfl

theorem State.gfEnd_setBuf_setSession (s : State) (m : Memory) (x : Session) (op : Byte) (r : Except CmdError Word32) :
    State.gfEnd { s with buf := m, session := x } op r = { s.gfEnd op r with buf := m, session := x } := by
  cases r <;> rfl

/-- No trace of the command in progress is left. -/
theorem State.gfEnd_setRunning (s : State) (o : Option Running) (op : Byte) (r : Except CmdError Word32) :
    State.gfEnd { s with running := o } op r = s.gfEnd op r := by
  cases r <;> rfl

/-- The latched operands do not depend on what the command sees of BUF. -/
theorem State.opnd_setView {s : State} {r : Running} (h : s.running = some r) (m : Memory) :
    State.opnd { s with running := some { r with view := m } } = s.opnd := by
  simp only [State.opnd, h]

/-! ## The S-boxes (40_gf_arith.md R135) -/

theorem setWidth_lowByte (v : Nat) : (BitVec.ofNat 8 v).setWidth 32 = BitVec.ofNat 32 (v % 256) := by
  apply BitVec.eq_of_toNat_eq
  simp

/-- The complement of the low `w` bits of `x`. -/
theorem toNat_extractLsb'_xor_allOnes {k : Nat} (x : BitVec k) (w : Nat) :
    (x.extractLsb' 0 w ^^^ BitVec.allOnes w).toNat = 2 ^ w - 1 - x.toNat % 2 ^ w := by
  rw [BitVec.xor_allOnes, BitVec.toNat_not, BitVec.extractLsb'_toNat, Nat.shiftRight_zero]

theorem sboxS1_lowBits (x : BitVec 16) :
    (sboxS1 (x.extractLsb' 0 13)).setWidth 32 =
      BitVec.ofNat 32 (gfCube (8191 - x.toNat % 8192) 0x2911 13 % 256) := by
  rw [sboxS1, setWidth_lowByte]
  exact congrArg (fun v => BitVec.ofNat 32 (gfCube v 0x2911 13 % 256)) (toNat_extractLsb'_xor_allOnes x 13)

theorem sboxS2_lowBits (s2Modulus : Nat) (x : BitVec 16) :
    (sboxS2 s2Modulus (x.extractLsb' 0 11)).setWidth 32 =
      BitVec.ofNat 32 (gfCube (2047 - x.toNat % 2048) s2Modulus 11 % 256) := by
  rw [sboxS2, setWidth_lowByte]
  exact congrArg (fun v => BitVec.ofNat 32 (gfCube v s2Modulus 11 % 256)) (toNat_extractLsb'_xor_allOnes x 11)

@[simp] theorem gfCube_zero (m n : Nat) : gfCube 0 m n = 0 := gfMul_zero_right _

/-- The complement of all ones is 0, and so is its cube. -/
theorem sboxS2_allOnes (s2Modulus : Nat) : sboxS2 s2Modulus 0x7FF#11 = 0#8 := by
  rw [sboxS2, BitVec.xor_self]
  exact congrArg (BitVec.ofNat 8) (gfCube_zero s2Modulus 11)

/-! ## The obligations -/

/-- Settles O24: the product is congruent to the polynomial product for every m, and is the only number below 2^n that
is where m has degree n; S2's modulus 0xA7 has no bit 11, and 0x400 and 2, 0x7FF and 4 show what follows. -/
theorem gfProductIsThePolynomialProduct : Obligations.GfProductIsThePolynomialProduct := by
  unfold Obligations.GfProductIsThePolynomialProduct
  intro poly
  refine ⟨?_, ?_, ?_, ?_, ?_, ?_, ?_⟩
  · intro n m a b hlo hhi ha hb
    exact ⟨gfShift_lt hlo hhi ha, gfMul_lt hlo hhi ha b, gfMul_comm hlo hhi ha hb, gfPoly_dvd_gfMul_sub a b m n⟩
  · intro n m a hm
    exact testBit_gfShift a hm
  · intro n m a b hn hm ha hb
    exact gfMul_gfCube_lt hn hm ha hb
  · intro a b ha hb
    have hmul : gfMul a b 0xA7 11 < 2 ^ (11 + 10) := gfMul_lt_add ha (by decide) hb
    omega
  · intro a ha
    have hsquare : gfMul a a 0xA7 11 < 2 ^ (11 + 10) := gfMul_lt_add ha (by decide) ha
    have hcube : gfCube a 0xA7 11 < 2 ^ (21 + 10) := gfMul_lt_add hsquare (by decide) ha
    omega
  · exact ⟨0x400, 2, by decide⟩
  · exact ⟨0x7FF, 4, by decide⟩

/-- Settles O23: the answer is a function of the build and the latched operands, and the writes that end the command
are neither to BUF nor to the session. -/
theorem gfCommandsTouchNothingElse : Obligations.GfCommandsTouchNothingElse := by
  unfold Obligations.GfCommandsTouchNothingElse
  intro i s hi
  obtain ⟨answer, hexec⟩ := exec_gf_eq_gfEnd hi
  refine ⟨_, hexec s, s.gfEnd_buf _ _, s.gfEnd_session _ _, ?_, ?_⟩
  · intro m x
    rw [hexec, State.gfEnd_setBuf_setSession]
    rfl
  · intro r m hr
    rw [hexec, State.opnd_setView hr, State.gfEnd_setRunning]

/-- Settles O20: the check of WIDTH decides between the error and the product; the corner cases are those of the
recursion on b. -/
theorem gfMulMultiplies : Obligations.GfMulMultiplies := by
  unfold Obligations.GfMulMultiplies
  refine ⟨Laws.decode_encode (i := .gfMul) rfl, ?_, fun b m n => gfMul_zero_left b,
    fun a m n => ⟨gfMul_zero_right a, gfMul_one_right a⟩, ?_, by decide⟩
  · intro s n
    constructor
    · intro houtside
      rw [exec_gfMul, gfWidthChecked_outside _ houtside]
      rfl
    · intro hlo hhi
      rw [exec_gfMul, gfWidthChecked_inside _ hlo hhi]
      rfl
  · intro a b n _ hb
    rw [foldl_shifts_eq_gfMul n hb, Nat.zero_xor]

/-- Settles O21: as for GF_MUL; the cube of 1 is two products by 1. -/
theorem gfCubeCubes : Obligations.GfCubeCubes := by
  unfold Obligations.GfCubeCubes
  refine ⟨Laws.decode_encode (i := .gfCube) rfl, ?_, ?_, by decide⟩
  · intro s n x
    constructor
    · intro houtside
      rw [exec_gfCube, gfWidthChecked_outside _ houtside]
      rfl
    · intro hlo hhi
      rw [exec_gfCube, gfWidthChecked_inside _ hlo hhi]
      rfl
  · intro m n
    have hone : gfCube 1 m n = 1 := by rw [gfCube, gfMul_one_right, gfMul_one_right]
    exact ⟨gfCube_zero m n, fun _ => hone⟩

/-- Settles O22: the low bits of GF_A are complemented as numbers, and the cube's low byte is extended by zeros; with
modulus 0xA7 the cube of 0x7FF, the complement of 0, has more than 11 bits. -/
theorem sboxCommandsLookUp : Obligations.SboxCommandsLookUp := by
  unfold Obligations.SboxCommandsLookUp
  refine ⟨Laws.decode_encode (i := .sbox1) rfl, Laws.decode_encode (i := .sbox2) rfl, ?_, ?_, by decide,
    sboxS2_allOnes, by decide, by decide, 0#11, by decide⟩
  · intro s
    rw [exec_sbox1, sboxS1_lowBits]
    rfl
  · intro s
    rw [exec_sbox2, sboxS2_lowBits]
    rfl

end Sys2Proof.Machine
end

section
/-! The operations of the Feistel round function (41_feistel.md R161 to R167), bit by bit, byte by byte and box by box. The
key fact is where a digit stands in a number spelt most significant digit first: digit j of n digits is the one of weight
base^(n - 1 - j). -/

namespace Sys2Proof.Machine

/-! ## Digits of a number spelt most significant first -/

/-- A digit of a number spelt in any base, the most significant digit first. -/
theorem foldl_digits_div_mod {α : Type} {base : Nat} {digit : α → Nat} (hdigit : ∀ a, digit a < base) {s : List α}
    {j : Nat} {c : α} (hc : s[j]? = some c) :
    s.foldl (fun v a => base * v + digit a) 0 / base ^ (s.length - 1 - j) % base = digit c := by
  induction s using List.reverseRecOn with
  | nil => simp at hc
  | append_singleton x b ih =>
    have hbase : 0 < base := (Nat.zero_le _).trans_lt (hdigit b)
    rw [List.foldl_append, List.foldl_cons, List.foldl_nil, List.length_append, List.length_singleton]
    rcases Nat.lt_or_ge j x.length with hj | hj
    · rw [List.getElem?_append_left hj] at hc
      rw [show x.length + 1 - 1 - j = (x.length - 1 - j) + 1 by omega, pow_succ', ← Nat.div_div_eq_div_mul,
        Nat.mul_add_div hbase, Nat.div_eq_of_lt (hdigit b), Nat.add_zero, ih hc]
    · rw [List.getElem?_append_right hj, List.getElem?_singleton] at hc
      obtain ⟨_, hbc⟩ := Option.ite_none_right_eq_some.mp hc
      obtain rfl := Option.some.inj hbc
      rw [show x.length + 1 - 1 - j = 0 by omega, pow_zero, Nat.div_one, Nat.mul_add_mod, Nat.mod_eq_of_lt (hdigit b)]

/-- Binary digit j of n stands at bit n - 1 - j. -/
theorem testBit_natOfBits {s : List Bool} {j : Nat} {c : Bool} (hc : s[j]? = some c) :
    (natOfBits s).testBit (s.length - 1 - j) = c := by
  have hdigit : natOfBits s / 2 ^ (s.length - 1 - j) % 2 = c.toNat := foldl_digits_div_mod Bool.toNat_lt hc
  rw [Nat.testBit_eq_decide_div_mod_eq, hdigit]
  cases c <;> rfl

/-- Byte j of eight stands at bits 8 * (7 - j) and up. -/
theorem extractLsb'_ofNat_beNat {s : List Byte} (hs : s.length = 8) {j : Nat} {c : Byte} (hc : s[j]? = some c) :
    (BitVec.ofNat 64 (beNat s)).extractLsb' (8 * (7 - j)) 8 = c := by
  have hdigit : beNat s / 256 ^ (s.length - 1 - j) % 256 = c.toNat := foldl_digits_div_mod BitVec.isLt hc
  have hlt : beNat s < 2 ^ 64 := by simpa [hs] using beNat_lt s
  apply BitVec.eq_of_toNat_eq
  rw [BitVec.extractLsb'_toNat, BitVec.toNat_ofNat, Nat.mod_eq_of_lt hlt, Nat.shiftRight_eq_div_pow, pow_mul, ← hdigit, hs]
  rfl

/-- A word is the number its eight bytes spell. -/
theorem ofNat_beNat_toBe (x : Word64) : BitVec.ofNat 64 (beNat (toBe 8 x.toNat)) = x := by
  apply BitVec.eq_of_toNat_eq
  rw [BitVec.toNat_ofNat, beNat_toBe, Nat.mod_mod_of_dvd _ (by decide), Nat.mod_eq_of_lt x.isLt]

/-- Eight bytes are the spelling of the word they spell. -/
theorem toBe_ofNat_beNat {s : List Byte} (hs : s.length = 8) : toBe 8 (BitVec.ofNat 64 (beNat s)).toNat = s := by
  rw [BitVec.toNat_ofNat, show (2 : Nat) ^ 64 = 256 ^ 8 by decide, toBe_mod, ← hs, toBe_beNat]

/-- The bytes of a word, most significant first. -/
theorem toBe_toNat_getElem? (x : Word64) {j : Nat} (hj : j < 8) :
    (toBe 8 x.toNat)[j]? = some (x.extractLsb' (8 * (7 - j)) 8) := by
  have hc := List.getElem?_eq_getElem (l := toBe 8 x.toNat) (by simpa using hj)
  have hbyte := extractLsb'_ofNat_beNat (toBe_length 8 _) hc
  rw [ofNat_beNat_toBe] at hbyte
  rw [hc, hbyte]

/-- Bits `lo` and up of a word, as the bit string of a division. -/
theorem ofNat_div_mod_eq_extractLsb' {w : Nat} (x : BitVec w) (lo len : Nat) :
    BitVec.ofNat len (x.toNat / 2 ^ lo % 2 ^ len) = x.extractLsb' lo len := by
  apply BitVec.eq_of_toNat_eq
  rw [BitVec.toNat_ofNat, BitVec.extractLsb'_toNat, Nat.mod_mod, Nat.shiftRight_eq_div_pow]

/-! ## KP, E and P (41_feistel.md R162, R163, R167) -/

/-- Bit j of the lower half of KP(A, B). -/
theorem feKP_getLsbD_low (a b : Word64) {j : Nat} (hj : j < 32) :
    (feKP a b).getLsbD j = if b.getLsbD j then a.getLsbD (j + 32) else a.getLsbD j := by
  cases hb : b.getLsbD j <;> simp [feKP, BitVec.getLsbD_append (n := 32) (m := 32), hj, hb, Nat.add_comm]

/-- Bit j of the upper half of KP(A, B). -/
theorem feKP_getLsbD_high (a b : Word64) {j : Nat} (hj : j < 32) :
    (feKP a b).getLsbD (j + 32) = if b.getLsbD j then a.getLsbD j else a.getLsbD (j + 32) := by
  cases hb : b.getLsbD j <;> simp [feKP, BitVec.getLsbD_append (n := 32) (m := 32), hj, hb, Nat.add_comm]

theorem feE_getLsbD (p : FeParams) (x : Word64) (j : Fin 96) :
    (feE p x).getLsbD (95 - j.val) = x.getLsbD p.expansion[j].val := by
  have hc : (p.expansion.toList.map fun k => x.getLsbD k.val)[j.val]? = some (x.getLsbD p.expansion[j].val) := by simp
  have hbit := testBit_natOfBits hc
  rw [List.length_map, Vector.length_toList] at hbit
  rw [feE, BitVec.getLsbD_ofNat, hbit, decide_eq_true (by omega), Bool.true_and]

theorem feP_getLsbD (p : FeParams) (x : Word64) (j : Fin 64) :
    (feP p x).getLsbD (63 - j.val) = x.getLsbD (p.permutation j).val := by
  have hc : ((List.finRange 64).map fun j => x.getLsbD (p.permutation j).val)[j.val]? =
      some (x.getLsbD (p.permutation j).val) := by simp
  have hbit := testBit_natOfBits hc
  rw [List.length_map, List.length_finRange] at hbit
  rw [feP, BitVec.getLsbD_ofNat, hbit, decide_eq_true (by omega), Bool.true_and]

/-! ## Additive steps (41_feistel.md R161) -/

/-- Bytewise, byte j of fe_add from the top. -/
theorem feAdd_bytewise_byte (x y : Word64) {j : Nat} (hj : j < 8) :
    (feAdd .bytewise x y).extractLsb' (8 * (7 - j)) 8 =
      x.extractLsb' (8 * (7 - j)) 8 + y.extractLsb' (8 * (7 - j)) 8 :=
  extractLsb'_ofNat_beNat (by simp) <| List.getElem?_zipWith_eq_some.mpr
    ⟨_, _, toBe_toNat_getElem? x hj, toBe_toNat_getElem? y hj, rfl⟩

/-- Bytewise, byte j of fe_sub from the top. -/
theorem feSub_bytewise_byte (x y : Word64) {j : Nat} (hj : j < 8) :
    (feSub .bytewise x y).extractLsb' (8 * (7 - j)) 8 =
      x.extractLsb' (8 * (7 - j)) 8 - y.extractLsb' (8 * (7 - j)) 8 :=
  extractLsb'_ofNat_beNat (by simp) <| List.getElem?_zipWith_eq_some.mpr
    ⟨_, _, toBe_toNat_getElem? x hj, toBe_toNat_getElem? y hj, rfl⟩

/-! ## The S-box layers (41_feistel.md R164, R165, R166) -/

/-- The bits that the boxes of a layer up to box j take, from the top, where a box takes `f` of its selector. -/
def bitsThrough (f : SboxSel → Nat) (seq : List SboxSel) (j : Nat) : Nat := ((seq.take (j + 1)).map f).sum

@[simp] theorem bitsThrough_cons_zero (f : SboxSel → Nat) (box : SboxSel) (seq : List SboxSel) :
    bitsThrough f (box :: seq) 0 = f box := by
  simp [bitsThrough]

@[simp] theorem bitsThrough_cons_succ (f : SboxSel → Nat) (box : SboxSel) (seq : List SboxSel) (j : Nat) :
    bitsThrough f (box :: seq) (j + 1) = f box + bitsThrough f seq j := by
  simp [bitsThrough]

/-- The data bits of boxes 2k and 2k + 1 of FE_SA_SEQ. -/
theorem feSaSeq_pair {k : Nat} (hk : k < 4) :
    feSaSeq[2 * k]? = some .s1 ∧ 96 - bitsThrough SboxSel.width feSaSeq (2 * k) = 83 - 24 * k ∧
      feSaSeq[2 * k + 1]? = some .s2 ∧ 96 - bitsThrough SboxSel.width feSaSeq (2 * k + 1) = 72 - 24 * k := by
  revert k
  decide

/-- The key bits of boxes 2k and 2k + 1 of FE_SB_SEQ. -/
theorem feSbSeq_pair {k : Nat} (hk : k < 4) :
    feSbSeq[2 * k]? = some .s1 ∧ 32 + (32 - bitsThrough (·.width - 8) feSbSeq (2 * k)) = 59 - 8 * k ∧
      feSbSeq[2 * k + 1]? = some .s2 ∧ 32 + (32 - bitsThrough (·.width - 8) feSbSeq (2 * k + 1)) = 56 - 8 * k := by
  revert k
  decide

theorem saBoxes_length (m e : Nat) (seq : List SboxSel) (pos : Nat) : (saBoxes m e seq pos).length = seq.length := by
  induction seq generalizing pos with
  | nil => rfl
  | cons box seq ih => rw [saBoxes, List.length_cons, ih, List.length_cons]

theorem sbBoxes_length (m kh : Nat) (seq : List SboxSel) (kpos : Nat) (ys : List Byte) :
    (sbBoxes m kh seq kpos ys).length = min seq.length ys.length := by
  induction seq generalizing kpos ys with
  | nil => simp [sbBoxes]
  | cons box seq ih =>
    cases ys with
    | nil => simp [sbBoxes]
    | cons y ys => rw [sbBoxes, List.length_cons, ih, List.length_cons, List.length_cons, Nat.succ_min_succ]

/-- Box j of the unkeyed layer, for any sequence of boxes. -/
theorem saBoxes_getElem? (m e : Nat) {seq : List SboxSel} {j : Nat} {box : SboxSel} (hbox : seq[j]? = some box)
    (pos : Nat) :
    (saBoxes m e seq pos)[j]? =
      some (box.apply m (e / 2 ^ (pos - bitsThrough SboxSel.width seq j) % 2 ^ box.width)) := by
  induction seq generalizing j pos with
  | nil => simp at hbox
  | cons first seq ih =>
    cases j with
    | zero =>
      obtain rfl : first = box := by simpa using hbox
      rw [bitsThrough_cons_zero]
      rfl
    | succ j =>
      rw [bitsThrough_cons_succ, ← Nat.sub_sub]
      exact ih hbox _

/-- Box j of the keyed layer, for any sequence of boxes. -/
theorem sbBoxes_getElem? (m kh : Nat) {seq : List SboxSel} {ys : List Byte} {j : Nat} {box : SboxSel} {y : Byte}
    (hbox : seq[j]? = some box) (hy : ys[j]? = some y) (kpos : Nat) :
    (sbBoxes m kh seq kpos ys)[j]? =
      some (box.apply m
        (256 * (kh / 2 ^ (kpos - bitsThrough (·.width - 8) seq j) % 2 ^ (box.width - 8)) + y.toNat)) := by
  induction seq generalizing j kpos ys with
  | nil => simp at hbox
  | cons first seq ih =>
    cases ys with
    | nil => simp at hy
    | cons y₀ ys =>
      cases j with
      | zero =>
        obtain rfl : first = box := by simpa using hbox
        obtain rfl : y₀ = y := by simpa using hy
        rw [bitsThrough_cons_zero]
        rfl
      | succ j =>
        rw [bitsThrough_cons_succ, ← Nat.sub_sub]
        exact ih hbox hy _

/-- Key bits from B[63:32] above a data byte, as a bit string. -/
theorem ofNat_keyBits_add_byte (b : Word64) (lo len : Nat) (y : Byte) :
    BitVec.ofNat (len + 8) (256 * (b.toNat / 2 ^ 32 / 2 ^ lo % 2 ^ len) + y.toNat) =
      b.extractLsb' (32 + lo) len ++ y := by
  have hkey : b.toNat / 2 ^ 32 / 2 ^ lo % 2 ^ len = (b.extractLsb' (32 + lo) len).toNat := by
    rw [BitVec.extractLsb'_toNat, Nat.shiftRight_eq_div_pow, pow_add, Nat.div_div_eq_div_mul]
  have hcat : 256 * (b.extractLsb' (32 + lo) len).toNat + y.toNat = (b.extractLsb' (32 + lo) len ++ y).toNat := by
    rw [BitVec.toNat_append, ← Nat.shiftLeft_add_eq_or_of_lt y.isLt, Nat.shiftLeft_eq, Nat.mul_comm]
  rw [hkey, hcat, BitVec.ofNat_toNat, BitVec.setWidth_eq]

/-- Byte j of Sa(e) from the top is the output of box j. -/
theorem feSa_byte (p : FeParams) (e : BitVec 96) {j : Nat} {box : SboxSel} (hbox : feSaSeq[j]? = some box) :
    (feSa p e).extractLsb' (8 * (7 - j)) 8 =
      box.apply p.s2Modulus (e.toNat / 2 ^ (96 - bitsThrough SboxSel.width feSaSeq j) % 2 ^ box.width) :=
  extractLsb'_ofNat_beNat (saBoxes_length _ _ _ _) (saBoxes_getElem? _ _ hbox _)

/-- Byte j of Sb(y, B) from the top is the output of box j. -/
theorem feSb_byte (p : FeParams) (y b : Word64) {j : Nat} (hj : j < 8) {box : SboxSel}
    (hbox : feSbSeq[j]? = some box) :
    (feSb p y b).extractLsb' (8 * (7 - j)) 8 =
      box.apply p.s2Modulus
        (256 * (b.toNat / 2 ^ 32 / 2 ^ (32 - bitsThrough (·.width - 8) feSbSeq j) % 2 ^ (box.width - 8)) +
          (y.extractLsb' (8 * (7 - j)) 8).toNat) :=
  extractLsb'_ofNat_beNat ((sbBoxes_length _ _ _ _ _).trans (by rw [toBe_length]; rfl))
    (sbBoxes_getElem? _ _ hbox (toBe_toNat_getElem? y hj) _)

/-! ## The obligations -/

/-- Settles O25: KP by the value of bit j of B, E and P by the place of digit j. -/
theorem feistelBitSelections : Obligations.FeistelBitSelections := by
  unfold Obligations.FeistelBitSelections
  exact ⟨fun a b j hj => ⟨feKP_getLsbD_low a b hj, feKP_getLsbD_high a b hj⟩, feE_getLsbD, feP_getLsbD⟩

/-- Settles O26: 64-bit words add modulo 2^64; bytewise, byte k is byte 7 - k from the top. -/
theorem feistelAdditionsOfBothKinds : Obligations.FeistelAdditionsOfBothKinds := by
  unfold Obligations.FeistelAdditionsOfBothKinds
  intro x y
  refine ⟨BitVec.toNat_add x y, ?_, ?_⟩
  · rw [feSub, BitVec.toNat_sub']
    have := y.isLt
    congr 1
    omega
  · intro k hk
    have hfromTop : 8 * k = 8 * (7 - (7 - k)) := by omega
    rw [hfromTop]
    exact ⟨feAdd_bytewise_byte x y (by omega), feSub_bytewise_byte x y (by omega)⟩

/-- Settles O27: boxes 2k and 2k + 1 of each layer, at the bits that the boxes before them leave. -/
theorem feistelSboxLayers : Obligations.FeistelSboxLayers := by
  unfold Obligations.FeistelSboxLayers
  intro p k hk
  have hbyte1 : 56 - 16 * k = 8 * (7 - 2 * k) := by omega
  have hbyte2 : 48 - 16 * k = 8 * (7 - (2 * k + 1)) := by omega
  rw [hbyte1, hbyte2]
  constructor
  · intro e
    obtain ⟨hs1, hbits1, hs2, hbits2⟩ := feSaSeq_pair hk
    rw [feSa_byte p e hs1, feSa_byte p e hs2, hbits1, hbits2, ← ofNat_div_mod_eq_extractLsb',
      ← ofNat_div_mod_eq_extractLsb']
    exact ⟨rfl, rfl⟩
  · intro y b
    obtain ⟨hs1, hbits1, hs2, hbits2⟩ := feSbSeq_pair hk
    rw [feSb_byte p y b (by omega) hs1, feSb_byte p y b (by omega) hs2, ← hbits1, ← hbits2]
    exact ⟨congrArg sboxS1 (ofNat_keyBits_add_byte b _ 5 _),
      congrArg (sboxS2 p.s2Modulus) (ofNat_keyBits_add_byte b _ 3 _)⟩

end Sys2Proof.Machine
end

section
/-! The Feistel subkeys in closed form (41_feistel.md R170 to R174): the four key registers rotate, so that register m of
step i holds seed (m - i) modulo 4. -/

namespace Sys2Proof.Machine

/-! ## The 48 subkeys (41_feistel.md R170, R171, R172) -/

/-- Key register m + 1 of step i: the seeds K1, K2, K3, K4, rotated i times. -/
def feKeyRegister (seeds : List Word64) (i m : Nat) : Word64 := seeds.getD ((m + 4 - i % 4) % 4) 0

/-- K1 of the next step is K4 of this one. -/
theorem feKeyRegister_next_zero (seeds : List Word64) (i : Nat) :
    feKeyRegister seeds (i + 1) 0 = feKeyRegister seeds i 3 := by
  unfold feKeyRegister
  congr 1
  omega

/-- K2, K3 and K4 of the next step are K1, K2 and K3 of this one. -/
theorem feKeyRegister_next_succ (seeds : List Word64) (i m : Nat) :
    feKeyRegister seeds (i + 1) (m + 1) = feKeyRegister seeds i m := by
  unfold feKeyRegister
  congr 1
  omega

theorem feSubkeys_length (p : FeParams) (n i : Nat) (k1 k2 k3 k4 : Word64) :
    (feSubkeys p n i k1 k2 k3 k4).length = n := by
  induction n generalizing i k1 k2 k3 k4 with
  | zero => rfl
  | succ n ih => rw [feSubkeys, List.length_cons, ih]

/-- The subkeys from step i on: subkey j is made of the registers of step i + j. -/
theorem feSubkeys_getElem? (p : FeParams) (seeds : List Word64) {n j : Nat} (hj : j < n) (i : Nat) :
    (feSubkeys p n i (feKeyRegister seeds i 0) (feKeyRegister seeds i 1) (feKeyRegister seeds i 2)
      (feKeyRegister seeds i 3))[j]? =
      some (feKeyRegister seeds (i + j) 0 ^^^
        feG p (feKeyRegister seeds (i + j) 0) (feKeyRegister seeds (i + j) 2) (feKeyRegister seeds (i + j) 1) (i + j)) := by
  induction n generalizing i j with
  | zero => omega
  | succ n ih =>
    cases j with
    | zero => rfl
    | succ j =>
      rw [feSubkeys, List.getElem?_cons_succ, ← feKeyRegister_next_zero, ← feKeyRegister_next_succ seeds i 0,
        ← feKeyRegister_next_succ seeds i 1, ← feKeyRegister_next_succ seeds i 2, ih (by omega), Nat.add_assoc,
        Nat.add_comm 1 j]

/-! ## The subkeys of the rounds (41_feistel.md R174) -/

/-- The places in the schedule of the three subkeys of round i. -/
def feRoundPlaces (i : Nat) : List Nat := [3 * i % 48, (3 * i - 1) % 48, (3 * i - 2) % 48]

/-- The 16 rounds use every place once. -/
theorem feRoundPlaces_perm : ((List.range' 1 16).flatMap feRoundPlaces).Perm (List.range 48) := by decide

theorem feRoundKeys_eq_map (sched : List Word64) (i : Nat) :
    [(feRoundKeys sched i).1, (feRoundKeys sched i).2.1, (feRoundKeys sched i).2.2] =
      (feRoundPlaces i).map (sched.getD · 0) := rfl

/-- A list is what stands at its places. -/
theorem map_getD_range (sched : List Word64) : (List.range sched.length).map (sched.getD · 0) = sched := by
  apply List.ext_getElem
  · simp
  · intro k _ hk
    simp [hk]

/-! ## The obligation -/

/-- Settles O28: the registers of step i from the rotation, and the rounds' places as a permutation of the schedule's. -/
theorem feistelSubkeys : Obligations.FeistelSubkeys := by
  unfold Obligations.FeistelSubkeys
  constructor
  · intro p key ka kb seed
    refine ⟨feSubkeys_length p 48 0 _ _ _ _, fun i hi => ?_⟩
    have hsubkey := feSubkeys_getElem? p [feF p ka kb, feF p kb ka, kb, ka] hi 0
    rwa [Nat.zero_add] at hsubkey
  · intro sched hlen
    have hperm := feRoundPlaces_perm.map (sched.getD · 0)
    rw [← hlen, map_getD_range, List.map_flatMap] at hperm
    simpa only [feRoundKeys_eq_map] using hperm

end Sys2Proof.Machine
end

section
/-! The three ciphers' decryptions undo their encryptions (41_feistel.md R177, 42_rc5.md R208, 43_sp_cipher.md R239). Each
decryption round undoes the encryption round of the same number, and the rounds run backwards; the halves of a block are
read back from their bytes. -/

namespace Sys2Proof.Machine

/-! ## Rounds run backwards, and the halves of a block -/

/-- Steps that each undo a step, run in the reverse order, undo the whole run. -/
theorem foldl_reverse_foldl_cancel {σ ι : Type} {enc dec : σ → ι → σ} (hstep : ∀ s i, dec (enc s i) i = s)
    (rounds : List ι) (s : σ) : rounds.reverse.foldl dec (rounds.foldl enc s) = s := by
  induction rounds generalizing s with
  | nil => rfl
  | cons i rounds ih =>
    rw [List.foldl_cons, List.reverse_cons, List.foldl_append, ih, List.foldl_cons, List.foldl_nil, hstep]

/-- The first half of two joined halves. -/
theorem take_toBe_append (v : Nat) (y : List Byte) : (toBe 8 v ++ y).take 8 = toBe 8 v :=
  List.take_left' (toBe_length 8 v)

/-- The second half of two joined halves. -/
theorem drop_toBe_append (v : Nat) (y : List Byte) : (toBe 8 v ++ y).drop 8 = y :=
  List.drop_left' (toBe_length 8 v)

/-- A 16-byte block is the spelling of its two words. -/
theorem toBe_halves {x : List Byte} (hx : x.length = 16) :
    toBe 8 (BitVec.ofNat 64 (beNat (x.take 8))).toNat ++ toBe 8 (BitVec.ofNat 64 (beNat (x.drop 8))).toNat = x := by
  rw [toBe_ofNat_beNat (by rw [List.length_take]; omega), toBe_ofNat_beNat (by rw [List.length_drop]; omega),
    List.take_append_drop]

/-! ## The Feistel cipher (41_feistel.md R175, R176, R177) -/

/-- fe_sub undoes fe_add, with carries or without. -/
theorem feSub_feAdd_cancel (m : FeAdd) (x y : Word64) : feSub m (feAdd m x y) y = x := by
  cases m with
  | carry64 => exact BitVec.add_sub_cancel x y
  | bytewise =>
    have hbytes : toBe 8 (feAdd .bytewise x y).toNat = addb (toBe 8 x.toNat) (toBe 8 y.toNat) :=
      toBe_ofNat_beNat (by simp)
    rw [feSub, hbytes, subb_addb_cancel _ _ (by simp), ofNat_beNat_toBe]

theorem feDecRound_feEncRound (p : FeParams) (sched : List Word64) (lr : Word64 × Word64) (i : Nat) :
    feDecRound p sched (feEncRound p sched lr i) i = lr := by
  simp only [feDecRound, feEncRound, feSub_feAdd_cancel, BitVec.xor_assoc, BitVec.xor_self, BitVec.xor_zero]

theorem feDecrypt_feEncrypt (p : FeParams) (sched : List Word64) {x : List Byte} (hx : x.length = 16) :
    feDecrypt p sched (feEncrypt p sched x) = x := by
  simp only [feDecrypt, feEncrypt, take_toBe_append, drop_toBe_append, ofNat_beNat_toBe, Prod.mk.eta,
    foldl_reverse_foldl_cancel (feDecRound_feEncRound p sched), toBe_halves hx]

/-! ## RC5 (42_rc5.md R206, R207, R208) -/

/-- A rotation to the right undoes the rotation to the left by as much. -/
theorem rotateRight_rotateLeft_cancel {w : Nat} (x : BitVec w) (r : Nat) : (x.rotateLeft r).rotateRight r = x := by
  ext k hk
  have hr : r % w < w := Nat.mod_lt _ (by omega)
  rw [BitVec.getElem_rotateRight]
  split_ifs with hlow
  · rw [BitVec.getElem_rotateLeft, dif_neg (by omega)]
    congr 1
    omega
  · rw [BitVec.getElem_rotateLeft, dif_pos (by omega)]
    congr 1
    omega

theorem rc5DecRound_rc5EncRound (w : WordSize) (sched : List Word64) (ab : Rc5Word w × Rc5Word w) (i : Nat) :
    rc5DecRound w sched (rc5EncRound w sched ab i) i = ab := by
  simp only [rc5DecRound, rc5EncRound, BitVec.add_sub_cancel, rotateRight_rotateLeft_cancel, BitVec.xor_assoc,
    BitVec.xor_self, BitVec.xor_zero]

/-- An RC5 word is the number its bytes spell, the least significant byte first. -/
theorem rc5Word_toLe (w : WordSize) (a : Rc5Word w) : rc5Word w (toLe w.bytes a.toNat) = a := by
  have hbits : (256 : Nat) ^ w.bytes = 2 ^ w.bits := by rw [WordSize.bits_eq, pow_mul]; rfl
  apply BitVec.eq_of_toNat_eq
  rw [rc5Word, leNat_toLe, BitVec.toNat_ofNat, hbits, Nat.mod_mod, Nat.mod_eq_of_lt a.isLt]

/-- A word's bytes are the spelling of the RC5 word they spell. -/
theorem toLe_rc5Word {w : WordSize} {s : List Byte} (hs : s.length = w.bytes) :
    toLe w.bytes (rc5Word w s).toNat = s := by
  have hlt : leNat s < 2 ^ w.bits := by
    rw [WordSize.bits_eq, pow_mul, ← hs]
    exact leNat_lt s
  rw [rc5Word, BitVec.toNat_ofNat, Nat.mod_eq_of_lt hlt, ← hs, toLe_leNat]

theorem rc5Decrypt_rc5Encrypt (r : Nat) (w : WordSize) (sched : List Word64) {x : List Byte}
    (hx : x.length = 2 * w.bytes) : rc5Decrypt r w sched (rc5Encrypt r w sched x) = x := by
  have hlow : (x.take w.bytes).length = w.bytes := by rw [List.length_take]; omega
  have hhigh : (x.drop w.bytes).length = w.bytes := by rw [List.length_drop]; omega
  simp only [rc5Decrypt, rc5Encrypt, List.take_left' (toLe_length _ _), List.drop_left' (toLe_length _ _), rc5Word_toLe,
    Prod.mk.eta, foldl_reverse_foldl_cancel (rc5DecRound_rc5EncRound w sched), BitVec.add_sub_cancel, toLe_rc5Word hlow,
    toLe_rc5Word hhigh, List.take_append_drop]

/-! ## The SP cipher (43_sp_cipher.md R237, R238, R239) -/

theorem spDecRound_spEncRound (p : SpParams) (ks : List Word64) (ab : Word64 × Word64) (r : Nat) :
    spDecRound p ks (spEncRound p ks ab r) r = ab := by
  have hcancel : ∀ a k b : Word64, a ^^^ k ^^^ b ^^^ k ^^^ b = a := fun a k b => by
    rw [BitVec.xor_assoc _ k b, BitVec.xor_assoc a k b, BitVec.xor_assoc, BitVec.xor_self, BitVec.xor_zero]
  simp only [spDecRound, spEncRound, Equiv.symm_apply_apply, hcancel]

theorem spDecrypt_spEncrypt (p : SpParams) (ks : List Word64) {x : List Byte} (hx : x.length = 16) :
    spDecrypt p ks (spEncrypt p ks x) = x := by
  simp only [spDecrypt, spEncrypt, take_toBe_append, drop_toBe_append, ofNat_beNat_toBe, Prod.mk.eta,
    foldl_reverse_foldl_cancel (spDecRound_spEncRound p ks), BitVec.xor_assoc, BitVec.xor_self, BitVec.xor_zero,
    toBe_halves hx]

/-! ## The obligation -/

/-- Settles O30: each cipher's rounds undone one by one, from the last to the first. -/
theorem everyCipherDecryptsItsEncryption : Obligations.EveryCipherDecryptsItsEncryption := by
  unfold Obligations.EveryCipherDecryptsItsEncryption
  exact ⟨fun p sched _ hx => feDecrypt_feEncrypt p sched hx, fun r w sched _ hx => rc5Decrypt_rc5Encrypt r w sched hx,
    fun p ks _ hx => spDecrypt_spEncrypt p ks hx⟩

end Sys2Proof.Machine
end

section
/-! The RC5 arrays before mixing (42_rc5.md R202, R203, R204): byte k of the key is byte k modulo u of key word k / u, and
the initial array is an arithmetic series. -/

namespace Sys2Proof.Machine

/-! ## Places in blocks and bytes of a number -/

/-- Block j of a buffer begins j blocks into it. -/
theorem blocks_getElem? {bs m j : Nat} (x : List Byte) (hj : j < m) :
    (blocks bs m x)[j]? = some ((x.drop (j * bs)).take bs) := by
  induction m generalizing x j with
  | zero => omega
  | succ m ih =>
    cases j with
    | zero => simp [blocks]
    | succ j => rw [blocks, List.getElem?_cons_succ, ih _ (by omega), List.drop_drop, Nat.succ_mul, Nat.add_comm bs]

/-- Byte k of the number that bytes spell, the least significant first; beyond them, 0. -/
theorem leNat_byte (x : List Byte) (k : Nat) : leNat x / 256 ^ k % 256 = ((x[k]?).getD 0#8).toNat := by
  induction x generalizing k with
  | nil => simp [leNat]
  | cons b x ih =>
    have hb : b.toNat < 256 := b.isLt
    rw [leNat_cons]
    cases k with
    | zero => simp [Nat.mod_eq_of_lt hb]
    | succ k =>
      rw [Nat.pow_succ', ← Nat.div_div_eq_div_mul, Nat.add_mul_div_left _ _ (by decide), Nat.div_eq_of_lt hb, Nat.zero_add,
        ih, List.getElem?_cons_succ]

/-! ## The key words (42_rc5.md R201, R203) -/

/-- Bytes that fit an RC5 word lose nothing in it. -/
theorem rc5Word_toNat {w : WordSize} {s : List Byte} (hs : s.length ≤ w.bytes) : (rc5Word w s).toNat = leNat s := by
  have hlt : leNat s < 2 ^ w.bits := by
    rw [WordSize.bits_eq, pow_mul]
    exact (leNat_lt s).trans_le (Nat.pow_le_pow_right (by decide) hs)
  rw [rc5Word, BitVec.toNat_ofNat, Nat.mod_eq_of_lt hlt]

@[simp] theorem rc5L_length (w : WordSize) (key : List Byte) : (rc5L w key).length = rc5C w key := by simp [rc5L]

theorem rc5L_getElem? (w : WordSize) (key : List Byte) {j : Nat} (hj : j < rc5C w key) :
    (rc5L w key)[j]? = some (rc5Word w ((key.drop (j * w.bytes)).take w.bytes)) := by
  rw [rc5L, List.getElem?_map, blocks_getElem? key hj, Option.map_some]

/-- Byte k of the key, or the 0 that fills up the last word, stands in key word k / u. -/
theorem rc5L_byte (w : WordSize) (key : List Byte) {k : Nat} {v : Rc5Word w} (hk : k < rc5C w key * w.bytes)
    (hv : (rc5L w key)[k / w.bytes]? = some v) :
    v.toNat / 256 ^ (k % w.bytes) % 256 = ((key[k]?).getD 0#8).toNat := by
  have hword : k / w.bytes < rc5C w key := Nat.div_lt_of_lt_mul (by rwa [Nat.mul_comm])
  have hplace : k / w.bytes * w.bytes + k % w.bytes = k := Nat.div_add_mod' k w.bytes
  rw [rc5L_getElem? w key hword, Option.some.injEq] at hv
  rw [← hv, rc5Word_toNat (List.length_take_le _ _), leNat_byte, List.getElem?_take_of_lt (Nat.mod_lt k w.bytes_pos),
    List.getElem?_drop, hplace]

/-! ## The initial array (42_rc5.md R204) -/

/-- Word i of the series from v on. -/
theorem rc5Arith_getElem? (w : WordSize) {n i : Nat} (v : Nat) (hi : i < n) :
    (rc5Arith w n (BitVec.ofNat w.bits v))[i]? = some (BitVec.ofNat w.bits (v + i * rc5Q w)) := by
  induction n generalizing v i with
  | zero => omega
  | succ n ih =>
    cases i with
    | zero => simp [rc5Arith]
    | succ i =>
      rw [rc5Arith, List.getElem?_cons_succ, ← BitVec.ofNat_add, ih _ (by omega), Nat.succ_mul, Nat.add_assoc,
        Nat.add_comm (rc5Q w)]

theorem rc5S0_toNat (w : WordSize) {t i : Nat} (hi : i < t) :
    ((rc5S0 w t)[i]?).map BitVec.toNat = some ((rc5P w + i * rc5Q w) % 2 ^ w.bits) := by
  rw [rc5S0, rc5Arith_getElem? w _ hi, Option.map_some, BitVec.toNat_ofNat]

/-! ## The obligation -/

/-- Settles O29: each key byte in its word's block, and the series by recursion along the array. -/
theorem rc5ArraysBeforeMixing : Obligations.Rc5ArraysBeforeMixing := by
  unfold Obligations.Rc5ArraysBeforeMixing
  intro w key
  have hu : w.bits / 8 = w.bytes := by rw [WordSize.bits_eq, Nat.mul_div_cancel_left _ (by decide)]
  rw [hu]
  refine ⟨rc5L_length w key, fun k v hk hv => rc5L_byte w key hk hv, fun r i hi => ?_⟩
  have hS0 := rc5S0_toNat w (t := rc5T r) hi
  cases w <;> exact hS0

end Sys2Proof.Machine
end

section
/-! What the commands that take one input range and store one output have in common (20_memory.md R77, 00_scope.md
R10): the range check decides between BUFFER_RANGE and the store. -/

namespace Sys2Proof.Machine

variable {s : State}

/-! ## With no command in progress (log 22) -/

theorem State.opnd_of_idle (h : s.running = none) : s.opnd = s.args := by rw [State.opnd, h]

theorem State.memRead_of_idle (h : s.running = none) (a n : Nat) : s.memRead a n = s.buf.readN a n := by
  rw [State.memRead, State.inBuf, h]

theorem State.hostWrote_of_idle (h : s.running = none) : s.hostWrote = [] := by rw [State.hostWrote, h]

/-- A command that no host write disturbs leaves its own bytes in BUF. -/
theorem State.readN_memWrite_of_idle (h : s.running = none) (a : Nat) (x : List Byte) :
    (s.memWrite a x).buf.readN a x.length = x :=
  (s.memWrite_stores a x).readN (State.hostWrote_of_idle h)

/-! ## Two adjacent ranges -/

theorem Memory.readN_add (m : Memory) (a j k : Nat) : m.readN a (j + k) = m.readN a j ++ m.readN (a + j) k := by
  induction j generalizing a with
  | zero => rw [Nat.zero_add, Memory.readN, List.nil_append, Nat.add_zero]
  | succ j ih =>
    rw [Nat.succ_add, Memory.readN, ih, Memory.readN, List.cons_append, Nat.add_right_comm a 1 j, Nat.add_assoc a j 1]

/-! ## The range check and the store -/

/-- BUFFER_RANGE where a range leaves BUF; otherwise `bytes` stored at DST, and the end with OUTLEN `n`. -/
def State.storeChecked (s : State) (op : Byte) (bytes : List Byte) (n : Nat) : Res :=
  match s.rangeCheck n with
  | some e => s.raise op e
  | none => (s.memWrite s.dst bytes).complete op n

theorem State.storeChecked_of_rangeCheck {n : Nat} {e : CmdError} (h : s.rangeCheck n = some e) (op : Byte)
    (bytes : List Byte) : s.storeChecked op bytes n = .next (s.raised op e) := by
  rw [State.storeChecked, h]
  rfl

theorem State.storeChecked_of_inRange {n : Nat} (h : s.InRange n) (op : Byte) (bytes : List Byte) :
    s.storeChecked op bytes n = .next ((s.memWrite s.dst bytes).completed op n) := by
  rw [State.storeChecked, (s.rangeCheck_eq_none n).mpr h]
  rfl

/-- The errors of the range check are those of R77, in R77's order. -/
theorem RangeErrors.of_rangeCheck {i : Instr} {x : State} {op : Byte} {n : Nat}
    (h : ∀ e, s.rangeCheck n = some e → Raises i s x op e) : RangeErrors i s x op n := by
  obtain ⟨-, hin⟩ | ⟨hsub, hsrc⟩ | ⟨hsub, hsrc, hdst⟩ := s.rangeCheck_cases n
  · obtain ⟨hsrc, hdst⟩ := hin
    exact ⟨fun hout => absurd hsrc (by omega), fun _ hout => absurd hdst (by omega)⟩
  · exact ⟨fun _ => h _ hsub, fun hin => absurd hsrc (by omega)⟩
  · exact ⟨fun hout => absurd hsrc (by omega), fun _ _ => h _ hsub⟩

theorem Succeeds.of_memWrite {i : Instr} {op : Byte} {bytes : List Byte} {n : Nat}
    (h : exec i s = .next ((s.memWrite s.dst bytes).completed op n)) : Succeeds i s s op bytes n :=
  ⟨_, _, h, s.memWrite_stores s.dst bytes⟩

/-- The outcomes of a command that ends in the checked store. -/
theorem rangeErrors_and_succeeds {i : Instr} {op : Byte} {bytes : List Byte} {n : Nat}
    (h : exec i s = s.storeChecked op bytes n) :
    RangeErrors i s s op n ∧ (s.InRange n → Succeeds i s s op bytes n) :=
  ⟨.of_rangeCheck fun _ he => h.trans (State.storeChecked_of_rangeCheck he op bytes),
    fun hin => .of_memWrite (h.trans (State.storeChecked_of_inRange hin op bytes))⟩

end Sys2Proof.Machine
end

section
/-! Filling ALGI (44_block_commands.md R255, R256): which algorithm CFG selects, which keys it takes, and
ALG_SETKEY. -/

namespace Sys2Proof.Machine

/-! ## The algorithm CFG selects (10_state.md R28) -/

theorem algOf_of_selects {c : Cfg} {kind : AlgKind} (h : c.Selects kind) : algOf c = .ok kind := by
  cases kind with
  | feistel =>
    have halg : c.alg = 0#3 := h
    rw [algOf, halg]
    rfl
  | rc5 w =>
    cases w <;>
    · obtain ⟨halg, hw⟩ := h
      rw [algOf, halg, hw]
      rfl
  | sp =>
    have halg : c.alg = 2#3 := h
    rw [algOf, halg]
    rfl

theorem algOf_of_alg_gt {c : Cfg} (h : 2 < c.alg.toNat) :
    algOf c = .error ⟨.unsupportedAlg, 1#8, c.alg.setWidth 8⟩ := by
  unfold algOf
  split
  case h_4 => rw [BitVec.ofNat_toNat]
  all_goals omega

theorem algOf_of_rc5w_three {c : Cfg} (halg : c.alg = 1#3) (hw : c.rc5w = 3#2) :
    algOf c = .error ⟨.unsupportedWordSize, 1#8, 3#8⟩ := by
  rw [algOf, halg, hw]
  rfl

/-! ## The keys an algorithm takes (41_feistel.md R173, 42_rc5.md R205, 43_sp_cipher.md R233) -/

theorem keyAlgi_of_setkey_error {b : Build} {kind : AlgKind} {key : List Byte} {e : CmdError}
    (h : setkey b kind key = .error e) : keyAlgi b kind key = .error e := by
  rw [keyAlgi, h]

theorem keyAlgi_feistel_of_length_ne (b : Build) {key : List Byte} (h : key.length ≠ 16) :
    keyAlgi b .feistel key = .error ⟨.invalidKeySize, 2#8, BitVec.ofNat 8 key.length⟩ :=
  keyAlgi_of_setkey_error (if_neg h)

theorem keyAlgi_of_length_zero (b : Build) {kind : AlgKind} {key : List Byte} (hkind : kind ≠ .feistel)
    (h : key.length = 0) : keyAlgi b kind key = .error ⟨.invalidKeySize, 3#8, 0#8⟩ := by
  apply keyAlgi_of_setkey_error
  cases kind with
  | feistel => exact absurd rfl hkind
  | rc5 w => exact if_pos h
  | sp => exact if_pos h

theorem keyAlgi_of_accepted (b : Build) {kind : AlgKind} {key : List Byte} (hpos : key.length ≠ 0)
    (h16 : kind = .feistel → key.length = 16) :
    keyAlgi b kind key = .ok ⟨kind, key, scheduleOf b kind key⟩ := by
  have hsched : setkey b kind key = .ok (scheduleOf b kind key) := by
    cases kind with
    | feistel => exact if_pos (h16 rfl)
    | rc5 w => exact if_neg hpos
    | sp => exact if_neg hpos
  rw [keyAlgi, hsched]

/-- KEY[0..k) has k bytes for every KEYLEN the core takes (10_state.md R29). -/
theorem Args.keyBytes_length_of_le (a : Args) {k : Nat} (h : k ≤ 32) : (a.keyBytes k).length = k := by
  rw [Args.keyBytes_length, Nat.min_eq_left h]

/-! ## ALG_SETKEY (44_block_commands.md R256) -/

theorem algSetkeyPlan_of_algOf_error (b : Build) {a : Args} {e : CmdError} (h : algOf a.cfg = .error e) :
    algSetkeyPlan b a = .error e := by
  rw [algSetkeyPlan, h]

theorem algSetkeyPlan_of_keylen_gt (b : Build) {a : Args} {kind : AlgKind} (hkind : algOf a.cfg = .ok kind)
    (h : 32 < a.keylen.toNat) :
    algSetkeyPlan b a = .error ⟨.invalidKeySize, 4#8, BitVec.ofNat 8 a.keylen.toNat⟩ := by
  rw [algSetkeyPlan, hkind]
  exact if_pos h

theorem algSetkeyPlan_of_keylen_le (b : Build) {a : Args} {kind : AlgKind} (hkind : algOf a.cfg = .ok kind)
    (h : a.keylen.toNat ≤ 32) : algSetkeyPlan b a = keyAlgi b kind (a.keyBytes a.keylen.toNat) := by
  rw [algSetkeyPlan, hkind]
  exact if_neg (by omega)

theorem raises_algSetkey {s : State} {e : CmdError} (h : algSetkeyPlan s.build s.opnd = .error e) :
    Raises .algSetkey s { s with session := .none } 0x03#8 e := by
  change execAlgSetkey s = _
  rw [execAlgSetkey, h]
  rfl

theorem exec_algSetkey_of_plan {s : State} {a : Algi} (h : algSetkeyPlan s.build s.opnd = .ok a) :
    exec .algSetkey s = .next ({ s with session := .keyed a }.completed 0x03#8 0) := by
  change execAlgSetkey s = _
  rw [execAlgSetkey, h]
  rfl

/-! ## The obligation -/

/-- Settles O31: the plan's first error decides, in the order algorithm, word size, KEYLEN above 32, the algorithm's own
key lengths. -/
theorem algSetkeyKeysTheInstance : Obligations.AlgSetkeyKeysTheInstance := by
  unfold Obligations.AlgSetkeyKeysTheInstance
  refine ⟨Laws.decode_encode (i := .algSetkey) rfl, fun s => ?_⟩
  intro cfg k x
  refine ⟨fun halg => ?_, fun halg hw => ?_, fun kind hsel => ?_⟩
  · exact raises_algSetkey (algSetkeyPlan_of_algOf_error _ (algOf_of_alg_gt halg))
  · exact raises_algSetkey (algSetkeyPlan_of_algOf_error _ (algOf_of_rc5w_three halg hw))
  · have hkind : algOf s.opnd.cfg = .ok kind := algOf_of_selects hsel
    have hlength : k ≤ 32 → (s.opnd.keyBytes k).length = k := s.opnd.keyBytes_length_of_le
    have hplan : k ≤ 32 → algSetkeyPlan s.build s.opnd = keyAlgi s.build kind (s.opnd.keyBytes k) :=
      algSetkeyPlan_of_keylen_le s.build hkind
    refine ⟨fun hk => ?_, fun hk hfeistel h16 => ?_, fun hfeistel hzero => ?_, fun hpos hk h16 => ?_⟩
    · exact raises_algSetkey (algSetkeyPlan_of_keylen_gt _ hkind hk)
    · subst hfeistel
      have hkey := keyAlgi_feistel_of_length_ne s.build (key := s.opnd.keyBytes k) (by rwa [hlength hk])
      rw [hlength hk] at hkey
      exact raises_algSetkey ((hplan hk).trans hkey)
    · have hk : k ≤ 32 := by omega
      exact raises_algSetkey ((hplan hk).trans (keyAlgi_of_length_zero _ hfeistel ((hlength hk).trans hzero)))
    · exact exec_algSetkey_of_plan ((hplan hk).trans
        (keyAlgi_of_accepted _ (by rw [hlength hk]; omega) (by rwa [hlength hk])))

end Sys2Proof.Machine
end

section
/-! BLK_ENC, BLK_DEC and F_EVAL (44_block_commands.md R258 to R261): the checks of each, then the checked store of one
block; and DEC undoes ENC for whatever ALGI holds. -/

namespace Sys2Proof.Machine

/-! ## BLK_ENC and BLK_DEC: one block through an operation of ALGI -/

section
variable {op : Byte} {f : Build → Algi → List Byte → List Byte} {s : State} {a : Algi}

theorem blockCommand_of_not_keyed (h : s.session.algi = none) :
    blockCommand op f s = .next (s.raised op ⟨.notKeyed, 1#8, 0#8⟩) := by
  rw [blockCommand, h]
  rfl

theorem blockCommand_of_len_ne (ha : s.session.algi = some a) (h : s.len ≠ a.kind.bs) :
    blockCommand op f s = .next (s.raised op ⟨.blockLength, 1#8, BitVec.ofNat 8 (min s.len 255)⟩) := by
  rw [blockCommand, ha]
  exact if_pos h

theorem blockCommand_of_len (ha : s.session.algi = some a) (h : s.len = a.kind.bs) :
    blockCommand op f s = s.storeChecked op (f s.build a (s.memRead s.src a.kind.bs)) a.kind.bs := by
  rw [blockCommand, ha]
  exact if_neg (not_not.mpr h)

/-- All outcomes of a command that takes one block through an operation of ALGI. -/
theorem blockCommand_outcomes {i : Instr} (hexec : ∀ s, exec i s = blockCommand op f s) (s : State) :
    (s.session.algi = none → Raises i s s op ⟨.notKeyed, 1#8, 0#8⟩) ∧
    ∀ a, s.session.algi = some a →
      (s.len ≠ a.kind.bs → Raises i s s op ⟨.blockLength, 1#8, BitVec.ofNat 8 (min s.len 255)⟩) ∧
      (s.len = a.kind.bs →
        RangeErrors i s s op a.kind.bs ∧
        (s.InRange a.kind.bs → Succeeds i s s op (f s.build a (s.memRead s.src a.kind.bs)) a.kind.bs)) :=
  ⟨fun h => (hexec s).trans (blockCommand_of_not_keyed h), fun _ ha =>
    ⟨fun h => (hexec s).trans (blockCommand_of_len_ne ha h),
      fun h => rangeErrors_and_succeeds ((hexec s).trans (blockCommand_of_len ha h))⟩⟩

/-- A block command that does not end with an error has passed its checks. -/
theorem blockCommand_checks_of_success {t : State} (h : blockCommand op f s = .next t) (ht : t.err = false) :
    ∃ a, s.session.algi = some a ∧ s.len = a.kind.bs ∧ s.InRange a.kind.bs := by
  have not_raised (e : CmdError) : blockCommand op f s ≠ .next (s.raised op e) := by
    intro he
    obtain rfl : t = s.raised op e := Host.Outcome.next.inj (h.symm.trans he)
    simp at ht
  cases ha : s.session.algi with
  | none => exact (not_raised _ (blockCommand_of_not_keyed ha)).elim
  | some a =>
    by_cases hlen : s.len = a.kind.bs
    · cases hcheck : s.rangeCheck a.kind.bs with
      | some e =>
        exact (not_raised e ((blockCommand_of_len ha hlen).trans (State.storeChecked_of_rangeCheck hcheck op _))).elim
      | none => exact ⟨a, rfl, hlen, (s.rangeCheck_eq_none _).mp hcheck⟩
    · exact (not_raised _ (blockCommand_of_len_ne ha hlen)).elim

/-- With no command in progress (log 22), what a block command leaves at DST is the operation on the block at SRC. -/
theorem blockCommand_of_idle (hidle : s.running = none) (ha : s.session.algi = some a)
    (hf : ∀ x, (f s.build a x).length = a.kind.bs) (hlen : s.len = a.kind.bs) (hin : s.InRange a.kind.bs) :
    ∃ m k, blockCommand op f s = .next (State.completed { s with buf := m, free := k } op a.kind.bs) ∧
      m.readN s.dst a.kind.bs = f s.build a (s.buf.readN s.src a.kind.bs) := by
  have hend := (blockCommand_of_len (op := op) (f := f) ha hlen).trans (State.storeChecked_of_inRange hin op _)
  have hread := State.readN_memWrite_of_idle hidle s.dst (f s.build a (s.memRead s.src a.kind.bs))
  rw [hf, State.memRead_of_idle hidle] at hread
  rw [State.memRead_of_idle hidle] at hend
  exact ⟨_, _, hend, hread⟩

end

/-- DEC undoes ENC, whatever ALGI holds (41_feistel.md R177, 42_rc5.md R208, 43_sp_cipher.md R239). -/
theorem algDec_algEnc (b : Build) (a : Algi) {x : List Byte} (hx : x.length = a.kind.bs) :
    algDec b a (algEnc b a x) = x := by
  obtain ⟨kind, key, sched⟩ := a
  cases kind with
  | feistel => exact feDecrypt_feEncrypt b.fe sched hx
  | rc5 w => exact rc5Decrypt_rc5Encrypt b.rc5Rounds.val w sched hx
  | sp => exact spDecrypt_spEncrypt b.sp sched hx

/-! ## F_EVAL -/

/-- f of the two halves of the input (44_block_commands.md R261). -/
theorem fEvalBytes_memRead (b : Build) (s : State) (a : Nat) :
    fEvalBytes b (s.memRead a 16) =
      toBe 8 (feF b.fe (BitVec.ofNat 64 (beNat (s.memRead a 8)))
        (BitVec.ofNat 64 (beNat (s.memRead (a + 8) 8)))).toNat := by
  have hsplit : s.memRead a 16 = s.memRead a 8 ++ s.memRead (a + 8) 8 := s.inBuf.readN_add a 8 8
  have hlength : (s.memRead a 8).length = 8 := s.inBuf.readN_length a 8
  rw [fEvalBytes, hsplit, List.take_left' hlength, List.drop_left' hlength]

theorem exec_fEval_of_len_ne {s : State} (h : s.len ≠ 16) :
    exec .fEval s = .next (s.raised 0x0A#8 ⟨.blockLength, 2#8, BitVec.ofNat 8 (min s.len 255)⟩) := if_pos h

theorem exec_fEval_of_len {s : State} (h : s.len = 16) :
    exec .fEval s = s.storeChecked 0x0A#8 (fEvalBytes s.build (s.memRead s.src 16)) 8 := if_neg (not_not.mpr h)

/-! ## The obligations -/

/-- Settles O33, as the block command of ENC. -/
theorem blkEncEncryptsOneBlock : Obligations.BlkEncEncryptsOneBlock := by
  unfold Obligations.BlkEncEncryptsOneBlock
  exact ⟨Laws.decode_encode (i := .blkEnc) rfl, blockCommand_outcomes fun _ => rfl⟩

/-- Settles O34, as the block command of DEC. -/
theorem blkDecDecryptsOneBlock : Obligations.BlkDecDecryptsOneBlock := by
  unfold Obligations.BlkDecDecryptsOneBlock
  exact ⟨Laws.decode_encode (i := .blkDec) rfl, blockCommand_outcomes fun _ => rfl⟩

/-- Settles O36: the length decides, then the range check; the input is read as two adjacent halves. -/
theorem fEvalEvaluatesF : Obligations.FEvalEvaluatesF := by
  unfold Obligations.FEvalEvaluatesF
  refine ⟨Laws.decode_encode (i := .fEval) rfl, fun s => ⟨exec_fEval_of_len_ne, fun hlen => ?_⟩⟩
  have hstore := exec_fEval_of_len hlen
  rw [fEvalBytes_memRead] at hstore
  exact rangeErrors_and_succeeds hstore

/-- Settles O35: BLK_DEC reads what BLK_ENC stored at DST, under the same ALGI, and DEC undoes ENC. -/
theorem blkDecUndoesBlkEnc : Obligations.BlkDecUndoesBlkEnc := by
  unfold Obligations.BlkDecUndoesBlkEnc
  intro s t d hidle henc herr hd
  obtain ⟨a, ha, hlen, hsrc, hdst⟩ := blockCommand_checks_of_success henc herr
  obtain ⟨m, k, hend, hcipher⟩ := blockCommand_of_idle hidle ha (algEnc_length s.build a) hlen ⟨hsrc, hdst⟩
  obtain rfl := Host.Outcome.next.inj (henc.symm.trans hend)
  rw [State.len, State.opnd_of_idle hidle] at hlen
  rw [State.dst, State.opnd_of_idle hidle] at hdst hcipher
  rw [State.src, State.opnd_of_idle hidle] at hcipher
  have houtlen : BitVec.ofNat 32 a.kind.bs = s.args.len := by rw [← hlen, BitVec.ofNat_toNat, BitVec.setWidth_eq]
  rw [State.completed_outlen, houtlen, hlen] at hd
  have hrange : s.args.dst.toNat + s.args.len.toNat ≤ s.build.bufBytes := by rwa [hlen]
  obtain ⟨m', k', hdec, hplain⟩ := blockCommand_of_idle (op := 0x09#8) (f := algDec)
    (s := { State.completed { s with buf := m, free := k } 0x08#8 a.kind.bs with
      args := { s.args with src := s.args.dst, dst := d } })
    rfl ha (algDec_length s.build a) hlen ⟨hrange, hd⟩
  refine ⟨_, hdec, rfl, houtlen, rfl, ?_⟩
  rw [hlen]
  calc m'.readN d.toNat a.kind.bs
    _ = algDec s.build a (m.readN s.args.dst.toNat a.kind.bs) := hplain
    _ = s.buf.readN s.args.src.toNat a.kind.bs := by
      rw [hcipher, algDec_algEnc s.build a (Memory.readN_length _ _ _)]

end Sys2Proof.Machine
end

section
/-! The context commands and the abort (45_context.md R280 to R284, 48_streaming.md R380): CTX_INIT's checks one by one
and in order, the context it builds, and the commands that always complete. -/

namespace Sys2Proof.Machine

/-! ## NOP, CTX_CLEAR and STREAM_ABORT (45_context.md R280, R284, 48_streaming.md R380) -/

theorem exec_nop (s : State) : exec .nop s = .next (s.completed 0x00#8 0) := rfl

theorem exec_ctxClear (s : State) : exec .ctxClear s = .next ((s.setSession .none).completed 0x02#8 0) := rfl

theorem exec_streamAbort (s : State) :
    exec .streamAbort s = .next ((s.setSession s.session.closeStream).completed 0x1F#8 0) := rfl

/-- Without a context there is no stream to close. -/
theorem Session.closeStream_of_ctx_none {x : Session} (h : x.ctx = .none) : x.closeStream = x := by
  cases x with
  | none => rfl
  | keyed a => rfl
  | context a c str => cases h

theorem State.setSession_self (s : State) : s.setSession s.session = s := rfl

/-- Settles O19: none of the three reads anything that could stop it; without a context, closing the stream is no
change. -/
theorem nopClearAndAbortComplete : Obligations.NopClearAndAbortComplete := by
  unfold Obligations.NopClearAndAbortComplete
  refine ⟨⟨Laws.decode_encode (i := .nop) rfl, exec_nop⟩, ⟨Laws.decode_encode (i := .ctxClear) rfl, exec_ctxClear⟩,
    Laws.decode_encode (i := .streamAbort) rfl, fun s hctx => ?_, fun s a c str hsession => ?_⟩
  · rw [exec_streamAbort, Session.closeStream_of_ctx_none hctx, State.setSession_self]
  · rw [exec_streamAbort, hsession]
    rfl

/-! ## The tags MODE and PAD (10_state.md R28) -/

theorem modeOf_tag (mode : Mode) : modeOf mode.tag = some mode := by cases mode <;> rfl

theorem padOf_tag (pad : PadScheme) : padOf pad.tag = some pad := by cases pad <;> rfl

theorem padOf_of_gt {tag : BitVec 3} (h : 3 < tag.toNat) : padOf tag = none := by
  unfold padOf
  split
  case h_5 => rfl
  all_goals omega

/-! ## The key lengths of CTX_INIT (45_context.md R282) -/

theorem ctxKeyCheck_of_gt {k : Nat} (bs : Nat) (h : 32 < k) :
    ctxKeyCheck k bs = some ⟨.invalidKeySize, 4#8, BitVec.ofNat 8 k⟩ := if_pos h

theorem ctxKeyCheck_of_not_mem {k bs : Nat} (hk : k ≤ 32) (h : k ∉ [16, 24, 32, bs]) :
    ctxKeyCheck k bs = some ⟨.invalidKeySize, 1#8, BitVec.ofNat 8 k⟩ := by
  rw [ctxKeyCheck, if_neg (by omega), if_neg (by simpa using h)]

theorem ctxKeyCheck_of_mem {k bs : Nat} (hk : k ≤ 32) (h : k ∈ [16, 24, 32, bs]) : ctxKeyCheck k bs = none := by
  rw [ctxKeyCheck, if_neg (by omega), if_pos (by simpa using h)]

/-- Every key length CTX_INIT lists is one the KEY window holds, and none is 0: so is every block size. -/
theorem keyLength_bounds {kind : AlgKind} {k : Nat} (h : k ∈ [16, 24, 32, kind.bs]) : 0 < k ∧ k ≤ 32 := by
  have hpos := kind.bs_pos
  have hle := kind.bs_le
  simp only [List.mem_cons, List.not_mem_nil, or_false] at h
  omega

/-! ## The IV (45_context.md R281, R282) -/

theorem ctxIv_of_ivlen_ne {a : Args} {mode : Mode} {bs : Nat} (hchained : mode.chained = true)
    (h : a.ivlen.toNat ≠ bs) : ctxIv a mode bs = .error ⟨.invalidIvSize, 1#8, BitVec.ofNat 8 a.ivlen.toNat⟩ := by
  rw [ctxIv, if_pos hchained, if_neg h]

/-- IV[0..BS) in a chained mode; in another, where IVLEN is not read, nothing (log 13). -/
theorem ctxIv_of_accepted {a : Args} {mode : Mode} {bs : Nat} (h : mode.chained = true → a.ivlen.toNat = bs) :
    ctxIv a mode bs = .ok (if mode.chained then a.ivBytes bs else []) := by
  unfold ctxIv
  split
  next hchained => rw [if_pos (h hchained)]
  · rfl

/-! ## CTX_INIT's checks in their order (45_context.md R282) -/

section
variable {a : Args} (b : Build)

theorem ctxInitPlan_of_algOf_error {e : CmdError} (h : algOf a.cfg = .error e) : ctxInitPlan b a = .error e := by
  rw [ctxInitPlan, h]

variable {kind : AlgKind} (hkind : algOf a.cfg = .ok kind)
include hkind

theorem ctxInitPlan_of_modeOf_none (h : modeOf a.cfg.mode = none) :
    ctxInitPlan b a = .error ⟨.unsupportedMode, 1#8, 7#8⟩ := by
  simp only [ctxInitPlan, hkind, h]

variable {mode : Mode} (hmode : modeOf a.cfg.mode = some mode)
include hmode

theorem ctxInitPlan_of_padOf_none (h : padOf a.cfg.pad = none) :
    ctxInitPlan b a = .error ⟨.unsupportedPadding, 1#8, a.cfg.pad.setWidth 8⟩ := by
  simp only [ctxInitPlan, hkind, hmode, h]

variable {pad : PadScheme} (hpad : padOf a.cfg.pad = some pad)
include hpad

theorem ctxInitPlan_of_bs_ne (h : a.cfg.bs.toNat ≠ kind.bs) :
    ctxInitPlan b a = .error ⟨.invalidBlockSize, 1#8, a.cfg.bs⟩ := by
  simp only [ctxInitPlan, hkind, hmode, hpad, if_pos h]

variable (hbs : a.cfg.bs.toNat = kind.bs)
include hbs

theorem ctxInitPlan_of_ctxKeyCheck {e : CmdError} (h : ctxKeyCheck a.keylen.toNat kind.bs = some e) :
    ctxInitPlan b a = .error e := by
  simp only [ctxInitPlan, hkind, hmode, hpad, if_neg (not_not.mpr hbs), h]

variable (hlisted : ctxKeyCheck a.keylen.toNat kind.bs = none)
include hlisted

theorem ctxInitPlan_of_keyAlgi_error {e : CmdError} (h : keyAlgi b kind (a.keyBytes a.keylen.toNat) = .error e) :
    ctxInitPlan b a = .error e := by
  simp only [ctxInitPlan, hkind, hmode, hpad, if_neg (not_not.mpr hbs), hlisted, h]

variable {b} {alg : Algi} (halg : keyAlgi b kind (a.keyBytes a.keylen.toNat) = .ok alg)
include halg

theorem ctxInitPlan_of_ctxIv_error {e : CmdError} (h : ctxIv a mode kind.bs = .error e) :
    ctxInitPlan b a = .error e := by
  simp only [ctxInitPlan, hkind, hmode, hpad, if_neg (not_not.mpr hbs), hlisted, halg, h]

theorem ctxInitPlan_of_ctxIv_ok {iv : List Byte} (h : ctxIv a mode kind.bs = .ok iv) :
    ctxInitPlan b a = .ok (alg, ⟨mode, pad, iv⟩) := by
  simp only [ctxInitPlan, hkind, hmode, hpad, if_neg (not_not.mpr hbs), hlisted, halg, h]

end

/-! ## CTX_INIT (45_context.md R282, R283) -/

theorem raises_ctxInit {s : State} {e : CmdError} (h : ctxInitPlan s.build s.opnd = .error e) :
    Raises .ctxInit s { s with session := .none } 0x01#8 e := by
  change execCtxInit s = _
  rw [execCtxInit, h]
  rfl

theorem exec_ctxInit_of_plan {s : State} {a : Algi} {c : Ctx} (h : ctxInitPlan s.build s.opnd = .ok (a, c)) :
    exec .ctxInit s = .next ({ s with session := .context a c .idle }.completed 0x01#8 0) := by
  change execCtxInit s = _
  rw [execCtxInit, h]
  rfl

/-- Settles O32: the plan's first error decides, in the order algorithm, word size, mode, padding, block size, key
length (above 32, not listed, the algorithm's own), IV length. -/
theorem ctxInitBuildsTheContext : Obligations.CtxInitBuildsTheContext := by
  unfold Obligations.CtxInitBuildsTheContext
  refine ⟨Laws.decode_encode (i := .ctxInit) rfl, fun s => ?_⟩
  intro a k fails
  refine ⟨fun halg => ?_, fun halg hw => ?_, fun kind hsel => ?_⟩
  · exact raises_ctxInit (ctxInitPlan_of_algOf_error _ (algOf_of_alg_gt halg))
  · exact raises_ctxInit (ctxInitPlan_of_algOf_error _ (algOf_of_rc5w_three halg hw))
  have hkind : algOf a.cfg = .ok kind := algOf_of_selects hsel
  refine ⟨fun h7 => ?_, fun mode htag => ?_⟩
  · exact raises_ctxInit (ctxInitPlan_of_modeOf_none _ hkind (by rw [h7]; rfl))
  have hmode : modeOf a.cfg.mode = some mode := by rw [htag, modeOf_tag]
  refine ⟨fun hgt => ?_, fun pad hptag => ?_⟩
  · exact raises_ctxInit (ctxInitPlan_of_padOf_none _ hkind hmode (padOf_of_gt hgt))
  have hpad : padOf a.cfg.pad = some pad := by rw [hptag, padOf_tag]
  refine ⟨fun hne => ?_, fun hbs => ?_⟩
  · exact raises_ctxInit (ctxInitPlan_of_bs_ne _ hkind hmode hpad hne)
  refine ⟨fun hk => ?_, fun hk hmem => ?_, fun hmem hfeistel h16 => ?_, fun hmem h16 => ?_⟩
  · exact raises_ctxInit (ctxInitPlan_of_ctxKeyCheck _ hkind hmode hpad hbs (ctxKeyCheck_of_gt _ hk))
  · exact raises_ctxInit (ctxInitPlan_of_ctxKeyCheck _ hkind hmode hpad hbs (ctxKeyCheck_of_not_mem hk hmem))
  all_goals
    obtain ⟨hpos, hk⟩ := keyLength_bounds hmem
    have hlisted : ctxKeyCheck k kind.bs = none := ctxKeyCheck_of_mem hk hmem
    have hlength : (a.keyBytes k).length = k := a.keyBytes_length_of_le hk
  · have hkey : keyAlgi s.build kind (a.keyBytes k) = .error ⟨.invalidKeySize, 2#8, BitVec.ofNat 8 k⟩ := by
      rw [hfeistel, keyAlgi_feistel_of_length_ne _ (by rwa [hlength]), hlength]
    exact raises_ctxInit (ctxInitPlan_of_keyAlgi_error _ hkind hmode hpad hbs hlisted hkey)
  · have hkey : keyAlgi s.build kind (a.keyBytes k) =
        .ok ⟨kind, a.keyBytes k, scheduleOf s.build kind (a.keyBytes k)⟩ :=
      keyAlgi_of_accepted _ (by omega) (by rwa [hlength])
    refine ⟨fun hchained hiv => ?_, fun hiv => ?_⟩
    · exact raises_ctxInit
        (ctxInitPlan_of_ctxIv_error hkind hmode hpad hbs hlisted hkey (ctxIv_of_ivlen_ne hchained hiv))
    · exact exec_ctxInit_of_plan
        (ctxInitPlan_of_ctxIv_ok hkind hmode hpad hbs hlisted hkey (ctxIv_of_accepted hiv))

end Sys2Proof.Machine
end

section
/-! Padding (46_padding.md R300 to R307): what unpad does with each ending of a buffer, that it undoes pad, and the
commands PAD and UNPAD. -/

namespace Sys2Proof.Machine

/-! ## ZEROS: the trailing zero bytes (46_padding.md R302) -/

theorem stripZeros_eq_rdropWhile (x : List Byte) : stripZeros x = x.rdropWhile (· == 0#8) := rfl

/-- Where the last byte is not zero there is nothing to strip. -/
theorem stripZeros_of_getLast?_ne {y : List Byte} (h : y.getLast? ≠ some 0#8) : stripZeros y = y :=
  List.rdropWhile_eq_self_iff.mpr fun hne hzero =>
    h ((List.getLast?_eq_some_getLast hne).trans (congrArg some (eq_of_beq hzero)))

theorem stripZeros_append_zeros (y : List Byte) (k : Nat) : stripZeros (y ++ List.replicate k 0#8) = stripZeros y := by
  induction k with
  | zero => rw [List.replicate_zero, List.append_nil]
  | succ k ih =>
    rw [List.replicate_succ', ← List.append_assoc, stripZeros_eq_rdropWhile, List.rdropWhile_concat_pos _ _ _ rfl,
      ← stripZeros_eq_rdropWhile, ih]

theorem stripZeros_getLast?_ne (x : List Byte) : (stripZeros x).getLast? ≠ some 0#8 := by
  intro hzero
  obtain ⟨hne, hlast⟩ := List.mem_getLast?_eq_getLast hzero
  exact List.rdropWhile_last_not _ _ hne (beq_iff_eq.mpr hlast.symm)

/-- What is stripped is a run of zero bytes. -/
theorem exists_eq_stripZeros_append (x : List Byte) : ∃ k, x = stripZeros x ++ List.replicate k 0#8 := by
  have hzeros : x.rtakeWhile (· == 0#8) = List.replicate (x.rtakeWhile (· == 0#8)).length 0#8 :=
    List.eq_replicate_iff.mpr ⟨rfl, fun _ hb => beq_iff_eq.mp (List.mem_rtakeWhile_imp (p := (· == 0#8)) hb)⟩
  refine ⟨(x.rtakeWhile (· == 0#8)).length, ?_⟩
  rw [← hzeros, stripZeros_eq_rdropWhile, List.rdropWhile_append_rtakeWhile]

/-! ## The pad length byte of the other schemes (46_padding.md R302) -/

section
variable {d : List Byte} {n : Byte}

theorem lastByteChecked_of_zero (h : d.getLast? = some 0#8) :
    lastByteChecked d = .error ⟨.paddingError, 2#8, 0#8⟩ := by
  rw [lastByteChecked, h]
  rfl

theorem lastByteChecked_of_length_lt (h : d.getLast? = some n) (hlt : d.length < n.toNat) :
    lastByteChecked d = .error ⟨.paddingError, 3#8, n⟩ := by
  have hn : n ≠ 0#8 := by
    rintro rfl
    exact Nat.not_lt_zero _ hlt
  simp only [lastByteChecked, h, if_neg hn, if_pos hlt]

theorem lastByteChecked_of_le_length (h : d.getLast? = some n) (hn : n ≠ 0#8) (hle : n.toNat ≤ d.length) :
    lastByteChecked d = .ok n.toNat := by
  simp only [lastByteChecked, h, if_neg hn, if_neg (not_lt.mpr hle)]

variable {scheme : PadScheme}

/-- Every scheme but ZEROS fails where the check of the last byte does. -/
theorem unpad_of_lastByteChecked_error {e : CmdError} (hs : scheme ≠ .zeros) (h : lastByteChecked d = .error e) :
    unpad scheme d = .error e := by
  cases scheme with
  | zeros => exact absurd rfl hs
  | ansiX923 | pkcs7 | iso10126 => simp only [unpad, h]

/-- Every scheme but ZEROS takes off as many bytes as an accepted last byte says; PKCS7 asks that they all be that
byte. -/
theorem unpad_of_accepted (hs : scheme ≠ .zeros) (h : lastByteChecked d = .ok n.toNat)
    (hall : scheme = .pkcs7 → ∀ b ∈ d.drop (d.length - n.toNat), b = n) :
    unpad scheme d = .ok (d.take (d.length - n.toNat)) := by
  cases scheme with
  | zeros => exact absurd rfl hs
  | ansiX923 | iso10126 => simp only [unpad, h]
  | pkcs7 =>
    have hpad : (d.drop (d.length - n.toNat)).all (· == n) = true := by simpa using hall rfl
    simp only [unpad, h, BitVec.ofNat_toNat, BitVec.setWidth_eq, if_pos hpad]

/-- PKCS7 compares every pad byte. -/
theorem unpad_pkcs7_of_ne (h : lastByteChecked d = .ok n.toNat) (hne : ∃ b ∈ d.drop (d.length - n.toNat), b ≠ n) :
    unpad .pkcs7 d = .error ⟨.paddingError, 4#8, n⟩ := by
  have hpad : ¬ (d.drop (d.length - n.toNat)).all (· == n) = true := by simpa using hne
  simp only [unpad, h, BitVec.ofNat_toNat, BitVec.setWidth_eq, if_neg hpad]

end

/-! ## unpad after pad (46_padding.md R303) -/

/-- Every scheme but ZEROS writes the padding's length into its last byte. -/
theorem padTail_getLast? {scheme : PadScheme} {n : Nat} (fill : List Byte) (hs : scheme ≠ .zeros) (hn : 0 < n) :
    (padTail scheme n fill).getLast? = some (BitVec.ofNat 8 n) := by
  cases scheme with
  | zeros => exact absurd rfl hs
  | ansiX923 | iso10126 => exact List.getLast?_concat
  | pkcs7 => rw [padTail, List.getLast?_replicate, if_neg hn.ne']

theorem unpad_append_padTail {scheme : PadScheme} {n : Nat} {fill : List Byte} (data : List Byte)
    (hs : scheme ≠ .zeros) (hpos : 0 < n) (hle : n ≤ 255) (hlength : (padTail scheme n fill).length = n) :
    unpad scheme (data ++ padTail scheme n fill) = .ok data := by
  have hbyte : (BitVec.ofNat 8 n).toNat = n := by rw [BitVec.toNat_ofNat]; omega
  have hne : BitVec.ofNat 8 n ≠ 0#8 := fun hzero => by
    rw [hzero] at hbyte
    exact hpos.ne hbyte
  have hd : (data ++ padTail scheme n fill).length = data.length + n := by rw [List.length_append, hlength]
  have hlast : (data ++ padTail scheme n fill).getLast? = some (BitVec.ofNat 8 n) := by
    rw [List.getLast?_append, padTail_getLast? fill hs hpos]
    rfl
  have hcut : (data ++ padTail scheme n fill).length - (BitVec.ofNat 8 n).toNat = data.length := by omega
  have hunpad := unpad_of_accepted hs (lastByteChecked_of_le_length hlast hne (by omega)) fun hpkcs7 => by
    rw [hcut, List.drop_left, hpkcs7]
    exact fun _ => List.eq_of_mem_replicate
  rwa [hcut, List.take_left] at hunpad

/-! ## PAD (46_padding.md R306) -/

theorem State.memRead_length (s : State) (a n : Nat) : (s.memRead a n).length = n := s.inBuf.readN_length a n

/-- The four values of PSEL that name a scheme (46_padding.md R306). -/
theorem exists_padOf_of_le {psel : BitVec 3} (h : psel.toNat ≤ 3) : ∃ scheme, padOf psel = some scheme := by
  unfold padOf
  interval_cases psel.toNat
  all_goals exact ⟨_, rfl⟩

section
variable {psel : BitVec 3} {pbs : Byte} {s s' : State} {scheme : PadScheme}

theorem raises_pad_of_padOf_none (hpbs : pbs ≠ 0#8) (hpsel : padOf psel = none) :
    Raises (.pad psel pbs) s s 0x30#8 (pselError psel) := by
  change execPad psel pbs s = _
  rw [execPad, if_neg hpbs, hpsel]
  rfl

theorem raises_pad_of_rangeCheck {e : CmdError} (hpbs : pbs ≠ 0#8) (hpsel : padOf psel = some scheme)
    (h : s.rangeCheck (s.len + padLen s.len pbs.toNat) = some e) : Raises (.pad psel pbs) s s 0x30#8 e := by
  change execPad psel pbs s = _
  simp only [execPad, if_neg hpbs, hpsel, h]
  rfl

/-- A draw that fails comes before the store. -/
theorem raises_pad_of_drawFill (hpbs : pbs ≠ 0#8) (hpsel : padOf psel = some scheme)
    (hin : s.InRange (s.len + padLen s.len pbs.toNat))
    (hfill : s.drawFill scheme (padLen s.len pbs.toNat) = (none, s')) :
    Raises (.pad psel pbs) s s' 0x30#8 fillFailure := by
  have hpad : s.pad (s.memRead s.src s.len) pbs.toNat scheme = (none, s') := by
    simp only [State.pad, State.memRead_length, hfill]
  change execPad psel pbs s = _
  simp only [execPad, if_neg hpbs, hpsel, (s.rangeCheck_eq_none _).mpr hin, hpad]
  rfl

/-- With its fill drawn, PAD stores the data and the scheme's padding. -/
theorem succeeds_pad_of_drawFill {fill : List Byte} (hpbs : pbs ≠ 0#8) (hpsel : padOf psel = some scheme)
    (hin : s.InRange (s.len + padLen s.len pbs.toNat))
    (hfill : s.drawFill scheme (padLen s.len pbs.toNat) = (some fill, s')) :
    Succeeds (.pad psel pbs) s s' 0x30#8 (s.memRead s.src s.len ++ padTail scheme (padLen s.len pbs.toNat) fill)
      (s.len + padLen s.len pbs.toNat) := by
  have hpad : s.pad (s.memRead s.src s.len) pbs.toNat scheme =
      (some (s.memRead s.src s.len ++ padTail scheme (padLen s.len pbs.toNat) fill), s') := by
    simp only [State.pad, State.memRead_length, hfill]
  have hexec : execPad psel pbs s = .next (State.completed
      (s'.memWrite s.dst (s.memRead s.src s.len ++ padTail scheme (padLen s.len pbs.toNat) fill)) 0x30#8
      (s.len + padLen s.len pbs.toNat)) := by
    simp only [execPad, if_neg hpbs, hpsel, (s.rangeCheck_eq_none _).mpr hin, hpad]
    rfl
  obtain ⟨ent, free, hframe⟩ := s.drawFill_frame scheme (padLen s.len pbs.toNat)
  obtain rfl : s' = { s with ent := ent, free := free } := by rw [← hframe, hfill]
  exact ⟨_, _, hexec, State.memWrite_stores { s with ent := ent, free := free } s.dst _⟩

end

/-! ## UNPAD (46_padding.md R307) -/

section
variable {psel : BitVec 3} {s : State} {scheme : PadScheme}

theorem raises_unpad_of_padOf_none (hpsel : padOf psel = none) :
    Raises (.unpad psel) s s 0x31#8 (pselError psel) := by
  change execUnpad psel s = _
  rw [execUnpad, hpsel]
  rfl

theorem raises_unpad_of_rangeCheck {e : CmdError} (hpsel : padOf psel = some scheme)
    (h : s.rangeCheck s.len = some e) : Raises (.unpad psel) s s 0x31#8 e := by
  change execUnpad psel s = _
  simp only [execUnpad, hpsel, h]
  rfl

theorem raises_unpad_of_error {e : CmdError} (hpsel : padOf psel = some scheme) (hin : s.InRange s.len)
    (h : unpad scheme (s.memRead s.src s.len) = .error e) : Raises (.unpad psel) s s 0x31#8 e := by
  change execUnpad psel s = _
  simp only [execUnpad, hpsel, (s.rangeCheck_eq_none _).mpr hin, h]
  rfl

theorem succeeds_unpad_of_ok {y : List Byte} (hpsel : padOf psel = some scheme) (hin : s.InRange s.len)
    (h : unpad scheme (s.memRead s.src s.len) = .ok y) : Succeeds (.unpad psel) s s 0x31#8 y y.length := by
  apply Succeeds.of_memWrite
  change execUnpad psel s = _
  simp only [execUnpad, hpsel, (s.rangeCheck_eq_none _).mpr hin, h]
  rfl

end

/-! ## The obligations -/

/-- Settles O37: ZEROS strips a run of zero bytes; the check of the last byte decides for the others. -/
theorem unpadRemovesWhatItTrusts : Obligations.UnpadRemovesWhatItTrusts := by
  unfold Obligations.UnpadRemovesWhatItTrusts
  constructor
  · intro x
    obtain ⟨k, hk⟩ := exists_eq_stripZeros_append x
    exact ⟨stripZeros x, k, rfl, hk, stripZeros_getLast?_ne x⟩
  intro scheme hs
  refine ⟨unpad_of_lastByteChecked_error hs rfl, fun x n => ?_⟩
  intro d
  have hlast : d.getLast? = some n := List.getLast?_concat
  refine ⟨fun hzero => ?_, fun hlt => ?_, fun hne hle => ?_⟩
  · exact unpad_of_lastByteChecked_error hs (lastByteChecked_of_zero (hzero ▸ hlast))
  · exact unpad_of_lastByteChecked_error hs (lastByteChecked_of_length_lt hlast hlt)
  · have hchecked := lastByteChecked_of_le_length hlast hne hle
    refine ⟨fun htrust => unpad_of_accepted hs hchecked fun hpkcs7 => htrust.resolve_left (absurd hpkcs7), ?_⟩
    rintro rfl hdiff
    exact unpad_pkcs7_of_ne hchecked hdiff

/-- Settles O38: the last byte of the padding is its length, at most 255; ZEROS strips the data's own trailing zeros
with the padding's. -/
theorem unpadUndoesPad : Obligations.UnpadUndoesPad := by
  unfold Obligations.UnpadUndoesPad
  intro s s' data x bs scheme hpos hle hpad
  obtain ⟨fill, -, rfl, hlength⟩ := State.pad_spec hpos hpad
  have hn := padLen_le data.length bs
  refine ⟨fun hs => ?_, ?_⟩
  · rw [List.length_append] at hlength
    exact unpad_append_padTail data hs (padLen_pos _ hpos) (by omega) (by omega)
  rintro rfl
  have hstrip : unpad .zeros (data ++ padTail .zeros (padLen data.length bs) fill) = .ok (stripZeros data) :=
    congrArg Except.ok (stripZeros_append_zeros data _)
  rw [hstrip, Except.ok.injEq]
  refine ⟨⟨fun h => h ▸ stripZeros_getLast?_ne data, stripZeros_of_getLast?_ne⟩, ?_⟩
  rintro y k rfl hy
  rw [stripZeros_append_zeros, stripZeros_of_getLast?_ne hy]

/-- Settles O39: PSEL, then the ranges, then the draw of the fill; each scheme's padding is what it stores. -/
theorem padAppendsPadding : Obligations.PadAppendsPadding := by
  unfold Obligations.PadAppendsPadding
  refine ⟨Laws.decode_encode (i := .pad 2#3 16#8) rfl, fun psel pbs s hpbs => ?_⟩
  intro i n x
  refine ⟨fun hpsel => raises_pad_of_padOf_none hpbs (padOf_of_gt hpsel), fun hpsel => ?_, fun hin => ?_⟩
  · obtain ⟨scheme, hscheme⟩ := exists_padOf_of_le hpsel
    exact .of_rangeCheck fun _ => raises_pad_of_rangeCheck hpbs hscheme
  refine ⟨?_, ?_, ?_, ?_, ?_⟩
  · rintro rfl
    exact succeeds_pad_of_drawFill (scheme := .zeros) hpbs rfl hin rfl
  · rintro rfl
    rw [List.append_assoc]
    exact succeeds_pad_of_drawFill (scheme := .ansiX923) hpbs rfl hin rfl
  · rintro rfl
    exact succeeds_pad_of_drawFill (scheme := .pkcs7) hpbs rfl hin rfl
  · rintro rfl hone
    have hfill : s.drawFill .iso10126 n = (some [], s) := if_pos hone.le
    have htail : [1#8] = padTail .iso10126 n [] := by rw [hone]; rfl
    rw [htail]
    exact succeeds_pad_of_drawFill (scheme := .iso10126) hpbs rfl hin hfill
  · rintro rfl hmany
    have hdraw : s.drawFill .iso10126 n = s.drawEnt (n - 1) := if_neg (by omega)
    refine ⟨fun fill s' hfill => ?_, fun s' hfail => ?_⟩
    · rw [List.append_assoc]
      exact succeeds_pad_of_drawFill (scheme := .iso10126) hpbs rfl hin (hdraw.trans hfill)
    · exact raises_pad_of_drawFill (scheme := .iso10126) hpbs rfl hin (hdraw.trans hfail)

/-- Settles O40: PSEL, then the ranges, then unpad decide; only what unpad returns is stored. -/
theorem unpadRemovesPadding : Obligations.UnpadRemovesPadding := by
  unfold Obligations.UnpadRemovesPadding
  refine ⟨Laws.decode_encode (i := .unpad 1#3) rfl, fun psel s => ?_⟩
  refine ⟨fun hpsel => raises_unpad_of_padOf_none (padOf_of_gt hpsel), ?_⟩
  rintro scheme rfl
  have hscheme : padOf scheme.tag = some scheme := padOf_tag scheme
  exact ⟨.of_rangeCheck fun _ => raises_unpad_of_rangeCheck hscheme, fun hin =>
    ⟨fun _ => succeeds_unpad_of_ok hscheme hin, fun _ => raises_unpad_of_error hscheme hin⟩⟩

end Sys2Proof.Machine
end

section
/-! Runs of a block step over a buffer (47_modes.md R330, R340): how a buffer splits at a block, and that a step which
undoes another undoes its runs. -/

namespace Sys2Proof.Machine

/-! ## Blocks -/

theorem blocks_add (bs m n : Nat) (x : List Byte) :
    blocks bs (m + n) x = blocks bs m x ++ blocks bs n (x.drop (m * bs)) := by
  induction m generalizing x with
  | zero => rw [Nat.zero_add, Nat.zero_mul, List.drop_zero, blocks, List.nil_append]
  | succ m ih => rw [Nat.succ_add, blocks, ih, blocks, List.drop_drop, Nat.succ_mul, Nat.add_comm bs, List.cons_append]

theorem blocks_succ (bs j : Nat) (x : List Byte) : blocks bs (j + 1) x = blocks bs j x ++ [blockAt bs x j] :=
  blocks_add bs j 1 x

/-- Bytes after the blocks do not change them. -/
theorem blocks_append_right {bs m : Nat} {x : List Byte} (y : List Byte) (h : m * bs ≤ x.length) :
    blocks bs m (x ++ y) = blocks bs m x := by
  induction m generalizing x with
  | zero => rfl
  | succ m ih =>
    rw [Nat.succ_mul] at h
    have hle : bs ≤ x.length := by omega
    rw [blocks, blocks, List.take_append_of_le_length hle, List.drop_append_of_le_length hle,
      ih (by rw [List.length_drop]; omega)]

theorem blockAt_length {bs j : Nat} {x : List Byte} (h : (j + 1) * bs ≤ x.length) : (blockAt bs x j).length = bs := by
  rw [Nat.succ_mul] at h
  rw [blockAt, List.length_take, List.length_drop]
  omega

/-- A block that stands after `j` blocks. -/
theorem blockAt_append {bs j : Nat} {x y : List Byte} (z : List Byte) (hx : x.length = j * bs) (hy : y.length = bs) :
    blockAt bs (x ++ y ++ z) j = y := by
  rw [blockAt, List.append_assoc, List.drop_left' hx, List.take_left' hy]

/-! ## The run of a step -/

/-- A step that undoes another, in states that run together, undoes its runs. -/
theorem runSteps_cancel {f g : Chain → List Byte → List Byte × Chain} {bs : Nat} {P : Chain → Prop}
    (hf : ∀ st x, P st → x.length = bs → (f st x).1.length = bs ∧ P (f st x).2)
    (hg : ∀ st x, P st → x.length = bs → g st (f st x).1 = (x, (f st x).2)) {st : Chain} {xs : List (List Byte)}
    (hs : P st) (hx : ∀ x ∈ xs, x.length = bs) :
    runSteps g st (blocks bs xs.length (runSteps f st xs).1) = (xs.flatten, (runSteps f st xs).2) := by
  induction xs generalizing st with
  | nil => rfl
  | cons x xs ih =>
    obtain ⟨hx0, hxs⟩ := List.forall_mem_cons.mp hx
    obtain ⟨hlen, hnext⟩ := hf st x hs hx0
    rw [runSteps, List.length_cons, blocks, List.take_left' hlen, List.drop_left' hlen, runSteps, hg st x hs hx0,
      ih hnext hxs, List.flatten_cons]

end Sys2Proof.Machine
end

section
/-! The modes of operation (47_modes.md R332 to R342): the chaining state before each block, which gives each mode's
equations, and the step of decryption that undoes the step of encryption. -/

namespace Sys2Proof.Machine

/-- The chaining state of a context is ready for its mode (47_modes.md R330). -/
theorem modeEnv_ready {b : Build} {a : Algi} {c : Ctx} {d : List Byte} (hc : c.Ok a.kind.bs)
    (hd : c.mode = .randomDelta → d.length = a.kind.bs) : (modeEnv b a c d).Ready c.init := by
  refine ⟨algEnc_length b a, algDec_length b a, fun hchained => ?_, hd⟩
  rw [Ctx.Ok, if_pos (show c.mode.chained = true from hchained)] at hc
  exact hc

theorem xorb_xorb_cancel_left {x k : List Byte} (h : k.length ≤ x.length) : xorb x (xorb x k) = k := by
  have hcomm (u v : List Byte) : xorb u v = xorb v u := List.zipWith_comm_of_comm BitVec.xor_comm
  rw [hcomm x (xorb x k), hcomm x k, xorb_xorb_cancel k x h]

/-! ## The step of each mode (47_modes.md R332 to R339) -/

section
variable {e : ModeEnv} {st : Chain} {p : List Byte}

theorem encStep_ecb (h : e.mode = .ecb) : encStep e st p = (e.enc p, ⟨st.s, st.j + 1⟩) := by simp only [encStep, h]

theorem encStep_cbc (h : e.mode = .cbc) :
    encStep e st p = (e.enc (xorb p st.s), ⟨e.enc (xorb p st.s), st.j + 1⟩) := by simp only [encStep, h]

theorem encStep_pcbc (h : e.mode = .pcbc) :
    encStep e st p = (e.enc (xorb p st.s), ⟨xorb p (e.enc (xorb p st.s)), st.j + 1⟩) := by simp only [encStep, h]

theorem encStep_cfb (h : e.mode = .cfb) :
    encStep e st p = (xorb p (e.enc st.s), ⟨xorb p (e.enc st.s), st.j + 1⟩) := by simp only [encStep, h]

theorem encStep_ofb (h : e.mode = .ofb) : encStep e st p = (xorb p (e.enc st.s), ⟨e.enc st.s, st.j + 1⟩) := by
  simp only [encStep, h]

theorem encStep_ctr (h : e.mode = .ctr) :
    encStep e st p = (xorb p (e.enc (ctrBlock e.bs e.iv st.j)), ⟨st.s, st.j + 1⟩) := by simp only [encStep, h]

theorem encStep_randomDelta (h : e.mode = .randomDelta) : encStep e st p = (addb p e.delta, st) := by
  simp only [encStep, h]

end

/-! ## The chaining state before a block -/

section
variable {e : ModeEnv} {st : Chain} {x : List Byte}

/-- The chaining state before block `j` of an encryption (47_modes.md R340). -/
def chainBefore (e : ModeEnv) (st : Chain) (x : List Byte) (j : Nat) : Chain :=
  (runSteps (encStep e) st (blocks e.bs j x)).2

theorem chainBefore_succ (j : Nat) :
    chainBefore e st x (j + 1) = (encStep e (chainBefore e st x j) (blockAt e.bs x j)).2 := by
  rw [chainBefore, blocks_succ, runSteps_append]
  rfl

/-- The run over the first `j` blocks of a buffer. -/
theorem runSteps_encStep_ready {j : Nat} (h : e.Ready st) (hj : j * e.bs ≤ x.length) :
    (runSteps (encStep e) st (blocks e.bs j x)).1.length = j * e.bs ∧ e.Ready (chainBefore e st x j) := by
  have hrun := runSteps_ready (f := encStep e) (P := e.Ready) (fun _ _ => encStep_ready) h (blocks_block_length hj)
  rwa [blocks_length] at hrun

/-- Output block `j` is the step on input block `j` (47_modes.md R340). -/
theorem blockAt_encBlocks {j : Nat} (h : e.Ready st) (hj : j < x.length / e.bs) :
    blockAt e.bs (encBlocks e st x).1 j = (encStep e (chainBefore e st x j) (blockAt e.bs x j)).1 := by
  have hle : (j + 1) * e.bs ≤ x.length := (Nat.mul_le_mul_right _ hj).trans (Nat.div_mul_le_self _ _)
  obtain ⟨hlen, hready⟩ := runSteps_encStep_ready (j := j) h ((Nat.mul_le_mul_right _ j.le_succ).trans hle)
  have hm : x.length / e.bs = j + 1 + (x.length / e.bs - (j + 1)) := by omega
  have hstep : (runSteps (encStep e) (chainBefore e st x j) [blockAt e.bs x j]).1 =
      (encStep e (chainBefore e st x j) (blockAt e.bs x j)).1 := List.append_nil _
  rw [encBlocks, hm, blocks_add, blocks_succ, runSteps_append, runSteps_append, ← hstep]
  refine blockAt_append _ hlen ?_
  exact (congrArg List.length hstep).trans (encStep_ready hready (blockAt_length hle)).1

/-- CTR counts the blocks (47_modes.md R338). -/
theorem chainBefore_j (hm : e.mode ≠ .randomDelta) (j : Nat) : (chainBefore e st x j).j = st.j + j := by
  induction j with
  | zero => rfl
  | succ j ih =>
    rw [chainBefore_succ, ← Nat.add_assoc, ← ih]
    cases hmode : e.mode with
    | randomDelta => exact absurd hmode hm
    | ecb | cbc | pcbc | cfb | ofb | ctr => simp only [encStep, hmode]

/-- What the chaining value before a block is in each mode that has one (47_modes.md R333 to R336). -/
theorem chainBefore_s {y : List Byte} (h : e.Ready st) (hy : y = (encBlocks e st x).1) {j : Nat}
    (hj : j < x.length / e.bs) :
    (e.mode = .cbc ∨ e.mode = .cfb →
      (chainBefore e st x j).s = if j = 0 then st.s else blockAt e.bs y (j - 1)) ∧
    (e.mode = .pcbc ∨ e.mode = .ofb →
      (chainBefore e st x j).s = if j = 0 then st.s else xorb (blockAt e.bs x (j - 1)) (blockAt e.bs y (j - 1))) := by
  cases j with
  | zero => exact ⟨fun _ => rfl, fun _ => rfl⟩
  | succ j =>
    have hle : (j + 1) * e.bs ≤ x.length := (Nat.mul_le_mul_right _ hj.le).trans (Nat.div_mul_le_self _ _)
    have hout := blockAt_encBlocks h (show j < x.length / e.bs by omega)
    rw [← hy] at hout
    simp only [Nat.succ_ne_zero, if_false, Nat.add_sub_cancel, chainBefore_succ, hout]
    refine ⟨?_, ?_⟩
    · rintro (hm | hm)
      · rw [encStep_cbc hm]
      · rw [encStep_cfb hm]
    · rintro (hm | hm)
      · rw [encStep_pcbc hm]
      · obtain ⟨henc, -⟩ := h
        rw [encStep_ofb hm, xorb_xorb_cancel_left (by rw [henc, blockAt_length hle])]

end

/-- Settles O41: output block j is the mode's step on input block j from the chaining state before it. -/
theorem encryptedBlocksChain : Obligations.EncryptedBlocksChain := by
  unfold Obligations.EncryptedBlocksChain
  intro b a c d x
  dsimp only
  intro hx hc hd
  have hready := modeEnv_ready (b := b) hc hd
  refine ⟨(encBlocks_length hready hx).1, fun j hj => ?_⟩
  obtain ⟨hprev, hxor⟩ := chainBefore_s hready rfl hj
  refine (blockAt_encBlocks hready hj).trans ?_
  cases hm : c.mode with
  | ecb => rw [encStep_ecb hm]; rfl
  | cbc => rw [encStep_cbc hm, hprev (.inl hm)]; rfl
  | pcbc => rw [encStep_pcbc hm, hxor (.inl hm)]; rfl
  | cfb => rw [encStep_cfb hm, hprev (.inr hm)]; rfl
  | ofb => rw [encStep_ofb hm, hxor (.inr hm)]; rfl
  | ctr =>
    have hcount : (chainBefore (modeEnv b a c d) c.init x j).j = 0 + j :=
      chainBefore_j (fun h => Mode.noConfusion (hm.symm.trans h)) j
    rw [encStep_ctr hm, hcount, Nat.zero_add]
    rfl
  | randomDelta => rw [encStep_randomDelta hm]; rfl

/-! ## Decryption -/

/-- CFB, OFB and CTR decrypt without DEC (47_modes.md R342). -/
theorem decStep_setDec {e : ModeEnv} (hm : e.mode = .cfb ∨ e.mode = .ofb ∨ e.mode = .ctr)
    (f : List Byte → List Byte) : decStep { e with dec := f } = decStep e := by
  funext st c
  obtain hm | hm | hm := hm
  all_goals simp only [decStep, hm]

/-- OFB and CTR decrypt as they encrypt (47_modes.md R342). -/
theorem decStep_eq_encStep {e : ModeEnv} (hm : e.mode = .ofb ∨ e.mode = .ctr) : decStep e = encStep e := by
  funext st c
  obtain hm | hm := hm
  all_goals simp only [decStep, encStep, hm]

/-- A step of decryption undoes the step of encryption from the same chaining state and goes on from the same one. -/
theorem decStep_encStep {e : ModeEnv} {st : Chain} {p : List Byte} (h : e.Ready st)
    (hdec : ∀ x, x.length = e.bs → e.dec (e.enc x) = x) (hp : p.length = e.bs) :
    decStep e st (encStep e st p).1 = (p, (encStep e st p).2) := by
  obtain ⟨henc, -, hs, hdelta⟩ := h
  have hpad (k : List Byte) : xorb (xorb p (e.enc k)) (e.enc k) = p := xorb_xorb_cancel _ _ (by rw [henc, hp])
  have hchain (hs : st.s.length = e.bs) :
      e.dec (e.enc (xorb p st.s)) = xorb p st.s ∧ xorb (xorb p st.s) st.s = p :=
    ⟨hdec _ (by rw [xorb_length, hp, hs, min_self]), xorb_xorb_cancel _ _ (by rw [hp, hs])⟩
  cases hm : e.mode with
  | ecb => simp only [encStep, decStep, hm, hdec p hp]
  | cbc | pcbc =>
    obtain ⟨hblock, hxor⟩ := hchain (hs (by rw [hm]; rfl))
    simp only [encStep, decStep, hm, hblock, hxor]
  | cfb | ofb | ctr => simp only [encStep, decStep, hm, hpad]
  | randomDelta => simp only [encStep, decStep, hm, subb_addb_cancel p e.delta (by rw [hp, hdelta hm])]

/-- Decryption of whole blocks undoes their encryption (47_modes.md R342). -/
theorem decBlocks_encBlocks {e : ModeEnv} {st : Chain} {x : List Byte} (h : e.Ready st)
    (hdec : ∀ x, x.length = e.bs → e.dec (e.enc x) = x) (hx : e.bs ∣ x.length) :
    (decBlocks e st (encBlocks e st x).1).1 = x := by
  have hm : x.length / e.bs * e.bs = x.length := Nat.div_mul_cancel hx
  have hcancel := runSteps_cancel (f := encStep e) (g := decStep e) (fun _ _ => encStep_ready)
    (fun _ _ hs hp => decStep_encStep hs hdec hp) h (blocks_block_length hm.le)
  rw [decBlocks, (encBlocks_length h hx).1]
  rw [blocks_length, blocks_flatten, hm, List.take_length] at hcancel
  exact congrArg Prod.fst hcancel

/-- Settles O42, step by step. -/
theorem modesUndoThemselves : Obligations.ModesUndoThemselves := by
  unfold Obligations.ModesUndoThemselves
  intro b a c d x e hx hc hd
  refine ⟨fun hm f => ?_, fun hm => ?_, ?_⟩
  · rw [decBlocks, decBlocks, decStep_setDec hm f]
  · rw [decBlocks, encBlocks, decStep_eq_encStep hm]
  · exact decBlocks_encBlocks (modeEnv_ready hc hd) (fun _ => algDec_algEnc b a) hx

end Sys2Proof.Machine
end

section
/-! ENCRYPT and DECRYPT (47_modes.md R344 to R348): the outcome of each check and of each draw, and that decrypt_buf
undoes encrypt_buf. -/

namespace Sys2Proof.Machine

/-! ## How a command ends -/

section
variable {i : Instr} {s x : State} {op : Byte}

/-- A command that raises does not succeed. -/
theorem Raises.not_success {t : State} {e : CmdError} (h : Raises i s x op e) (hexec : exec i s = .next t)
    (ht : t.err = false) : False := by
  obtain rfl := Host.Outcome.next.inj (hexec.symm.trans h)
  cases ht

/-- A command that draws from the entropy source and then stores. -/
theorem Succeeds.of_drawn {s' : State} {bytes : List Byte} {n : Nat}
    (hdrawn : ∃ e k, s' = { s with ent := e, free := k })
    (h : exec i s = .next ((s'.memWrite s.dst bytes).completed op n)) : Succeeds i s s' op bytes n := by
  obtain ⟨ent, free, rfl⟩ := hdrawn
  exact ⟨_, _, h, State.memWrite_stores { s with ent := ent, free := free } s.dst bytes⟩

/-- With no command in progress, the beginning of what a command stores can be read back. -/
theorem State.readN_memWrite_prefix_of_idle (h : s.running = none) (a : Nat) {p y : List Byte} (hp : p <+: y) :
    (s.memWrite a y).buf.readN a p.length = p := by
  obtain ⟨r, rfl⟩ := hp
  have hread := State.readN_memWrite_of_idle h a (p ++ r)
  rw [List.length_append, Memory.readN_add] at hread
  exact List.append_inj_left hread (Memory.readN_length _ _ _)

theorem State.len_of_idle (h : s.running = none) : s.len = s.args.len.toNat := by rw [State.len, State.opnd_of_idle h]

theorem State.src_of_idle (h : s.running = none) : s.src = s.args.src.toNat := by rw [State.src, State.opnd_of_idle h]

theorem State.dst_of_idle (h : s.running = none) : s.dst = s.args.dst.toNat := by rw [State.dst, State.opnd_of_idle h]

/-- What writes the padded plaintext writes it whole, whether or not the padding is accepted. -/
theorem State.writeUnpadded_of_ok {scheme : PadScheme} {y p : List Byte} (h : unpad scheme y = .ok p) :
    s.writeUnpadded op scheme y = .next ((s.memWrite s.dst y).completed op p.length) := by
  simp only [State.writeUnpadded, h]
  rfl

theorem State.writeUnpadded_of_error {scheme : PadScheme} {y : List Byte} {e : CmdError}
    (h : unpad scheme y = .error e) :
    s.writeUnpadded op scheme y = .next ((s.memWrite s.dst y).raised op e) := by
  simp only [State.writeUnpadded, h]
  rfl

end

/-- A length that lies in BUF fits LEN and OUTLEN. -/
theorem toNat_ofNat_of_le_bufBytes {b : Build} {n : Nat} (h : n ≤ b.bufBytes) : (BitVec.ofNat 32 n).toNat = n := by
  obtain ⟨-, hbuf⟩ := b.bufBytes_form
  rw [BitVec.toNat_ofNat, Nat.mod_eq_of_lt (by omega)]

/-! ## The length of a RANDOM_DELTA ciphertext (47_modes.md R344, R347) -/

section
variable {mode : Mode} {bs len : Nat}

theorem deltaLen_eq_ite (mode : Mode) (bs : Nat) : deltaLen mode bs = if mode = .randomDelta then bs else 0 := by
  cases mode with
  | randomDelta => rfl
  | ecb | cbc | pcbc | cfb | ofb | ctr => rfl

theorem deltaLen_le (mode : Mode) (bs : Nat) : deltaLen mode bs ≤ bs := by
  rw [deltaLen_eq_ite]
  split
  · exact le_rfl
  · exact Nat.zero_le bs

theorem decryptLenCheck_of_short (h : len < deltaLen mode bs) :
    decryptLenCheck mode bs len = some ⟨.shortBuffer, 1#8, BitVec.ofNat 8 (min len 255)⟩ := by
  cases mode with
  | randomDelta => exact if_pos h
  | ecb | cbc | pcbc | cfb | ofb | ctr => exact absurd h (Nat.not_lt_zero len)

theorem decryptLenCheck_of_misaligned (hle : deltaLen mode bs ≤ len) (h : (len - deltaLen mode bs) % bs ≠ 0) :
    decryptLenCheck mode bs len = some ⟨.notAligned, if mode = .randomDelta then 2#8 else 1#8,
      BitVec.ofNat 8 ((len - deltaLen mode bs) % bs)⟩ := by
  cases mode with
  | randomDelta => exact (if_neg (not_lt.mpr hle)).trans (if_pos h)
  | ecb | cbc | pcbc | cfb | ofb | ctr => exact if_pos h

theorem decryptLenCheck_of_aligned (hle : deltaLen mode bs ≤ len) (h : (len - deltaLen mode bs) % bs = 0) :
    decryptLenCheck mode bs len = none := by
  cases mode with
  | randomDelta => exact (if_neg (not_lt.mpr hle)).trans (if_neg (not_not.mpr h))
  | ecb | cbc | pcbc | cfb | ofb | ctr => exact if_neg (not_not.mpr h)

end

/-! ## encrypt_buf (47_modes.md R344) -/

section
variable {b : Build} {a : Algi} {c : Ctx} {p : List Byte} {s s1 s2 : State}

theorem encryptBuf_of_drawFill_none (h : s.drawFill c.pad (padLen p.length a.kind.bs) = (none, s1)) :
    encryptBuf b a c p s = (.error fillFailure, s1) := by simp only [encryptBuf, State.pad, h]

theorem encryptBuf_of_drawDelta_none {fill : List Byte}
    (hfill : s.drawFill c.pad (padLen p.length a.kind.bs) = (some fill, s1))
    (h : s1.drawDelta c.mode a.kind.bs = (none, s2)) : encryptBuf b a c p s = (.error deltaFailure, s2) := by
  simp only [encryptBuf, State.pad, hfill, h]

theorem encryptBuf_of_draws {fill d : List Byte}
    (hfill : s.drawFill c.pad (padLen p.length a.kind.bs) = (some fill, s1))
    (hdelta : s1.drawDelta c.mode a.kind.bs = (some d, s2)) :
    encryptBuf b a c p s = (.ok (d ++ (encBlocks (modeEnv b a c d) c.init
      (p ++ padTail c.pad (padLen p.length a.kind.bs) fill)).1), s2) := by
  simp only [encryptBuf, State.pad, hfill, hdelta]

/-- encrypt_buf makes two draws and changes nothing else. -/
theorem encryptBuf_frame (b : Build) (a : Algi) (c : Ctx) (p : List Byte) (s : State) :
    ∃ e k, (encryptBuf b a c p s).2 = { s with ent := e, free := k } := by
  obtain ⟨ent, free, hpad⟩ := s.pad_frame p a.kind.bs c.pad
  unfold encryptBuf
  split
  · next h =>
    rw [h] at hpad
    exact ⟨_, _, hpad⟩
  · next s' h =>
    rw [h] at hpad
    subst hpad
    obtain ⟨ent', free', hdelta⟩ := State.drawDelta_frame { s with ent := ent, free := free } c.mode a.kind.bs
    split
    · next h =>
      rw [h] at hdelta
      exact ⟨_, _, hdelta⟩
    · next h =>
      rw [h] at hdelta
      exact ⟨_, _, hdelta⟩

/-- What encrypt_buf gives where both draws answer. -/
theorem encryptBuf_ok_cases {y : List Byte} (h : encryptBuf b a c p s = (.ok y, s2)) :
    ∃ x s1 d, s.pad p a.kind.bs c.pad = (some x, s1) ∧ s1.drawDelta c.mode a.kind.bs = (some d, s2) ∧
      y = d ++ (encBlocks (modeEnv b a c d) c.init x).1 := by
  unfold encryptBuf at h
  split at h
  · cases h
  · next x s1 hpad =>
    split at h
    · cases h
    · next d s2 hdelta =>
      cases h
      exact ⟨x, s1, d, hpad, hdelta, rfl⟩

/-- decrypt_buf gives back the padded plaintext, and encrypt_buf gives as many bytes as MAXOUT says (47_modes.md R344,
R345). -/
theorem decryptBuf_encryptBuf {y : List Byte} (hc : c.Ok a.kind.bs) (h : encryptBuf b a c p s = (.ok y, s2)) :
    ∃ x s1, s.pad p a.kind.bs c.pad = (some x, s1) ∧ decryptBuf b a c y = x ∧
      y.length = encryptMaxOut a c p.length := by
  obtain ⟨x, s1, d, hpad, hdelta, rfl⟩ := encryptBuf_ok_cases h
  obtain ⟨-, -, -, hx⟩ := State.pad_spec a.kind.bs_pos hpad
  have hdvd : a.kind.bs ∣ x.length := hx ▸ padLen_dvd p.length a.kind.bs_pos
  have hd := State.drawDelta_length hdelta
  have hready := modeEnv_ready (b := b) (d := d) hc fun hm => by rw [hd, hm]; rfl
  refine ⟨x, s1, hpad, ?_, ?_⟩
  · rw [decryptBuf, List.take_left' hd, List.drop_left' hd]
    exact decBlocks_encBlocks hready (fun _ => algDec_algEnc b a) hdvd
  · rw [List.length_append, (encBlocks_length hready hdvd).1, hd, hx, encryptMaxOut, Nat.add_comm]

/-- Padding that was appended is accepted, and taken off (46_padding.md R303). -/
theorem unpad_of_pad {data x : List Byte} {bs : Nat} {scheme : PadScheme} (hpos : 0 < bs) (hle : bs ≤ 255)
    (hdata : scheme ≠ .zeros ∨ data.getLast? ≠ some 0#8) (h : s.pad data bs scheme = (some x, s1)) :
    unpad scheme x = .ok data := by
  obtain ⟨hother, hzeros⟩ := unpadUndoesPad s s1 data x bs scheme hpos hle h
  by_cases hs : scheme = .zeros
  · exact (hzeros hs).1.mpr (hdata.resolve_left (not_not.mpr hs))
  · exact hother hs

end

/-! ## ENCRYPT (47_modes.md R345) -/

section
variable {s s' t : State} {a : Algi} {c : Ctx} {str : Str}

theorem raises_encrypt_of_ctx_none (h : s.session.ctx = none) : Raises .encrypt s s 0x10#8 noContextError := by
  change execEncrypt s = _
  unfold execEncrypt
  cases hs : s.session with
  | none | keyed => rfl
  | context => rw [hs] at h; cases h

theorem raises_encrypt_of_rangeCheck {e : CmdError} (hs : s.session = .context a c str)
    (h : s.rangeCheck (encryptMaxOut a c s.len) = some e) : Raises .encrypt s s 0x10#8 e := by
  change execEncrypt s = _
  simp only [execEncrypt, hs, h]
  rfl

theorem raises_encrypt_of_encryptBuf {e : CmdError} (hs : s.session = .context a c str)
    (hin : s.InRange (encryptMaxOut a c s.len))
    (h : encryptBuf s.build a c (s.memRead s.src s.len) s = (.error e, s')) : Raises .encrypt s s' 0x10#8 e := by
  change execEncrypt s = _
  simp only [execEncrypt, hs, (s.rangeCheck_eq_none _).mpr hin, h]
  rfl

theorem exec_encrypt_of_encryptBuf {y : List Byte} (hs : s.session = .context a c str)
    (hin : s.InRange (encryptMaxOut a c s.len))
    (h : encryptBuf s.build a c (s.memRead s.src s.len) s = (.ok y, s')) :
    exec .encrypt s = .next ((s'.memWrite s.dst y).completed 0x10#8 (encryptMaxOut a c s.len)) := by
  change execEncrypt s = _
  simp only [execEncrypt, hs, (s.rangeCheck_eq_none _).mpr hin, h]
  rfl

/-- An ENCRYPT that does not end with an error has passed its checks and made its draws. -/
theorem encrypt_of_success (hs : s.session = .context a c str) (h : exec .encrypt s = .next t) (ht : t.err = false) :
    s.InRange (encryptMaxOut a c s.len) ∧
      ∃ y s', encryptBuf s.build a c (s.memRead s.src s.len) s = (.ok y, s') ∧
        t = (s'.memWrite s.dst y).completed 0x10#8 (encryptMaxOut a c s.len) := by
  cases hr : s.rangeCheck (encryptMaxOut a c s.len) with
  | some e => exact ((raises_encrypt_of_rangeCheck hs hr).not_success h ht).elim
  | none =>
    have hin := (s.rangeCheck_eq_none _).mp hr
    refine ⟨hin, ?_⟩
    rcases hbuf : encryptBuf s.build a c (s.memRead s.src s.len) s with ⟨e | y, s'⟩
    · exact ((raises_encrypt_of_encryptBuf hs hin hbuf).not_success h ht).elim
    · exact ⟨y, s', rfl, Host.Outcome.next.inj (h.symm.trans (exec_encrypt_of_encryptBuf hs hin hbuf))⟩

/-- With no command in progress (log 22), an ENCRYPT that succeeds leaves at DST what decrypt_buf takes back to the
padded plaintext. -/
theorem encrypt_of_idle (hidle : s.running = none) (hs : s.session = .context a c str) (hc : c.Ok a.kind.bs)
    (h : exec .encrypt s = .next t) (ht : t.err = false) :
    s.InRange (encryptMaxOut a c s.len) ∧
      t.running = none ∧ t.build = s.build ∧ t.session = s.session ∧ t.outlen.toNat = encryptMaxOut a c s.len ∧
      ∃ x s1, s.pad (s.buf.readN s.src s.len) a.kind.bs c.pad = (some x, s1) ∧
        decryptBuf s.build a c (t.buf.readN s.dst t.outlen.toNat) = x := by
  obtain ⟨hin, y, s', hbuf, rfl⟩ := encrypt_of_success hs h ht
  rw [State.memRead_of_idle hidle] at hbuf
  obtain ⟨x, s1, hpad, hdec, hy⟩ := decryptBuf_encryptBuf hc hbuf
  rw [Memory.readN_length] at hy
  obtain ⟨ent, free, hframe⟩ := encryptBuf_frame s.build a c (s.buf.readN s.src s.len) s
  rw [hbuf] at hframe
  obtain rfl : s' = { s with ent := ent, free := free } := hframe
  have hout := toNat_ofNat_of_le_bufBytes ((Nat.le_add_left _ _).trans hin.2)
  refine ⟨hin, rfl, rfl, rfl, hout, x, s1, hpad, ?_⟩
  have hread := State.readN_memWrite_of_idle (s := { s with ent := ent, free := free }) hidle s.dst y
  rw [State.completed_outlen, hout, ← hy]
  exact (congrArg _ hread).trans hdec

end

/-! ## DECRYPT (47_modes.md R347) -/

section
variable {s : State} {a : Algi} {c : Ctx} {str : Str}

theorem raises_decrypt_of_ctx_none (h : s.session.ctx = none) : Raises .decrypt s s 0x11#8 noContextError := by
  change execDecrypt s = _
  unfold execDecrypt
  cases hs : s.session with
  | none | keyed => rfl
  | context => rw [hs] at h; cases h

theorem raises_decrypt_of_lenCheck {e : CmdError} (hs : s.session = .context a c str)
    (h : decryptLenCheck c.mode a.kind.bs s.len = some e) : Raises .decrypt s s 0x11#8 e := by
  change execDecrypt s = _
  simp only [execDecrypt, hs, h]
  rfl

theorem raises_decrypt_of_rangeCheck {e : CmdError} (hs : s.session = .context a c str)
    (hlen : decryptLenCheck c.mode a.kind.bs s.len = none)
    (h : s.rangeCheck (s.len - deltaLen c.mode a.kind.bs) = some e) : Raises .decrypt s s 0x11#8 e := by
  change execDecrypt s = _
  simp only [execDecrypt, hs, hlen, decryptMaxOut, h]
  rfl

theorem exec_decrypt_of_inRange (hs : s.session = .context a c str)
    (hlen : decryptLenCheck c.mode a.kind.bs s.len = none) (hin : s.InRange (s.len - deltaLen c.mode a.kind.bs)) :
    exec .decrypt s = s.writeUnpadded 0x11#8 c.pad (decryptBuf s.build a c (s.memRead s.src s.len)) := by
  change execDecrypt s = _
  simp only [execDecrypt, hs, hlen, decryptMaxOut, (s.rangeCheck_eq_none _).mpr hin]

/-- With no command in progress (log 22), a DECRYPT whose padding is accepted leaves the plaintext at DST. -/
theorem decrypt_of_idle {p : List Byte} (hidle : s.running = none) (hs : s.session = .context a c str)
    (hlen : decryptLenCheck c.mode a.kind.bs s.len = none) (hin : s.InRange (s.len - deltaLen c.mode a.kind.bs))
    (hp : unpad c.pad (decryptBuf s.build a c (s.memRead s.src s.len)) = .ok p) :
    ∃ v, exec .decrypt s = .next v ∧ v.err = false ∧ v.outlen = BitVec.ofNat 32 p.length ∧
      v.buf.readN s.dst p.length = p :=
  ⟨_, (exec_decrypt_of_inRange hs hlen hin).trans (State.writeUnpadded_of_ok hp), rfl, rfl,
    State.readN_memWrite_prefix_of_idle hidle s.dst (unpad_isPrefix hp)⟩

end

/-- With no command in progress (log 22), DECRYPT of what ENCRYPT left at DST gives back the plaintext, wherever it
puts it (47_modes.md R348). -/
theorem decrypt_of_encrypt {s t : State} {a : Algi} {c : Ctx} {str : Str} (hidle : s.running = none)
    (hs : s.session = .context a c str) (hc : c.Ok a.kind.bs) (henc : exec .encrypt s = .next t) (ht : t.err = false) :
    t.running = none ∧
      ((c.pad ≠ .zeros ∨ (s.buf.readN s.src s.len).getLast? ≠ some 0#8) →
        ∀ (w : State) (d : Nat), w.running = t.running → w.session = t.session → w.build = t.build → w.buf = t.buf →
          w.src = s.dst → w.len = t.outlen.toNat → w.dst = d → d + t.outlen.toNat ≤ s.build.bufBytes →
          ∃ v, exec .decrypt w = .next v ∧ v.err = false ∧ v.outlen = BitVec.ofNat 32 s.len ∧
            v.buf.readN d s.len = s.buf.readN s.src s.len) := by
  obtain ⟨⟨-, hdst⟩, htidle, htbuild, htsession, hout, x, s1, hpad, hdec⟩ := encrypt_of_idle hidle hs hc henc ht
  refine ⟨htidle, ?_⟩
  rintro hlast w d hw hsession hbuild hbuf hsrc hwlen rfl hd
  have hunpad := unpad_of_pad a.kind.bs_pos (a.kind.bs_le.trans (by decide)) hlast hpad
  rw [← hdec, ← htbuild, ← hbuild, ← hbuf, ← hsrc, ← hwlen, ← State.memRead_of_idle (hw.trans htidle)] at hunpad
  rw [← htbuild, ← hbuild] at hdst hd
  rw [← hwlen] at hout hd
  have hbody : w.len - deltaLen c.mode a.kind.bs = s.len + padLen s.len a.kind.bs := by
    rw [hout, encryptMaxOut, Nat.add_sub_cancel]
  have hle : deltaLen c.mode a.kind.bs ≤ w.len := hout ▸ Nat.le_add_left _ _
  have haligned : (w.len - deltaLen c.mode a.kind.bs) % a.kind.bs = 0 := by
    rw [hbody, Nat.mod_eq_zero_of_dvd (padLen_dvd s.len a.kind.bs_pos)]
  have hin : w.InRange (w.len - deltaLen c.mode a.kind.bs) :=
    ⟨by rwa [hsrc, hout], (Nat.add_le_add_left (Nat.sub_le _ _) _).trans hd⟩
  have hend := decrypt_of_idle (hw.trans htidle) (hsession.trans (htsession.trans hs))
    (decryptLenCheck_of_aligned hle haligned) hin hunpad
  rwa [Memory.readN_length] at hend

/-! ## The obligations -/

/-- Settles O43: the context, the ranges, then the draws of encrypt_buf decide. -/
theorem encryptEncryptsTheBuffer : Obligations.EncryptEncryptsTheBuffer := by
  unfold Obligations.EncryptEncryptsTheBuffer
  refine ⟨Laws.decode_encode (i := .encrypt) rfl, fun s => ⟨raises_encrypt_of_ctx_none, fun a c str hs => ?_⟩⟩
  dsimp only
  rw [← deltaLen_eq_ite]
  refine ⟨.of_rangeCheck fun _ => raises_encrypt_of_rangeCheck hs, fun hin => ⟨fun s1 hfill => ?_, ?_⟩⟩
  · refine raises_encrypt_of_encryptBuf hs hin (encryptBuf_of_drawFill_none ?_)
    rwa [State.memRead_length]
  intro fill s1 hfill
  rw [← State.memRead_length s s.src s.len] at hfill
  refine ⟨fun s2 hdelta => raises_encrypt_of_encryptBuf hs hin (encryptBuf_of_drawDelta_none hfill hdelta), ?_⟩
  intro d s2 hdelta
  have hbuf := encryptBuf_of_draws (b := s.build) hfill hdelta
  obtain ⟨ent, free, hframe⟩ := encryptBuf_frame s.build a c (s.memRead s.src s.len) s
  rw [hbuf] at hframe
  have hexec := exec_encrypt_of_encryptBuf hs hin hbuf
  rw [State.memRead_length] at hexec
  exact .of_drawn ⟨ent, free, hframe⟩ hexec

/-- Settles O44: the context, the length, the ranges decide; then the padded plaintext is stored, and unpad decides how
the command ends. -/
theorem decryptDecryptsTheBuffer : Obligations.DecryptDecryptsTheBuffer := by
  unfold Obligations.DecryptDecryptsTheBuffer
  refine ⟨Laws.decode_encode (i := .decrypt) rfl, fun s => ⟨raises_decrypt_of_ctx_none, fun a c str hs => ?_⟩⟩
  dsimp only
  rw [← deltaLen_eq_ite]
  refine ⟨fun hshort => raises_decrypt_of_lenCheck hs (decryptLenCheck_of_short hshort), fun hle hmod =>
    raises_decrypt_of_lenCheck hs (decryptLenCheck_of_misaligned hle hmod), fun hle hmod => ?_⟩
  have hlen := decryptLenCheck_of_aligned hle hmod
  refine ⟨.of_rangeCheck fun _ => raises_decrypt_of_rangeCheck hs hlen, fun hin => ?_⟩
  have hexec := exec_decrypt_of_inRange hs hlen hin
  exact ⟨fun p hp => .of_memWrite (hexec.trans (State.writeUnpadded_of_ok hp)), fun e he =>
    ⟨_, _, hexec.trans (State.writeUnpadded_of_error he), s.memWrite_stores s.dst _⟩⟩

/-- Settles O45: DECRYPT reads what ENCRYPT stored at DST, decrypt_buf undoes encrypt_buf, and unpad undoes pad. -/
theorem decryptUndoesEncrypt : Obligations.DecryptUndoesEncrypt := by
  unfold Obligations.DecryptUndoesEncrypt
  intro s t a c str d hidle hs hc henc herr hd hlast
  obtain ⟨htidle, hdecrypt⟩ := decrypt_of_encrypt hidle hs hc henc herr
  rw [← State.len_of_idle hidle, ← State.src_of_idle hidle] at hlast ⊢
  rw [State.dst_of_idle hidle] at hdecrypt
  obtain ⟨v, hexec, hv, hvlen, hplain⟩ := hdecrypt hlast
    { t with args := { t.args with src := s.args.dst, len := t.outlen, dst := d } } d.toNat rfl rfl rfl rfl
    (State.src_of_idle htidle) (State.len_of_idle htidle) (State.dst_of_idle htidle) hd
  refine ⟨v, hexec, hv, ?_, hplain⟩
  rw [hvlen, State.len_of_idle hidle, BitVec.ofNat_toNat, BitVec.setWidth_eq]

end Sys2Proof.Machine
end

section
/-! A stream of pieces (48_streaming.md R370): what the host gives and gets back, and what a stream has run over. -/

namespace Sys2Proof.Machine

/-! ## A piece given to an idle core (log 22) -/

section
variable {s : State} {p : Piece}

@[simp] theorem Piece.give_build (p : Piece) (s : State) : (p.give s).build = s.build := rfl

/-- The command reads the piece as its input. -/
theorem Piece.give_memRead (hidle : s.running = none) (hfits : p.Fits s.build) :
    (p.give s).len = p.bytes.length ∧ (p.give s).memRead (p.give s).src (p.give s).len = p.bytes := by
  have hgive : (p.give s).running = none := hidle
  have hlen : (p.give s).len = p.bytes.length :=
    (State.len_of_idle hgive).trans (toNat_ofNat_of_le_bufBytes ((Nat.le_add_left _ _).trans hfits))
  refine ⟨hlen, ?_⟩
  rw [hlen, State.memRead_of_idle hgive, State.src_of_idle hgive]
  exact Memory.readN_writeN _ _ _

/-- A command on a piece has an output where it ends without an error. -/
theorem runPiece_eq_some {i : Instr} {t : State} {y : List Byte} (h : runPiece i s p = some (t, y)) :
    exec i (p.give s) = .next t ∧ t.err = false ∧ t.output = y := by
  unfold runPiece at h
  split at h
  · next t' hexec =>
    split_ifs at h with ht
    cases h
    exact ⟨hexec, eq_false_of_ne_true ht, rfl⟩
  · cases h
  · cases h

end

/-- What every command on a piece keeps, the commands on all the pieces keep. -/
theorem runPieces_induction {i : Instr} {P : State → List Byte → List Byte → Prop} {ps : List Piece}
    (hstep : ∀ p ∈ ps, ∀ s x y t z, P s x y → runPiece i s p = some (t, z) → P t (x ++ p.bytes) (y ++ z))
    {s t : State} {x y z : List Byte} (hs : P s x y) (h : runPieces i s ps = some (t, z)) :
    P t (x ++ ps.flatMap Piece.bytes) (y ++ z) := by
  induction ps generalizing s x y z with
  | nil =>
    cases h
    rwa [List.flatMap_nil, List.append_nil, List.append_nil]
  | cons p ps ih =>
    obtain ⟨hp, hps⟩ := List.forall_mem_cons.mp hstep
    unfold runPieces at h
    split at h
    · cases h
    · next u z1 hpiece =>
      split at h
      · cases h
      · next t' z2 hpieces =>
        cases h
        have hu := ih hps (hp s x y u z1 hs hpiece) hpieces
        rwa [List.append_assoc, List.append_assoc] at hu

/-- A stream's output is that of its commands, joined. -/
theorem runStream_eq_some {opening data closing : Instr} {s : State} {first last : Piece} {ps : List Piece}
    {out : List Byte} (h : runStream opening data closing s first ps last = some out) :
    ∃ t y u ys v z, runPiece opening s first = some (t, y) ∧ runPieces data t ps = some (u, ys) ∧
      runPiece closing u last = some (v, z) ∧ out = y ++ ys ++ z := by
  unfold runStream at h
  split at h
  · cases h
  · next t y hfirst =>
    split at h
    · cases h
    · next u ys hpieces =>
      split at h
      · cases h
      · next v z hlast =>
        cases h
        exact ⟨t, y, u, ys, v, z, hfirst, hpieces, hlast, rfl⟩

/-! ## What a command puts out -/

/-- The host reads back the part of what the command stored that OUTLEN counts (10_state.md R27). -/
theorem State.output_of_store {s t : State} {x p : List Byte} (hidle : s.running = none) (htidle : t.running = none)
    (hargs : t.args = s.args) (hbuf : t.buf = (s.memWrite s.dst x).buf) (hp : p <+: x)
    (hout : t.outlen = BitVec.ofNat 32 p.length) (hle : p.length ≤ s.build.bufBytes) : t.output = p := by
  have hdst : t.dst = s.dst := by rw [State.dst_of_idle htidle, hargs, State.dst_of_idle hidle]
  rw [State.output, hdst, hbuf, hout, toNat_ofNat_of_le_bufBytes hle]
  exact State.readN_memWrite_prefix_of_idle hidle s.dst hp

theorem State.output_of_outlen_zero {t : State} (h : t.outlen = 0#32) : t.output = [] := by
  rw [State.output, h]
  rfl

theorem AlgKind.bs_le_bufBytes (k : AlgKind) (b : Build) : k.bs ≤ b.bufBytes :=
  (k.bs_le.trans (by decide)).trans (Nat.pow_le_pow_right (by decide) b.bufLog.property.1)

/-! ## What a stream has run over -/

/-- A stream runs the step `f` over `n` blocks of `all`, the bytes it has, and holds the rest: what is put out, and the
stream after it (48_streaming.md R373, R377). -/
def StrData.advance (f : Chain → List Byte → List Byte × Chain) (bs n : Nat) (d : StrData) (all : List Byte) :
    List Byte × StrData :=
  let r := runSteps f d.chaining (blocks bs n all)
  (r.1, { d with pend := all.drop (n * bs), chain := r.2.s, j := r.2.j })

theorem StrData.advance_length {f : Chain → List Byte → List Byte × Chain} {bs n : Nat} {P : Chain → Prop}
    {d : StrData} {all : List Byte} (hf : ∀ st x, P st → x.length = bs → (f st x).1.length = bs ∧ P (f st x).2)
    (hd : P d.chaining) (hn : n * bs ≤ all.length) : (d.advance f bs n all).1.length = n * bs := by
  have hlen := (runSteps_ready hf hd (blocks_block_length hn)).1
  rwa [blocks_length] at hlen

/-- The stream `d` has run the step `f` over the first blocks of `x`, put out `y`, and holds the rest (48_streaming.md
R370). -/
def RanOver (f : Chain → List Byte → List Byte × Chain) (bs : Nat) (st : Chain) (x : List Byte) (d : StrData)
    (y : List Byte) : Prop :=
  ∃ q, q * bs ≤ x.length ∧ runSteps f st (blocks bs q x) = (y, d.chaining) ∧ d.pend = x.drop (q * bs)

section
variable {f : Chain → List Byte → List Byte × Chain} {bs : Nat} {st : Chain} {x y : List Byte} {d : StrData}

theorem ranOver_nil (hchain : d.chaining = st) (hpend : d.pend = []) : RanOver f bs st [] d [] :=
  ⟨0, (Nat.zero_mul bs).le, by rw [hchain]; rfl, by rw [hpend, List.drop_nil]⟩

/-- Bytes received and not yet run over. -/
theorem RanOver.hold (h : RanOver f bs st x d y) (z : List Byte) :
    RanOver f bs st (x ++ z) { d with pend := d.pend ++ z } y := by
  obtain ⟨q, hq, hrun, hpend⟩ := h
  refine ⟨q, hq.trans (by rw [List.length_append]; omega), ?_, ?_⟩
  · rwa [blocks_append_right z hq]
  · rw [List.drop_append_of_le_length hq, hpend]

/-- The run over some of the blocks held follows the run so far. -/
theorem RanOver.advance {n : Nat} (h : RanOver f bs st x d y) (hn : n * bs ≤ d.pend.length) :
    RanOver f bs st x (d.advance f bs n d.pend).2 (y ++ (d.advance f bs n d.pend).1) := by
  obtain ⟨q, hq, hrun, hpend⟩ := h
  rw [hpend, List.length_drop] at hn
  refine ⟨q + n, ?_, ?_, ?_⟩
  · rw [Nat.add_mul]
    omega
  · rw [blocks_add, runSteps_append, hrun, ← hpend]
    rfl
  · rw [Nat.add_mul, ← List.drop_drop, ← hpend]
    rfl

theorem RanOver.length_mod (h : RanOver f bs st x d y) : x.length % bs = d.pend.length % bs := by
  obtain ⟨q, hq, -, hpend⟩ := h
  have hlen : x.length = q * bs + d.pend.length := by
    rw [hpend, List.length_drop]
    omega
  rw [hlen, Nat.mul_add_mod_self_right]

/-- What the stream put out, then the run over all the blocks held, is the run over the whole buffer. -/
theorem RanOver.whole (h : RanOver f bs st x d y) (hbs : 0 < bs) :
    (runSteps f st (blocks bs (x.length / bs) x)).1 =
      y ++ (runSteps f d.chaining (blocks bs (d.pend.length / bs) d.pend)).1 := by
  obtain ⟨q, hq, hrun, hpend⟩ := h
  have hcount : x.length / bs = q + d.pend.length / bs := by
    rw [hpend, List.length_drop, ← Nat.mul_add_div hbs, Nat.mul_comm, Nat.add_sub_cancel' hq]
  rw [hcount, blocks_add, runSteps_append, hrun, ← hpend]

/-- What every step keeps holds of the stream's chaining state. -/
theorem RanOver.chaining {P : Chain → Prop} (h : RanOver f bs st x d y)
    (hf : ∀ st x, P st → x.length = bs → (f st x).1.length = bs ∧ P (f st x).2) (hs : P st) : P d.chaining := by
  obtain ⟨q, hq, hrun, -⟩ := h
  have hready := (runSteps_ready hf hs (blocks_block_length hq)).2
  rwa [hrun] at hready

end

/-- With no command in progress (log 22), the output of a DATA command is what its stream's advance puts out. -/
theorem State.output_of_advance {f : Chain → List Byte → List Byte × Chain} {bs n : Nat} {P : Chain → Prop}
    {d : StrData} {all : List Byte} {s t : State} {x : Session} {op : Byte} (hidle : s.running = none)
    (hf : ∀ st x, P st → x.length = bs → (f st x).1.length = bs ∧ P (f st x).2) (hd : P d.chaining)
    (hn : n * bs ≤ all.length) (hle : n * bs ≤ s.build.bufBytes)
    (ht : t = State.completed ((s.memWrite s.dst (d.advance f bs n all).1).setSession x) op (n * bs)) :
    t.output = (d.advance f bs n all).1 := by
  have hlength := StrData.advance_length hf hd hn
  exact State.output_of_store hidle (ht ▸ rfl) (ht ▸ rfl) (ht ▸ rfl) List.prefix_rfl (by rw [ht, hlength]; rfl)
    (hlength.trans_le hle)

end Sys2Proof.Machine
end

section
/-! Stream encryption (48_streaming.md R372 to R375): a stream has run encstep over the whole blocks of its pieces,
and SENC_END runs it over the padded rest. -/

namespace Sys2Proof.Machine

/-! ## Draws that are supplied (log 10) -/

theorem State.drawDelta_supplied {s : State} {mode : Mode} {delta : List Byte} {rest : List EntAnswer}
    (h : s.ent = (if mode = .randomDelta then [.ok delta] else []) ++ rest) :
    ∃ s', s.drawDelta mode delta.length = (some (if mode = .randomDelta then delta else []), s') ∧ s'.ent = rest := by
  cases mode with
  | randomDelta =>
    have hent : s.ent = .ok delta :: rest := h
    exact ⟨{ s with ent := rest, free := s.free + 1 }, State.drawEnt_supplied hent, rfl⟩
  | ecb | cbc | pcbc | cfb | ofb | ctr => exact ⟨s, rfl, h⟩

theorem State.drawFill_supplied {s : State} {scheme : PadScheme} {n : Nat} {fill : List Byte} {rest : List EntAnswer}
    (hn : fill.length = n - 1) (h : s.ent = (if scheme = .iso10126 ∧ 1 < n then [.ok fill] else []) ++ rest) :
    ∃ s', s.drawFill scheme n = (some (if scheme = .iso10126 ∧ 1 < n then fill else []), s') ∧ s'.ent = rest := by
  by_cases hdraw : scheme = .iso10126 ∧ 1 < n
  · rw [if_pos hdraw] at h ⊢
    obtain ⟨rfl, hmany⟩ := hdraw
    have hent : s.ent = .ok fill :: rest := h
    refine ⟨{ s with ent := rest, free := s.free + 1 }, ?_, rfl⟩
    rw [State.drawFill, if_neg (not_le.mpr hmany), ← hn, State.drawEnt_supplied hent]
  · rw [if_neg hdraw] at h ⊢
    refine ⟨s, ?_, h⟩
    cases scheme with
    | iso10126 => exact if_pos (not_lt.mp fun hmany => hdraw ⟨rfl, hmany⟩)
    | zeros | ansiX923 | pkcs7 => rfl

/-! ## The commands of a stream encryption that succeed -/

section
variable {s t : State} {a : Algi} {c : Ctx}

/-- With no command in progress a store of nothing changes nothing. -/
theorem State.memWrite_nil_of_idle (h : s.running = none) (n : Nat) : s.memWrite n [] = s := by
  simp only [State.memWrite, mergeHost, Memory.writeN, State.hostWrote_of_idle h, List.isEmpty_nil, if_true]

/-- SENC_BEGIN stores the delta block that it drew: nothing in a mode other than RANDOM_DELTA (48_streaming.md R372). -/
theorem sencBegin_of_success (hidle : s.running = none) (hs : s.session = .context a c .idle)
    (h : exec .sencBegin s = .next t) (ht : t.err = false) :
    ∃ d s', s.drawDelta c.mode a.kind.bs = (some d, s') ∧
      t = State.completed ((s'.memWrite s.dst d).setSession (.context a c (.enc (sencOpen c d)))) 0x18#8
        (deltaLen c.mode a.kind.bs) := by
  change execSencBegin s = _ at h
  simp only [execSencBegin, hs] at h
  cases hm : c.mode with
  | randomDelta =>
    simp only [hm] at h
    split at h
    · cases h; cases ht
    · split at h
      · cases h; cases ht
      · next d s' hdraw => exact ⟨d, s', hdraw, (Host.Outcome.next.inj h).symm⟩
  | ecb | cbc | pcbc | cfb | ofb | ctr =>
    simp only [hm] at h
    refine ⟨[], s, rfl, ?_⟩
    rw [State.memWrite_nil_of_idle hidle]
    exact (Host.Outcome.next.inj h).symm

theorem sencData_of_success {d : StrData} (hs : s.session = .context a c (.enc d)) (h : exec .sencData s = .next t)
    (ht : t.err = false) :
    s.InRange (sencBlocks a.kind.bs d s.len * a.kind.bs) ∧
      let r := d.advance (encStep (streamEnv s.build a c d)) a.kind.bs (sencBlocks a.kind.bs d s.len)
        (d.pend ++ s.memRead s.src s.len)
      t = State.completed ((s.memWrite s.dst r.1).setSession (.context a c (.enc r.2))) 0x19#8
        (sencBlocks a.kind.bs d s.len * a.kind.bs) := by
  change execSencData s = _ at h
  simp only [execSencData, hs] at h
  split at h
  · cases h; cases ht
  · next hr => exact ⟨(s.rangeCheck_eq_none _).mp hr, (Host.Outcome.next.inj h).symm⟩

theorem sencEnd_of_success {d : StrData} (hs : s.session = .context a c (.enc d)) (h : exec .sencEnd s = .next t)
    (ht : t.err = false) :
    ∃ fill s1, (s.setSession (.context a c .idle)).drawFill c.pad (padLen d.pend.length a.kind.bs) = (some fill, s1) ∧
      (d.pend ++ padTail c.pad (padLen d.pend.length a.kind.bs) fill).length =
        d.pend.length + padLen d.pend.length a.kind.bs ∧
      t = State.completed (s1.memWrite s.dst (encStep (streamEnv s.build a c d) d.chaining
        (d.pend ++ padTail c.pad (padLen d.pend.length a.kind.bs) fill)).1) 0x1A#8 a.kind.bs := by
  change execSencEnd s = _ at h
  simp only [execSencEnd, hs] at h
  split at h
  · cases h; cases ht
  · split at h
    · cases h; cases ht
    · next x s1 hpad =>
      obtain ⟨fill, hfill, rfl, hlength⟩ := State.pad_spec a.kind.bs_pos hpad
      exact ⟨fill, s1, hfill, hlength, (Host.Outcome.next.inj h).symm⟩

end

/-! ## A stream encryption, piece by piece -/

/-- The delta block in STR is the one that was drawn: none in a mode other than RANDOM_DELTA (48_streaming.md R372). -/
theorem sencOpen_delta {c : Ctx} {delta : List Byte} {bs : Nat} (h : delta.length = deltaLen c.mode bs) :
    (sencOpen c delta).delta.getD [] = delta := by
  cases hm : c.mode with
  | randomDelta => simp only [sencOpen, hm, Option.getD_some]
  | ecb | cbc | pcbc | cfb | ofb | ctr =>
    rw [hm] at h
    simp only [sencOpen, hm, Option.getD_none, List.eq_nil_of_length_eq_zero h]

/-- The encryption of one block is one step. -/
theorem encBlocks_one {e : ModeEnv} {st : Chain} {x : List Byte} (hbs : 0 < e.bs) (hx : x.length = e.bs) :
    (encBlocks e st x).1 = (encStep e st x).1 := by
  rw [encBlocks, hx, Nat.div_self hbs, blocks, ← hx, List.take_length]
  exact List.append_nil _

/-- `u` holds a stream encryption of `x` so far, of which `y` has been put out beside the delta block (48_streaming.md
R371, R373). -/
structure Encrypting (b : Build) (a : Algi) (c : Ctx) (delta : List Byte) (ent : List EntAnswer) (u : State)
    (x y : List Byte) : Prop where
  idle : u.running = none
  build : u.build = b
  ent : u.ent = ent
  stream : ∃ d, u.session = .context a c (.enc d) ∧ d.delta.getD [] = delta ∧ d.pend.length < a.kind.bs ∧
    RanOver (encStep (modeEnv b a c delta)) a.kind.bs c.init x d y

section
variable {b : Build} {a : Algi} {c : Ctx} {delta : List Byte} {ent : List EntAnswer}

/-- SENC_BEGIN puts out the delta block and opens a stream that has run over nothing. -/
theorem Encrypting.start {s t : State} {p : Piece} {y : List Byte} (hidle : s.running = none)
    (hs : s.session = .context a c .idle) (h : runPiece .sencBegin s p = some (t, y)) :
    ∃ s', (p.give s).drawDelta c.mode a.kind.bs = (some y, s') ∧ Encrypting s.build a c y s'.ent t [] [] := by
  obtain ⟨hexec, ht, rfl⟩ := runPiece_eq_some h
  obtain ⟨d, s', hdraw, hend⟩ := sencBegin_of_success (s := p.give s) hidle hs hexec ht
  have hd := State.drawDelta_length hdraw
  obtain ⟨ent, free, hframe⟩ := (p.give s).drawDelta_frame c.mode a.kind.bs
  rw [hdraw] at hframe
  obtain rfl : s' = { p.give s with ent := ent, free := free } := hframe
  have hout : t.output = d := State.output_of_store (s := { p.give s with ent := ent, free := free }) hidle
    (hend ▸ rfl) (hend ▸ rfl) (hend ▸ rfl) List.prefix_rfl (by rw [hend, hd]; rfl)
    (hd ▸ (deltaLen_le _ _).trans (a.kind.bs_le_bufBytes s.build))
  subst hend
  rw [hout]
  exact ⟨_, hdraw, rfl, rfl, rfl, _, rfl, sencOpen_delta hd, a.kind.bs_pos, ranOver_nil rfl rfl⟩

/-- SENC_DATA runs over every whole block it has. -/
theorem Encrypting.data {u t : State} {p : Piece} {x y z : List Byte} (h : Encrypting b a c delta ent u x y)
    (hready : (modeEnv b a c delta).Ready c.init) (hfits : p.Fits b) (hrun : runPiece .sencData u p = some (t, z)) :
    Encrypting b a c delta ent t (x ++ p.bytes) (y ++ z) := by
  obtain ⟨hidle, rfl, rfl, d, hs, hdelta, hpend, hran⟩ := h
  obtain ⟨hexec, ht, rfl⟩ := runPiece_eq_some hrun
  obtain ⟨hlen, hread⟩ := Piece.give_memRead hidle hfits
  have hcount : sencBlocks a.kind.bs d (p.give u).len = (d.pend ++ p.bytes).length / a.kind.bs := by
    rw [hlen, sencBlocks, List.length_append]
  obtain ⟨⟨-, hdst⟩, hend⟩ := sencData_of_success (s := p.give u) hs hexec ht
  rw [hcount] at hdst
  simp only [hcount, hread, streamEnv, hdelta, Piece.give_build] at hend
  have hle := Nat.div_mul_le_self (d.pend ++ p.bytes).length a.kind.bs
  have hout := State.output_of_advance (s := p.give u) hidle (fun _ _ => encStep_ready)
    (hran.chaining (fun _ _ => encStep_ready) hready) hle ((Nat.le_add_left _ _).trans hdst) hend
  rw [hout]
  subst hend
  refine ⟨rfl, rfl, rfl, _, rfl, hdelta, ?_, (hran.hold p.bytes).advance hle⟩
  change ((d.pend ++ p.bytes).drop _).length < _
  rw [List.length_drop, ← Nat.mod_eq_sub_div_mul]
  exact Nat.mod_lt _ a.kind.bs_pos

/-- SENC_END runs over the one block that the held bytes and the padding of the whole make. -/
theorem Encrypting.finish {u t : State} {p : Piece} {x y z : List Byte} (h : Encrypting b a c delta ent u x y)
    (hready : (modeEnv b a c delta).Ready c.init) (hrun : runPiece .sencEnd u p = some (t, z)) :
    ∃ (s0 s1 : State) (fill : List Byte), s0.ent = ent ∧
      s0.drawFill c.pad (padLen x.length a.kind.bs) = (some fill, s1) ∧
      (encBlocks (modeEnv b a c delta) c.init (x ++ padTail c.pad (padLen x.length a.kind.bs) fill)).1 = y ++ z := by
  obtain ⟨hidle, rfl, rfl, d, hs, hdelta, hpend, hran⟩ := h
  obtain ⟨hexec, ht, rfl⟩ := runPiece_eq_some hrun
  obtain ⟨fill, s1, hfill, hlength, hend⟩ := sencEnd_of_success (s := p.give u) hs hexec ht
  have hblock : d.pend.length + padLen d.pend.length a.kind.bs = a.kind.bs := by
    rw [padLen, Nat.mod_eq_of_lt hpend]
    omega
  have hn : padLen d.pend.length a.kind.bs = padLen x.length a.kind.bs := by rw [padLen, padLen, hran.length_mod]
  rw [hblock] at hlength
  simp only [hn, streamEnv, hdelta, Piece.give_build] at hlength hfill hend
  have hstep := (encStep_ready (hran.chaining (fun _ _ => encStep_ready) hready) hlength).1
  obtain ⟨ent, free, hframe⟩ := State.drawFill_frame ((p.give u).setSession (.context a c .idle)) c.pad
    (padLen x.length a.kind.bs)
  rw [hfill] at hframe
  obtain rfl : s1 = { (p.give u).setSession (.context a c .idle) with ent := ent, free := free } := hframe
  have hout : t.output = _ := State.output_of_store
    (s := { (p.give u).setSession (.context a c .idle) with ent := ent, free := free }) hidle (hend ▸ rfl)
    (hend ▸ rfl) (by rw [hend]; rfl) List.prefix_rfl (by rw [hend, hstep]; rfl)
    (hstep.trans_le (a.kind.bs_le_bufBytes u.build))
  refine ⟨(p.give u).setSession (.context a c .idle), _, fill, rfl, hfill, ?_⟩
  rw [hout, ← encBlocks_one a.kind.bs_pos hlength]
  exact (hran.hold _).whole a.kind.bs_pos

end

/-- Settles O52: the stream's chaining state goes on where each piece ended, and its held bytes have the padding of
the joined pieces. -/
theorem streamEncryptionIsWholeBufferEncryption : Obligations.StreamEncryptionIsWholeBufferEncryption := by
  unfold Obligations.StreamEncryptionIsWholeBufferEncryption
  intro s a c first last ps delta fill out
  dsimp only
  intro hidle hs hc hfits hfill hdelta hent hrun
  obtain ⟨t, y, u, ys, v, z, hfirst, hpieces, hlast, rfl⟩ := runStream_eq_some hrun
  obtain ⟨s', hdraw, hstart⟩ := Encrypting.start hidle hs hfirst
  have hlen := State.drawDelta_length hdraw
  have hready : (modeEnv s.build a c y).Ready c.init := modeEnv_ready hc fun hm => by rw [hlen, hm]; rfl
  have hdata : Encrypting s.build a c y s'.ent u ([] ++ ps.flatMap Piece.bytes) ([] ++ ys) :=
    runPieces_induction (fun p hp _ _ _ _ _ h => h.data hready (hfits p hp)) hstart hpieces
  obtain ⟨s0, s1, x, hs0, hdrawn, hwhole⟩ := hdata.finish hready hlast
  rw [List.nil_append, List.nil_append] at hwhole
  rw [List.nil_append] at hdrawn
  obtain ⟨s'', hdelta', hrest⟩ := State.drawDelta_supplied (s := first.give s) hent
  rw [hdelta, hdraw, Prod.mk.injEq, Option.some.injEq] at hdelta'
  obtain ⟨rfl, rfl⟩ := hdelta'
  obtain ⟨s2, hfill', -⟩ := State.drawFill_supplied hfill (hs0.trans (hrest.trans (List.append_nil _).symm))
  rw [hdrawn, Prod.mk.injEq, Option.some.injEq] at hfill'
  obtain ⟨rfl, -⟩ := hfill'
  obtain ⟨s3, hfirstDraw, hs3⟩ := State.drawFill_supplied (s := { s with ent := _ ++ _ }) hfill rfl
  obtain ⟨s4, hsecondDraw, -⟩ := State.drawDelta_supplied (hs3.trans (List.append_nil _).symm)
  rw [hdelta] at hsecondDraw
  rw [encryptBuf_of_draws hfirstDraw hsecondDraw, List.append_assoc, ← hwhole]

end Sys2Proof.Machine
end

section
/-! Stream decryption (48_streaming.md R376 to R379): once its delta block is there, a stream has run decstep over
blocks of the body; SDEC_END runs it over the rest, and the padding found there is the padding of the whole. -/

namespace Sys2Proof.Machine

/-! ## Padding is read off the end (46_padding.md R302) -/

/-- What every scheme but ZEROS finds at the end of a buffer, it finds there whatever comes before. -/
theorem unpad_append {scheme : PadScheme} {x p : List Byte} (hs : scheme ≠ .zeros) (r : List Byte)
    (h : unpad scheme x = .ok p) : unpad scheme (r ++ x) = .ok (r ++ p) := by
  obtain ⟨hnil, hconcat⟩ := unpadRemovesWhatItTrusts.2 scheme hs
  cases x using List.reverseRecOn with
  | nil => rw [hnil] at h; cases h
  | append_singleton x n =>
    obtain ⟨hzero, hlong, hok⟩ := hconcat x n
    have hn : n ≠ 0#8 := fun hn => by rw [hzero hn] at h; cases h
    have hle : n.toNat ≤ (x ++ [n]).length := not_lt.mp fun hlt => by rw [hlong hlt] at h; cases h
    obtain ⟨haccept, hreject⟩ := hok hn hle
    have htrust : scheme ≠ .pkcs7 ∨ ∀ b ∈ (x ++ [n]).drop ((x ++ [n]).length - n.toNat), b = n := by
      by_contra! hne
      rw [hreject hne.1 hne.2] at h
      cases h
    rw [haccept htrust, Except.ok.injEq] at h
    subst h
    have hcut : (r ++ (x ++ [n])).length - n.toNat = r.length + ((x ++ [n]).length - n.toNat) := by
      rw [List.length_append, Nat.add_sub_assoc hle]
    obtain ⟨-, -, hok'⟩ := hconcat (r ++ x) n
    rw [List.append_assoc] at hok'
    rw [(hok' hn (by rw [List.length_append]; omega)).1, hcut, List.take_length_add_append]
    rwa [hcut, List.drop_length_add_append]

/-! ## The delta block (48_streaming.md R377) -/

section
variable {bs : Nat} {c : Ctx} {d : StrData} {all : List Byte}

theorem takeDelta_of_not_wanted (h : d.wantsDelta c = false) : takeDelta bs c d all = (d, all) := by
  rw [takeDelta, if_neg]
  rw [h]
  exact fun hdue => Bool.noConfusion hdue.1

theorem takeDelta_of_short (h : all.length < bs) : takeDelta bs c d all = (d, all) := by
  rw [takeDelta, if_neg]
  exact fun hdue => not_lt.mpr hdue.2 h

theorem takeDelta_of_due (h : d.wantsDelta c = true) (hle : bs ≤ all.length) :
    takeDelta bs c d all = ({ d with delta := some (all.take bs) }, all.drop bs) := by
  rw [takeDelta, if_pos ⟨h, hle⟩]

/-- q of SDEC_DATA counts the blocks that are left after the delta block, all but two. -/
theorem sdecBlocks_eq {len : Nat} (h : all.length = d.pend.length + len) :
    sdecBlocks bs c d len = (takeDelta bs c d all).2.length / bs - 2 := by
  rw [sdecBlocks, ← h]
  cases hwants : d.wantsDelta c with
  | false => rw [takeDelta_of_not_wanted hwants]; rfl
  | true =>
    rw [if_pos rfl]
    obtain hshort | hle := lt_or_ge all.length bs
    · rw [takeDelta_of_short hshort, Nat.sub_eq_zero_of_le hshort.le, Nat.zero_div, Nat.div_eq_of_lt hshort]
    · rw [takeDelta_of_due hwants hle, List.length_drop]

theorem wantsDelta_iff : d.wantsDelta c = true ↔ c.mode = .randomDelta ∧ d.delta = none := by
  rw [StrData.wantsDelta, Bool.and_eq_true, beq_iff_eq, Option.isNone_iff_eq_none]

end

/-! ## The commands of a stream decryption that succeed -/

section
variable {s t : State} {a : Algi} {c : Ctx}

theorem sdecBegin_of_success (hs : s.session = .context a c .idle) (h : exec .sdecBegin s = .next t) :
    t = (s.setSession (.context a c (.dec (sdecOpen c)))).completed 0x1C#8 0 := by
  change execSdecBegin s = _ at h
  simp only [execSdecBegin, hs] at h
  exact (Host.Outcome.next.inj h).symm

theorem sdecData_of_success {d : StrData} (hs : s.session = .context a c (.dec d)) (h : exec .sdecData s = .next t)
    (ht : t.err = false) :
    s.InRange (sdecBlocks a.kind.bs c d s.len * a.kind.bs) ∧
      ∀ d1 rest, takeDelta a.kind.bs c d (d.pend ++ s.memRead s.src s.len) = (d1, rest) →
        (d1.wantsDelta c = true →
          t = (s.setSession (.context a c (.dec { d1 with pend := rest }))).completed 0x1D#8 0) ∧
        (d1.wantsDelta c = false →
          let r := d1.advance (decStep (streamEnv s.build a c d1)) a.kind.bs (sdecBlocks a.kind.bs c d s.len) rest
          t = State.completed ((s.memWrite s.dst r.1).setSession (.context a c (.dec r.2))) 0x1D#8
            (sdecBlocks a.kind.bs c d s.len * a.kind.bs)) := by
  change execSdecData s = _ at h
  simp only [execSdecData, hs] at h
  split at h
  · cases h; cases ht
  · next hr =>
    refine ⟨(s.rangeCheck_eq_none _).mp hr, fun d1 rest hsplit => ?_⟩
    rw [hsplit] at h
    refine ⟨fun hwants => ?_, fun hwants => ?_⟩
    · rw [if_pos hwants] at h
      exact (Host.Outcome.next.inj h).symm
    · rw [if_neg (Bool.eq_false_iff.mp hwants)] at h
      exact (Host.Outcome.next.inj h).symm

theorem sdecEnd_of_success {d : StrData} (hs : s.session = .context a c (.dec d)) (h : exec .sdecEnd s = .next t)
    (ht : t.err = false) :
    d.wantsDelta c = false ∧ d.pend.length % a.kind.bs = 0 ∧ s.dst + d.pend.length ≤ s.build.bufBytes ∧
      ∃ x, (decBlocks (streamEnv s.build a c d) d.chaining d.pend).1 = x ∧ ∃ p, unpad c.pad x = .ok p ∧
        t = State.completed ((s.setSession (.context a c .idle)).memWrite s.dst x) 0x1E#8 p.length := by
  change execSdecEnd s = _ at h
  simp only [execSdecEnd, hs] at h
  split at h
  · cases h; cases ht
  · next hcheck =>
    unfold sdecEndCheck at hcheck
    split_ifs at hcheck with hwants hmod
    split at h
    · cases h; cases ht
    · next hdst =>
      refine ⟨eq_false_of_ne_true hwants, not_not.mp hmod, (State.dstCheck_eq_none _ _).mp hdst, _, rfl, ?_⟩
      rcases hp : unpad c.pad (decBlocks (streamEnv s.build a c d) d.chaining d.pend).1 with e | p
      · rw [State.writeUnpadded_of_error hp] at h
        cases h; cases ht
      · rw [State.writeUnpadded_of_ok hp] at h
        exact ⟨p, rfl, (Host.Outcome.next.inj h).symm⟩

end

/-! ## A stream decryption, piece by piece -/

section
variable {b : Build} {a : Algi} {c : Ctx} {d : StrData} {x y z : List Byte}

/-- The stream `d` still collects its delta block: it holds the whole of `x` (48_streaming.md R377). -/
def CollectsDelta (a : Algi) (c : Ctx) (x : List Byte) (d : StrData) (y : List Byte) : Prop :=
  d.wantsDelta c = true ∧ x.length < a.kind.bs ∧ d.pend = x ∧ d.chaining = c.init ∧ y = []

/-- The stream `d` has the delta block that `x` begins with, none in a mode other than RANDOM_DELTA, and has put out `y`
for what it ran over of the body that follows (48_streaming.md R377). -/
def RunsOverBody (b : Build) (a : Algi) (c : Ctx) (x : List Byte) (d : StrData) (y : List Byte) : Prop :=
  d.wantsDelta c = false ∧ deltaLen c.mode a.kind.bs ≤ x.length ∧
    d.delta.getD [] = x.take (deltaLen c.mode a.kind.bs) ∧
    RanOver (decStep (streamEnv b a c d)) a.kind.bs c.init (x.drop (deltaLen c.mode a.kind.bs)) d y

/-- SDEC_BEGIN's stream has run over nothing. -/
theorem sdecOpen_phase : CollectsDelta a c [] (sdecOpen c) [] ∨ RunsOverBody b a c [] (sdecOpen c) [] := by
  by_cases hm : c.mode = .randomDelta
  · exact .inl ⟨wantsDelta_iff.mpr ⟨hm, rfl⟩, a.kind.bs_pos, rfl, rfl, rfl⟩
  · have hlead : deltaLen c.mode a.kind.bs = 0 := by rw [deltaLen_eq_ite, if_neg hm]
    refine .inr ⟨Bool.eq_false_iff.mpr fun hwants => hm (wantsDelta_iff.mp hwants).1, hlead.le, ?_, ?_⟩
    · rw [List.take_nil]
      rfl
    · rw [List.drop_nil]
      exact ranOver_nil rfl rfl

/-- A piece received, and the delta block split off where it is due. -/
theorem takeDelta_phase {d1 : StrData} {rest : List Byte} (h : CollectsDelta a c x d y ∨ RunsOverBody b a c x d y)
    (hsplit : takeDelta a.kind.bs c d (d.pend ++ z) = (d1, rest)) :
    CollectsDelta a c (x ++ z) { d1 with pend := rest } y ∨ RunsOverBody b a c (x ++ z) { d1 with pend := rest } y := by
  obtain ⟨hwants, -, rfl, hchain, rfl⟩ | ⟨hwants, hlead, hdelta, hran⟩ := h
  · obtain hshort | hle := lt_or_ge (d.pend ++ z).length a.kind.bs
    · obtain ⟨rfl, rfl⟩ := Prod.mk.inj ((takeDelta_of_short hshort).symm.trans hsplit)
      exact .inl ⟨hwants, hshort, rfl, hchain, rfl⟩
    · obtain ⟨rfl, rfl⟩ := Prod.mk.inj ((takeDelta_of_due hwants hle).symm.trans hsplit)
      have hlead : deltaLen c.mode a.kind.bs = a.kind.bs := by rw [(wantsDelta_iff.mp hwants).1]; rfl
      refine .inr ⟨Bool.and_false _, hlead.symm ▸ hle, ?_, ?_⟩
      · rw [hlead]
        rfl
      · rw [hlead]
        exact (ranOver_nil (d := { d with pend := [] }) hchain rfl).hold _
  · obtain ⟨rfl, rfl⟩ := Prod.mk.inj ((takeDelta_of_not_wanted hwants).symm.trans hsplit)
    refine .inr ⟨hwants, ?_, ?_, ?_⟩
    · rw [List.length_append]
      omega
    · rw [List.take_append_of_le_length hlead]
      exact hdelta
    · rw [List.drop_append_of_le_length hlead]
      exact hran.hold z

theorem RunsOverBody.advance {n : Nat} (h : RunsOverBody b a c x d y) (hn : n * a.kind.bs ≤ d.pend.length) :
    let r := d.advance (decStep (streamEnv b a c d)) a.kind.bs n d.pend
    RunsOverBody b a c x r.2 (y ++ r.1) := by
  obtain ⟨hwants, hlead, hdelta, hran⟩ := h
  exact ⟨hwants, hlead, hdelta, hran.advance hn⟩

theorem RunsOverBody.ready (h : RunsOverBody b a c x d y) (hc : c.Ok a.kind.bs) :
    (streamEnv b a c d).Ready d.chaining := by
  obtain ⟨-, hlead, hdelta, hran⟩ := h
  refine hran.chaining (fun _ _ => decStep_ready) (modeEnv_ready hc fun hm => ?_)
  rw [hdelta, List.length_take_of_le hlead, hm]
  rfl

end

/-- `u` holds a stream decryption of `x` so far, of which `y` has been put out. -/
structure Decrypting (b : Build) (a : Algi) (c : Ctx) (u : State) (x y : List Byte) : Prop where
  idle : u.running = none
  build : u.build = b
  stream : ∃ d, u.session = .context a c (.dec d) ∧ (CollectsDelta a c x d y ∨ RunsOverBody b a c x d y)

section
variable {b : Build} {a : Algi} {c : Ctx}

/-- SDEC_BEGIN puts out nothing. -/
theorem Decrypting.start {s t : State} {p : Piece} {y : List Byte} (hs : s.session = .context a c .idle)
    (h : runPiece .sdecBegin s p = some (t, y)) : y = [] ∧ Decrypting s.build a c t [] [] := by
  obtain ⟨hexec, -, rfl⟩ := runPiece_eq_some h
  obtain rfl := sdecBegin_of_success (s := p.give s) hs hexec
  exact ⟨State.output_of_outlen_zero rfl, rfl, rfl, _, rfl, sdecOpen_phase⟩

/-- SDEC_DATA collects the delta block or runs over the blocks that it does not hold back. -/
theorem Decrypting.data {u t : State} {p : Piece} {x y z : List Byte} (h : Decrypting b a c u x y)
    (hc : c.Ok a.kind.bs) (hfits : p.Fits b) (hrun : runPiece .sdecData u p = some (t, z)) :
    Decrypting b a c t (x ++ p.bytes) (y ++ z) := by
  obtain ⟨hidle, rfl, d, hs, hphase⟩ := h
  obtain ⟨hexec, ht, rfl⟩ := runPiece_eq_some hrun
  obtain ⟨hlen, hread⟩ := Piece.give_memRead hidle hfits
  obtain ⟨⟨-, hdst⟩, hend⟩ := sdecData_of_success (s := p.give u) hs hexec ht
  rw [hread] at hend
  rw [sdecBlocks_eq (all := d.pend ++ p.bytes) (by rw [hlen, List.length_append])] at hdst hend
  rcases hsplit : takeDelta a.kind.bs c d (d.pend ++ p.bytes) with ⟨d1, rest⟩
  rw [hsplit] at hdst hend
  obtain ⟨hcollect, hadvance⟩ := hend d1 rest rfl
  obtain hphase | hphase := takeDelta_phase hphase hsplit
  · obtain rfl := hcollect hphase.1
    rw [State.output_of_outlen_zero rfl, List.append_nil]
    exact ⟨rfl, rfl, _, rfl, .inl hphase⟩
  · have ht := hadvance hphase.1
    have hle : (rest.length / a.kind.bs - 2) * a.kind.bs ≤ rest.length :=
      (Nat.mul_le_mul_right _ (Nat.sub_le _ _)).trans (Nat.div_mul_le_self _ _)
    have hout := State.output_of_advance (s := p.give u) hidle (fun _ _ => decStep_ready) (hphase.ready hc) hle
      ((Nat.le_add_left _ _).trans hdst) ht
    rw [hout]
    subst ht
    exact ⟨rfl, rfl, _, rfl, .inr (hphase.advance hle)⟩

/-- SDEC_END runs over the blocks held back and unpads only those. -/
theorem Decrypting.finish {u t : State} {p : Piece} {x y z : List Byte} (h : Decrypting b a c u x y)
    (hc : c.Ok a.kind.bs) (hrun : runPiece .sdecEnd u p = some (t, z)) :
    decryptLenCheck c.mode a.kind.bs x.length = none ∧
      ∃ rest, unpad c.pad rest = .ok z ∧ decryptBuf b a c x = y ++ rest := by
  obtain ⟨hidle, rfl, d, hs, hphase⟩ := h
  obtain ⟨hexec, ht, rfl⟩ := runPiece_eq_some hrun
  obtain ⟨hwants, hmod, hdst, rest, hrest, p', hunpad, hend⟩ := sdecEnd_of_success (s := p.give u) hs hexec ht
  obtain ⟨hcollects, -⟩ | hruns := hphase
  · rw [hwants] at hcollects
    cases hcollects
  obtain ⟨hlength, -⟩ := decBlocks_length (hruns.ready hc) (Nat.dvd_of_mod_eq_zero hmod)
  obtain ⟨-, hlead, hdelta, hran⟩ := hruns
  have hprefix : p' <+: rest := unpad_isPrefix hunpad
  have hle : p'.length ≤ d.pend.length := hprefix.length_le.trans (hrest ▸ hlength.le)
  have hout : t.output = p' := State.output_of_store (s := (p.give u).setSession (.context a c .idle)) hidle
    (hend ▸ rfl) (hend ▸ rfl) (hend ▸ rfl) hprefix (hend ▸ rfl) (hle.trans ((Nat.le_add_left _ _).trans hdst))
  have hbody := hran.length_mod
  rw [List.length_drop, hmod] at hbody
  refine ⟨decryptLenCheck_of_aligned hlead hbody, rest, hout ▸ hunpad, ?_⟩
  rw [decryptBuf, ← hdelta, ← hrest]
  exact hran.whole a.kind.bs_pos

end

/-- Settles O53: what the stream held back at its end carries the padding of the whole. -/
theorem streamDecryptionIsWholeBufferDecryption : Obligations.StreamDecryptionIsWholeBufferDecryption := by
  unfold Obligations.StreamDecryptionIsWholeBufferDecryption
  intro s a c first last ps out
  dsimp only
  intro hidle hs hc hpad hfits hrun
  obtain ⟨t, y, u, ys, v, z, hfirst, hpieces, hlast, rfl⟩ := runStream_eq_some hrun
  obtain ⟨rfl, hstart⟩ := Decrypting.start hs hfirst
  have hdata : Decrypting s.build a c u ([] ++ ps.flatMap Piece.bytes) ([] ++ ys) :=
    runPieces_induction (fun p hp _ _ _ _ _ h => h.data hc (hfits p hp)) hstart hpieces
  rw [List.nil_append] at hdata
  obtain ⟨hlen, rest, hunpad, hwhole⟩ := hdata.finish hc hlast
  refine ⟨hlen, ?_⟩
  rw [hwhole]
  exact unpad_append hpad _ hunpad

end Sys2Proof.Machine
end

section
/-! The commands of a stream (48_streaming.md R372 to R378): the outcome of each check and of each draw, and what a
command that passes them stores and leaves in STR. -/

namespace Sys2Proof.Machine

/-! ## How a command of a stream ends -/

section
variable {i : Instr} {s x : State} {op : Byte} {bytes : List Byte}

/-- What a command stores is judged by BUF and the host's writes, whatever else the command has changed. -/
theorem State.stores_memWrite_of_eq (hbuf : x.buf = s.buf) (hrun : x.running = s.running) (n : Nat)
    (bytes : List Byte) : s.Stores n bytes (x.memWrite n bytes).buf := by
  have hstores := x.memWrite_stores n bytes
  unfold State.Stores State.hostWrote at hstores ⊢
  rwa [hbuf, hrun] at hstores

/-- A command that changes the session or draws, and stores. -/
theorem Succeeds.of_stored {n : Nat} (hbuf : x.buf = s.buf) (hrun : x.running = s.running)
    (h : exec i s = .next ((x.memWrite s.dst bytes).completed op n)) : Succeeds i s x op bytes n :=
  ⟨_, _, h, State.stores_memWrite_of_eq hbuf hrun s.dst bytes⟩

theorem StoresAndRaises.of_stored {e : CmdError} (hbuf : x.buf = s.buf) (hrun : x.running = s.running)
    (h : exec i s = .next ((x.memWrite s.dst bytes).raised op e)) : StoresAndRaises i s x op bytes e :=
  ⟨_, _, h, State.stores_memWrite_of_eq hbuf hrun s.dst bytes⟩

theorem State.dstCheck_of_lt {n : Nat} (h : s.build.bufBytes < s.dst + n) :
    s.dstCheck n = some ⟨.bufferRange, 2#8, 0#8⟩ := if_neg (not_le.mpr h)

end

/-! ## The errors that both directions share (48_streaming.md R372 to R378) -/

section
variable {s : State}

theorem raises_begin_of_ctx_none (h : s.session.ctx = none) :
    Raises .sencBegin s s 0x18#8 noContextError ∧ Raises .sdecBegin s s 0x1C#8 noContextError := by
  change execSencBegin s = _ ∧ execSdecBegin s = _
  unfold execSencBegin execSdecBegin
  cases hs : s.session with
  | none | keyed => exact ⟨rfl, rfl⟩
  | context => rw [hs] at h; cases h

/-- A stream of either direction keeps BEGIN from opening another. -/
theorem raises_begin_of_open {a : Algi} {c : Ctx} {str : Str} (hs : s.session = .context a c str)
    (hopen : str ≠ .idle) :
    Raises .sencBegin s s 0x18#8 (streamStateError s 2#8) ∧
      Raises .sdecBegin s s 0x1C#8 (streamStateError s 2#8) := by
  change execSencBegin s = _ ∧ execSdecBegin s = _
  unfold execSencBegin execSdecBegin
  rw [hs]
  cases str with
  | idle => exact absurd rfl hopen
  | enc | dec => exact ⟨rfl, rfl⟩

theorem raises_of_not_enc (h : ∀ a c d, s.session ≠ .context a c (.enc d)) :
    Raises .sencData s s 0x19#8 (streamStateError s 1#8) ∧ Raises .sencEnd s s 0x1A#8 (streamStateError s 1#8) := by
  change execSencData s = _ ∧ execSencEnd s = _
  unfold execSencData execSencEnd
  cases hs : s.session with
  | none | keyed => exact ⟨rfl, rfl⟩
  | context a c str =>
    cases str with
    | idle | dec => exact ⟨rfl, rfl⟩
    | enc d => exact absurd hs (h a c d)

theorem raises_of_not_dec (h : ∀ a c d, s.session ≠ .context a c (.dec d)) :
    Raises .sdecData s s 0x1D#8 (streamStateError s 1#8) ∧ Raises .sdecEnd s s 0x1E#8 (streamStateError s 1#8) := by
  change execSdecData s = _ ∧ execSdecEnd s = _
  unfold execSdecData execSdecEnd
  cases hs : s.session with
  | none | keyed => exact ⟨rfl, rfl⟩
  | context a c str =>
    cases str with
    | idle | enc => exact ⟨rfl, rfl⟩
    | dec d => exact absurd hs (h a c d)

end

/-! ## SENC_BEGIN (48_streaming.md R372) -/

section
variable {s s' : State} {a : Algi} {c : Ctx}

/-- In a mode other than RANDOM_DELTA nothing is checked, drawn or stored. -/
theorem exec_sencBegin_of_no_delta (hs : s.session = .context a c .idle) (hm : c.mode ≠ .randomDelta) :
    exec .sencBegin s = .next ((s.setSession (.context a c (.enc ⟨[], c.iv, 0, none⟩))).completed 0x18#8 0) := by
  change execSencBegin s = _
  cases hmode : c.mode with
  | randomDelta => exact absurd hmode hm
  | ecb | cbc | pcbc | cfb | ofb | ctr =>
    simp only [execSencBegin, hs, sencOpen, hmode]
    rfl

theorem raises_sencBegin_of_dstCheck {e : CmdError} (hs : s.session = .context a c .idle)
    (hm : c.mode = .randomDelta) (h : s.dstCheck a.kind.bs = some e) : Raises .sencBegin s s 0x18#8 e := by
  change execSencBegin s = _
  simp only [execSencBegin, hs, hm, h]
  rfl

/-- A draw that fails comes before the store and leaves the stream closed. -/
theorem raises_sencBegin_of_drawEnt (hs : s.session = .context a c .idle) (hm : c.mode = .randomDelta)
    (hdst : s.dst + a.kind.bs ≤ s.build.bufBytes) (h : s.drawEnt a.kind.bs = (none, s')) :
    Raises .sencBegin s s' 0x18#8 deltaFailure := by
  change execSencBegin s = _
  simp only [execSencBegin, hs, hm, (s.dstCheck_eq_none _).mpr hdst, h]
  rfl

/-- The delta block that was drawn is put out and kept in STR. -/
theorem succeeds_sencBegin_of_drawEnt {d : List Byte} (hs : s.session = .context a c .idle)
    (hm : c.mode = .randomDelta) (hdst : s.dst + a.kind.bs ≤ s.build.bufBytes)
    (h : s.drawEnt a.kind.bs = (some d, s')) :
    Succeeds .sencBegin s (s'.setSession (.context a c (.enc ⟨[], c.iv, 0, some d⟩))) 0x18#8 d a.kind.bs := by
  obtain ⟨ent, free, hframe⟩ := s.drawEnt_frame a.kind.bs
  rw [h] at hframe
  obtain rfl : s' = { s with ent := ent, free := free } := hframe
  refine .of_stored rfl rfl ?_
  change execSencBegin s = _
  simp only [execSencBegin, hs, hm, (s.dstCheck_eq_none _).mpr hdst, h, sencOpen]
  rfl

end

/-! ## SENC_DATA (48_streaming.md R373) -/

section
variable {s : State} {a : Algi} {c : Ctx} {d : StrData}

theorem raises_sencData_of_rangeCheck {e : CmdError} (hs : s.session = .context a c (.enc d))
    (h : s.rangeCheck (sencBlocks a.kind.bs d s.len * a.kind.bs) = some e) : Raises .sencData s s 0x19#8 e := by
  change execSencData s = _
  simp only [execSencData, hs, h]
  rfl

/-- The complete blocks are put out, and STR keeps the chaining state and the rest. -/
theorem succeeds_sencData_of_inRange (hs : s.session = .context a c (.enc d))
    (hin : s.InRange (sencBlocks a.kind.bs d s.len * a.kind.bs)) :
    let r := d.advance (encStep (streamEnv s.build a c d)) a.kind.bs (sencBlocks a.kind.bs d s.len)
      (d.pend ++ s.memRead s.src s.len)
    Succeeds .sencData s (s.setSession (.context a c (.enc r.2))) 0x19#8 r.1
      (sencBlocks a.kind.bs d s.len * a.kind.bs) := by
  refine .of_stored rfl rfl ?_
  change execSencData s = _
  simp only [execSencData, hs, (s.rangeCheck_eq_none _).mpr hin]
  rfl

end

/-! ## SENC_END (48_streaming.md R374) -/

section
variable {s s' : State} {a : Algi} {c : Ctx} {d : StrData}

theorem raises_sencEnd_of_dstCheck {e : CmdError} (hs : s.session = .context a c (.enc d))
    (h : s.dstCheck a.kind.bs = some e) : Raises .sencEnd s (s.setSession (.context a c .idle)) 0x1A#8 e := by
  have hclosed : (s.setSession (.context a c .idle)).dstCheck a.kind.bs = some e := h
  change execSencEnd s = _
  simp only [execSencEnd, hs, hclosed]
  rfl

/-- A draw that fails comes before the store; the stream is closed all the same. -/
theorem raises_sencEnd_of_drawFill (hs : s.session = .context a c (.enc d))
    (hdst : s.dst + a.kind.bs ≤ s.build.bufBytes)
    (h : (s.setSession (.context a c .idle)).drawFill c.pad (padLen d.pend.length a.kind.bs) = (none, s')) :
    Raises .sencEnd s s' 0x1A#8 fillFailure := by
  have hclosed := (State.dstCheck_eq_none (s.setSession (.context a c .idle)) a.kind.bs).mpr hdst
  change execSencEnd s = _
  simp only [execSencEnd, hs, hclosed, State.pad, h]
  rfl

/-- With its fill drawn, SENC_END puts out the block that pads the rest. -/
theorem succeeds_sencEnd_of_drawFill {fill : List Byte} (hs : s.session = .context a c (.enc d))
    (hdst : s.dst + a.kind.bs ≤ s.build.bufBytes)
    (h : (s.setSession (.context a c .idle)).drawFill c.pad (padLen d.pend.length a.kind.bs) = (some fill, s')) :
    Succeeds .sencEnd s s' 0x1A#8 (encStep (streamEnv s.build a c d) d.chaining
      (d.pend ++ padTail c.pad (padLen d.pend.length a.kind.bs) fill)).1 a.kind.bs := by
  have hclosed := (State.dstCheck_eq_none (s.setSession (.context a c .idle)) a.kind.bs).mpr hdst
  obtain ⟨ent, free, hframe⟩ := State.drawFill_frame (s.setSession (.context a c .idle)) c.pad
    (padLen d.pend.length a.kind.bs)
  rw [h] at hframe
  obtain rfl : s' = { s.setSession (.context a c .idle) with ent := ent, free := free } := hframe
  refine .of_stored rfl rfl ?_
  change execSencEnd s = _
  simp only [execSencEnd, hs, hclosed, State.pad, h]
  rfl

end

/-! ## SDEC_BEGIN (48_streaming.md R376) -/

theorem exec_sdecBegin_of_idle {s : State} {a : Algi} {c : Ctx} (hs : s.session = .context a c .idle) :
    exec .sdecBegin s = .next ((s.setSession (.context a c (.dec (sdecOpen c)))).completed 0x1C#8 0) := by
  change execSdecBegin s = _
  simp only [execSdecBegin, hs]
  rfl

/-! ## SDEC_DATA (48_streaming.md R377) -/

section
variable {s : State} {a : Algi} {c : Ctx} {d d1 : StrData} {rest : List Byte}

theorem sdecBlocks_eq_ite (bs : Nat) (c : Ctx) (d : StrData) (len : Nat) :
    sdecBlocks bs c d len = (if c.mode = .randomDelta ∧ d.delta = none then d.pend.length + len - bs
      else d.pend.length + len) / bs - 2 := congrArg (· / bs - 2) (if_congr wantsDelta_iff rfl rfl)

/-- Unless the delta block is awaited and not all there, it is split off, and none is awaited any longer. -/
theorem takeDelta_of_not_collecting {bs : Nat} {all : List Byte}
    (h : ¬ ((c.mode = .randomDelta ∧ d.delta = none) ∧ all.length < bs)) :
    let delta := if c.mode = .randomDelta ∧ d.delta = none then some (all.take bs) else d.delta
    takeDelta bs c d all =
        ({ d with delta := delta }, if c.mode = .randomDelta ∧ d.delta = none then all.drop bs else all) ∧
      StrData.wantsDelta { d with delta := delta } c = false := by
  intro delta
  by_cases hawait : c.mode = .randomDelta ∧ d.delta = none
  · have hle : bs ≤ all.length := not_lt.mp fun hshort => h ⟨hawait, hshort⟩
    have hdelta : delta = some (all.take bs) := if_pos hawait
    rw [takeDelta_of_due (wantsDelta_iff.mpr hawait) hle, hdelta, if_pos hawait]
    exact ⟨rfl, Bool.and_false _⟩
  · have hwants : d.wantsDelta c = false := Bool.eq_false_iff.mpr (mt wantsDelta_iff.mp hawait)
    have hdelta : delta = d.delta := if_neg hawait
    rw [takeDelta_of_not_wanted hwants, hdelta, if_neg hawait]
    exact ⟨rfl, hwants⟩

theorem raises_sdecData_of_rangeCheck {e : CmdError} (hs : s.session = .context a c (.dec d))
    (h : s.rangeCheck (sdecBlocks a.kind.bs c d s.len * a.kind.bs) = some e) : Raises .sdecData s s 0x1D#8 e := by
  change execSdecData s = _
  simp only [execSdecData, hs, h]
  rfl

/-- While the delta block is not complete, everything received is held. -/
theorem exec_sdecData_of_collecting (hs : s.session = .context a c (.dec d))
    (hin : s.InRange (sdecBlocks a.kind.bs c d s.len * a.kind.bs)) (hwants : d.wantsDelta c = true)
    (hshort : (d.pend ++ s.memRead s.src s.len).length < a.kind.bs) :
    exec .sdecData s = .next ((s.setSession (.context a c
      (.dec { d with pend := d.pend ++ s.memRead s.src s.len }))).completed 0x1D#8 0) := by
  change execSdecData s = _
  simp only [execSdecData, hs, (s.rangeCheck_eq_none _).mpr hin, takeDelta_of_short hshort, if_pos hwants]
  rfl

/-- Once no delta block is awaited, all but the last two complete blocks are put out, and STR keeps the chaining state
and the rest. -/
theorem succeeds_sdecData_of_takeDelta (hs : s.session = .context a c (.dec d))
    (hin : s.InRange (sdecBlocks a.kind.bs c d s.len * a.kind.bs))
    (hsplit : takeDelta a.kind.bs c d (d.pend ++ s.memRead s.src s.len) = (d1, rest))
    (hwants : d1.wantsDelta c = false) :
    let r := d1.advance (decStep (streamEnv s.build a c d1)) a.kind.bs (sdecBlocks a.kind.bs c d s.len) rest
    Succeeds .sdecData s (s.setSession (.context a c (.dec r.2))) 0x1D#8 r.1
      (sdecBlocks a.kind.bs c d s.len * a.kind.bs) := by
  refine .of_stored rfl rfl ?_
  change execSdecData s = _
  simp only [execSdecData, hs, (s.rangeCheck_eq_none _).mpr hin, hsplit, if_neg (Bool.eq_false_iff.mp hwants)]
  rfl

end

/-! ## SDEC_END (48_streaming.md R378) -/

section
variable {s : State} {a : Algi} {c : Ctx} {d : StrData} {bs : Nat}

theorem sdecEndCheck_of_awaited (h : d.wantsDelta c = true) :
    sdecEndCheck bs c d = some ⟨.shortBuffer, 1#8, BitVec.ofNat 8 (min d.pend.length 255)⟩ := if_pos h

theorem sdecEndCheck_of_misaligned (h : ¬ d.wantsDelta c = true) (hmod : d.pend.length % bs ≠ 0) :
    sdecEndCheck bs c d = some ⟨.notAligned, if c.mode = .randomDelta then 2#8 else 1#8,
      BitVec.ofNat 8 (d.pend.length % bs)⟩ := (if_neg h).trans (if_pos hmod)

theorem sdecEndCheck_of_aligned (h : ¬ d.wantsDelta c = true) (hmod : d.pend.length % bs = 0) :
    sdecEndCheck bs c d = none := (if_neg h).trans (if_neg (not_not.mpr hmod))

theorem raises_sdecEnd_of_check {e : CmdError} (hs : s.session = .context a c (.dec d))
    (h : sdecEndCheck a.kind.bs c d = some e) :
    Raises .sdecEnd s (s.setSession (.context a c .idle)) 0x1E#8 e := by
  change execSdecEnd s = _
  simp only [execSdecEnd, hs, h]
  rfl

theorem raises_sdecEnd_of_dstCheck {e : CmdError} (hs : s.session = .context a c (.dec d))
    (hcheck : sdecEndCheck a.kind.bs c d = none) (h : s.dstCheck d.pend.length = some e) :
    Raises .sdecEnd s (s.setSession (.context a c .idle)) 0x1E#8 e := by
  have hclosed : (s.setSession (.context a c .idle)).dstCheck d.pend.length = some e := h
  change execSdecEnd s = _
  simp only [execSdecEnd, hs, hcheck, hclosed]
  rfl

theorem exec_sdecEnd_of_dst (hs : s.session = .context a c (.dec d)) (hcheck : sdecEndCheck a.kind.bs c d = none)
    (hdst : s.dst + d.pend.length ≤ s.build.bufBytes) :
    exec .sdecEnd s = (s.setSession (.context a c .idle)).writeUnpadded 0x1E#8 c.pad
      (decBlocks (streamEnv s.build a c d) d.chaining d.pend).1 := by
  have hclosed := (State.dstCheck_eq_none (s.setSession (.context a c .idle)) d.pend.length).mpr hdst
  change execSdecEnd s = _
  simp only [execSdecEnd, hs, hcheck, hclosed]

end

/-! ## The obligations -/

/-- Settles O46: the context, the stream, the range, then the draw of the delta block decide. -/
theorem sencBeginOpensTheStream : Obligations.SencBeginOpensTheStream := by
  unfold Obligations.SencBeginOpensTheStream
  refine ⟨Laws.decode_encode (i := .sencBegin) rfl, fun s =>
    ⟨fun hctx => (raises_begin_of_ctx_none hctx).1, fun a c str hs => ?_⟩⟩
  refine ⟨fun hopen => (raises_begin_of_open hs hopen).1, ?_, ?_⟩
  · rintro rfl hm
    exact exec_sencBegin_of_no_delta hs hm
  · rintro rfl hm
    exact ⟨fun hlt => raises_sencBegin_of_dstCheck hs hm (State.dstCheck_of_lt hlt), fun hdst =>
      ⟨fun _ => raises_sencBegin_of_drawEnt hs hm hdst, fun _ _ => succeeds_sencBegin_of_drawEnt hs hm hdst⟩⟩

/-- Settles O47: the stream, then the ranges decide. -/
theorem sencDataEncryptsWholeBlocks : Obligations.SencDataEncryptsWholeBlocks := by
  unfold Obligations.SencDataEncryptsWholeBlocks
  refine ⟨Laws.decode_encode (i := .sencData) rfl, fun s =>
    ⟨fun hclosed => (raises_of_not_enc hclosed).1, fun a c d hs => ?_⟩⟩
  exact ⟨.of_rangeCheck fun _ => raises_sencData_of_rangeCheck hs, succeeds_sencData_of_inRange hs⟩

/-- Settles O48: the stream, the range, then the draw of the fill decide. -/
theorem sencEndPadsAndCloses : Obligations.SencEndPadsAndCloses := by
  unfold Obligations.SencEndPadsAndCloses
  refine ⟨Laws.decode_encode (i := .sencEnd) rfl, fun s =>
    ⟨fun hclosed => (raises_of_not_enc hclosed).2, fun a c d hs => ?_⟩⟩
  exact ⟨fun hlt => raises_sencEnd_of_dstCheck hs (State.dstCheck_of_lt hlt), fun hdst =>
    ⟨fun _ => raises_sencEnd_of_drawFill hs hdst, fun _ _ => succeeds_sencEnd_of_drawFill hs hdst⟩⟩

/-- Settles O49: the context, then the stream decide. -/
theorem sdecBeginOpensTheStream : Obligations.SdecBeginOpensTheStream := by
  unfold Obligations.SdecBeginOpensTheStream
  refine ⟨Laws.decode_encode (i := .sdecBegin) rfl, fun s =>
    ⟨fun hctx => (raises_begin_of_ctx_none hctx).2, fun a c str hs => ?_⟩⟩
  refine ⟨fun hopen => (raises_begin_of_open hs hopen).2, ?_⟩
  rintro rfl
  exact exec_sdecBegin_of_idle hs

/-- Settles O50: the stream, then the ranges decide; then whether the delta block is awaited, and there. -/
theorem sdecDataHoldsBackTwoBlocks : Obligations.SdecDataHoldsBackTwoBlocks := by
  unfold Obligations.SdecDataHoldsBackTwoBlocks
  refine ⟨Laws.decode_encode (i := .sdecData) rfl, fun s =>
    ⟨fun hclosed => (raises_of_not_dec hclosed).1, fun a c d hs => ?_⟩⟩
  dsimp only
  rw [← sdecBlocks_eq_ite]
  refine ⟨.of_rangeCheck fun _ => raises_sdecData_of_rangeCheck hs, fun hin =>
    ⟨fun hawait hshort => ?_, fun hdue => ?_⟩⟩
  · have hexec := exec_sdecData_of_collecting hs hin (wantsDelta_iff.mpr hawait) hshort
    rwa [hawait.2] at hexec
  · obtain ⟨hsplit, hwants⟩ := takeDelta_of_not_collecting hdue
    have hstored := succeeds_sdecData_of_takeDelta hs hin hsplit hwants
    dsimp only [StrData.advance, streamEnv] at hstored
    exact hstored

/-- Settles O51: the stream, the delta block, the length, the range decide; then the padded plaintext is stored, and
unpad decides how the command ends. -/
theorem sdecEndUnpadsAndCloses : Obligations.SdecEndUnpadsAndCloses := by
  unfold Obligations.SdecEndUnpadsAndCloses
  refine ⟨Laws.decode_encode (i := .sdecEnd) rfl, fun s =>
    ⟨fun hclosed => (raises_of_not_dec hclosed).2, fun a c d hs => ?_⟩⟩
  dsimp only
  rw [← wantsDelta_iff]
  refine ⟨fun hawait => raises_sdecEnd_of_check hs (sdecEndCheck_of_awaited hawait), fun hgot hmod =>
    raises_sdecEnd_of_check hs (sdecEndCheck_of_misaligned hgot hmod), fun hgot hmod hlt =>
    raises_sdecEnd_of_dstCheck hs (sdecEndCheck_of_aligned hgot hmod) (State.dstCheck_of_lt hlt),
    fun hgot hmod hdst => ?_⟩
  have hexec := exec_sdecEnd_of_dst hs (sdecEndCheck_of_aligned hgot hmod) hdst
  exact ⟨fun p hp => .of_stored rfl rfl (hexec.trans (State.writeUnpadded_of_ok hp)), fun e he =>
    .of_stored rfl rfl (hexec.trans (State.writeUnpadded_of_error he))⟩

end Sys2Proof.Machine
end

section
/-! The writes that end a command (60_exceptions.md R400, R401), with ERRINFO taken apart into its fields. -/

namespace Sys2Proof.Machine

/-- Two bytes side by side, extended by zeros, are the first shifted and the second. -/
theorem zero_append_append_eq_or {n : Nat} (x y : Byte) :
    0#n ++ x ++ y = (x.setWidth (n + 8 + 8) <<< 8) ||| y.setWidth (n + 8 + 8) := by
  refine BitVec.eq_of_getLsbD_eq fun k hk => ?_
  rw [BitVec.getLsbD_append, BitVec.getLsbD_append]
  by_cases hlow : k < 8
  · simp [hlow, hk]
  · simpa [hlow, hk, BitVec.getLsbD_of_ge y k (by omega)] using BitVec.lt_of_getLsbD

/-- ERRINFO holds the info value in 15:8 and the sub-cause in 7:0 (10_state.md R33). -/
theorem CmdError.errinfo_eq (e : CmdError) : e.errinfo = (e.info.setWidth 32 <<< 8) ||| e.sub.setWidth 32 :=
  zero_append_append_eq_or (n := 16) e.info e.sub

/-- An error sets DONE and ERR together (60_exceptions.md R401). -/
theorem or_intDone_or_intErr (p : BitVec 3) : p ||| intDone ||| intErr = p ||| 0b011#3 := BitVec.or_assoc p _ _

/-- Settles O14: the writes are those of the definitions, with the bits of INT_STATUS taken together and ERRINFO as the
or of its fields. -/
theorem completionAndErrorWrites : Obligations.CompletionAndErrorWrites := by
  unfold Obligations.CompletionAndErrorWrites
  refine ⟨fun _ _ _ => rfl, fun s op e => ?_⟩
  rw [← e.errinfo_eq, ← or_intDone_or_intErr]
  rfl

end Sys2Proof.Machine
end

section
/-! What a command leaves where it ends with an error (60_exceptions.md R401), said once for every command: the session
that its rule gives after an error, draws from the entropy source, and in BUF at most the padded plaintext that unpad
refused, which is no longer than MAXOUT. Each command's checks come before its store, but for that one. -/

namespace Sys2Proof.Machine

/-! ## Lengths and names -/

/-- Decryption gives no more bytes than it takes, whatever state it starts from. -/
theorem decBlocks_length_le {e : ModeEnv} {st : Chain} {x : List Byte} (henc : ∀ y, (e.enc y).length = e.bs)
    (hdec : ∀ y, (e.dec y).length = e.bs) : (decBlocks e st x).1.length ≤ x.length := by
  have hwhole : x.length / e.bs * e.bs ≤ x.length := Nat.div_mul_le_self _ _
  have hrun := runSteps_length_le (f := decStep e) (st := st) (fun st y hy => decStep_length_le henc hdec hy)
    (fun y hy => (blocks_block_length hwhole y hy).le)
  rw [blocks_length] at hrun
  exact hrun.trans hwhole

theorem decBlocks_modeEnv_length_le (b : Build) (a : Algi) (c : Ctx) (d : List Byte) (st : Chain) (x : List Byte) :
    (decBlocks (modeEnv b a c d) st x).1.length ≤ x.length :=
  decBlocks_length_le (modeEnv_enc_length b a c d) (modeEnv_dec_length b a c d)

/-- The padded plaintext of DECRYPT is no longer than the body of its ciphertext (47_modes.md R347). -/
theorem decryptBuf_length_le (b : Build) (a : Algi) (c : Ctx) (y : List Byte) :
    (decryptBuf b a c y).length ≤ y.length - deltaLen c.mode a.kind.bs :=
  (decBlocks_modeEnv_length_le b a c _ c.init _).trans_eq List.length_drop

theorem maxOutOf_decrypt {s : State} {a : Algi} {c : Ctx} {str : Str} (hs : s.session = .context a c str) :
    maxOutOf .decrypt s = s.len - deltaLen c.mode a.kind.bs := by
  simp only [maxOutOf, hs, decryptMaxOut]

theorem maxOutOf_sdecEnd {s : State} {a : Algi} {c : Ctx} {d : StrData} (hs : s.session = .context a c (.dec d)) :
    maxOutOf .sdecEnd s = d.pend.length := by
  simp only [maxOutOf, hs]

theorem lastByteChecked_error_name {x : List Byte} {e : CmdError} (h : lastByteChecked x = .error e) :
    e.name = .paddingError := by
  unfold lastByteChecked at h
  split at h
  · cases h
    rfl
  · split_ifs at h <;> (cases h; rfl)

/-- unpad raises nothing but PADDING_ERROR (46_padding.md R302). -/
theorem unpad_error_name {scheme : PadScheme} {x : List Byte} {e : CmdError} (h : unpad scheme x = .error e) :
    e.name = .paddingError := by
  cases scheme with
  | zeros => cases h
  | ansiX923 | iso10126 =>
    simp only [unpad] at h
    split at h
    · next hlast =>
      cases h
      exact lastByteChecked_error_name hlast
    · cases h
  | pkcs7 =>
    simp only [unpad] at h
    split at h
    · next hlast =>
      cases h
      exact lastByteChecked_error_name hlast
    · split_ifs at h
      cases h
      rfl

theorem dstCheck_error_name {s : State} {n : Nat} {e : CmdError} (h : s.dstCheck n = some e) :
    e.name = .bufferRange := by
  obtain ⟨hnone, -⟩ | ⟨hsome, -⟩ := s.dstCheck_cases n
  · rw [hnone] at h
    cases h
  · rw [hsome] at h
    cases h
    rfl

theorem sdecEndCheck_error_name {bs : Nat} {c : Ctx} {d : StrData} {e : CmdError} (h : sdecEndCheck bs c d = some e) :
    e.name = .shortBuffer ∨ e.name = .notAligned := by
  unfold sdecEndCheck at h
  split_ifs at h
  · cases h
    exact .inl rfl
  all_goals
    cases h
    exact .inr rfl

theorem ErrName.code_eq_streamState_iff (n : ErrName) : n.code = 0x11#8 ↔ n = .streamState := by
  cases n <;> decide

/-! ## What an error leaves -/

/-- ALGI, CTX and STR after the command has raised: CTX_INIT and ALG_SETKEY have invalidated them, SENC_END and SDEC_END
have closed the stream that was theirs, any other command has left them (45_context.md R282, 44_block_commands.md R256,
48_streaming.md R374, R378). -/
def sessionAfterError (i : Instr) (e : CmdError) (x : Session) : Session :=
  match i with
  | .ctxInit | .algSetkey => .none
  | .sencEnd | .sdecEnd => if e.name = .streamState then x else x.closeStream
  | _ => x

theorem sessionAfterError_of_other {i : Instr} (hinit : i ≠ .ctxInit) (hkey : i ≠ .algSetkey)
    (hsenc : i ≠ .sencEnd) (hsdec : i ≠ .sdecEnd) (e : CmdError) (x : Session) : sessionAfterError i e x = x := by
  cases i with
  | ctxInit => exact absurd rfl hinit
  | algSetkey => exact absurd rfl hkey
  | sencEnd => exact absurd rfl hsenc
  | sdecEnd => exact absurd rfl hsdec
  | _ => rfl

theorem sessionAfterError_of_setup {i : Instr} (hi : i = .ctxInit ∨ i = .algSetkey) (e : CmdError) (x : Session) :
    sessionAfterError i e x = .none := by
  obtain rfl | rfl := hi
  · rfl
  · rfl

theorem sessionAfterError_of_end {i : Instr} (hi : i = .sencEnd ∨ i = .sdecEnd) (e : CmdError) (x : Session) :
    sessionAfterError i e x = if e.name = .streamState then x else x.closeStream := by
  obtain rfl | rfl := hi
  · rfl
  · rfl

/-- An error of SENC_END or SDEC_END on a stream that was theirs. -/
theorem sessionAfterError_of_closing {i : Instr} (hi : i = .sencEnd ∨ i = .sdecEnd) {e : CmdError}
    (he : e.name ≠ .streamState) {x : Session} {a : Algi} {c : Ctx} {str : Str} (hx : x = .context a c str) :
    sessionAfterError i e x = .context a c .idle := by
  rw [sessionAfterError_of_end hi, if_neg he, hx]
  rfl

/-- `x` is `s` after draws from the entropy source. -/
def State.Drawn (s x : State) : Prop := ∃ a k, x = { s with ent := a, free := k }

theorem State.Drawn.refl (s : State) : s.Drawn s := ⟨_, _, rfl⟩

/-- `x` is what the command has made of `s` before the writes of its error: the session of an error, draws, and in BUF
at most the padded plaintext that unpad refused. -/
structure LeftByError (i : Instr) (s x : State) (e : CmdError) : Prop where
  /-- No other field is new, and the session is the one that the command's rule gives after an error. -/
  frame : ∃ m a k, x = { s with session := sessionAfterError i e s.session, buf := m, ent := a, free := k }
  /-- Only a refused padding leaves BUF written, and only by the commands that unpad what they decrypt. -/
  buf : e.name = .paddingError ∧ (i = .decrypt ∨ i = .sdecEnd) ∨ x.buf = s.buf
  /-- BUF is written in the output range only. -/
  outside : ∀ a, a < s.dst ∨ s.dst + maxOutOf i s ≤ a → x.buf.read a = s.buf.read a

/-- The command completes, or raises over what an error may leave. -/
def ErrorsLeave (i : Instr) (s : State) (r : Res) : Prop :=
  (∃ (x : State) (n : Nat), r = .next (x.completed i.op n)) ∨
    ∃ x e, LeftByError i s x e ∧ r = .next (x.raised i.op e)

section
variable {i : Instr} {s x : State}

theorem ErrorsLeave.complete (n : Nat) : ErrorsLeave i s (x.complete i.op n) := .inl ⟨x, n, rfl⟩

/-- An error raised before anything is stored. -/
theorem ErrorsLeave.raise_drawn {e : CmdError} {se : Session} (hse : sessionAfterError i e s.session = se)
    (h : (s.setSession se).Drawn x) : ErrorsLeave i s (x.raise i.op e) := by
  subst hse
  obtain ⟨a, k, rfl⟩ := h
  exact .inr ⟨_, e, ⟨⟨_, a, k, rfl⟩, .inr rfl, fun _ _ => rfl⟩, rfl⟩

/-- An error raised before anything is drawn. -/
theorem ErrorsLeave.raise {e : CmdError} {se : Session} (hse : sessionAfterError i e s.session = se) :
    ErrorsLeave i s ((s.setSession se).raise i.op e) := .raise_drawn hse (.refl _)

/-- An error raised before anything is done at all. -/
theorem ErrorsLeave.raise_self {e : CmdError} (hse : sessionAfterError i e s.session = s.session) :
    ErrorsLeave i s (s.raise i.op e) := .raise_drawn hse (.refl s)

/-- The padded plaintext is stored before unpad can raise. -/
theorem ErrorsLeave.writeUnpadded {se : Session} {scheme : PadScheme} {y : List Byte}
    (hi : i = .decrypt ∨ i = .sdecEnd)
    (hse : ∀ e : CmdError, e.name = .paddingError → sessionAfterError i e s.session = se)
    (hlen : y.length ≤ maxOutOf i s) : ErrorsLeave i s ((s.setSession se).writeUnpadded i.op scheme y) := by
  cases hunpad : unpad scheme y with
  | ok p => exact .inl ⟨_, _, State.writeUnpadded_of_ok hunpad⟩
  | error e =>
    have hname := unpad_error_name hunpad
    have hstores : s.Stores s.dst y ((s.setSession se).memWrite s.dst y).buf := State.stores_memWrite_of_eq rfl rfl _ _
    refine .inr ⟨_, e, ⟨?_, .inl ⟨hname, hi⟩, ?_⟩, State.writeUnpadded_of_error hunpad⟩
    · rw [hse e hname]
      exact ⟨_, _, _, rfl⟩
    · exact fun a ha => hstores.2 a (by omega)

/-- A command that stores what it has checked the range for. -/
theorem ErrorsLeave.storeChecked {bytes : List Byte} {n : Nat}
    (hse : ∀ e, sessionAfterError i e s.session = s.session) : ErrorsLeave i s (s.storeChecked i.op bytes n) := by
  unfold State.storeChecked
  split
  · exact .raise_self (hse _)
  · exact .complete _

end

/-! ## Command by command -/

theorem blockCommand_errors {i : Instr} {f : Build → Algi → List Byte → List Byte} {s : State}
    (hse : ∀ e, sessionAfterError i e s.session = s.session) : ErrorsLeave i s (blockCommand i.op f s) := by
  unfold blockCommand
  split
  · exact .raise_self (hse _)
  · split_ifs
    · exact .raise_self (hse _)
    · exact .storeChecked hse

theorem execFEval_errors (s : State) : ErrorsLeave .fEval s (execFEval s) := by
  unfold execFEval
  split_ifs
  · exact .raise_self rfl
  · exact .storeChecked fun _ => rfl

/-- A GF command raises where its answer is an error, and touches neither the session nor BUF. -/
theorem exec_gf_errors {i : Instr} (hi : i = .gfMul ∨ i = .gfCube ∨ i = .sbox1 ∨ i = .sbox2) (s : State) :
    ErrorsLeave i s (exec i s) := by
  have hse : ∀ e, sessionAfterError i e s.session = s.session := by
    obtain rfl | rfl | rfl | rfl := hi <;> exact fun _ => rfl
  obtain ⟨answer, hexec⟩ := exec_gf_eq_gfEnd hi
  rw [hexec]
  cases answer s.build s.opnd with
  | error e => exact .raise_self (hse e)
  | ok v => exact .complete 0

theorem execPad_errors (psel : BitVec 3) (pbs : Byte) (s : State) :
    ErrorsLeave (.pad psel pbs) s (execPad psel pbs s) := by
  unfold execPad
  split_ifs
  · exact .raise_self rfl
  · split
    · exact .raise_self rfl
    · next scheme _ =>
      have hdrawn := s.pad_frame (s.memRead s.src s.len) pbs.toNat scheme
      dsimp only
      split
      · exact .raise_self rfl
      · split
        · next hpad =>
          rw [hpad] at hdrawn
          exact .raise_drawn rfl hdrawn
        · exact .complete _

theorem execUnpad_errors (psel : BitVec 3) (s : State) : ErrorsLeave (.unpad psel) s (execUnpad psel s) := by
  unfold execUnpad
  split
  · exact .raise_self rfl
  · split
    · exact .raise_self rfl
    · split
      · exact .raise_self rfl
      · exact .complete _

theorem execEncrypt_errors (s : State) : ErrorsLeave .encrypt s (execEncrypt s) := by
  unfold execEncrypt
  split
  · exact .raise_self rfl
  · exact .raise_self rfl
  · next a c _ _ =>
    have hdrawn := encryptBuf_frame s.build a c (s.memRead s.src s.len) s
    dsimp only
    split
    · exact .raise_self rfl
    · split
      · next hbuf =>
        rw [hbuf] at hdrawn
        exact .raise_drawn rfl hdrawn
      · exact .complete _

theorem execSencBegin_errors (s : State) : ErrorsLeave .sencBegin s (execSencBegin s) := by
  unfold execSencBegin
  split
  · exact .raise_self rfl
  · exact .raise_self rfl
  · exact .raise_self rfl
  · exact .raise_self rfl
  · next a c _ =>
    have hdrawn := s.drawEnt_frame a.kind.bs
    split
    · split
      · exact .raise_self rfl
      · split
        · next hdraw =>
          rw [hdraw] at hdrawn
          exact .raise_drawn rfl hdrawn
        · exact .complete _
    all_goals exact .complete _

theorem execSencData_errors (s : State) : ErrorsLeave .sencData s (execSencData s) := by
  unfold execSencData
  split
  · dsimp only
    split
    · exact .raise_self rfl
    · exact .complete _
  all_goals exact .raise_self rfl

theorem execSdecBegin_errors (s : State) : ErrorsLeave .sdecBegin s (execSdecBegin s) := by
  unfold execSdecBegin
  split
  · exact .raise_self rfl
  · exact .raise_self rfl
  · exact .raise_self rfl
  · exact .raise_self rfl
  · exact .complete _

theorem execSdecData_errors (s : State) : ErrorsLeave .sdecData s (execSdecData s) := by
  unfold execSdecData
  split
  · dsimp only
    split
    · exact .raise_self rfl
    · split_ifs
      · exact .complete _
      · exact .complete _
  all_goals exact .raise_self rfl

theorem execCtxInit_errors (s : State) : ErrorsLeave .ctxInit s (execCtxInit s) := by
  unfold execCtxInit
  dsimp only
  split
  · exact .raise rfl
  · exact .complete _

theorem execAlgSetkey_errors (s : State) : ErrorsLeave .algSetkey s (execAlgSetkey s) := by
  unfold execAlgSetkey
  dsimp only
  split
  · exact .raise rfl
  · exact .complete _

theorem execDecrypt_errors (s : State) : ErrorsLeave .decrypt s (execDecrypt s) := by
  unfold execDecrypt
  split
  · exact .raise_self rfl
  · exact .raise_self rfl
  · next a c _ hs =>
    split
    · exact .raise_self rfl
    · split
      · exact .raise_self rfl
      · have hlen := decryptBuf_length_le s.build a c (s.memRead s.src s.len)
        rw [State.memRead_length] at hlen
        exact .writeUnpadded (se := s.session) (.inl rfl) (fun _ _ => rfl) (hlen.trans_eq (maxOutOf_decrypt hs).symm)

theorem execSencEnd_errors (s : State) : ErrorsLeave .sencEnd s (execSencEnd s) := by
  unfold execSencEnd
  split
  · next a c d hs =>
    have hdrawn := (s.setSession (.context a c .idle)).pad_frame d.pend a.kind.bs c.pad
    dsimp only
    split
    · next hdst =>
      exact .raise (sessionAfterError_of_closing (.inl rfl) (by simp [dstCheck_error_name hdst]) hs)
    · split
      · next hpad =>
        rw [hpad] at hdrawn
        exact .raise_drawn (sessionAfterError_of_closing (.inl rfl) (by simp [fillFailure]) hs) hdrawn
      · exact .complete _
  all_goals exact .raise_self rfl

theorem execSdecEnd_errors (s : State) : ErrorsLeave .sdecEnd s (execSdecEnd s) := by
  unfold execSdecEnd
  split
  · next a c d hs =>
    dsimp only
    split
    · next hcheck =>
      refine .raise (sessionAfterError_of_closing (.inr rfl) ?_ hs)
      obtain hname | hname := sdecEndCheck_error_name hcheck <;> simp [hname]
    · split
      · next hdst =>
        exact .raise (sessionAfterError_of_closing (.inr rfl) (by simp [dstCheck_error_name hdst]) hs)
      · refine .writeUnpadded (.inr rfl) (fun e he => sessionAfterError_of_closing (.inr rfl) (by simp [he]) hs) ?_
        exact (decBlocks_modeEnv_length_le s.build a c _ d.chaining d.pend).trans_eq (maxOutOf_sdecEnd hs).symm
  all_goals exact .raise_self rfl

/-- What every command leaves where it ends with an error. -/
theorem exec_errors (i : Instr) (s : State) : ErrorsLeave i s (exec i s) := by
  cases i with
  | nop | ctxClear | streamAbort => exact .complete _
  | ctxInit => exact execCtxInit_errors s
  | algSetkey => exact execAlgSetkey_errors s
  | blkEnc | blkDec => exact blockCommand_errors fun _ => rfl
  | fEval => exact execFEval_errors s
  | encrypt => exact execEncrypt_errors s
  | decrypt => exact execDecrypt_errors s
  | sencBegin => exact execSencBegin_errors s
  | sencData => exact execSencData_errors s
  | sencEnd => exact execSencEnd_errors s
  | sdecBegin => exact execSdecBegin_errors s
  | sdecData => exact execSdecData_errors s
  | sdecEnd => exact execSdecEnd_errors s
  | gfMul | gfCube | sbox1 | sbox2 => exact exec_gf_errors (by simp) s
  | pad psel pbs => exact execPad_errors psel pbs s
  | unpad psel => exact execUnpad_errors psel s

/-! ## The obligation -/

/-- Settles O15: no write of a completion sets ERR, so the command has raised, over what an error leaves. -/
theorem errorsChangeNothingElse : Obligations.ErrorsChangeNothingElse := by
  unfold Obligations.ErrorsChangeNothingElse
  intro i s t hexec herr
  obtain ⟨x, n, hends⟩ | ⟨x, e, ⟨⟨m, a, k, rfl⟩, hbuf, houtside⟩, hends⟩ := exec_errors i s
  · obtain rfl := Host.Outcome.next.inj (hexec.symm.trans hends)
    cases herr
  · obtain rfl := Host.Outcome.next.inj (hexec.symm.trans hends)
    have hpadding : e.name = .paddingError → e.name.code = 0x0B#8 := fun h => by rw [h]; rfl
    refine ⟨⟨e, rfl, e.errinfo_eq⟩, rfl, rfl, or_intDone_or_intErr _, rfl, rfl, rfl, rfl, rfl, rfl, rfl, rfl, rfl, ?_,
      ?_, ?_, hbuf.imp_left (And.imp_left hpadding), houtside⟩
    · exact fun hinit hkey hsenc hsdec => sessionAfterError_of_other hinit hkey hsenc hsdec e _
    · exact fun hi => sessionAfterError_of_setup hi e _
    · exact fun hi => (sessionAfterError_of_end hi e _).trans (if_congr e.name.code_eq_streamState_iff.symm rfl rfl)

end Sys2Proof.Machine
end

section
/-! The reset input (70_reset_and_hazards.md R450, R455; 60_exceptions.md R413): what a cycle that serves it leaves, and
what an access can do while it is asserted. -/

namespace Sys2Proof.Machine

/-- A lost access writes the response, and the count of draws where it is a read. -/
theorem State.lostAccess_frame (s : State) (a : Access) :
    ∃ r k, s.lostAccess a = { s with resp := r, free := k } := by
  unfold State.lostAccess
  split
  · exact ⟨_, _, rfl⟩
  · exact ⟨_, _, rfl⟩

/-- While reset is asserted an access of any kind is lost (70_reset_and_hazards.md R455; log 9). -/
theorem State.access_frame_of_inReset (s : State) (a : Access) (h : s.inReset = true) :
    ∃ r k, s.access a = { s with resp := r, free := k } := by
  unfold State.access
  split_ifs
  · exact ⟨none, s.free, rfl⟩
  · exact s.lostAccess_frame a

/-- The assertion of reset comes before a completion in its cycle, and leaves no command in progress that could still
complete (60_exceptions.md R413; log 16). -/
theorem step_reset_asserted {s : State} {rest : List Input} (hin : s.inbox = .rst true :: rest) :
    step s = .next (State.setReset { s with inbox := rest } true) := by
  have hin' : s.countDown.inbox = .rst true :: rest := by rw [State.countDown_eq, hin]
  have hserve : State.serve { s.countDown with inbox := rest } (.rst true) =
      State.setReset { s with inbox := rest } true := by rw [State.countDown_eq]; rfl
  simp only [step, cycle, hin', Input.beforeCompletion, if_true, hserve]
  exact finishDue_idle rfl

/-- Settles O13: the assertion abandons the command before it can complete; with no command in progress, a lost access
and the release are all that their steps do. -/
theorem resetInputWinsAndHolds : Obligations.ResetInputWinsAndHolds := by
  unfold Obligations.ResetInputWinsAndHolds
  refine ⟨fun s rest hin => step_reset_asserted hin, fun s a rest hreset hrun hin => ?_, fun s rest hrun hin => ?_⟩
  · obtain ⟨r, k, haccess⟩ := State.access_frame_of_inReset { s with inbox := rest } a hreset
    refine ⟨r, k, ?_⟩
    rw [step_idle hrun hin, State.serve, haccess]
    exact finishDue_idle hrun
  · rw [step_idle hrun hin]
    exact finishDue_idle hrun

end Sys2Proof.Machine
end

section
/-! The interrupt output and the write-1-to-clear bits of INT_STATUS (60_exceptions.md R411; 10_state.md R31), bit by
bit. -/

namespace Sys2Proof.Machine

/-- Some bit is set in both words, or none is. -/
theorem and_ne_zero_eq_or_bits : ∀ p q : BitVec 3, (p &&& q != 0#3) =
    ((p.getLsbD 0 && q.getLsbD 0) || (p.getLsbD 1 && q.getLsbD 1) || (p.getLsbD 2 && q.getLsbD 2)) := by decide

/-- A bit of INT_STATUS stays pending where the acknowledgement has a 0 (10_state.md R31). -/
theorem State.ackInt_getLsbD (s : State) (v : Word32) (k : Nat) :
    (s.ackInt v).intStatus.getLsbD k = (s.intStatus.getLsbD k && !v.getLsbD k) := by
  rw [State.ackInt_intStatus, BitVec.getLsbD_and, BitVec.getLsbD_not, BitVec.getLsbD_extractLsb', Nat.zero_add]
  by_cases hk : k < 3
  · simp [hk]
  · simp [BitVec.getLsbD_of_ge s.intStatus k (by omega)]

/-- A step of an idle core that serves an acknowledgement. -/
theorem step_intStatus_write {s : State} {v : Word32} {rest : List Input} (hrun : s.running = none)
    (hreset : s.inReset = false)
    (hin : s.inbox = .bus ⟨s.build.base + Reg.intStatus.offset, .w32, .write v⟩ :: rest) :
    step s = .next { s with
      inbox := rest, resp := some ⟨false, 0#32⟩, intStatus := (s.ackInt v).intStatus } := by
  have hserve : State.serve { s with inbox := rest } (.bus ⟨s.build.base + Reg.intStatus.offset, .w32, .write v⟩) =
      (State.ackInt { s with inbox := rest } v).respond false 0#32 :=
    State.access_write_reg { s with inbox := rest } .intStatus v hreset
  rw [step_idle hrun hin, hserve, finishDue_idle (by exact hrun)]
  rfl

/-- Settles O58: IRQ tests the three bits together; a write to INT_STATUS is the acknowledgement and nothing else. -/
theorem irqFollowsPendingAndEnable : Obligations.IrqFollowsPendingAndEnable := by
  unfold Obligations.IrqFollowsPendingAndEnable
  refine ⟨fun s => and_ne_zero_eq_or_bits _ _, fun b => by simp [State.irq, State.resetOf],
    fun s v rest hrun hreset hin => ?_⟩
  exact ⟨_, step_intStatus_write hrun hreset hin, s.ackInt_getLsbD v⟩

end Sys2Proof.Machine
end

section
/-! The first command after reset (70_reset_and_hazards.md R451): what the reset values of the operands, the session and
the stream make of each check that a command begins with. -/

namespace Sys2Proof.Machine

/-! ## The checks on the reset values -/

section
variable (b : Build)

@[simp] theorem State.resetOf_opnd : (State.resetOf b).opnd = Args.reset := rfl

@[simp] theorem State.resetOf_len : (State.resetOf b).len = 0 := rfl

/-- The reset value of CFG selects the Feistel cipher, ECB and ZEROS, but its BS is 0. -/
theorem ctxInitPlan_reset : ctxInitPlan b Args.reset = .error ⟨.invalidBlockSize, 1#8, 0#8⟩ :=
  ctxInitPlan_of_bs_ne b (kind := .feistel) (mode := .ecb) (pad := .zeros) rfl rfl rfl (by decide)

/-- The key of KEYLEN = 0 is not one of the Feistel cipher's. -/
theorem algSetkeyPlan_reset : algSetkeyPlan b Args.reset = .error ⟨.invalidKeySize, 2#8, 0#8⟩ :=
  (algSetkeyPlan_of_keylen_le b (kind := .feistel) rfl (by decide)).trans
    (keyAlgi_feistel_of_length_ne b (key := Args.reset.keyBytes 0) (by decide))

/-- WIDTH = 0 is below every width. -/
theorem gfWidthChecked_reset (v : Word32) : gfWidthChecked Args.reset v = .error ⟨.gfWidth, 1#8, 0#8⟩ :=
  gfWidthChecked_outside v (by decide)

/-- STATUS after CTX_INIT's error: LASTOP 0x01, ERRCODE 0x04, ERR, and no other bit (10_state.md R24). -/
theorem State.resetOf_raised_status :
    ((State.resetOf b).raised 0x01#8 ⟨.invalidBlockSize, 1#8, 0#8⟩).status = 0x00010402#32 := by
  change 0#8 ++ 0x01#8 ++ 0x04#8 ++ 0#2 ++ 0#2 ++ 0#1 ++ 0#1 ++ 1#1 ++ 0#1 = _
  decide

/-- No stream is open. -/
theorem State.resetOf_session_ne_context (a : Algi) (c : Ctx) (str : Str) :
    (State.resetOf b).session ≠ .context a c str := nofun

/-! ## The GF commands -/

theorem exec_gfMul_resetOf :
    exec .gfMul (State.resetOf b) = .next ((State.resetOf b).raised 0x20#8 ⟨.gfWidth, 1#8, 0#8⟩) := by
  rw [exec_gfMul, State.resetOf_opnd, gfWidthChecked_reset]
  rfl

theorem exec_gfCube_resetOf :
    exec .gfCube (State.resetOf b) = .next ((State.resetOf b).raised 0x21#8 ⟨.gfWidth, 1#8, 0#8⟩) := by
  rw [exec_gfCube, State.resetOf_opnd, gfWidthChecked_reset]
  rfl

/-- The cube of 0x1FFF, the complement of 0. -/
theorem sboxS1_zero : sboxS1 0#13 = 0x27#8 := by decide

/-- The cube of 0x7FF, the complement of 0, modulo 0xA7. -/
theorem sboxS2_zero : sboxS2 0xA7 0#11 = 0xD7#8 := by decide

theorem exec_sbox1_resetOf :
    exec .sbox1 (State.resetOf b) = .next ({ State.resetOf b with gfRes := 0x27#32 }.completed 0x22#8 0) := by
  rw [exec_sbox1, State.resetOf_opnd, show Args.reset.gfA.extractLsb' 0 13 = 0#13 from rfl, sboxS1_zero]
  rfl

theorem exec_sbox2_resetOf (hm : b.s2Modulus = 0xA7) :
    exec .sbox2 (State.resetOf b) = .next ({ State.resetOf b with gfRes := 0xD7#32 }.completed 0x23#8 0) := by
  rw [exec_sbox2, State.resetOf_opnd, show (State.resetOf b).build.s2Modulus = 0xA7 from hm,
    show Args.reset.gfA.extractLsb' 0 11 = 0#11 from rfl, sboxS2_zero]
  rfl

end

/-! ## The obligation -/

/-- Settles O11: no context, no key and no stream stop the commands that need one; LEN, BS, KEYLEN and WIDTH of 0 stop
those that check them; the others complete. -/
theorem firstCommandsAfterReset : Obligations.FirstCommandsAfterReset := by
  unfold Obligations.FirstCommandsAfterReset
  intro b s
  have hctx : s.session.ctx = none := rfl
  have halgi : s.session.algi = none := rfl
  have hlen : s.len ≠ 16 := by simp [s]
  obtain ⟨hsencBegin, hsdecBegin⟩ := raises_begin_of_ctx_none hctx
  obtain ⟨hsencData, hsencEnd⟩ :=
    raises_of_not_enc (s := s) fun a c d => State.resetOf_session_ne_context b a c (.enc d)
  obtain ⟨hsdecData, hsdecEnd⟩ :=
    raises_of_not_dec (s := s) fun a c d => State.resetOf_session_ne_context b a c (.dec d)
  exact ⟨raises_encrypt_of_ctx_none hctx, raises_decrypt_of_ctx_none hctx, hsencBegin, hsdecBegin,
    blockCommand_of_not_keyed (f := algEnc) halgi, blockCommand_of_not_keyed (f := algDec) halgi,
    exec_fEval_of_len_ne hlen, hsencData, hsencEnd, hsdecData, hsdecEnd, exec_gfMul_resetOf b, exec_gfCube_resetOf b,
    raises_ctxInit (s := s) (ctxInitPlan_reset b), State.resetOf_raised_status b,
    raises_algSetkey (s := s) (algSetkeyPlan_reset b), exec_nop s, exec_ctxClear s, exec_streamAbort s,
    exec_sbox1_resetOf b, exec_sbox2_resetOf b⟩

end Sys2Proof.Machine
end

section
/-! What a command does before its completion or error writes, said once for every command: the bytes it stores lie in
[DST, DST + MAXOUT), which lies in BUF (10_state.md R51, 20_memory.md R77); it leaves ALGI and CTX unless it sets them up
(44_block_commands.md R257, 45_context.md R285); and what it leaves in ALGI, CTX and STR is well-formed. -/

namespace Sys2Proof.Machine

/-! ## The store -/

/-- `m` is BUF as it was, or with at most `n` bytes written from DST on, where `n` bytes lie in BUF. -/
def State.StoredInRange (s : State) (n : Nat) (m : Memory) : Prop :=
  m = s.buf ∨ s.dst + n ≤ s.build.bufBytes ∧ ∃ bytes : List Byte, bytes.length ≤ n ∧ m = s.buf.writeN s.dst bytes

section
variable {s : State} {n : Nat} {m : Memory}

/-- The part of R51 that speaks of BUF. -/
theorem State.StoredInRange.read_outside (h : s.StoredInRange n m) (a : Nat) (ha : a < s.dst ∨ s.dst + n ≤ a) :
    m.read a = s.buf.read a := by
  obtain rfl | ⟨-, bytes, hlen, rfl⟩ := h
  · rfl
  · exact Memory.read_writeN_outside _ _ _ _ (by omega)

theorem State.StoredInRange.era (h : s.StoredInRange n m) : m.era = s.buf.era := by
  obtain rfl | ⟨-, bytes, -, rfl⟩ := h
  · rfl
  · exact Memory.writeN_era _ _ _

/-- Bytes written inside BUF keep its form. -/
theorem Memory.Ok.writeN {b : Build} (h : m.Ok b) {a : Nat} {bytes : List Byte}
    (hin : a + bytes.length ≤ b.bufBytes ∨ bytes = []) : (m.writeN a bytes).Ok b :=
  ⟨Memory.wf_writeN _ _ _ h.1, Memory.writeN_below _ _ _ _ hin h.2⟩

theorem State.StoredInRange.ok (h : s.StoredInRange n m) (hs : s.buf.Ok s.build) : m.Ok s.build := by
  obtain rfl | ⟨hin, bytes, hlen, rfl⟩ := h
  · exact hs
  · exact hs.writeN (.inl (by omega))

end

/-! ## The work of a command -/

/-- `x` is what the command has made of `s` before its completion or error writes. -/
structure Worked (i : Instr) (s x : State) : Prop where
  /-- Only GF_RES, the session, BUF, the entropy answers and the count of draws are new. -/
  touched : s.Touched x
  /-- GF_RES is the GF commands'. -/
  gfRes : i ≠ .gfMul → i ≠ .gfCube → i ≠ .sbox1 → i ≠ .sbox2 → x.gfRes = s.gfRes
  /-- ALGI and CTX are the setup commands'. -/
  key : i ≠ .ctxInit → i ≠ .algSetkey → i ≠ .ctxClear →
    x.session.algi = s.session.algi ∧ x.session.ctx = s.session.ctx
  /-- The session stays well-formed. -/
  session : s.session.Ok s.build → x.session.Ok s.build
  /-- The bytes stored lie in the output range, and that in BUF. -/
  buf : s.session.Ok s.build → s.StoredInRange (maxOutOf i s) x.buf

/-- The outcome of a command: its completion or error writes over its work. -/
def Works (i : Instr) (s : State) (r : Res) : Prop :=
  ∃ x, Worked i s x ∧ ((∃ n, r = .next (x.completed i.op n)) ∨ ∃ e, r = .next (x.raised i.op e))

section
variable {i : Instr} {s x u : State}

theorem Works.complete (n : Nat) (h : Worked i s x) : Works i s (x.complete i.op n) := ⟨x, h, .inl ⟨n, rfl⟩⟩

theorem Works.raise (e : CmdError) (h : Worked i s x) : Works i s (x.raise i.op e) := ⟨x, h, .inr ⟨e, rfl⟩⟩

theorem Worked.refl (i : Instr) (s : State) : Worked i s s :=
  ⟨.refl s, fun _ _ _ _ => rfl, fun _ _ _ => ⟨rfl, rfl⟩, id, fun _ => .inl rfl⟩

theorem State.Drawn.buf (h : s.Drawn x) : x.buf = s.buf := by
  obtain ⟨e, k, rfl⟩ := h
  rfl

theorem Worked.drawn (h : Worked i s u) (hx : u.Drawn x) : Worked i s x := by
  obtain ⟨htouched, hgf, hkey, hsession, hbuf⟩ := h
  obtain ⟨e, k, rfl⟩ := hx
  exact ⟨htouched.trans ⟨_, _, _, _, _, rfl⟩, hgf, hkey, hsession, hbuf⟩

/-- The store of a command that has checked the range of its MAXOUT. -/
theorem Worked.memWrite (h : Worked i s u) (hu : u.buf = s.buf) {n : Nat} {bytes : List Byte}
    (hn : maxOutOf i s = n) (hin : s.dst + n ≤ s.build.bufBytes)
    (hlen : s.session.Ok s.build → bytes.length ≤ n) : Worked i s (u.memWrite s.dst bytes) := by
  refine ⟨h.touched.trans (u.touched_memWrite _ _), h.gfRes, h.key, h.session, fun hs => .inr ⟨by omega, ?_⟩⟩
  have hbytes := hlen hs
  exact ⟨mergeHost u.buf u.hostWrote u.free s.dst bytes, by rw [mergeHost_length]; omega, by rw [← hu]; rfl⟩

/-- A command writes STR under the context it found. -/
theorem Worked.setStream (h : Worked i s u) {a : Algi} {c : Ctx} {str str' : Str} (hs : s.session = .context a c str)
    (hok : s.session.Ok s.build → c.Ok a.kind.bs → str.Ok a.kind.bs c → str'.Ok a.kind.bs c) :
    Worked i s (u.setSession (.context a c str')) := by
  refine ⟨h.touched.trans (u.touched_setSession _), h.gfRes, fun _ _ _ => by rw [hs]; exact ⟨rfl, rfl⟩, fun h0 => ?_,
    h.buf⟩
  have h1 := h0
  rw [hs] at h1
  obtain ⟨halgi, hctx, hstr⟩ := h1
  exact ⟨halgi, hctx, hok h0 hctx hstr⟩

/-- A setup command writes a session that is well-formed. -/
theorem Worked.setup (hi : i = .ctxInit ∨ i = .algSetkey ∨ i = .ctxClear) {se : Session} (hse : se.Ok s.build) :
    Worked i s (s.setSession se) :=
  ⟨s.touched_setSession se, fun _ _ _ _ => rfl,
    fun h1 h2 h3 => (hi.elim h1 fun h => h.elim h2 h3).elim, fun _ => hse, fun _ => .inl rfl⟩

theorem Works.storeChecked {bytes : List Byte} {n : Nat} (hn : maxOutOf i s = n) (hlen : bytes.length ≤ n) :
    Works i s (s.storeChecked i.op bytes n) := by
  unfold State.storeChecked
  split
  · exact .raise _ (.refl i s)
  · next hcheck =>
    obtain ⟨-, hdst⟩ := (s.rangeCheck_eq_none n).mp hcheck
    exact .complete _ ((Worked.refl i s).memWrite rfl hn hdst fun _ => hlen)

/-- The padded plaintext is stored, and then refused or not. -/
theorem Works.writeUnpadded {scheme : PadScheme} {y : List Byte} (h : Worked i s (u.memWrite u.dst y)) :
    Works i s (u.writeUnpadded i.op scheme y) := by
  unfold State.writeUnpadded
  split
  · exact .raise _ h
  · exact .complete _ h

end

/-! ## Lengths of outputs -/

/-- Encryption gives no more bytes than it takes, whatever state it starts from. -/
theorem encBlocks_modeEnv_length_le (b : Build) (a : Algi) (c : Ctx) (d : List Byte) (st : Chain) (x : List Byte) :
    (encBlocks (modeEnv b a c d) st x).1.length ≤ x.length := by
  have hwhole : x.length / a.kind.bs * a.kind.bs ≤ x.length := Nat.div_mul_le_self _ _
  have hrun := runSteps_length_le (f := encStep (modeEnv b a c d)) (st := st)
    (fun st y hy => encStep_length_le (modeEnv_enc_length b a c d) hy)
    (fun y hy => (blocks_block_length hwhole y hy).le)
  rw [blocks_length] at hrun
  exact hrun.trans hwhole

/-- encrypt_buf gives at most MAXOUT bytes (47_modes.md R345). -/
theorem encryptBuf_length_le {b : Build} {a : Algi} {c : Ctx} {p y : List Byte} {s s' : State}
    (h : encryptBuf b a c p s = (.ok y, s')) : y.length ≤ encryptMaxOut a c p.length := by
  obtain ⟨x, s1, d, hpad, hdelta, rfl⟩ := encryptBuf_ok_cases h
  obtain ⟨-, -, -, hx⟩ := State.pad_spec a.kind.bs_pos hpad
  have hd := State.drawDelta_length hdelta
  have henc := encBlocks_modeEnv_length_le b a c d c.init x
  rw [List.length_append, encryptMaxOut]
  omega

/-- An advance puts out at most the blocks it runs over. -/
theorem StrData.advance_length_le {f : Chain → List Byte → List Byte × Chain} {bs : Nat} (n : Nat) (d : StrData)
    (all : List Byte) (hf : ∀ st x, x.length ≤ bs → (f st x).1.length ≤ bs) :
    (d.advance f bs n all).1.length ≤ n * bs := by
  have hrun := runSteps_length_le (st := d.chaining) hf (blocks_block_le (m := n) (x := all))
  rwa [blocks_length] at hrun

/-! ## Sessions that a command leaves -/

theorem Algi.ok_of_keyAlgi {b : Build} {kind : AlgKind} {key : List Byte} {a : Algi} (h : keyAlgi b kind key = .ok a)
    (hlen : key.length ≤ 32) : a.Ok b := by
  obtain ⟨hkind, hkey, -⟩ := keyAlgi_eq_ok h
  exact ⟨by rw [hkind, hkey, h], by rwa [hkey]⟩

/-- The KEY window has 32 bytes. -/
theorem Args.keyBytes_length_le (a : Args) (k : Nat) : (a.keyBytes k).length ≤ 32 := by
  rw [Args.keyBytes_length]
  exact Nat.min_le_right _ _

theorem algSetkeyPlan_ok {b : Build} {x : Args} {a : Algi} (h : algSetkeyPlan b x = .ok a) : a.Ok b := by
  unfold algSetkeyPlan at h
  split at h
  · cases h
  · dsimp only at h
    split_ifs at h
    exact Algi.ok_of_keyAlgi h (x.keyBytes_length_le _)

/-- The IV window holds a block of every algorithm. -/
theorem ctxIv_ok {x : Args} {mode : Mode} {kind : AlgKind} {iv : List Byte} (h : ctxIv x mode kind.bs = .ok iv)
    (pad : PadScheme) : Ctx.Ok kind.bs ⟨mode, pad, iv⟩ := by
  have hbs := kind.bs_le
  unfold ctxIv at h
  unfold Ctx.Ok
  dsimp only
  split_ifs at h ⊢
  · cases h
    rw [Args.ivBytes_length]
    omega
  · cases h
    rfl

theorem ctxInitPlan_ok {b : Build} {x : Args} {a : Algi} {c : Ctx} (h : ctxInitPlan b x = .ok (a, c)) :
    a.Ok b ∧ c.Ok a.kind.bs := by
  unfold ctxInitPlan at h
  split at h
  · cases h
  split at h
  · cases h
  split at h
  · cases h
  split_ifs at h
  split at h
  · cases h
  split at h
  · cases h
  next halg =>
    split at h
    · cases h
    next hiv =>
      cases h
      obtain ⟨hkind, -, -⟩ := keyAlgi_eq_ok halg
      exact ⟨Algi.ok_of_keyAlgi halg (x.keyBytes_length_le _), hkind ▸ ctxIv_ok hiv _⟩

/-- A stream encryption that has just begun holds nothing (48_streaming.md R372). -/
theorem sencOpen_ok {kind : AlgKind} {c : Ctx} {delta : List Byte} (hc : c.Ok kind.bs)
    (hdelta : c.mode = .randomDelta → delta.length = kind.bs) : (sencOpen c delta).EncOk kind.bs c := by
  have hiv : c.mode.chained = true → c.iv.length = kind.bs := fun h => by
    unfold Ctx.Ok at hc
    rwa [if_pos h] at hc
  refine ⟨kind.bs_pos, hiv, fun hm => ?_, fun hm => ?_⟩
  · exact ⟨delta, by simp only [sencOpen, hm], hdelta hm⟩
  · unfold sencOpen
    split
    · next h => exact absurd h hm
    all_goals rfl

/-- A stream decryption that has just begun holds nothing (48_streaming.md R376). -/
theorem sdecOpen_ok {kind : AlgKind} {c : Ctx} (hc : c.Ok kind.bs) : (sdecOpen c).DecOk kind.bs c := by
  have hpos := kind.bs_pos
  have hiv : c.mode.chained = true → c.iv.length = kind.bs := fun h => by
    unfold Ctx.Ok at hc
    rwa [if_pos h] at hc
  refine ⟨?_, hiv, fun _ x hx => ?_, fun _ => rfl⟩
  · change 0 < _
    split_ifs <;> omega
  · cases hx

section
variable {b : Build} {a : Algi} {c : Ctx} {d : StrData}

/-- A stream's chaining state is ready for the steps of its mode. -/
theorem streamEnv_ready (hchain : d.ChainOk a.kind.bs c)
    (hdelta : c.mode = .randomDelta → (d.delta.getD []).length = a.kind.bs) :
    (streamEnv b a c d).Ready d.chaining :=
  ⟨modeEnv_enc_length b a c _, modeEnv_dec_length b a c _, hchain, hdelta⟩

/-- An advance of a ready stream leaves a block as its chaining value, in a mode that has one. -/
theorem StrData.advance_chainOk {f : Chain → List Byte → List Byte × Chain} {n : Nat} {all : List Byte}
    (hf : ∀ st x, (streamEnv b a c d).Ready st → x.length = a.kind.bs →
      (f st x).1.length = a.kind.bs ∧ (streamEnv b a c d).Ready (f st x).2)
    (hready : (streamEnv b a c d).Ready d.chaining) (hn : n * a.kind.bs ≤ all.length) :
    (d.advance f a.kind.bs n all).2.ChainOk a.kind.bs c := by
  obtain ⟨-, -, -, hchain, -⟩ := runSteps_ready hf hready (blocks_block_length hn)
  exact hchain

/-- SENC_DATA keeps less than one block (48_streaming.md R371). -/
theorem StrData.EncOk.advance (h : d.EncOk a.kind.bs c) (all : List Byte) :
    (d.advance (encStep (streamEnv b a c d)) a.kind.bs (all.length / a.kind.bs) all).2.EncOk a.kind.bs c := by
  obtain ⟨-, hchain, hdelta, hnone⟩ := h
  have hready : (streamEnv b a c d).Ready d.chaining := streamEnv_ready hchain fun hm => by
    obtain ⟨x, hx, hlen⟩ := hdelta hm
    rwa [hx]
  refine ⟨?_, ?_, hdelta, hnone⟩
  · change (all.drop (all.length / a.kind.bs * a.kind.bs)).length < a.kind.bs
    have hmod := Nat.mod_lt all.length a.kind.bs_pos
    rw [Nat.mod_eq_sub_div_mul] at hmod
    rwa [List.length_drop]
  · exact StrData.advance_chainOk (fun st x => encStep_ready) hready (Nat.div_mul_le_self _ _)

/-- The stream after takeDelta is as well-formed as the stream before, but for the bytes it holds. -/
theorem takeDelta_ok (h : d.DecOk a.kind.bs c) (all : List Byte) :
    (takeDelta a.kind.bs c d all).1.ChainOk a.kind.bs c ∧
      (c.mode = .randomDelta → ∀ x, (takeDelta a.kind.bs c d all).1.delta = some x → x.length = a.kind.bs) ∧
      (c.mode ≠ .randomDelta → (takeDelta a.kind.bs c d all).1.delta = none) ∧
      ((takeDelta a.kind.bs c d all).1.wantsDelta c = true → (takeDelta a.kind.bs c d all).2.length < a.kind.bs) := by
  obtain ⟨-, hchain, hdelta, hnone⟩ := h
  unfold takeDelta
  split_ifs with hdue
  · obtain ⟨hwants, hle⟩ := hdue
    obtain ⟨hmode, -⟩ := wantsDelta_iff.mp hwants
    refine ⟨hchain, fun _ x hx => ?_, fun hm => absurd hmode hm, fun h => ?_⟩
    · cases hx
      rw [List.length_take, Nat.min_eq_left hle]
    · cases (wantsDelta_iff.mp h).2
  · exact ⟨hchain, hdelta, hnone, fun h => by simpa [h] using hdue⟩

/-- SDEC_DATA keeps everything while it awaits the delta block. -/
theorem takeDelta_decOk_of_wants {all : List Byte} (h : d.DecOk a.kind.bs c)
    (hwants : (takeDelta a.kind.bs c d all).1.wantsDelta c = true) :
    StrData.DecOk a.kind.bs c { (takeDelta a.kind.bs c d all).1 with pend := (takeDelta a.kind.bs c d all).2 } := by
  obtain ⟨hchain, hdelta, hnone, hshort⟩ := takeDelta_ok h all
  refine ⟨?_, hchain, hdelta, hnone⟩
  change _ < if (takeDelta a.kind.bs c d all).1.wantsDelta c = true then _ else _
  rw [if_pos hwants]
  exact hshort hwants

/-- SDEC_DATA keeps less than three blocks once it awaits no delta block (48_streaming.md R371, R377). -/
theorem advance_decOk {rest : List Byte} (hchain : d.ChainOk a.kind.bs c)
    (hdelta : c.mode = .randomDelta → ∀ x, d.delta = some x → x.length = a.kind.bs)
    (hnone : c.mode ≠ .randomDelta → d.delta = none) (hwants : d.wantsDelta c = false) :
    (d.advance (decStep (streamEnv b a c d)) a.kind.bs (rest.length / a.kind.bs - 2) rest).2.DecOk a.kind.bs c := by
  have hready : (streamEnv b a c d).Ready d.chaining := streamEnv_ready hchain fun hm => by
    cases hd : d.delta with
    | none => rw [wantsDelta_iff.mpr ⟨hm, hd⟩] at hwants; cases hwants
    | some x => exact hdelta hm x hd
  have hle : (rest.length / a.kind.bs - 2) * a.kind.bs ≤ rest.length :=
    (Nat.mul_le_mul_right _ (Nat.sub_le _ _)).trans (Nat.div_mul_le_self _ _)
  refine ⟨?_, StrData.advance_chainOk (fun st x => decStep_ready) hready hle, hdelta, hnone⟩
  change (rest.drop _).length < if d.wantsDelta c = true then _ else _
  have hmod := Nat.mod_lt rest.length a.kind.bs_pos
  rw [Nat.mod_eq_sub_div_mul] at hmod
  rw [hwants, if_neg Bool.false_ne_true, List.length_drop, Nat.sub_mul]
  omega

end

/-! ## Command by command -/

theorem blockCommand_works {i : Instr} {f : Build → Algi → List Byte → List Byte} {s : State}
    (hmax : ∀ a, s.session.algi = some a → maxOutOf i s = a.kind.bs)
    (hf : ∀ a x, (f s.build a x).length = a.kind.bs) : Works i s (blockCommand i.op f s) := by
  unfold blockCommand
  split
  · exact .raise _ (.refl i s)
  · next a ha =>
    split_ifs
    · exact .raise _ (.refl i s)
    · exact .storeChecked (hmax a ha) (hf a _).le

theorem maxOutOf_blk {s : State} {a : Algi} (h : s.session.algi = some a) :
    maxOutOf .blkEnc s = a.kind.bs ∧ maxOutOf .blkDec s = a.kind.bs := by
  simp only [maxOutOf, h, and_self]

theorem execFEval_works (s : State) : Works .fEval s (execFEval s) := by
  unfold execFEval
  split_ifs
  · exact .raise _ (.refl _ s)
  · exact .storeChecked rfl (toBe_length 8 _).le

theorem exec_gf_works {i : Instr} (hi : i = .gfMul ∨ i = .gfCube ∨ i = .sbox1 ∨ i = .sbox2) (s : State) :
    Works i s (exec i s) := by
  obtain ⟨answer, hexec⟩ := exec_gf_eq_gfEnd hi
  rw [hexec]
  cases answer s.build s.opnd with
  | error e => exact .raise e (.refl i s)
  | ok v =>
    refine .complete 0 ⟨s.touched_setGfRes v, fun h1 h2 h3 h4 => ?_, fun _ _ _ => ⟨rfl, rfl⟩, id, fun _ => .inl rfl⟩
    exact (hi.elim h1 fun h => h.elim h2 fun h => h.elim h3 h4).elim

theorem execPad_works (psel : BitVec 3) (pbs : Byte) (s : State) : Works (.pad psel pbs) s (execPad psel pbs s) := by
  unfold execPad
  split_ifs with hpbs
  · exact .raise _ (.refl _ s)
  · split
    · exact .raise _ (.refl _ s)
    · next scheme _ =>
      have hdrawn : s.Drawn _ := s.pad_frame (s.memRead s.src s.len) pbs.toNat scheme
      have hpos : 0 < pbs.toNat := Nat.pos_of_ne_zero fun h => hpbs (BitVec.eq_of_toNat_eq h)
      dsimp only
      split
      · exact .raise _ (.refl _ s)
      · next hcheck =>
        obtain ⟨-, hdst⟩ := (s.rangeCheck_eq_none _).mp hcheck
        split
        · next hpad =>
          rw [hpad] at hdrawn
          exact .raise _ ((Worked.refl _ s).drawn hdrawn)
        · next y s' hpad =>
          rw [hpad] at hdrawn
          obtain ⟨-, -, -, hlen⟩ := State.pad_spec hpos hpad
          rw [State.memRead_length] at hlen
          exact .complete _ (((Worked.refl _ s).drawn hdrawn).memWrite hdrawn.buf rfl hdst fun _ => hlen.le)

theorem execUnpad_works (psel : BitVec 3) (s : State) : Works (.unpad psel) s (execUnpad psel s) := by
  unfold execUnpad
  split
  · exact .raise _ (.refl _ s)
  · split
    · exact .raise _ (.refl _ s)
    · next hcheck =>
      obtain ⟨-, hdst⟩ := (s.rangeCheck_eq_none _).mp hcheck
      split
      · exact .raise _ (.refl _ s)
      · next y hunpad =>
        have hlen := (unpad_isPrefix hunpad).length_le
        rw [State.memRead_length] at hlen
        exact .complete _ ((Worked.refl _ s).memWrite rfl rfl hdst fun _ => hlen)

theorem execEncrypt_works (s : State) : Works .encrypt s (execEncrypt s) := by
  unfold execEncrypt
  split
  · exact .raise _ (.refl _ s)
  · exact .raise _ (.refl _ s)
  · next a c _ hs =>
    have hdrawn : s.Drawn _ := encryptBuf_frame s.build a c (s.memRead s.src s.len) s
    have hmax : maxOutOf .encrypt s = encryptMaxOut a c s.len := by simp only [maxOutOf, hs]
    dsimp only
    split
    · exact .raise _ (.refl _ s)
    · next hcheck =>
      obtain ⟨-, hdst⟩ := (s.rangeCheck_eq_none _).mp hcheck
      split
      · next hbuf =>
        rw [hbuf] at hdrawn
        exact .raise _ ((Worked.refl _ s).drawn hdrawn)
      · next y s' hbuf =>
        rw [hbuf] at hdrawn
        have hlen := encryptBuf_length_le hbuf
        rw [State.memRead_length] at hlen
        exact .complete _ (((Worked.refl _ s).drawn hdrawn).memWrite hdrawn.buf hmax hdst fun _ => hlen)

theorem execDecrypt_works (s : State) : Works .decrypt s (execDecrypt s) := by
  unfold execDecrypt
  split
  · exact .raise _ (.refl _ s)
  · exact .raise _ (.refl _ s)
  · next a c _ hs =>
    split
    · exact .raise _ (.refl _ s)
    · split
      · exact .raise _ (.refl _ s)
      · next hcheck =>
        obtain ⟨-, hdst⟩ := (s.rangeCheck_eq_none _).mp hcheck
        have hlen := decryptBuf_length_le s.build a c (s.memRead s.src s.len)
        rw [State.memRead_length] at hlen
        exact .writeUnpadded ((Worked.refl _ s).memWrite rfl (maxOutOf_decrypt hs) hdst fun _ => hlen)

theorem execSencBegin_works (s : State) : Works .sencBegin s (execSencBegin s) := by
  unfold execSencBegin
  split
  · exact .raise _ (.refl _ s)
  · exact .raise _ (.refl _ s)
  · exact .raise _ (.refl _ s)
  · exact .raise _ (.refl _ s)
  · next a c hs =>
    have hdrawn : s.Drawn _ := s.drawEnt_frame a.kind.bs
    split
    · next hm =>
      have hmax : maxOutOf .sencBegin s = a.kind.bs := by simp only [maxOutOf, hs, hm, deltaLen]
      split
      · exact .raise _ (.refl _ s)
      · next hcheck =>
        have hdst := (s.dstCheck_eq_none _).mp hcheck
        split
        · next hdraw =>
          rw [hdraw] at hdrawn
          exact .raise _ ((Worked.refl _ s).drawn hdrawn)
        · next d s' hdraw =>
          rw [hdraw] at hdrawn
          have hlen := State.drawEnt_length hdraw
          have hstored := ((Worked.refl .sencBegin s).drawn hdrawn).memWrite hdrawn.buf hmax hdst fun _ => hlen.le
          exact .complete _ (hstored.setStream hs fun _ hc _ => sencOpen_ok hc fun _ => hlen)
    all_goals
      next hm =>
        exact .complete _ ((Worked.refl _ s).setStream hs fun _ hc _ => sencOpen_ok hc fun h => by
          rw [hm] at h
          cases h)

theorem execSencData_works (s : State) : Works .sencData s (execSencData s) := by
  unfold execSencData
  split
  · next a c d hs =>
    have hmax : maxOutOf .sencData s = sencBlocks a.kind.bs d s.len * a.kind.bs := by simp only [maxOutOf, hs]
    have hcount : sencBlocks a.kind.bs d s.len = (d.pend ++ s.memRead s.src s.len).length / a.kind.bs := by
      rw [sencBlocks, List.length_append, State.memRead_length]
    dsimp only
    split
    · exact .raise _ (.refl _ s)
    · next hcheck =>
      obtain ⟨-, hdst⟩ := (s.rangeCheck_eq_none _).mp hcheck
      have hlen := d.advance_length_le (sencBlocks a.kind.bs d s.len) (d.pend ++ s.memRead s.src s.len)
        fun st x => encStep_length_le (st := st) (modeEnv_enc_length s.build a c (d.delta.getD []))
      refine .complete _ (((Worked.refl _ s).memWrite rfl hmax hdst fun _ => hlen).setStream hs fun _ _ hd => ?_)
      rw [hcount]
      exact StrData.EncOk.advance hd _
  all_goals exact .raise _ (.refl _ s)

theorem execSencEnd_works (s : State) : Works .sencEnd s (execSencEnd s) := by
  unfold execSencEnd
  split
  · next a c d hs =>
    have hmax : maxOutOf .sencEnd s = a.kind.bs := by simp only [maxOutOf, hs]
    have hclosed : Worked .sencEnd s (s.setSession (.context a c .idle)) :=
      (Worked.refl _ s).setStream hs fun _ _ _ => trivial
    have hdrawn : (s.setSession (.context a c .idle)).Drawn _ := State.pad_frame _ d.pend a.kind.bs c.pad
    dsimp only
    split
    · exact .raise _ hclosed
    · next hcheck =>
      have hdst : s.dst + a.kind.bs ≤ s.build.bufBytes := (State.dstCheck_eq_none _ _).mp hcheck
      split
      · next hpad =>
        rw [hpad] at hdrawn
        exact .raise _ (hclosed.drawn hdrawn)
      · next x s' hpad =>
        rw [hpad] at hdrawn
        obtain ⟨-, -, -, hlen⟩ := State.pad_spec a.kind.bs_pos hpad
        refine .complete _ ((hclosed.drawn hdrawn).memWrite hdrawn.buf hmax hdst fun hok => ?_)
        rw [hs] at hok
        obtain ⟨-, -, hpend, -⟩ := hok
        refine encStep_length_le (modeEnv_enc_length s.build a c _) ?_
        rw [hlen, padLen, Nat.mod_eq_of_lt hpend]
        exact (Nat.add_sub_cancel' hpend.le).le
  all_goals exact .raise _ (.refl _ s)

theorem execSdecBegin_works (s : State) : Works .sdecBegin s (execSdecBegin s) := by
  unfold execSdecBegin
  split
  · exact .raise _ (.refl _ s)
  · exact .raise _ (.refl _ s)
  · exact .raise _ (.refl _ s)
  · exact .raise _ (.refl _ s)
  · next a c hs => exact .complete _ ((Worked.refl _ s).setStream hs fun _ hc _ => sdecOpen_ok hc)

theorem execSdecData_works (s : State) : Works .sdecData s (execSdecData s) := by
  unfold execSdecData
  split
  · next a c d hs =>
    have hmax : maxOutOf .sdecData s = sdecBlocks a.kind.bs c d s.len * a.kind.bs := by simp only [maxOutOf, hs]
    have hcount := sdecBlocks_eq (bs := a.kind.bs) (c := c) (d := d) (len := s.len)
      (all := d.pend ++ s.memRead s.src s.len) (by rw [List.length_append, State.memRead_length])
    dsimp only
    split
    · exact .raise _ (.refl _ s)
    · next hcheck =>
      obtain ⟨-, hdst⟩ := (s.rangeCheck_eq_none _).mp hcheck
      split_ifs with hwants
      · exact .complete _ ((Worked.refl _ s).setStream hs fun _ _ hd => takeDelta_decOk_of_wants hd hwants)
      · have hlen := (takeDelta a.kind.bs c d (d.pend ++ s.memRead s.src s.len)).1.advance_length_le
          (sdecBlocks a.kind.bs c d s.len) (takeDelta a.kind.bs c d (d.pend ++ s.memRead s.src s.len)).2
          fun st x => decStep_length_le (st := st) (modeEnv_enc_length s.build a c _)
            (modeEnv_dec_length s.build a c
              ((takeDelta a.kind.bs c d (d.pend ++ s.memRead s.src s.len)).1.delta.getD []))
        refine .complete _ (((Worked.refl _ s).memWrite rfl hmax hdst fun _ => hlen).setStream hs fun _ _ hd => ?_)
        obtain ⟨hchain, hdelta, hnone, -⟩ := takeDelta_ok hd (d.pend ++ s.memRead s.src s.len)
        rw [hcount]
        exact advance_decOk hchain hdelta hnone (Bool.eq_false_iff.mpr hwants)
  all_goals exact .raise _ (.refl _ s)

theorem execSdecEnd_works (s : State) : Works .sdecEnd s (execSdecEnd s) := by
  unfold execSdecEnd
  split
  · next a c d hs =>
    have hclosed : Worked .sdecEnd s (s.setSession (.context a c .idle)) :=
      (Worked.refl _ s).setStream hs fun _ _ _ => trivial
    dsimp only
    split
    · exact .raise _ hclosed
    · split
      · exact .raise _ hclosed
      · next hcheck =>
        have hdst : s.dst + d.pend.length ≤ s.build.bufBytes := (State.dstCheck_eq_none _ _).mp hcheck
        exact .writeUnpadded (hclosed.memWrite rfl (maxOutOf_sdecEnd hs) hdst fun _ =>
          decBlocks_modeEnv_length_le s.build a c _ d.chaining d.pend)
  all_goals exact .raise _ (.refl _ s)

theorem execStreamAbort_works (s : State) : Works .streamAbort s (execStreamAbort s) := by
  unfold execStreamAbort
  cases hs : s.session with
  | none | keyed =>
    rw [Session.closeStream_of_ctx_none rfl, ← hs]
    exact .complete _ (.refl _ s)
  | context a c str => exact .complete _ ((Worked.refl _ s).setStream hs fun _ _ _ => trivial)

theorem execCtxInit_works (s : State) : Works .ctxInit s (execCtxInit s) := by
  unfold execCtxInit
  dsimp only
  split
  · exact .raise _ (.setup (by simp) trivial)
  · next hplan =>
    obtain ⟨halgi, hctx⟩ := ctxInitPlan_ok hplan
    exact .complete _ (.setup (s := s) (se := .context _ _ .idle) (by simp) ⟨halgi, hctx, trivial⟩)

theorem execAlgSetkey_works (s : State) : Works .algSetkey s (execAlgSetkey s) := by
  unfold execAlgSetkey
  dsimp only
  split
  · exact .raise _ (.setup (by simp) trivial)
  · next a hplan => exact .complete _ (.setup (s := s) (se := .keyed a) (by simp) (algSetkeyPlan_ok hplan))

/-- What every command does before its completion or error writes. -/
theorem exec_works (i : Instr) (s : State) : Works i s (exec i s) := by
  cases i with
  | nop => exact .complete _ (.refl _ s)
  | ctxInit => exact execCtxInit_works s
  | ctxClear => exact .complete _ (.setup (by simp) trivial)
  | algSetkey => exact execAlgSetkey_works s
  | blkEnc => exact blockCommand_works (fun _ ha => (maxOutOf_blk ha).1) (algEnc_length s.build)
  | blkDec => exact blockCommand_works (fun _ ha => (maxOutOf_blk ha).2) (algDec_length s.build)
  | fEval => exact execFEval_works s
  | encrypt => exact execEncrypt_works s
  | decrypt => exact execDecrypt_works s
  | sencBegin => exact execSencBegin_works s
  | sencData => exact execSencData_works s
  | sencEnd => exact execSencEnd_works s
  | sdecBegin => exact execSdecBegin_works s
  | sdecData => exact execSdecData_works s
  | sdecEnd => exact execSdecEnd_works s
  | streamAbort => exact execStreamAbort_works s
  | gfMul | gfCube | sbox1 | sbox2 => exact exec_gf_works (by simp) s
  | pad psel pbs => exact execPad_works psel pbs s
  | unpad psel => exact execUnpad_works psel s

end Sys2Proof.Machine
end

section
/-! What serving an input can do, said once: a bus access that is not a legal write changes nothing but the response and
the count of draws; a legal write changes its target; a reset clears (20_memory.md R71 to R75, 70_reset_and_hazards.md
R450, R452). -/

namespace Sys2Proof.Machine

/-! ## A bus access -/

/-- Only a legal write, with reset released, changes more than the response and the count of draws. -/
theorem State.access_cases (s : State) (a : Access) :
    (∃ r k, s.access a = { s with resp := r, free := k }) ∨
      ∃ v, a.op = .write v ∧ inWindow s.build a = true ∧ s.inReset = false ∧
        accessLegal (targetOfAccess s.build a) a.width (a.addr - s.build.base) = true ∧
        s.access a = s.busWrite (targetOfAccess s.build a) a.width v := by
  by_cases hr : s.inReset = true
  · exact .inl (s.access_frame_of_inReset a hr)
  have hr' : s.inReset = false := eq_false_of_ne_true hr
  unfold State.access
  dsimp only
  split_ifs with hw hlegal
  · exact .inl ⟨_, _, rfl⟩
  · cases hop : a.op with
    | read => exact .inl ⟨_, _, rfl⟩
    | write v => exact .inr ⟨v, rfl, by simpa using hw, hr', hlegal, rfl⟩
  · exact .inl ⟨_, _, rfl⟩

/-- The registers stand one behind the other, four bytes each (10_state.md R21). -/
theorem Reg.offset_of_regMap {k : Nat} {g : Reg} (h : regMap[k]? = some g) : g.offset = 4 * k := by
  have hmap : ∀ k : Fin 20, regMap[k].offset = 4 * k.val := by decide
  obtain ⟨hk, rfl⟩ := List.getElem?_eq_some_iff.mp h
  exact hmap ⟨k, hk⟩

/-- A legal access to a control register is one of 32 bits at the register's offset (20_memory.md R74). -/
theorem eq_of_targetOfAccess_reg {b : Build} {a : Access} {g : Reg} (hw : inWindow b a = true)
    (ht : targetOfAccess b a = .reg g) (hl : accessLegal (targetOfAccess b a) a.width (a.addr - b.base) = true) :
    a = ⟨b.base + g.offset, .w32, a.op⟩ := by
  obtain ⟨addr, width, op⟩ := a
  simp only [inWindow, Bool.and_eq_true, decide_eq_true_eq] at hw
  rw [ht] at hl
  simp only [accessLegal, Bool.and_eq_true, beq_iff_eq] at hl
  obtain ⟨rfl, hmod⟩ := hl
  have ho : g.offset = addr - b.base := by
    simp only [targetOfAccess, targetOf] at ht
    split_ifs at ht
    split at ht
    · next hget =>
      cases ht
      rw [Reg.offset_of_regMap hget]
      omega
    · cases ht
  rw [ho, Nat.add_sub_cancel' hw.1]

/-- An aligned access that begins in BUF lies in BUF. -/
theorem Build.aligned_in_buf (b : Build) {w : Width} {o : Nat} (hmod : o % w.bytes = 0)
    (hlt : o < 0x10000 + b.bufBytes) : o - 0x10000 + w.bytes ≤ b.bufBytes ∨ o < 0x10000 := by
  obtain ⟨⟨q, hq⟩, -⟩ := b.bufBytes_form
  obtain h | h | h := w.bytes_cases <;> (rw [h] at hmod ⊢; omega)

theorem targetOf_eq_buf {b : Build} {o a : Nat} (h : targetOf b o = .buf a) :
    0x10000 ≤ o ∧ o < 0x10000 + b.bufBytes ∧ a = o - 0x10000 := by
  unfold targetOf at h
  split_ifs at h with _ _ _ hbuf
  · split at h <;> cases h
  · exact ⟨hbuf.1, hbuf.2, (Target.buf.inj h).symm⟩

/-! ## An input -/

/-- What serving an input can make of a state. -/
inductive Serves (s : State) : Input → State → Prop where
  /-- The reset input. -/
  | reset (l : Bool) : Serves s (.rst l) (s.setReset l)
  /-- A read, a bus error, an access that is lost, or one outside the window. -/
  | ports (a : Access) (r : Option BusResp) (k : Nat) : Serves s (.bus a) { s with resp := r, free := k }
  /-- A write to a window or to a register other than CMD and CTRL, to a reserved offset, or of SRST = 0. -/
  | registers (a : Access) (x : Args) (p e : BitVec 3) (hr : s.inReset = false) :
    Serves s (.bus a) (State.respond { s with args := x, intStatus := p, intEnable := e } false 0#32)
  /-- A CMD write. -/
  | submit (w : Word32) (hr : s.inReset = false) :
    Serves s (.bus ⟨s.build.base + 0x00C, .w32, .write w⟩) ((s.submit w).respond false 0#32)
  /-- A write of SRST = 1. -/
  | softReset (v : Word32) (hv : v.getLsbD 0 = true) (hr : s.inReset = false) :
    Serves s (.bus ⟨s.build.base + 0x004, .w32, .write v⟩) (s.softReset.respond false 0#32)
  /-- A write to BUF. -/
  | bufWrite (a : Access) (o : Nat) (bytes : List Byte) (hin : o + bytes.length ≤ s.build.bufBytes)
    (hr : s.inReset = false) : Serves s (.bus a) ((s.hostWriteBuf o bytes).respond false 0#32)

theorem State.busWrite_serves {s : State} {a : Access} {v : Word32} (hop : a.op = .write v)
    (hw : inWindow s.build a = true) (hr : s.inReset = false)
    (hl : accessLegal (targetOfAccess s.build a) a.width (a.addr - s.build.base) = true) :
    Serves s (.bus a) (s.busWrite (targetOfAccess s.build a) a.width v) := by
  cases ht : targetOfAccess s.build a with
  | key i => exact .registers a _ s.intStatus s.intEnable hr
  | iv i => exact .registers a _ s.intStatus s.intEnable hr
  | reserved => exact .registers a s.args s.intStatus s.intEnable hr
  | buf o =>
    refine .bufWrite a o _ ?_ hr
    rw [ht, accessLegal, beq_iff_eq] at hl
    have ht' : targetOf s.build (a.addr - s.build.base) = .buf o := ht
    obtain ⟨hge, hlt, ho⟩ := targetOf_eq_buf ht'
    rw [toLe_length, ho]
    exact (s.build.aligned_in_buf hl hlt).resolve_right (not_lt.mpr hge)
  | reg g =>
    have ha := eq_of_targetOfAccess_reg hw ht hl
    rw [hop] at ha
    cases g with
    | cmd => rw [ha]; exact .submit v hr
    | ctrl =>
      by_cases hv : v.getLsbD 0 = true
      · have hreset : s.busWrite (.reg .ctrl) a.width v = s.softReset.respond false 0#32 := by
          simp only [State.busWrite, State.regWrite, if_pos hv]
        rw [hreset, ha]
        exact .softReset v hv hr
      · have hkeep : s.busWrite (.reg .ctrl) a.width v = s.respond false 0#32 := by
          simp only [State.busWrite, State.regWrite, if_neg hv]
        rw [hkeep]
        exact .registers a s.args s.intStatus s.intEnable hr
    | _ => exact .registers a _ _ _ hr

/-- Every input is served in one of these ways. -/
theorem State.serves (s : State) (i : Input) : Serves s i (s.serve i) := by
  cases i with
  | rst l => exact .reset l
  | bus a =>
    obtain ⟨r, k, h⟩ | ⟨v, hop, hw, hr, hl, h⟩ := s.access_cases a
    · change Serves s _ (s.access a)
      rw [h]
      exact .ports a r k
    · change Serves s _ (s.access a)
      rw [h]
      exact State.busWrite_serves hop hw hr hl

end Sys2Proof.Machine
end

section
/-! The build and the step (10_state.md R22, R38; 60_exceptions.md R409): nothing that a cycle is made of changes a build
parameter, and every cycle ends in a next state. -/

namespace Sys2Proof.Machine

theorem State.countDown_build (s : State) : s.countDown.build = s.build := by rw [State.countDown_eq]

theorem Serves.build {s t : State} {i : Input} (h : Serves s i t) : t.build = s.build := by
  cases h with
  | reset l => cases l <;> rfl
  | ports | registers => rfl
  | submit => rw [State.respond_build, State.submit]; split <;> rfl
  | softReset => rw [State.respond_build, State.softReset]; split <;> rfl
  | bufWrite => rw [State.respond_build, State.hostWriteBuf]; split <;> rfl

theorem runWord_build {w : Word32} {s t : State} (h : runWord w s = .next t) : t.build = s.build := by
  obtain ⟨t', x, op, hnext, ⟨g, se, m, e, k, rfl⟩, hend⟩ := runWord_next w s
  obtain rfl := Host.Outcome.next.inj (h.symm.trans hnext)
  obtain ⟨n, rfl⟩ | ⟨e, rfl⟩ := hend <;> rfl

theorem finishDue_build {s t : State} (h : finishDue s = .next t) : t.build = s.build := by
  obtain ⟨hkeep, -⟩ | ⟨r, -, -, hrun⟩ := finishDue_cases s
  · cases h.symm.trans hkeep
    rfl
  · exact runWord_build (hrun.symm.trans h)

theorem step_next (s : State) : ∃ t, step s = .next t := by
  unfold step cycle
  dsimp only
  split
  · exact finishDue_next _
  · split_ifs
    · exact finishDue_next _
    · obtain ⟨u, hu⟩ := finishDue_next { s.countDown with inbox := ‹_› }
      rw [hu, andThen_next]
      exact finishDue_next _

theorem step_build {s t : State} (h : step s = .next t) : t.build = s.build := by
  obtain ⟨-, hfinish⟩ | ⟨i, rest, -, -, hfinish⟩ | ⟨i, rest, u, -, -, hdue, hfinish⟩ := step_cases h
  · exact (finishDue_build hfinish).trans s.countDown_build
  · exact (finishDue_build hfinish).trans ((State.serves _ i).build.trans s.countDown_build)
  · exact (finishDue_build hfinish).trans
      ((State.serves _ i).build.trans ((finishDue_build hdue).trans s.countDown_build))

/-- Settles O7: a cycle's completions always answer, and ID and PARAM are made of the build alone. -/
theorem everyStepAnswersNextOfTheSameBuild : Obligations.EveryStepAnswersNextOfTheSameBuild := by
  unfold Obligations.EveryStepAnswersNextOfTheSameBuild
  intro s
  obtain ⟨t, ht⟩ := step_next s
  have hbuild := step_build ht
  exact ⟨t, ht, hbuild, rfl, congrArg Build.param hbuild⟩

end Sys2Proof.Machine
end

section
/-! The invariant of Safety.lean: the reset states meet it, and every part of a cycle keeps it. -/

namespace Sys2Proof.Machine

/-! ## Updates that keep the invariant -/

/-- A cleared state meets the invariant, whatever of BUF is kept. -/
theorem State.cleared_inv {s : State} {m : Memory} (hm : m.Ok s.build) (hr : s.inReset = false) :
    (s.cleared m).Inv where
  buf := hm
  running := nofun
  session := trivial
  success := fun _ => ⟨rfl, rfl⟩
  failure := nofun
  inReset := fun h => by
    rw [State.cleared_inReset, hr] at h
    cases h

theorem Memory.ok_empty (b : Build) (era : Nat) : Memory.Ok b ⟨[], era⟩ := ⟨rfl, nofun⟩

section
variable {s t : State}

/-- While a command is in progress reset is released. -/
theorem State.Inv.inReset_of_running (h : s.Inv) {r : Running} (hr : s.running = some r) : s.inReset = false := by
  by_contra hin
  have hcleared := h.inReset (eq_true_of_ne_false hin)
  rw [hcleared] at hr
  cases hr

/-- What lies outside the core is no part of the invariant. -/
theorem State.Inv.setPorts (h : s.Inv) (i : List Input) (r : Option BusResp) (k : Nat) :
    State.Inv { s with inbox := i, resp := r, free := k } where
  buf := h.buf
  running := h.running
  session := h.session
  success := h.success
  failure := h.failure
  inReset := fun hr => congrArg (fun u : State => { u with inbox := i, resp := r, free := k }) (h.inReset hr)

/-- With reset released, the invariant does not speak of the operands, the interrupt registers and what lies outside the
core. -/
theorem State.Inv.update (h : s.Inv) (hr : t.inReset = false) (hb : t.build = s.build) (hbuf : t.buf.Ok s.build)
    (hrun : ∀ r, t.running = some r → r.Ok s.build t.buf.era) (hsession : t.session = s.session)
    (herr : t.err = s.err) (hcode : t.errcode = s.errcode) (hinfo : t.errinfo = s.errinfo)
    (hout : t.outlen = s.outlen) : t.Inv where
  buf := hb ▸ hbuf
  running := hb ▸ hrun
  session := by rw [hb, hsession]; exact h.session
  success := by rw [herr, hcode, hinfo]; exact h.success
  failure := by rw [herr, hcode, hinfo, hout]; exact h.failure
  inReset := fun hin => by rw [hr] at hin; cases hin

theorem State.Inv.countDown (h : s.Inv) : s.countDown.Inv := by
  unfold State.countDown
  split
  · exact h
  · next r hr =>
    refine h.update (h.inReset_of_running hr) rfl h.buf (fun r' hr' => ?_) rfl rfl rfl rfl rfl
    cases hr'
    exact h.running r hr

/-- A command that is accepted sees BUF as it stands. -/
theorem State.Inv.submit (h : s.Inv) (hr : s.inReset = false) (w : Word32) : (s.submit w).Inv := by
  unfold State.submit
  split
  · exact h.update hr rfl h.buf h.running rfl rfl rfl rfl rfl
  · refine h.update hr rfl h.buf (fun r hr' => ?_) rfl rfl rfl rfl rfl
    cases hr'
    exact ⟨h.buf, rfl, nofun⟩

theorem viewWrites_era (draw : Nat) (m : Memory) (a : Nat) (bytes : List Byte) :
    (viewWrites draw m a bytes).era = m.era := by
  induction bytes generalizing m a with
  | nil => rfl
  | cons x bytes ih =>
    rw [viewWrites, ih]
    split_ifs <;> rfl

/-- The bytes that a command sees of a host write are written inside BUF. -/
theorem viewWrites_ok {b : Build} {m : Memory} (draw : Nat) {a : Nat} {bytes : List Byte} (hm : m.Ok b)
    (hin : a + bytes.length ≤ b.bufBytes) : (viewWrites draw m a bytes).Ok b := by
  induction bytes generalizing m a with
  | nil => exact hm
  | cons x bytes ih =>
    rw [List.length_cons] at hin
    refine ih ?_ (by omega)
    split_ifs
    · exact hm.writeN (bytes := [x]) (.inl (by rw [List.length_singleton]; omega))
    · exact hm

theorem State.Inv.hostWriteBuf (h : s.Inv) (hr : s.inReset = false) {a : Nat} {bytes : List Byte}
    (hin : a + bytes.length ≤ s.build.bufBytes) : (s.hostWriteBuf a bytes).Inv := by
  have hbuf : (s.buf.writeN a bytes).Ok s.build := h.buf.writeN (.inl hin)
  unfold State.hostWriteBuf
  split
  · next hidle =>
    refine h.update hr rfl hbuf (fun r hr' => ?_) rfl rfl rfl rfl rfl
    rw [show _ = none from hidle] at hr'
    cases hr'
  · next r hrun =>
    refine h.update hr rfl hbuf (fun r' hr' => ?_) rfl rfl rfl rfl rfl
    cases hr'
    obtain ⟨hview, hera, hwrote⟩ := h.running r hrun
    refine ⟨viewWrites_ok _ hview hin, ?_, fun x hx => ?_⟩
    · exact (viewWrites_era _ _ _ _).trans (hera.trans (Memory.writeN_era _ _ _).symm)
    · obtain hx | hx := List.mem_append.mp hx
      · have hlt := (List.mem_range'_1.mp hx).2
        omega
      · exact hwrote x hx

/-- The bytes of the output range that lie in BUF. -/
theorem State.dst_add_outBytes_le (s : State) : s.dst + s.outBytes ≤ s.build.bufBytes ∨ s.outBytes = 0 := by
  unfold State.outBytes
  omega

theorem State.Inv.softReset (h : s.Inv) (hr : s.inReset = false) : s.softReset.Inv := by
  unfold State.softReset
  split
  · exact State.cleared_inv h.buf hr
  · refine (State.cleared_inv (h.buf.writeN ?_) hr).setPorts s.inbox s.resp (s.free + 1)
    rw [List.length_map, List.length_range, List.map_eq_nil_iff, List.range_eq_nil]
    exact s.dst_add_outBytes_le

theorem State.Inv.setReset (h : s.Inv) (l : Bool) : (s.setReset l).Inv := by
  cases l with
  | true => exact ⟨Memory.ok_empty _ _, nofun, trivial, fun _ => ⟨rfl, rfl⟩, nofun, fun _ => rfl⟩
  | false => exact h.update rfl rfl h.buf h.running rfl rfl rfl rfl rfl

theorem State.Inv.respond (h : s.Inv) (err : Bool) (data : Word32) : (s.respond err data).Inv :=
  h.setPorts s.inbox _ s.free

/-- Serving an input keeps the invariant. -/
theorem Serves.inv {i : Input} (hserve : Serves s i t) (h : s.Inv) : t.Inv := by
  cases hserve with
  | reset l => exact h.setReset l
  | ports a r k => exact h.setPorts s.inbox r k
  | registers a x p e hr => exact h.update hr rfl h.buf h.running rfl rfl rfl rfl rfl
  | submit w hr => exact (h.submit hr w).respond _ _
  | softReset v hv hr => exact (h.softReset hr).respond _ _
  | bufWrite a o bytes hin hr => exact (h.hostWriteBuf hr hin).respond _ _

/-! ## Completions -/

theorem ErrName.code_bounds (n : ErrName) : 1 ≤ n.code.toNat ∧ n.code.toNat ≤ 0x12 := by cases n <;> decide

/-- The number of two words one behind the other. -/
theorem toNat_append_eq {m n : Nat} (x : BitVec m) (y : BitVec n) :
    (x ++ y).toNat = x.toNat * 2 ^ n + y.toNat := by
  rw [BitVec.toNat_append, ← Nat.shiftLeft_add_eq_or_of_lt y.isLt, Nat.shiftLeft_eq]

/-- ERRINFO[31:16] is 0 (10_state.md R33). -/
theorem CmdError.errinfo_lt (e : CmdError) : e.errinfo.toNat < 2 ^ 16 := by
  have hvalue : e.errinfo.toNat = ((0#16).toNat * 2 ^ 8 + e.info.toNat) * 2 ^ 8 + e.sub.toNat := by
    change (0#16 ++ e.info ++ e.sub : BitVec (16 + 8 + 8)).toNat = _
    rw [toNat_append_eq, toNat_append_eq]
  rw [BitVec.toNat_ofNat] at hvalue
  have hinfo := e.info.isLt
  have hsub := e.sub.isLt
  omega

/-- The completion or error writes over what a command leaves. -/
theorem State.Touched.inv {x : State} (hx : s.Touched x) (hr : s.inReset = false) (hbuf : x.buf.Ok s.build)
    (hsession : x.session.Ok s.build) (op : Byte) : (∀ n, (x.completed op n).Inv) ∧ ∀ e, (x.raised op e).Inv := by
  obtain ⟨g, se, m, ent, k, rfl⟩ := hx
  have hin (h : s.inReset = true) : False := by rw [hr] at h; cases h
  refine ⟨fun n => ⟨hbuf, nofun, hsession, fun _ => ⟨rfl, rfl⟩, nofun, fun h => (hin h).elim⟩,
    fun e => ⟨hbuf, nofun, hsession, nofun, fun _ => ?_, fun h => (hin h).elim⟩⟩
  exact ⟨e.name.code_bounds.1, e.name.code_bounds.2, rfl, e.errinfo_lt⟩

theorem State.Inv.runWord (h : s.Inv) (hr : s.inReset = false) {w : Word32} (ht : runWord w s = .next t) : t.Inv := by
  unfold Machine.runWord at ht
  split at ht
  · next i _ =>
    obtain ⟨x, hx, hends⟩ := exec_works i s
    obtain ⟨hcomplete, hraise⟩ :=
      hx.touched.inv hr ((hx.buf h.session).ok h.buf) (hx.session h.session) i.op
    obtain ⟨n, hn⟩ | ⟨e, he⟩ := hends
    · cases ht.symm.trans hn
      exact hcomplete n
    · cases ht.symm.trans he
      exact hraise e
  · cases ht
    exact ((State.Touched.refl s).inv hr h.buf h.session _).2 _

theorem State.Inv.finishDue (h : s.Inv) (ht : finishDue s = .next t) : t.Inv := by
  obtain ⟨hkeep, -⟩ | ⟨r, hrun, -, hdue⟩ := finishDue_cases s
  · cases ht.symm.trans hkeep
    exact h
  · exact h.runWord (h.inReset_of_running hrun) (hdue.symm.trans ht)

theorem State.Inv.step (h : s.Inv) (ht : step s = .next t) : t.Inv := by
  have hinbox (rest : List Input) : State.Inv { s.countDown with inbox := rest } :=
    h.countDown.setPorts rest s.countDown.resp s.countDown.free
  obtain ⟨-, hfinish⟩ | ⟨i, rest, -, -, hfinish⟩ | ⟨i, rest, u, -, -, hdue, hfinish⟩ := step_cases ht
  · exact h.countDown.finishDue hfinish
  · exact ((State.serves _ i).inv (hinbox rest)).finishDue hfinish
  · exact ((State.serves _ i).inv ((hinbox rest).finishDue hdue)).finishDue hfinish

end

/-! ## The obligations -/

/-- Settles O8: time passing, the completions and the input of a cycle each keep the invariant, in either order. -/
theorem everyStepKeepsTheInvariant : Obligations.EveryStepKeepsTheInvariant := by
  unfold Obligations.EveryStepKeepsTheInvariant
  intro s t hinv hstep
  exact hinv.step hstep

/-- Settles O9: a reset state is a cleared one with reset released and BUF without a written byte. -/
theorem resetMeetsTheInvariant : Obligations.ResetMeetsTheInvariant := by
  unfold Obligations.ResetMeetsTheInvariant
  have hreset (b : Build) : (State.resetOf b).Inv :=
    State.cleared_inv (s := State.resetOf b) (Memory.ok_empty b 0) rfl
  exact ⟨hreset, hreset Build.default⟩

end Sys2Proof.Machine
end

section
/-! What a command does not see (10_state.md R50, 48_streaming.md R381): a change of the state that commutes with the
operations a command is made of, and leaves what it reads, is carried through the command unchanged. The operand
registers are such a change while the latched ones are used, and so is the stream for a command that takes no part in
one. -/

namespace Sys2Proof.Machine

/-! ## Changes that commute with the operations of a command -/

/-- The change `f` commutes with the operations of a command, and leaves the latched inputs of `s` (00_scope.md R10). -/
structure Unseen (f : State → State) (s : State) : Prop where
  completed : ∀ u op n, State.completed (f u) op n = f (u.completed op n)
  raised : ∀ u op e, State.raised (f u) op e = f (u.raised op e)
  memWrite : ∀ u a x, State.memWrite (f u) a x = f (u.memWrite a x)
  setGfRes : ∀ u v, State.setGfRes (f u) v = f (u.setGfRes v)
  drawEnt : ∀ u n, State.drawEnt (f u) n = ((u.drawEnt n).1, f (u.drawEnt n).2)
  build : (f s).build = s.build
  opnd : (f s).opnd = s.opnd
  inBuf : (f s).inBuf = s.inBuf

/-- The outcome `r'` is the outcome `r`, changed by `f`. -/
def Carries (f : State → State) (r r' : Res) : Prop := ∃ t, r = .next t ∧ r' = .next (f t)

section
variable {f : State → State} {s : State} (h : Unseen f s)
include h

theorem Unseen.len : (f s).len = s.len := by rw [State.len, h.opnd, State.len]

theorem Unseen.src : (f s).src = s.src := by rw [State.src, h.opnd, State.src]

theorem Unseen.dst : (f s).dst = s.dst := by rw [State.dst, h.opnd, State.dst]

theorem Unseen.memRead (a n : Nat) : (f s).memRead a n = s.memRead a n := by rw [State.memRead, h.inBuf, State.memRead]

theorem Unseen.dstCheck (n : Nat) : (f s).dstCheck n = s.dstCheck n := by
  rw [State.dstCheck, h.dst, h.build, State.dstCheck]

theorem Unseen.rangeCheck (n : Nat) : (f s).rangeCheck n = s.rangeCheck n := by
  rw [State.rangeCheck, h.src, h.len, h.build, h.dstCheck, State.rangeCheck]

theorem Unseen.drawFill (u : State) (scheme : PadScheme) (n : Nat) :
    (f u).drawFill scheme n = ((u.drawFill scheme n).1, f (u.drawFill scheme n).2) := by
  cases scheme with
  | iso10126 =>
    simp only [State.drawFill]
    split_ifs
    · rfl
    · exact h.drawEnt u _
  | zeros | ansiX923 | pkcs7 => rfl

theorem Unseen.drawDelta (u : State) (mode : Mode) (n : Nat) :
    (f u).drawDelta mode n = ((u.drawDelta mode n).1, f (u.drawDelta mode n).2) := by
  cases mode with
  | randomDelta => exact h.drawEnt u n
  | ecb | cbc | pcbc | cfb | ofb | ctr => rfl

theorem Unseen.pad (u : State) (data : List Byte) (bs : Nat) (scheme : PadScheme) :
    (f u).pad data bs scheme = ((u.pad data bs scheme).1, f (u.pad data bs scheme).2) := by
  simp only [State.pad, h.drawFill]
  obtain ⟨fill, u'⟩ := u.drawFill scheme (padLen data.length bs)
  cases fill <;> rfl

theorem Unseen.encryptBuf (b : Build) (a : Algi) (c : Ctx) (p : List Byte) (u : State) :
    encryptBuf b a c p (f u) = ((encryptBuf b a c p u).1, f (encryptBuf b a c p u).2) := by
  simp only [Machine.encryptBuf, h.pad]
  obtain ⟨_ | x, u'⟩ := u.pad p a.kind.bs c.pad
  · rfl
  · simp only [h.drawDelta]
    obtain ⟨_ | d, u''⟩ := u'.drawDelta c.mode a.kind.bs <;> rfl

theorem Carries.complete (u : State) (op : Byte) (n : Nat) : Carries f (u.complete op n) ((f u).complete op n) :=
  ⟨_, rfl, congrArg _ (h.completed u op n)⟩

theorem Carries.raise (u : State) (op : Byte) (e : CmdError) : Carries f (u.raise op e) ((f u).raise op e) :=
  ⟨_, rfl, congrArg _ (h.raised u op e)⟩

theorem Carries.storeChecked (op : Byte) (bytes : List Byte) (n : Nat) :
    Carries f (s.storeChecked op bytes n) ((f s).storeChecked op bytes n) := by
  unfold State.storeChecked
  rw [h.rangeCheck, h.dst, h.memWrite]
  split
  · exact .raise h _ _ _
  · exact .complete h _ _ _

theorem Carries.writeUnpadded (u : State) (hdst : (f u).dst = u.dst) (op : Byte) (scheme : PadScheme) (y : List Byte) :
    Carries f (u.writeUnpadded op scheme y) ((f u).writeUnpadded op scheme y) := by
  unfold State.writeUnpadded
  rw [hdst, h.memWrite]
  dsimp only
  split
  · exact .raise h _ _ _
  · exact .complete h _ _ _

end

/-! ## The commands that take no part in a stream (48_streaming.md R381) -/

/-- Sessions of the same key and context differ at most in their streams. -/
theorem Session.same_context {x y : Session} (halgi : y.algi = x.algi) (hctx : y.ctx = x.ctx) :
    x.ctx = .none ∧ y.ctx = .none ∨ ∃ a c str str', x = .context a c str ∧ y = .context a c str' := by
  cases x with
  | none | keyed => exact .inl ⟨rfl, hctx⟩
  | context a c str =>
    cases y with
    | none | keyed => cases hctx
    | context a' c' str' =>
      cases halgi
      cases hctx
      exact .inr ⟨a, c, str, str', rfl, rfl⟩

section
variable {f : State → State} {s : State} (h : Unseen f s)
include h

theorem blockCommand_carries (halgi : (f s).session.algi = s.session.algi) (op : Byte)
    (g : Build → Algi → List Byte → List Byte) : Carries f (blockCommand op g s) (blockCommand op g (f s)) := by
  unfold blockCommand
  rw [halgi, h.len, h.src, h.build]
  split
  · exact .raise h _ _ _
  · split_ifs
    · exact .raise h _ _ _
    · rw [h.memRead]
      exact .storeChecked h _ _ _

theorem execFEval_carries : Carries f (execFEval s) (execFEval (f s)) := by
  unfold execFEval
  rw [h.len, h.src, h.build, h.memRead]
  split_ifs
  · exact .raise h _ _ _
  · exact .storeChecked h _ _ _

theorem exec_gf_carries {i : Instr} (hi : i = .gfMul ∨ i = .gfCube ∨ i = .sbox1 ∨ i = .sbox2) :
    Carries f (exec i s) (exec i (f s)) := by
  obtain ⟨answer, hexec⟩ := exec_gf_eq_gfEnd hi
  rw [hexec, hexec, h.build, h.opnd]
  refine ⟨_, rfl, ?_⟩
  cases answer s.build s.opnd with
  | error e => exact congrArg _ (h.raised s _ e)
  | ok v => rw [State.gfEnd, State.gfEnd, h.setGfRes, h.completed]

theorem execPad_carries (psel : BitVec 3) (pbs : Byte) : Carries f (execPad psel pbs s) (execPad psel pbs (f s)) := by
  unfold execPad
  split_ifs
  · exact .raise h _ _ _
  · split
    · exact .raise h _ _ _
    · next scheme _ =>
      rw [h.len, h.src, h.memRead, h.dst]
      dsimp only
      rw [h.rangeCheck, h.pad]
      split
      · exact .raise h _ _ _
      · obtain ⟨_ | y, u⟩ := s.pad (s.memRead s.src s.len) pbs.toNat scheme
        · exact .raise h _ _ _
        · dsimp only
          rw [h.memWrite]
          exact .complete h _ _ _

theorem execUnpad_carries (psel : BitVec 3) : Carries f (execUnpad psel s) (execUnpad psel (f s)) := by
  unfold execUnpad
  rw [h.len, h.src, h.memRead, h.dst, h.rangeCheck]
  split
  · exact .raise h _ _ _
  · split
    · exact .raise h _ _ _
    · split
      · exact .raise h _ _ _
      · rw [h.memWrite]
        exact .complete h _ _ _

theorem execEncrypt_carries (halgi : (f s).session.algi = s.session.algi) (hctx : (f s).session.ctx = s.session.ctx) :
    Carries f (execEncrypt s) (execEncrypt (f s)) := by
  obtain ⟨hnone, hnone'⟩ | ⟨a, c, str, str', hs, hs'⟩ := Session.same_context halgi hctx
  · refine ⟨_, raises_encrypt_of_ctx_none hnone, ?_⟩
    rw [← h.raised]
    exact raises_encrypt_of_ctx_none hnone'
  · unfold execEncrypt
    rw [hs, hs', h.len, h.src, h.memRead, h.dst, h.build]
    dsimp only
    rw [h.rangeCheck, h.encryptBuf]
    split
    · exact .raise h _ _ _
    · obtain ⟨e | y, u⟩ := encryptBuf s.build a c (s.memRead s.src s.len) s
      · exact .raise h _ _ _
      · dsimp only
        rw [h.memWrite]
        exact .complete h _ _ _

theorem execDecrypt_carries (halgi : (f s).session.algi = s.session.algi) (hctx : (f s).session.ctx = s.session.ctx) :
    Carries f (execDecrypt s) (execDecrypt (f s)) := by
  obtain ⟨hnone, hnone'⟩ | ⟨a, c, str, str', hs, hs'⟩ := Session.same_context halgi hctx
  · refine ⟨_, raises_decrypt_of_ctx_none hnone, ?_⟩
    rw [← h.raised]
    exact raises_decrypt_of_ctx_none hnone'
  · unfold execDecrypt
    rw [hs, hs', h.len, h.src, h.memRead, h.build]
    dsimp only
    rw [h.rangeCheck]
    split
    · exact .raise h _ _ _
    · split
      · exact .raise h _ _ _
      · exact .writeUnpadded h _ h.dst _ _ _

end

/-- The commands that take no part in a stream (48_streaming.md R381). -/
def Streamless (i : Instr) : Prop :=
  i ∈ [.nop, .blkEnc, .blkDec, .fEval, .encrypt, .decrypt, .gfMul, .gfCube, .sbox1, .sbox2] ∨
    (∃ psel pbs, i = .pad psel pbs) ∨ ∃ psel, i = .unpad psel

/-- Such a command does not see a change that leaves ALGI and CTX. -/
theorem exec_carries_of_streamless {f : State → State} {s : State} (h : Unseen f s)
    (halgi : (f s).session.algi = s.session.algi) (hctx : (f s).session.ctx = s.session.ctx) {i : Instr}
    (hi : Streamless i) : Carries f (exec i s) (exec i (f s)) := by
  cases i with
  | nop => exact .complete h _ _ _
  | blkEnc | blkDec => exact blockCommand_carries h halgi _ _
  | fEval => exact execFEval_carries h
  | encrypt => exact execEncrypt_carries h halgi hctx
  | decrypt => exact execDecrypt_carries h halgi hctx
  | gfMul | gfCube | sbox1 | sbox2 => exact exec_gf_carries h (by simp)
  | pad psel pbs => exact execPad_carries h psel pbs
  | unpad psel => exact execUnpad_carries h psel
  | _ => simp [Streamless] at hi

/-! ## The other commands -/

theorem streamStateError_of_session {s s' : State} (h : s'.session = s.session) (sub : Byte) :
    streamStateError s' sub = streamStateError s sub := by
  rw [streamStateError, State.stream, h, streamStateError, State.stream]

section
variable {f : State → State} {s : State} (h : Unseen f s) (hsession : (f s).session = s.session)
  (hset : ∀ u x, State.setSession (f u) x = f (u.setSession x))
include h

include hset in
theorem execCtxInit_carries : Carries f (execCtxInit s) (execCtxInit (f s)) := by
  unfold execCtxInit
  rw [h.build, h.opnd]
  dsimp only
  rw [hset]
  split
  · exact .raise h _ _ _
  · rw [hset]
    exact .complete h _ _ _

include hset in
theorem execAlgSetkey_carries : Carries f (execAlgSetkey s) (execAlgSetkey (f s)) := by
  unfold execAlgSetkey
  rw [h.build, h.opnd]
  dsimp only
  rw [hset]
  split
  · exact .raise h _ _ _
  · rw [hset]
    exact .complete h _ _ _

include hsession hset

theorem execSencBegin_carries : Carries f (execSencBegin s) (execSencBegin (f s)) := by
  unfold execSencBegin
  rw [hsession, streamStateError_of_session hsession]
  split
  · exact .raise h _ _ _
  · exact .raise h _ _ _
  · exact .raise h _ _ _
  · exact .raise h _ _ _
  · next a c _ =>
    rw [h.dstCheck, h.drawEnt, h.dst, hset]
    split
    · split
      · exact .raise h _ _ _
      · obtain ⟨_ | d, u⟩ := s.drawEnt a.kind.bs
        · exact .raise h _ _ _
        · dsimp only
          rw [h.memWrite, hset]
          exact .complete h _ _ _
    all_goals exact .complete h _ _ _

theorem execSencData_carries : Carries f (execSencData s) (execSencData (f s)) := by
  unfold execSencData
  rw [hsession, streamStateError_of_session hsession, h.len, h.src, h.memRead, h.dst, h.build]
  split
  · dsimp only
    rw [h.rangeCheck, h.memWrite, hset]
    split
    · exact .raise h _ _ _
    · exact .complete h _ _ _
  all_goals exact .raise h _ _ _

theorem execSencEnd_carries : Carries f (execSencEnd s) (execSencEnd (f s)) := by
  unfold execSencEnd
  rw [hsession, streamStateError_of_session hsession, h.dst, h.build]
  split
  · next a c d _ =>
    have hcheck : ((f s).setSession (.context a c .idle)).dstCheck a.kind.bs =
        (s.setSession (.context a c .idle)).dstCheck a.kind.bs := h.dstCheck a.kind.bs
    dsimp only
    rw [hcheck, hset, h.pad]
    split
    · exact .raise h _ _ _
    · obtain ⟨_ | x, u⟩ := (s.setSession (.context a c .idle)).pad d.pend a.kind.bs c.pad
      · exact .raise h _ _ _
      · dsimp only
        rw [h.memWrite]
        exact .complete h _ _ _
  all_goals exact .raise h _ _ _

theorem execSdecBegin_carries : Carries f (execSdecBegin s) (execSdecBegin (f s)) := by
  unfold execSdecBegin
  rw [hsession, streamStateError_of_session hsession]
  split
  · exact .raise h _ _ _
  · exact .raise h _ _ _
  · exact .raise h _ _ _
  · exact .raise h _ _ _
  · rw [hset]
    exact .complete h _ _ _

theorem execSdecData_carries : Carries f (execSdecData s) (execSdecData (f s)) := by
  unfold execSdecData
  rw [hsession, streamStateError_of_session hsession, h.len, h.src, h.memRead, h.dst, h.build]
  split
  · dsimp only
    rw [h.rangeCheck, h.memWrite, hset, hset]
    split
    · exact .raise h _ _ _
    · split_ifs
      · exact .complete h _ _ _
      · exact .complete h _ _ _
  all_goals exact .raise h _ _ _

theorem execSdecEnd_carries : Carries f (execSdecEnd s) (execSdecEnd (f s)) := by
  unfold execSdecEnd
  rw [hsession, streamStateError_of_session hsession, h.build]
  split
  · next a c d _ =>
    have hcheck : ((f s).setSession (.context a c .idle)).dstCheck d.pend.length =
        (s.setSession (.context a c .idle)).dstCheck d.pend.length := h.dstCheck d.pend.length
    have hdst : ((f s).setSession (.context a c .idle)).dst = (s.setSession (.context a c .idle)).dst := h.dst
    dsimp only
    rw [hcheck]
    rw [hset] at hdst ⊢
    split
    · exact .raise h _ _ _
    · split
      · exact .raise h _ _ _
      · exact .writeUnpadded h _ hdst _ _ _
  all_goals exact .raise h _ _ _

theorem execStreamAbort_carries : Carries f (execStreamAbort s) (execStreamAbort (f s)) := by
  unfold execStreamAbort
  rw [hsession, hset]
  exact .complete h _ _ _

/-- No command sees a change that leaves the session and commutes with its writes. -/
theorem exec_carries (i : Instr) : Carries f (exec i s) (exec i (f s)) := by
  have hdata (hi : Streamless i) : Carries f (exec i s) (exec i (f s)) :=
    exec_carries_of_streamless h (by rw [hsession]) (by rw [hsession]) hi
  cases i with
  | ctxInit => exact execCtxInit_carries h hset
  | ctxClear =>
    change Carries f ((s.setSession .none).complete _ _) (((f s).setSession .none).complete _ _)
    rw [hset]
    exact .complete h _ _ _
  | algSetkey => exact execAlgSetkey_carries h hset
  | sencBegin => exact execSencBegin_carries h hsession hset
  | sencData => exact execSencData_carries h hsession hset
  | sencEnd => exact execSencEnd_carries h hsession hset
  | sdecBegin => exact execSdecBegin_carries h hsession hset
  | sdecData => exact execSdecData_carries h hsession hset
  | sdecEnd => exact execSdecEnd_carries h hsession hset
  | streamAbort => exact execStreamAbort_carries h hsession hset
  | _ => exact hdata (by simp [Streamless])

end

/-! ## The two changes -/

/-- The host's writes to the operand registers. -/
def State.withArgs (x : Args) (s : State) : State := { s with args := x }

/-- The operand registers are not seen while the latched ones are used (10_state.md R50). -/
theorem unseen_withArgs {s : State} (hr : s.running.isSome = true) (x : Args) : Unseen (State.withArgs x) s := by
  obtain ⟨r, hr⟩ := Option.isSome_iff_exists.mp hr
  refine ⟨fun _ _ _ => rfl, fun _ _ _ => rfl, fun _ _ _ => rfl, fun _ _ => rfl, fun u n => ?_, rfl, ?_, ?_⟩
  · unfold State.drawEnt State.withArgs
    dsimp only
    split <;> rfl
  · simp only [State.opnd, State.withArgs, hr]
  · simp only [State.inBuf, State.withArgs, hr]

theorem unseen_setSession (s : State) (y : Session) : Unseen (fun u => u.setSession y) s := by
  refine ⟨fun _ _ _ => rfl, fun _ _ _ => rfl, fun _ _ _ => rfl, fun _ _ => rfl, fun u n => ?_, rfl, rfl, rfl⟩
  unfold State.drawEnt State.setSession
  dsimp only
  split <;> rfl

end Sys2Proof.Machine
end

section
/-! What a command may change beyond its completion or error writes (10_state.md R50, R51; 44_block_commands.md R257;
45_context.md R285; 48_streaming.md R374, R378, R380, R381), and what a step may change of ALGI and CTX. -/

namespace Sys2Proof.Machine

/-! ## A command -/

/-- Settles O16: what a command does before its completion writes lies in its output range; the operand registers are not
seen. -/
theorem commandsWriteOnlyTheirRange : Obligations.CommandsWriteOnlyTheirRange := by
  unfold Obligations.CommandsWriteOnlyTheirRange
  intro i s t hinv hexec
  have hargs (x : Args) (hr : s.running.isSome = true) : exec i { s with args := x } = .next { t with args := x } := by
    obtain ⟨t', ht', hcarried⟩ := exec_carries (unseen_withArgs hr x) rfl (fun _ _ => rfl) i
    cases hexec.symm.trans ht'
    exact hcarried
  obtain ⟨x, hx, hends⟩ := exec_works i s
  have hout := (hx.buf hinv.session).read_outside
  have hgf := hx.gfRes
  obtain ⟨g, se, m, e, k, rfl⟩ := hx.touched
  obtain ⟨n, hn⟩ | ⟨e, he⟩ := hends
  · cases hexec.symm.trans hn
    exact ⟨hout, rfl, rfl, rfl, rfl, rfl, rfl, rfl, rfl, rfl, fun _ => ⟨rfl, rfl, rfl⟩, hgf, hargs⟩
  · cases hexec.symm.trans he
    exact ⟨hout, rfl, rfl, rfl, rfl, rfl, rfl, rfl, rfl, rfl, nofun, hgf, hargs⟩

/-! ## The stream -/

section
variable {s : State} {a : Algi} {c : Ctx} {d : StrData}

/-- Putting its own session into a state is no change, so the command puts none into its outcome. -/
theorem exec_streamless (s : State) {i : Instr} (hi : Streamless i) :
    ∃ t, exec i s = .next t ∧ t.session = s.session ∧
      ∀ a c x y, s.session = .context a c x →
        exec i (s.setSession (.context a c y)) = .next (t.setSession (.context a c y)) := by
  obtain ⟨t, ht, hself⟩ := exec_carries_of_streamless (unseen_setSession s s.session) rfl rfl hi
  rw [s.setSession_self] at hself
  have hkeep : t = t.setSession s.session := Host.Outcome.next.inj (ht.symm.trans hself)
  refine ⟨t, ht, by rw [hkeep]; rfl, fun a c x y hs => ?_⟩
  obtain ⟨t', ht', hother⟩ := exec_carries_of_streamless (unseen_setSession s (.context a c y)) (by rw [hs]; rfl)
    (by rw [hs]; rfl) hi
  obtain rfl := Host.Outcome.next.inj (ht.symm.trans ht')
  exact hother

theorem State.stream_of_idle {t : State} (h : t.session.str = .idle) : t.stream = 0#2 := by
  rw [State.stream, h, Str.code]

theorem Session.closeStream_str (x : Session) : x.closeStream.str = .idle := by cases x <;> rfl

/-- The setup commands and STREAM_ABORT close any stream, whether they succeed or not. -/
theorem exec_closes_stream (s : State) {i : Instr}
    (hi : i = .ctxInit ∨ i = .ctxClear ∨ i = .algSetkey ∨ i = .streamAbort) :
    ∃ t, exec i s = .next t ∧ t.session.str = .idle := by
  obtain rfl | rfl | rfl | rfl := hi
  · cases hplan : ctxInitPlan s.build s.opnd with
    | error e => exact ⟨_, raises_ctxInit hplan, rfl⟩
    | ok p => exact ⟨_, exec_ctxInit_of_plan hplan, rfl⟩
  · exact ⟨_, exec_ctxClear s, rfl⟩
  · cases hplan : algSetkeyPlan s.build s.opnd with
    | error e => exact ⟨_, raises_algSetkey hplan, rfl⟩
    | ok a => exact ⟨_, exec_algSetkey_of_plan hplan, rfl⟩
  · exact ⟨_, exec_streamAbort s, s.session.closeStream_str⟩

/-- SENC_END closes its stream before anything can stop it (48_streaming.md R374). -/
theorem exec_sencEnd_closes (hs : s.session = .context a c (.enc d)) :
    ∃ t, exec .sencEnd s = .next t ∧ t.session = .context a c .idle := by
  have hdrawn : (s.setSession (.context a c .idle)).Drawn _ := State.pad_frame _ d.pend a.kind.bs c.pad
  change ∃ t, execSencEnd s = _ ∧ _
  simp only [execSencEnd, hs]
  split
  · exact ⟨_, rfl, rfl⟩
  · split
    all_goals
      next hpad =>
        rw [hpad] at hdrawn
        obtain ⟨e, k, rfl⟩ := hdrawn
        exact ⟨_, rfl, rfl⟩

/-- SDEC_END closes its stream before anything can stop it (48_streaming.md R378). -/
theorem exec_sdecEnd_closes (hs : s.session = .context a c (.dec d)) :
    ∃ t, exec .sdecEnd s = .next t ∧ t.session = .context a c .idle := by
  change ∃ t, execSdecEnd s = _ ∧ _
  simp only [execSdecEnd, hs]
  split
  · exact ⟨_, rfl, rfl⟩
  · split
    · exact ⟨_, rfl, rfl⟩
    · unfold State.writeUnpadded
      dsimp only
      split
      · exact ⟨_, rfl, rfl⟩
      · exact ⟨_, rfl, rfl⟩

end

/-- Settles O18: the stream is not seen by the commands that take no part in one; the others close it before their
first check. -/
theorem otherCommandsLeaveTheStream : Obligations.OtherCommandsLeaveTheStream := by
  unfold Obligations.OtherCommandsLeaveTheStream
  refine ⟨fun i s hi => exec_streamless s hi, fun i s hi => ?_, fun s a c d => ⟨fun hs => ?_, fun hs => ?_⟩⟩
  · obtain ⟨t, hexec, hidle⟩ := exec_closes_stream s hi
    exact ⟨t, hexec, hidle, State.stream_of_idle hidle⟩
  · obtain ⟨t, hexec, hidle⟩ := exec_sencEnd_closes hs
    exact ⟨t, hexec, hidle, State.stream_of_idle (by rw [hidle]; rfl)⟩
  · obtain ⟨t, hexec, hidle⟩ := exec_sdecEnd_closes hs
    exact ⟨t, hexec, hidle, State.stream_of_idle (by rw [hidle]; rfl)⟩

/-! ## ALGI and CTX -/

theorem exec_key {i : Instr} {s t : State} (hinit : i ≠ .ctxInit) (hkey : i ≠ .algSetkey) (hclear : i ≠ .ctxClear)
    (h : exec i s = .next t) : t.session.algi = s.session.algi ∧ t.session.ctx = s.session.ctx := by
  obtain ⟨x, hx, ⟨n, hn⟩ | ⟨e, he⟩⟩ := exec_works i s
  · cases h.symm.trans hn
    exact hx.key hinit hkey hclear
  · cases h.symm.trans he
    exact hx.key hinit hkey hclear

/-- The words of the commands that set up ALGI and CTX, or discard them. -/
def SetsUpKey (w : Word32) : Prop :=
  decode w = .ok .ctxInit ∨ decode w = .ok .algSetkey ∨ decode w = .ok .ctxClear

/-- `v` comes in the cycle of `s` before anything has changed ALGI or CTX, and what runs in it ran in `s`. -/
structure KeepsKey (s v : State) : Prop where
  build : v.build = s.build
  algi : v.session.algi = s.session.algi
  ctx : v.session.ctx = s.session.ctx
  word : ∀ r, v.running = some r → ∃ r', s.running = some r' ∧ r'.word = r.word

section
variable {s t u v : State}

theorem KeepsKey.countDown (s : State) (rest : List Input) : KeepsKey s { s.countDown with inbox := rest } := by
  rw [State.countDown_eq]
  refine ⟨rfl, rfl, rfl, fun r hr => ?_⟩
  obtain ⟨r', hr', rfl⟩ := Option.map_eq_some_iff.mp (show s.running.map _ = some r from hr)
  exact ⟨r', hr', rfl⟩

theorem runWord_key {w : Word32} (h : runWord w s = .next t) :
    SetsUpKey w ∨ t.session.algi = s.session.algi ∧ t.session.ctx = s.session.ctx := by
  unfold runWord at h
  split at h
  · next i hi =>
    by_cases hset : i = .ctxInit ∨ i = .algSetkey ∨ i = .ctxClear
    · left
      obtain rfl | rfl | rfl := hset
      · exact .inl hi
      · exact .inr (.inl hi)
      · exact .inr (.inr hi)
    · obtain ⟨hinit, hkey, hclear⟩ : i ≠ .ctxInit ∧ i ≠ .algSetkey ∧ i ≠ .ctxClear := by simpa [not_or] using hset
      exact .inr (exec_key hinit hkey hclear h)
  · cases h
    exact .inr ⟨rfl, rfl⟩

theorem runWord_running {w : Word32} (h : runWord w s = .next t) : t.running = none := by
  obtain ⟨t', x, op, hnext, -, hend⟩ := runWord_next w s
  cases h.symm.trans hnext
  obtain ⟨n, rfl⟩ | ⟨e, rfl⟩ := hend <;> rfl

/-- A completion changes ALGI or CTX only where a setup command was in progress, and leaves nothing in progress. -/
theorem finishDue_key (h : finishDue s = .next t) :
    (t = s ∨ t.running = none) ∧
      ((∃ r, s.running = some r ∧ SetsUpKey r.word) ∨
        t.session.algi = s.session.algi ∧ t.session.ctx = s.session.ctx) := by
  obtain ⟨hkeep, -⟩ | ⟨r, hr, -, hdue⟩ := finishDue_cases s
  · cases h.symm.trans hkeep
    exact ⟨.inl rfl, .inr ⟨rfl, rfl⟩⟩
  · have hrun := hdue.symm.trans h
    exact ⟨.inr (runWord_running hrun), (runWord_key hrun).imp_left fun hset => ⟨r, hr, hset⟩⟩

theorem Serves.session {i : Input} (h : Serves s i t) :
    t.session = s.session ∨ (∃ l, i = .rst l) ∨
      ∃ v, i = .bus ⟨s.build.base + 0x004, .w32, .write v⟩ ∧ v.getLsbD 0 = true := by
  cases h with
  | reset l => exact .inr (.inl ⟨l, rfl⟩)
  | softReset v hv => exact .inr (.inr ⟨v, rfl, hv⟩)
  | ports | registers => exact .inl rfl
  | submit => rw [State.respond_session, State.submit]; split <;> exact .inl rfl
  | bufWrite => rw [State.respond_session, State.hostWriteBuf]; split <;> exact .inl rfl

/-- What runs after an input was served ran before, or is the word of a CMD write. -/
theorem Serves.running_word {i : Input} (h : Serves s i t) {r : Running} (hr : t.running = some r) :
    (∃ r', s.running = some r' ∧ r'.word = r.word) ∨ i = .bus ⟨s.build.base + 0x00C, .w32, .write r.word⟩ := by
  cases h with
  | reset l =>
    cases l with
    | true => cases hr
    | false => exact .inl ⟨r, hr, rfl⟩
  | ports | registers => exact .inl ⟨r, hr, rfl⟩
  | softReset =>
    rw [State.respond_running, State.softReset] at hr
    split at hr <;> cases hr
  | submit w =>
    rw [State.respond_running, State.submit] at hr
    split at hr
    · exact .inl ⟨r, hr, rfl⟩
    · cases hr
      exact .inr rfl
  | bufWrite =>
    rw [State.respond_running, State.hostWriteBuf] at hr
    split at hr
    · exact .inl ⟨r, hr, rfl⟩
    · next r' hr' =>
      cases hr
      exact .inl ⟨r', hr', rfl⟩

/-- What a step of `s` must run or serve to change ALGI or CTX. -/
def KeyMayChange (s : State) : Prop :=
  (∃ l rest, s.inbox = .rst l :: rest) ∨
    (∃ v rest, s.inbox = .bus ⟨s.build.base + 0x004, .w32, .write v⟩ :: rest ∧ v.getLsbD 0 = true) ∨
    ∃ w : Word32, SetsUpKey w ∧ ((∃ r, s.running = some r ∧ r.word = w) ∨
      ∃ rest, s.inbox = .bus ⟨s.build.base + 0x00C, .w32, .write w⟩ :: rest)

theorem KeepsKey.mayChange (hv : KeepsKey s v) {r : Running} (hr : v.running = some r) (hset : SetsUpKey r.word) :
    KeyMayChange s := by
  obtain ⟨r', hr', hword⟩ := hv.word r hr
  exact .inr (.inr ⟨r.word, hset, .inl ⟨r', hr', hword⟩⟩)

/-- A completion of a command that ran in `s`. -/
theorem KeepsKey.finishDue (hv : KeepsKey s v) (h : Machine.finishDue v = .next u) :
    KeyMayChange s ∨ KeepsKey s u := by
  obtain ⟨hrunning, ⟨r, hr, hset⟩ | ⟨halgi, hctx⟩⟩ := finishDue_key h
  · exact .inl (hv.mayChange hr hset)
  · refine .inr ⟨(finishDue_build h).trans hv.build, halgi.trans hv.algi, hctx.trans hv.ctx, fun r hr => ?_⟩
    obtain rfl | hnone := hrunning
    · exact hv.word r hr
    · rw [hnone] at hr
      cases hr

/-- The input served, and the completion after it. -/
theorem KeepsKey.serve (hv : KeepsKey s v) {i : Input} {rest : List Input} (hin : s.inbox = i :: rest)
    (h : Machine.finishDue (v.serve i) = .next t) :
    KeyMayChange s ∨ t.session.algi = s.session.algi ∧ t.session.ctx = s.session.ctx := by
  have hserves := v.serves i
  obtain hsession | ⟨l, rfl⟩ | ⟨w, rfl, hw⟩ := hserves.session
  · obtain ⟨-, ⟨r, hr, hset⟩ | ⟨halgi, hctx⟩⟩ := finishDue_key h
    · left
      obtain ⟨r', hr', hword⟩ | rfl := hserves.running_word hr
      · exact hv.mayChange hr' (hword ▸ hset)
      · rw [hv.build] at hin
        exact .inr (.inr ⟨r.word, hset, .inr ⟨rest, hin⟩⟩)
    · rw [hsession] at halgi hctx
      exact .inr ⟨halgi.trans hv.algi, hctx.trans hv.ctx⟩
  · exact .inl (.inl ⟨l, rest, hin⟩)
  · rw [hv.build] at hin
    exact .inl (.inr (.inl ⟨w, rest, hin, hw⟩))

theorem step_key (h : step s = .next t) :
    KeyMayChange s ∨ t.session.algi = s.session.algi ∧ t.session.ctx = s.session.ctx := by
  obtain ⟨-, hfinish⟩ | ⟨i, rest, hin, -, hfinish⟩ | ⟨i, rest, u, hin, -, hdue, hfinish⟩ := step_cases h
  · exact ((KeepsKey.countDown s s.countDown.inbox).finishDue hfinish).imp_right fun ht => ⟨ht.algi, ht.ctx⟩
  · exact (KeepsKey.countDown s rest).serve hin hfinish
  · obtain hchange | hu := (KeepsKey.countDown s rest).finishDue hdue
    · exact .inl hchange
    · exact hu.serve hin hfinish

end

/-- Settles O17: in a cycle ALGI and CTX change only by a reset, or by a setup command that was in progress or that the
cycle's CMD write submits. -/
theorem onlySetupCommandsAndResetChangeTheKey : Obligations.OnlySetupCommandsAndResetChangeTheKey := by
  unfold Obligations.OnlySetupCommandsAndResetChangeTheKey
  refine ⟨fun i s t hinit hkey hclear hexec => exec_key hinit hkey hclear hexec, fun s t hstep hchanged => ?_⟩
  obtain hmay | ⟨halgi, hctx⟩ := step_key hstep
  · exact hmay
  · exact (hchanged.elim (· halgi) (· hctx)).elim

end Sys2Proof.Machine
end

section
/-! Illegal command words (30_encoding.md R104, R106): OP selects a row of the opcode map or none; the row's mask covers OP
and the reserved bits. -/

namespace Sys2Proof.Laws

open Sys2Proof.Machine

/-! ## The rows once more (30_encoding.md R105) -/

/-- The reserved bits of a word with this OP (30_encoding.md R101, R103). -/
def reservedBits (op : Byte) : Word32 :=
  if op = 0x30#8 then 0xFF00F800#32 else if op = 0x31#8 then 0xFFFFF800#32 else 0xFFFFFF00#32

/-- The assigned values of OP. -/
def assignedOps : List Byte :=
  [0x00#8, 0x01#8, 0x02#8, 0x03#8, 0x08#8, 0x09#8, 0x0A#8, 0x10#8, 0x11#8, 0x18#8, 0x19#8, 0x1A#8, 0x1C#8, 0x1D#8,
    0x1E#8, 0x1F#8, 0x20#8, 0x21#8, 0x22#8, 0x23#8, 0x30#8, 0x31#8]

theorem opcodeMap_ops : opcodeMap.map (fun row => opField row.pat) = assignedOps := by decide

/-- A row's mask is the reserved bits of its OP and the OP field, and its pattern holds its OP alone. -/
theorem opcodeMap_masks : ∀ row ∈ opcodeMap,
    row.mask = reservedBits (opField row.pat) ||| 0xFF#32 ∧ reservedBits (opField row.pat) &&& 0xFF#32 = 0#32 ∧
      row.pat = (opField row.pat).setWidth 32 := by decide

theorem make_wf (psel : BitVec 3) (pbs : Byte) : ∀ row ∈ opcodeMap,
    (row.make psel pbs).wf = (opField row.pat != 0x30#8 || pbs != 0#8) := by
  simp only [opcodeMap, List.forall_mem_cons]
  iterate 22 refine ⟨rfl, ?_⟩
  exact nofun

theorem setWidth_opField (w : Word32) : (opField w).setWidth 32 = w &&& 0xFF#32 := by
  apply BitVec.eq_of_toNat_eq
  simp only [opField, BitVec.toNat_setWidth, BitVec.extractLsb'_toNat, BitVec.toNat_and, BitVec.toNat_ofNat,
    Nat.shiftRight_zero]
  rw [show (255 : Nat) % 2 ^ 32 = 2 ^ 8 - 1 from rfl, Nat.and_two_pow_sub_one_eq_mod]
  omega

/-- A mask of two parts, of which one holds what is asked of it. -/
theorem and_or_eq_and_iff {w p q : Word32} (h : p &&& q = 0#32) : w &&& (p ||| q) = w &&& q ↔ w &&& p = 0#32 := by
  rw [show w &&& (p ||| q) = w &&& p ||| w &&& q from BitVec.and_or_distrib_left ..]
  constructor
  · intro hw
    calc w &&& p = (w &&& p ||| w &&& q) &&& (w &&& p) := by
          ext i hi
          simp only [BitVec.getElem_and, BitVec.getElem_or]
          cases w[i] <;> cases p[i] <;> cases q[i] <;> rfl
      _ = w &&& (p &&& q) := by
          rw [hw]
          ext i hi
          simp only [BitVec.getElem_and]
          cases w[i] <;> cases p[i] <;> cases q[i] <;> rfl
      _ = 0#32 := by rw [h, BitVec.and_zero]
  · intro hw
    rw [hw, BitVec.zero_or]

/-- A row with the word's OP matches it where the reserved bits are 0. -/
theorem matches_iff_reserved {row : OpRow} (h : row ∈ opcodeMap) {w : Word32} (hop : opField row.pat = opField w) :
    w &&& row.mask = row.pat ↔ w &&& reservedBits (opField w) = 0#32 := by
  obtain ⟨hmask, hdisjoint, hpat⟩ := opcodeMap_masks row h
  rw [hpat, hmask, hop, setWidth_opField]
  rw [hop] at hdisjoint
  exact and_or_eq_and_iff hdisjoint

/-- A row with the word's OP is the row the decoder selects. -/
theorem find?_opcodeMap_of_op {row : OpRow} (h : row ∈ opcodeMap) {w : Word32} (hop : opField row.pat = opField w) :
    opcodeMap.find? (fun row => opField row.pat == opField w) = some row := by
  obtain ⟨row', hfind⟩ : ∃ row', opcodeMap.find? (fun row => opField row.pat == opField w) = some row' :=
    Option.isSome_iff_exists.mp (List.find?_isSome.mpr ⟨row, h, by simp [hop]⟩)
  have hop' : opField row'.pat = opField w := by simpa using List.find?_some hfind
  rw [hfind, opcodeMap_op_inj (List.mem_of_find?_eq_some hfind) h (hop'.trans hop.symm)]

/-! ## The decoder on every word (30_encoding.md R106) -/

section
variable {w : Word32}

theorem exists_row_of_assigned (h : opField w ∈ assignedOps) : ∃ row ∈ opcodeMap, opField row.pat = opField w := by
  rw [← opcodeMap_ops] at h
  exact List.mem_map.mp h

theorem decode_of_unassigned (h : opField w ∉ assignedOps) : decode w = .error .unassignedOp := by
  have hnone : opcodeMap.find? (fun row => opField row.pat == opField w) = none := by
    rw [List.find?_eq_none]
    intro row hrow hop
    rw [← opcodeMap_ops] at h
    exact h (List.mem_map.mpr ⟨row, hrow, by simpa using hop⟩)
  rw [decode, hnone]

theorem decode_of_reserved (h : opField w ∈ assignedOps) (hr : w &&& reservedBits (opField w) ≠ 0#32) :
    decode w = .error .reservedBits := by
  obtain ⟨row, hrow, hop⟩ := exists_row_of_assigned h
  simp only [decode, find?_opcodeMap_of_op hrow hop, if_neg (mt (matches_iff_reserved hrow hop).mp hr)]

/-- With no reserved bit set, only PAD with PBS = 0 is illegal. -/
theorem decode_of_not_reserved (h : opField w ∈ assignedOps) (hr : w &&& reservedBits (opField w) = 0#32) :
    if opField w = 0x30#8 ∧ pbsField w = 0#8 then decode w = .error .padBlockZero else ∃ i, decode w = .ok i := by
  obtain ⟨row, hrow, hop⟩ := exists_row_of_assigned h
  have hwf := make_wf (pselField w) (pbsField w) row hrow
  rw [hop] at hwf
  simp only [decode, find?_opcodeMap_of_op hrow hop, if_pos ((matches_iff_reserved hrow hop).mpr hr), hwf]
  split_ifs with hpad hlegal hlegal
  · obtain ⟨h1, h2⟩ := hpad
    simp [h1, h2] at hlegal
  · rfl
  · exact ⟨_, rfl⟩
  · simp only [Bool.or_eq_true, bne_iff_ne, not_or, not_not] at hlegal
    exact absurd hlegal hpad

/-- The command of a word has the word's fields. -/
theorem fields_of_decode {i : Instr} (h : decode w = .ok i) :
    i.op = opField w ∧ i.psel = pselField w ∧ i.pbs = pbsField w := by
  obtain ⟨-, rfl⟩ := decode_eq_ok_iff.mp h
  obtain ⟨hop, hpsel, hpbs, -⟩ := encodingFields i
  exact ⟨hop.symm, hpsel.symm, hpbs.symm⟩

/-- An illegal word written to CMD completes in the accepting step (30_encoding.md R104, R106; logs 1, 2, 27). -/
theorem step_cmd_write_illegal {s : State} {e : DecodeError} {rest : List Input} (hdec : decode w = .error e)
    (hrun : s.running = none) (hreset : s.inReset = false)
    (hin : s.inbox = .bus ⟨s.build.base + Reg.cmd.offset, .w32, .write w⟩ :: rest) :
    step s = .next (State.raised { s with inbox := rest, delays := s.delays.tail, resp := some ⟨false, 0#32⟩ }
      (opField w) ⟨.illegalCmd, e.sub, opField w⟩) := by
  have hdelay : s.delayOf w = 0 := by simp only [State.delayOf, hdec]
  rw [step_cmd_write hrun hreset hin, hdelay, finishDue_due rfl rfl]
  simp only [runWord, hdec]
  rfl

end

/-- Settles O3: OP selects no row, or a row whose mask tests the reserved bits, or PAD's row and PBS decides. -/
theorem illegalWordsRaiseTheirCause : Obligations.IllegalWordsRaiseTheirCause := by
  unfold Obligations.IllegalWordsRaiseTheirCause
  intro w op reserved assigned
  refine ⟨decode_of_unassigned, decode_of_reserved, fun hop hr hpbs => ?_, fun hop hr hlegal => ?_,
    fun e s rest hdec hrun hreset hin => ?_⟩
  · have hmem : opField w ∈ assignedOps := by
      rw [show opField w = 0x30#8 from hop]
      decide
    have hdec := decode_of_not_reserved hmem hr
    rwa [if_pos ⟨hop, hpbs⟩] at hdec
  · have hdec := decode_of_not_reserved hop hr
    rw [if_neg (fun hpad => hlegal.elim (· hpad.1) (· hpad.2))] at hdec
    obtain ⟨i, hi⟩ := hdec
    exact ⟨i, hi, fields_of_decode hi⟩
  · rw [step_cmd_write_illegal hdec hrun hreset hin]
    cases e <;> rfl

end Sys2Proof.Laws
end

section
/-! A command in progress: it waits while its time has not come, and runs in the cycle in which it has (10_state.md R25,
R50; 70_reset_and_hazards.md R463); and what an access in that cycle meets (60_exceptions.md R413). -/

namespace Sys2Proof.Machine

section
variable {s : State} {r : Running} {i : Input} {rest : List Input}

/-! ## The cycle, input by input -/

theorem State.countDown_of_running (h : s.running = some r) :
    s.countDown = { s with running := some { r with left := r.left - 1 } } := by simp only [State.countDown, h]

theorem State.countDown_of_idle (h : s.running = none) : s.countDown = s := by simp only [State.countDown, h]

theorem finishDue_not_due (h : s.running = some r) (hl : r.left ≠ 0) : finishDue s = .next s := by
  simp only [finishDue, h, if_neg hl]

/-- With no input pending, a cycle is time passing and a completion. -/
theorem step_of_no_input (h : s.inbox = []) : step s = finishDue s.countDown := by
  have hin : s.countDown.inbox = [] := by rw [State.countDown_eq, h]
  simp only [step, cycle, hin]

/-- A cycle whose input comes before the completion (log 16). -/
theorem step_of_beforeCompletion (h : s.inbox = i :: rest) (hb : i.beforeCompletion s.build = true) :
    step s = finishDue (State.serve { s.countDown with inbox := rest } i) := by
  have hin : s.countDown.inbox = i :: rest := by rw [State.countDown_eq, h]
  simp only [step, cycle, hin, hb, if_true]

/-- A cycle whose input comes after the completion (log 16). -/
theorem step_of_not_beforeCompletion (h : s.inbox = i :: rest) (hb : i.beforeCompletion s.build = false) :
    step s = andThen (finishDue { s.countDown with inbox := rest }) fun u => finishDue (u.serve i) := by
  have hin : s.countDown.inbox = i :: rest := by rw [State.countDown_eq, h]
  simp only [step, cycle, hin, hb, Bool.false_eq_true, if_false]

end

/-- A cycle that serves a write to CTRL or INT_STATUS: the write takes effect before the completion (log 16). -/
theorem step_write_before {s : State} {rest : List Input} {g : Reg} {v : Word32} (hg : g = .ctrl ∨ g = .intStatus)
    (hreset : s.inReset = false) (hin : s.inbox = .bus ⟨s.build.base + g.offset, .w32, .write v⟩ :: rest) :
    step s = finishDue ((State.regWrite { s.countDown with inbox := rest } g v).respond false 0#32) := by
  have hbefore : Input.beforeCompletion s.build (.bus ⟨s.build.base + g.offset, .w32, .write v⟩) = true := by
    rw [beforeCompletion_write_reg]
    obtain rfl | rfl := hg <;> rfl
  rw [step_of_beforeCompletion hin hbefore, State.countDown_eq]
  exact congrArg finishDue (State.access_write_reg _ g v hreset)

/-! ## Waiting and running -/

/-- Settles O6: a delay that is not 0 keeps the accepting step from running the command, and each later step takes one
off it. -/
theorem delayedCommandsRunWhenTheirTimeComes : Obligations.DelayedCommandsRunWhenTheirTimeComes := by
  unfold Obligations.DelayedCommandsRunWhenTheirTimeComes
  refine ⟨fun s w i rest d ds hdec hrun hreset hdelays hin => ?_, fun s r d hrun hleft hin => ?_,
    fun s r i hrun hleft hdec hin => ?_⟩
  · have hdelay : s.delayOf w = d + 1 := by rw [State.delayOf_of_decode hdec, hdelays, List.headD_cons]
    rw [step_cmd_write hrun hreset hin, hdelay, hdelays, List.tail_cons]
    exact finishDue_not_due rfl (Nat.succ_ne_zero d)
  · rw [step_of_no_input hin, State.countDown_of_running hrun, hleft]
    exact finishDue_not_due rfl (Nat.succ_ne_zero d)
  · rw [step_of_no_input hin, State.countDown_of_running hrun, Nat.sub_eq_zero_of_le hleft, finishDue_due rfl rfl]
    exact runWord_of_decode hdec _

/-! ## An access in the cycle of a completion -/

/-- Completion sets DONE, and an error sets ERR with it (60_exceptions.md R400, R401). -/
theorem or_int_bits : ∀ p : BitVec 3, (p ||| intDone).getLsbD 0 = true ∧ (p ||| intDone ||| intErr).getLsbD 0 = true ∧
    (p ||| intDone ||| intErr).getLsbD 1 = true := by decide

theorem runWord_interrupts (w : Word32) (s : State) :
    ∃ t, runWord w s = .next t ∧ t.running = none ∧ t.intStatus.getLsbD 0 = true ∧
      (t.err = true → t.intStatus.getLsbD 1 = true) := by
  obtain ⟨t, x, op, hnext, -, hend⟩ := runWord_next w s
  obtain ⟨hdone, hraised, herr⟩ := or_int_bits x.intStatus
  obtain ⟨n, rfl⟩ | ⟨e, rfl⟩ := hend
  · exact ⟨_, hnext, rfl, hdone, nofun⟩
  · exact ⟨_, hnext, rfl, hraised, fun _ => herr⟩

/-- What a command leaves of the engine and the bus (10_state.md R51). -/
theorem exec_frame {i : Instr} {s t : State} (h : exec i s = .next t) :
    t.build = s.build ∧ t.inReset = s.inReset ∧ t.delays = s.delays ∧ t.running = none := by
  obtain ⟨x, ⟨g, se, m, e, k, rfl⟩, hend⟩ := exec_ends i s
  obtain ⟨n, hn⟩ | ⟨e, he⟩ := hend
  · cases h.symm.trans hn
    exact ⟨rfl, rfl, rfl, rfl⟩
  · cases h.symm.trans he
    exact ⟨rfl, rfl, rfl, rfl⟩

/-- Settles O59: the acknowledgement is served before the completion sets DONE, the CMD write after BUSY has fallen. -/
theorem completionMeetsAnAccess : Obligations.CompletionMeetsAnAccess := by
  unfold Obligations.CompletionMeetsAnAccess
  refine ⟨fun s r v rest hrun hleft hreset hin => ?_,
    fun s t r i j w rest d ds hrun hleft hdec hdec' hreset hin hdelays hexec => ?_⟩
  · rw [step_write_before (.inr rfl) hreset hin, State.countDown_of_running hrun, Nat.sub_eq_zero_of_le hleft,
      finishDue_due (r := { r with left := 0 }) rfl rfl]
    exact runWord_interrupts _ _
  · obtain ⟨hbuild, htreset, htdelays, htrun⟩ := exec_frame hexec
    have hserve : t.serve (.bus ⟨s.build.base + Reg.cmd.offset, .w32, .write w⟩) = (t.submit w).respond false 0#32 := by
      have haccess := t.access_write_reg .cmd w (htreset.trans hreset)
      rwa [hbuild] at haccess
    have hdelay : t.delayOf w = d + 1 := by
      rw [State.delayOf_of_decode hdec', htdelays, hdelays, List.headD_cons]
    rw [step_of_not_beforeCompletion hin (beforeCompletion_write_reg s.build .cmd w),
      State.countDown_of_running hrun, Nat.sub_eq_zero_of_le hleft, finishDue_due rfl rfl, runWord_of_decode hdec,
      hexec, andThen_next]
    refine (congrArg finishDue hserve).trans ?_
    rw [State.submit_idle htrun, hdelay, htdelays, hdelays, List.tail_cons]
    exact finishDue_not_due rfl (Nat.succ_ne_zero d)

end Sys2Proof.Machine
end

section
/-! The resets (70_reset_and_hazards.md R450, R452): every register after a reset, and what the soft reset keeps. -/

namespace Sys2Proof.Machine

/-! ## The reset values -/

/-- PARAM as a number (10_state.md R38). -/
theorem Build.param_toNat (b : Build) :
    b.param.toNat = (b.tables == .ref).toNat * 2 ^ 16 + b.bufLog.val * 2 ^ 8 + b.rc5Rounds.val := by
  obtain ⟨-, hlog⟩ := b.bufLog.property
  obtain ⟨-, hrounds⟩ := b.rc5Rounds.property
  change (0#15 ++ BitVec.ofBool (b.tables == .ref) ++ BitVec.ofNat 8 b.bufLog.val ++
    BitVec.ofNat 8 b.rc5Rounds.val : BitVec (15 + 1 + 8 + 8)).toNat = _
  rw [toNat_append_eq, toNat_append_eq, toNat_append_eq, BitVec.toNat_ofNat, BitVec.toNat_ofNat, BitVec.toNat_ofNat,
    BitVec.toNat_ofBool]
  omega

/-- PARAM holds RC5_ROUNDS, log2(BUF_BYTES) and REFCFG in its three fields (10_state.md R38). -/
theorem Build.param_fields (b : Build) :
    b.param.extractLsb' 0 8 = BitVec.ofNat 8 b.rc5Rounds.val ∧ b.param.extractLsb' 8 8 = BitVec.ofNat 8 b.bufLog.val ∧
      b.param.getLsbD 16 = (b.tables == .ref) ∧ b.param.extractLsb' 17 15 = 0#15 := by
  obtain ⟨-, hlog⟩ := b.bufLog.property
  obtain ⟨-, hrounds⟩ := b.rc5Rounds.property
  have hbit := Bool.toNat_lt (b.tables == .ref)
  refine ⟨?_, ?_, ?_, ?_⟩
  case refine_3 =>
    rw [← BitVec.testBit_toNat, Nat.testBit_eq_decide_div_mod_eq, b.param_toNat]
    cases b.tables == .ref
    · rw [decide_eq_false_iff_not, Bool.toNat_false]
      omega
    · rw [decide_eq_true_iff, Bool.toNat_true]
      omega
  all_goals
    apply BitVec.eq_of_toNat_eq
    rw [BitVec.extractLsb'_toNat, Nat.shiftRight_eq_div_pow, b.param_toNat, BitVec.toNat_ofNat]
    omega

/-- Settles O10: each register of a reset state is written out in State.resetOf, and PARAM's fields are the build's. -/
theorem resetGivesEveryRegisterItsValue : Obligations.ResetGivesEveryRegisterItsValue := by
  unfold Obligations.ResetGivesEveryRegisterItsValue
  intro b s
  obtain ⟨hrounds, hlog, href, hzero⟩ := b.param_fields
  have hread (r : Reg) (hid : r ≠ .id) (hparam : r ≠ .param) : s.regRead r = 0#32 := by
    cases r with
    | id => exact absurd rfl hid
    | param => exact absurd rfl hparam
    | status =>
      change 0#8 ++ 0#8 ++ 0#8 ++ 0#2 ++ 0#2 ++ 0#1 ++ 0#1 ++ 0#1 ++ 0#1 = _
      decide
    | cfg =>
      change Args.reset.cfg.word = _
      decide
    | _ => rfl
  have hbytes : 2 ^ (b.param.extractLsb' 8 8).toNat = b.bufBytes := by
    obtain ⟨-, hle⟩ := b.bufLog.property
    rw [hlog, BitVec.toNat_ofNat, Nat.mod_eq_of_lt (by omega)]
    rfl
  have htables : b.param.getLsbD 16 = true ↔ b.tables = .ref := by rw [href, beq_iff_eq]
  refine ⟨rfl, hread, hrounds, hbytes, htables, hzero, rfl, rfl, rfl, rfl, rfl, ?_⟩
  simp [s, State.irq, State.resetOf]

/-! ## The soft reset -/

/-- MAXOUT depends on the session and LEN alone. -/
theorem maxOutOf_congr {s s' : State} (i : Instr) (hsession : s'.session = s.session) (hlen : s'.len = s.len) :
    maxOutOf i s' = maxOutOf i s := by
  cases i <;> simp only [maxOutOf, hsession, hlen]

/-- The output range of a command does not depend on its time to go, nor on the inputs to come. -/
theorem State.output_range_of_left {s : State} {r : Running} (hr : s.running = some r) (rest : List Input) (n : Nat) :
    let u : State := { s with inbox := rest, running := some { r with left := n } }
    u.dst = s.dst ∧ u.runningMaxOut = s.runningMaxOut := by
  have hopnd : State.opnd { s with inbox := rest, running := some { r with left := n } } = s.opnd := by
    simp only [State.opnd, hr]
  refine ⟨by rw [State.dst, hopnd, State.dst], ?_⟩
  simp only [State.runningMaxOut, hr]
  split
  · rfl
  · exact maxOutOf_congr _ rfl (by rw [State.len, hopnd, State.len])

theorem State.softReset_of_idle {s : State} (h : s.running = none) : s.softReset = s.cleared s.buf := by
  simp only [State.softReset, h]

theorem State.softReset_of_running {s : State} {r : Running} (h : s.running = some r) :
    s.softReset = { s.cleared (s.buf.writeN s.dst ((List.range s.outBytes).map (Config.freeByte s.free))) with
      free := s.free + 1 } := by
  simp only [State.softReset, h]

/-- A soft reset clears everything but BUF, and of BUF the output range of the command it abandons (70_reset_and_hazards.md
R452; log 8). -/
theorem State.softReset_spec (s : State) :
    ∃ m k, s.softReset = { s.cleared m with free := k } ∧
      ∀ a, s.running = none ∨ a < s.dst ∨ s.dst + s.runningMaxOut ≤ a → m.read a = s.buf.read a := by
  cases hr : s.running with
  | none => exact ⟨s.buf, s.free, State.softReset_of_idle hr, fun _ _ => rfl⟩
  | some r =>
    refine ⟨_, _, State.softReset_of_running hr, fun a ha => Memory.read_writeN_outside _ _ _ _ ?_⟩
    rw [List.length_map, List.length_range, State.outBytes]
    obtain ha | ha := ha
    · cases ha
    · omega

theorem State.cleared_of_released {s : State} (h : s.inReset = false) (m : Memory) :
    s.cleared m = { State.resetOf s.build with
      buf := m, inbox := s.inbox, resp := s.resp, ent := s.ent, delays := s.delays, free := s.free } := by
  rw [State.cleared, h]
  rfl

/-- The soft reset of a cycle abandons the command in progress with its range as it stood before the cycle. -/
theorem State.softReset_countDown (s : State) (rest : List Input) :
    ∃ m k, State.softReset { s.countDown with inbox := rest } =
        { State.cleared { s with inbox := rest } m with free := k } ∧
      ∀ a, s.running = none ∨ a < s.dst ∨ s.dst + s.runningMaxOut ≤ a → m.read a = s.buf.read a := by
  cases hr : s.running with
  | none =>
    obtain ⟨m, k, hreset, hkeep⟩ := State.softReset_spec { s with inbox := rest }
    rw [State.countDown_of_idle hr]
    exact ⟨m, k, hreset, fun a _ => hkeep a (.inl hr)⟩
  | some r =>
    obtain ⟨hdst, hmax⟩ := State.output_range_of_left hr rest (r.left - 1)
    obtain ⟨m, k, hreset, hkeep⟩ :=
      State.softReset_spec { s with inbox := rest, running := some { r with left := r.left - 1 } }
    rw [State.countDown_of_running hr]
    rw [hdst, hmax] at hkeep
    exact ⟨m, k, hreset, fun a ha => hkeep a (.inr (ha.resolve_left nofun))⟩

/-- Settles O12: the write comes before a completion, and what it abandons is the command in progress. -/
theorem softResetKeepsOnlyBuf : Obligations.SoftResetKeepsOnlyBuf := by
  unfold Obligations.SoftResetKeepsOnlyBuf
  intro s v rest hreset hin
  refine ⟨fun hv => ?_, fun hv hrun => ?_⟩
  · obtain ⟨m, k, hsoft, hkeep⟩ := s.softReset_countDown rest
    refine ⟨m, k, ?_, hkeep⟩
    rw [step_write_before (.inl rfl) hreset hin, State.regWrite, if_pos hv, hsoft,
      State.cleared_of_released (s := { s with inbox := rest }) hreset]
    exact finishDue_idle rfl
  · rw [step_write_before (.inl rfl) hreset hin, State.regWrite, if_neg (Bool.eq_false_iff.mp hv),
      State.countDown_of_idle hrun]
    exact finishDue_idle hrun

end Sys2Proof.Machine
end

section
/-! The registers (10_state.md R21 to R38): what each reads as, and what a write to one makes of the reads. -/

namespace Sys2Proof.Machine

/-! ## Reads -/

/-- A step of an idle core that serves a register read. -/
theorem step_register_read {s : State} {g : Reg} {rest : List Input} (hrun : s.running = none)
    (hreset : s.inReset = false) (hin : s.inbox = .bus ⟨s.build.base + g.offset, .w32, .read⟩ :: rest) :
    step s = .next { s with inbox := rest, resp := some ⟨false, s.regRead g⟩ } := by
  rw [step_idle hrun hin]
  refine (congrArg finishDue (State.access_read_reg { s with inbox := rest } g hreset hrun)).trans ?_
  exact finishDue_idle hrun

/-- A field that is narrower than the register reads as its own number. -/
theorem toNat_setWidth_word {n : Nat} (x : BitVec n) (h : n ≤ 32) : (x.setWidth 32).toNat = x.toNat :=
  BitVec.toNat_setWidth_of_le h

/-- CFG as a number (10_state.md R28). -/
theorem Cfg.word_toNat (c : Cfg) : c.word.toNat =
    c.bs.toNat * 2 ^ 16 + c.rc5w.toNat * 2 ^ 12 + c.pad.toNat * 2 ^ 8 + c.mode.toNat * 2 ^ 4 + c.alg.toNat := by
  change (0#8 ++ c.bs ++ 0#2 ++ c.rc5w ++ 0#1 ++ c.pad ++ 0#1 ++ c.mode ++ 0#1 ++ c.alg :
    BitVec (8 + 8 + 2 + 2 + 1 + 3 + 1 + 3 + 1 + 3)).toNat = _
  simp only [toNat_append_eq, BitVec.toNat_ofNat]
  omega

/-- STATUS as a number (10_state.md R24). -/
theorem State.statusWith_toNat (s : State) (err : Bool) (errcode lastop : Byte) :
    (s.statusWith err errcode lastop).toNat = lastop.toNat * 2 ^ 16 + errcode.toNat * 2 ^ 8 +
      s.stream.toNat * 2 ^ 4 + s.algKeyed.toNat * 2 ^ 3 + s.ctxValid.toNat * 2 ^ 2 + err.toNat * 2 + s.busy.toNat := by
  change (0#8 ++ lastop ++ errcode ++ 0#2 ++ s.stream ++ BitVec.ofBool s.algKeyed ++ BitVec.ofBool s.ctxValid ++
    BitVec.ofBool err ++ BitVec.ofBool s.busy : BitVec (8 + 8 + 8 + 2 + 2 + 1 + 1 + 1 + 1)).toNat = _
  simp only [toNat_append_eq, BitVec.toNat_ofNat, BitVec.toNat_ofBool]
  omega

theorem toNat_mul_eq_ite (p : Bool) (n : Nat) : p.toNat * n = if p = true then n else 0 := by
  cases p
  · exact Nat.zero_mul n
  · exact Nat.one_mul n

/-- Settles O54: a register read is the register's value; a value made of fields is the sum of their numbers. -/
theorem registerReadsAnswerAndChangeNothing : Obligations.RegisterReadsAnswerAndChangeNothing := by
  unfold Obligations.RegisterReadsAnswerAndChangeNothing
  refine ⟨fun s r rest hrun hreset hin => step_register_read hrun hreset hin, rfl, fun s => ?_⟩
  refine ⟨⟨rfl, rfl, rfl⟩, ⟨rfl, rfl, rfl⟩, ⟨rfl, rfl, rfl⟩, ⟨?_, ?_⟩, ⟨?_, ?_⟩, ⟨?_, ?_, ?_, ?_⟩, s.args.cfg.word_toNat,
    ?_⟩
  case refine_9 =>
    refine (s.statusWith_toNat s.err s.errcode s.lastop).trans ?_
    have hbusy := toNat_mul_eq_ite s.running.isSome 1
    rw [Nat.mul_one] at hbusy
    rw [State.stream, State.algKeyed, toNat_mul_eq_ite, State.ctxValid, toNat_mul_eq_ite, toNat_mul_eq_ite,
      State.busy, hbusy]
    cases s.session.str <;> rfl
  all_goals exact toNat_setWidth_word _ (by decide)

/-! ## Writes -/

/-- A step of an idle core that serves a write to a register without side effects. -/
theorem step_register_write {s : State} {g : Reg} {v : Word32} {rest : List Input} (hcmd : g ≠ .cmd) (hctrl : g ≠ .ctrl)
    (hrun : s.running = none) (hreset : s.inReset = false)
    (hin : s.inbox = .bus ⟨s.build.base + g.offset, .w32, .write v⟩ :: rest) :
    step s = .next { s.regWrite g v with inbox := rest, resp := some ⟨false, 0#32⟩ } := by
  rw [step_idle hrun hin]
  refine (congrArg finishDue (State.access_write_reg { s with inbox := rest } g v hreset)).trans ?_
  cases g with
  | cmd => exact absurd rfl hcmd
  | ctrl => exact absurd rfl hctrl
  | _ => exact finishDue_idle hrun

/-- The registers a host writes that have no side effects, with the bits that are stored (10_state.md R26 to R36). -/
def storedBits : List (Reg × Word32) :=
  [(.src, 0xFFFFFFFF#32), (.len, 0xFFFFFFFF#32), (.dst, 0xFFFFFFFF#32), (.cfg, 0x00FF3777#32), (.keylen, 0x3F#32),
    (.ivlen, 0x1F#32), (.intEnable, 0x7#32), (.gfA, 0xFFFF#32), (.gfB, 0xFFFF#32), (.gfMod, 0x1FFFF#32),
    (.gfCfg, 0x1F#32)]

/-- A field at the bottom of the register reads as the bits written to it. -/
theorem setWidth_lowBits (v : Word32) {k : Nat} (h : k < 32) :
    (v.extractLsb' 0 k).setWidth 32 = v &&& BitVec.ofNat 32 (2 ^ k - 1) := by
  have hlt : 2 ^ k - 1 < 2 ^ 32 := (Nat.sub_le _ _).trans_lt (Nat.pow_lt_pow_right (by decide) h)
  apply BitVec.eq_of_toNat_eq
  rw [toNat_setWidth_word _ h.le, BitVec.extractLsb'_toNat, Nat.shiftRight_zero, BitVec.toNat_and, BitVec.toNat_ofNat,
    Nat.mod_eq_of_lt hlt, Nat.and_two_pow_sub_one_eq_mod]

/-- A word by the fields of CFG and the bits between them. -/
theorem cfg_fields_append (w : Word32) :
    w.extractLsb' 24 8 ++ w.extractLsb' 16 8 ++ w.extractLsb' 14 2 ++ w.extractLsb' 12 2 ++ w.extractLsb' 11 1 ++
      w.extractLsb' 8 3 ++ w.extractLsb' 7 1 ++ w.extractLsb' 4 3 ++ w.extractLsb' 3 1 ++ w.extractLsb' 0 3 = w := by
  iterate 9 rw [BitVec.extractLsb'_append_extractLsb'_eq_extractLsb' (by rfl)]
  exact BitVec.extractLsb'_eq_self

/-- CFG stores its fields and not the bits between them (10_state.md R28). -/
theorem cfgOfWord_word (v : Word32) : (cfgOfWord v).word = v &&& 0x00FF3777#32 := by
  rw [← cfg_fields_append (v &&& 0x00FF3777#32)]
  have h3 (x : BitVec 3) : x &&& 0x7#3 = x := BitVec.and_allOnes
  have h2 (x : BitVec 2) : x &&& 0x3#2 = x := BitVec.and_allOnes
  have h8 (x : BitVec 8) : x &&& 0xFF#8 = x := BitVec.and_allOnes
  simp [BitVec.extractLsb'_and, Cfg.word, cfgOfWord, h2, h3, h8]

/-- The register that is written reads as its stored bits of the value (10_state.md R26 to R36, R41). -/
theorem State.regRead_regWrite_same (s : State) (v : Word32) :
    ∀ p ∈ storedBits, (s.regWrite p.1 v).regRead p.1 = v &&& p.2 := by
  have hall : v = v &&& 0xFFFFFFFF#32 := BitVec.and_allOnes.symm
  simp only [storedBits, List.forall_mem_cons]
  exact ⟨hall, hall, hall, cfgOfWord_word v, setWidth_lowBits v (k := 6) (by decide),
    setWidth_lowBits v (k := 5) (by decide), setWidth_lowBits v (k := 3) (by decide),
    setWidth_lowBits v (k := 16) (by decide), setWidth_lowBits v (k := 16) (by decide),
    setWidth_lowBits v (k := 17) (by decide), setWidth_lowBits v (k := 5) (by decide), nofun⟩

/-- No other register reads differently. -/
theorem State.regRead_regWrite_other (s : State) (v : Word32) {g g' : Reg} (hcmd : g ≠ .cmd) (hctrl : g ≠ .ctrl)
    (hne : g' ≠ g) : (s.regWrite g v).regRead g' = s.regRead g' := by
  cases g with
  | cmd => exact absurd rfl hcmd
  | ctrl => exact absurd rfl hctrl
  | id | status | outlen | errinfo | gfRes | param => rfl
  | src => cases g' with | src => exact absurd rfl hne | _ => rfl
  | len => cases g' with | len => exact absurd rfl hne | _ => rfl
  | dst => cases g' with | dst => exact absurd rfl hne | _ => rfl
  | cfg => cases g' with | cfg => exact absurd rfl hne | _ => rfl
  | keylen => cases g' with | keylen => exact absurd rfl hne | _ => rfl
  | ivlen => cases g' with | ivlen => exact absurd rfl hne | _ => rfl
  | intStatus => cases g' with | intStatus => exact absurd rfl hne | _ => rfl
  | intEnable => cases g' with | intEnable => exact absurd rfl hne | _ => rfl
  | gfA => cases g' with | gfA => exact absurd rfl hne | _ => rfl
  | gfB => cases g' with | gfB => exact absurd rfl hne | _ => rfl
  | gfMod => cases g' with | gfMod => exact absurd rfl hne | _ => rfl
  | gfCfg => cases g' with | gfCfg => exact absurd rfl hne | _ => rfl

/-- A write to a register without side effects leaves everything but the operand registers and INT_ENABLE, and of those
the windows. -/
theorem State.regWrite_eq_setArgs (s : State) (v : Word32) {g : Reg} (hcmd : g ≠ .cmd) (hctrl : g ≠ .ctrl)
    (hint : g ≠ .intStatus) : ∃ x en, s.regWrite g v = { s with args := x, intEnable := en } ∧
      x.key = s.args.key ∧ x.iv = s.args.iv := by
  cases g with
  | cmd => exact absurd rfl hcmd
  | ctrl => exact absurd rfl hctrl
  | intStatus => exact absurd rfl hint
  | _ => exact ⟨_, _, rfl, rfl, rfl⟩

theorem storedBits_plain : ∀ p ∈ storedBits, p.1 ≠ .cmd ∧ p.1 ≠ .ctrl ∧ p.1 ≠ .intStatus := by decide

theorem State.regWrite_readOnly (s : State) (v : Word32) :
    ∀ g ∈ [Reg.id, .status, .outlen, .errinfo, .gfRes, .param], s.regWrite g v = s := by
  simp only [List.forall_mem_cons]
  exact ⟨rfl, rfl, rfl, rfl, rfl, rfl, nofun⟩

/-- Settles O55: the fields of a register that is written are cut from the value; a read-only register's write is none. -/
theorem registerWritesStoreTheDefinedBits : Obligations.RegisterWritesStoreTheDefinedBits := by
  unfold Obligations.RegisterWritesStoreTheDefinedBits
  refine fun s v => ⟨fun r rest hcmd hctrl hrun hreset hin => step_register_write hcmd hctrl hrun hreset hin,
    fun r m hmem => ?_, s.regWrite_readOnly v⟩
  obtain ⟨hcmd, hctrl, hint⟩ := storedBits_plain (r, m) hmem
  exact ⟨s.regRead_regWrite_same v (r, m) hmem, fun r' hne => s.regRead_regWrite_other v hcmd hctrl hne,
    s.regWrite_eq_setArgs v hcmd hctrl hint⟩

end Sys2Proof.Machine
end

section
/-! Accesses of every width (20_memory.md R71 to R74): which target an offset selects, which accesses it takes, and the
bytes of a data word. -/

namespace Sys2Proof.Machine

/-! ## The target of an offset (20_memory.md R71) -/

section
variable {b : Build} {o : Nat}

theorem targetOf_control (h : o < 0x050) : ∃ g, targetOf b o = .reg g := by
  have hk : o / 4 < regMap.length := show o / 4 < 20 by omega
  refine ⟨regMap[o / 4], ?_⟩
  unfold targetOf
  rw [if_pos (by omega), List.getElem?_eq_getElem hk]

theorem targetOf_key (hlo : 0x080 ≤ o) (hhi : o < 0x0A0) : targetOf b o = .key (o - 0x080) := by
  unfold targetOf
  rw [if_neg (by omega), if_pos hhi]

theorem targetOf_iv (hlo : 0x0A0 ≤ o) (hhi : o < 0x0B0) : targetOf b o = .iv (o - 0x0A0) := by
  unfold targetOf
  rw [if_neg (by omega), if_neg (by omega), if_pos hhi]

theorem targetOf_buf (hlo : 0x10000 ≤ o) (hhi : o < 0x10000 + b.bufBytes) : targetOf b o = .buf (o - 0x10000) := by
  unfold targetOf
  rw [if_neg (by omega), if_neg (by omega), if_neg (by omega), if_pos ⟨hlo, hhi⟩]

theorem targetOf_reserved
    (h : 0x050 ≤ o ∧ o < 0x080 ∨ 0x0B0 ≤ o ∧ o < 0x10000 ∨ 0x10000 + b.bufBytes ≤ o) : targetOf b o = .reserved := by
  unfold targetOf
  by_cases hlow : o < 0x080
  · have hk : regMap.length ≤ o / 4 := show 20 ≤ o / 4 by omega
    rw [if_pos hlow, List.getElem?_eq_none hk]
  · rw [if_neg hlow, if_neg (by omega), if_neg (by omega), if_neg (by omega)]

/-- BUF and both windows lie in the core's window. -/
theorem lt_windowSize (h : o < 0x0B0 ∨ o < 0x10000 + b.bufBytes) : o < 0x20000 := by
  obtain ⟨-, hle⟩ := b.bufBytes_form
  omega

end

/-! ## Accesses by offset -/

section
variable {s : State} {o : Nat} {w : Width} (ho : o < 0x20000) (hreset : s.inReset = false)
include ho hreset

theorem State.access_of_illegal (op : BusOp) (h : accessLegal (targetOf s.build o) w o = false) :
    s.access ⟨s.build.base + o, w, op⟩ = s.busError := by
  simp [State.access, inWindow_offset s.build ho, hreset, targetOfAccess_offset, h]

theorem State.access_write_of_legal (v : Word32) (h : accessLegal (targetOf s.build o) w o = true) :
    s.access ⟨s.build.base + o, w, .write v⟩ = s.busWrite (targetOf s.build o) w v := by
  simp [State.access, inWindow_offset s.build ho, hreset, targetOfAccess_offset, h]

theorem State.access_read_of_legal (h : accessLegal (targetOf s.build o) w o = true) :
    s.access ⟨s.build.base + o, w, .read⟩ = s.busRead (targetOf s.build o) w := by
  simp [State.access, inWindow_offset s.build ho, hreset, targetOfAccess_offset, h]

end

/-- Everything but a control register takes every aligned access (20_memory.md R74). -/
theorem accessLegal_of_aligned {t : Target} {w : Width} {o : Nat} (ht : ∀ g, t ≠ .reg g) :
    accessLegal t w o = (o % w.bytes == 0) := by
  cases t with
  | reg g => exact absurd rfl (ht g)
  | key | iv | buf | reserved => rfl

theorem accessLegal_control {g : Reg} {w : Width} {o : Nat} (h : w ≠ .w32 ∨ o % 4 ≠ 0) :
    accessLegal (.reg g) w o = false := by
  rw [accessLegal, Bool.and_eq_false_iff]
  exact h.imp beq_false_of_ne beq_false_of_ne

/-! ## The bytes of a data word (20_memory.md R72) -/

/-- The word of at most four bytes has them in its byte lanes, and 0 above. -/
theorem extract_word_of_bytes {l : List Byte} (h : l.length ≤ 4) (k : Nat) :
    (BitVec.ofNat 32 (leNat l)).extractLsb' (8 * k) 8 = l[k]?.getD 0#8 := by
  have hlt : leNat l < 2 ^ 32 :=
    (leNat_lt l).trans_le ((Nat.pow_le_pow_right (by decide) h).trans_eq (by decide : 256 ^ 4 = 2 ^ 32))
  have hlane : (BitVec.ofNat 32 (leNat l)).extractLsb' (8 * k) 8 = BitVec.ofNat 8 (leNat l / 256 ^ k) := by
    apply BitVec.eq_of_toNat_eq
    rw [BitVec.extractLsb'_toNat, BitVec.toNat_ofNat, Nat.mod_eq_of_lt hlt, Nat.shiftRight_eq_div_pow,
      BitVec.toNat_ofNat, Nat.pow_mul]
  rw [hlane]
  obtain hk | hk := lt_or_ge k l.length
  · have hbyte := toLe_getElem? (leNat l) hk
    rw [toLe_leNat] at hbyte
    rw [hbyte, Option.getD_some]
  · rw [List.getElem?_eq_none hk, Option.getD_none, Nat.div_eq_of_lt]
    exact (leNat_lt l).trans_le (Nat.pow_le_pow_right (by decide) hk)

/-- A window after a write that lies in it: the lanes of the word, and every other byte as it was. -/
theorem vecWrite_word {n : Nat} (y : Vector Byte n) {i : Nat} (w : Width) (v : Word32) (h : i + w.bytes ≤ n) :
    (∀ k, k < w.bytes → (vecWrite y i (toLe w.bytes v.toNat))[i + k]? = some (v.extractLsb' (8 * k) 8)) ∧
      ∀ x, x < i ∨ i + w.bytes ≤ x → (vecWrite y i (toLe w.bytes v.toNat))[x]? = y[x]? := by
  refine ⟨fun k hk => ?_, fun x hx => ?_⟩
  · rw [vecWrite_getElem?, if_pos (by rw [toLe_length]; omega), Nat.add_sub_cancel_left]
    exact toLe_word_getElem? v hk
  · rw [vecWrite_getElem?, if_neg (by rw [toLe_length]; omega)]

/-- BUF after a write: the lanes of the word, and every other byte as it was. -/
theorem writeN_word (m : Memory) (a : Nat) (w : Width) (v : Word32) :
    (∀ k, k < w.bytes → (m.writeN a (toLe w.bytes v.toNat)).read (a + k) = v.extractLsb' (8 * k) 8) ∧
      ∀ x, x < a ∨ a + w.bytes ≤ x → (m.writeN a (toLe w.bytes v.toNat)).read x = m.read x :=
  ⟨fun _ hk => Memory.read_writeN_inside _ _ _ _ _ (toLe_word_getElem? v hk),
    fun _ hx => Memory.read_writeN_outside _ _ _ _ (by rwa [toLe_length])⟩

/-- The bytes a read of a window gives. -/
theorem take_drop_window {n : Nat} (y : Vector Byte n) {i : Nat} (w : Width) (h : i + w.bytes ≤ n) :
    ((y.toList.drop i).take w.bytes).length = w.bytes ∧
      ∀ k, k < w.bytes → ((y.toList.drop i).take w.bytes)[k]? = y[i + k]? := by
  refine ⟨by rw [List.length_take, List.length_drop, Vector.length_toList]; omega, fun k hk => ?_⟩
  rw [List.getElem?_take, if_pos hk, List.getElem?_drop, Vector.getElem?_toList]

theorem Width.bytes_le (w : Width) : w.bytes ≤ 4 := by cases w <;> decide

/-- A read's data word, lane by lane: `byte k` where the target has a byte `k`, and 0 above the width (20_memory.md R72;
log 26). -/
theorem extract_readBytes {l : List Byte} {w : Width} {byte : Nat → Option Byte} (hlen : l.length = w.bytes)
    (h : ∀ k, k < w.bytes → l[k]? = byte k) :
    (∀ k, w.bytes ≤ k → (BitVec.ofNat 32 (leNat l)).extractLsb' (8 * k) 8 = 0#8) ∧
      ∀ k, k < w.bytes → some ((BitVec.ofNat 32 (leNat l)).extractLsb' (8 * k) 8) = byte k := by
  have hle : l.length ≤ 4 := hlen.trans_le w.bytes_le
  refine ⟨fun k hk => ?_, fun k hk => ?_⟩
  · rw [extract_word_of_bytes hle, List.getElem?_eq_none (hlen.trans_le hk), Option.getD_none]
  · rw [extract_word_of_bytes hle, ← h k hk, List.getElem?_eq_getElem (hlen ▸ hk), Option.getD_some]

/-! ## Writes and reads of the windows and of BUF -/

section
variable {s : State} {w : Width} {o : Nat} (hreset : s.inReset = false) (hmod : o % w.bytes = 0)
include hmod

theorem accessLegal_key (hlo : 0x080 ≤ o) (hhi : o < 0x0A0) : accessLegal (targetOf s.build o) w o = true := by
  rw [targetOf_key hlo hhi]
  exact beq_iff_eq.mpr hmod

theorem accessLegal_iv (hlo : 0x0A0 ≤ o) (hhi : o < 0x0B0) : accessLegal (targetOf s.build o) w o = true := by
  rw [targetOf_iv hlo hhi]
  exact beq_iff_eq.mpr hmod

theorem accessLegal_buf (hlo : 0x10000 ≤ o) (hhi : o < 0x10000 + s.build.bufBytes) :
    accessLegal (targetOf s.build o) w o = true := by
  rw [targetOf_buf hlo hhi]
  exact beq_iff_eq.mpr hmod

/-- An aligned access that begins in a window lies in it. -/
theorem aligned_in_windows :
    (0x080 ≤ o → o < 0x0A0 → o - 0x080 + w.bytes ≤ 32) ∧ (0x0A0 ≤ o → o < 0x0B0 → o - 0x0A0 + w.bytes ≤ 16) := by
  obtain h | h | h := w.bytes_cases
  all_goals
    rw [h] at hmod ⊢
    omega

include hreset

theorem State.access_write_key (v : Word32) (hlo : 0x080 ≤ o) (hhi : o < 0x0A0) : ∃ y : Vector Byte 32,
    s.access ⟨s.build.base + o, w, .write v⟩ =
      State.respond { s with args := { s.args with key := y } } false 0#32 ∧
    (∀ k, k < w.bytes → y[o - 0x080 + k]? = some (v.extractLsb' (8 * k) 8)) ∧
    ∀ x, x < o - 0x080 ∨ o - 0x080 + w.bytes ≤ x → y[x]? = s.args.key[x]? := by
  have haccess := State.access_write_of_legal (lt_windowSize (b := s.build) (by omega)) hreset v
    (accessLegal_key hmod hlo hhi)
  rw [targetOf_key hlo hhi] at haccess
  exact ⟨_, haccess, vecWrite_word s.args.key w v ((aligned_in_windows hmod).1 hlo hhi)⟩

theorem State.access_write_iv (v : Word32) (hlo : 0x0A0 ≤ o) (hhi : o < 0x0B0) : ∃ y : Vector Byte 16,
    s.access ⟨s.build.base + o, w, .write v⟩ =
      State.respond { s with args := { s.args with iv := y } } false 0#32 ∧
    (∀ k, k < w.bytes → y[o - 0x0A0 + k]? = some (v.extractLsb' (8 * k) 8)) ∧
    ∀ x, x < o - 0x0A0 ∨ o - 0x0A0 + w.bytes ≤ x → y[x]? = s.args.iv[x]? := by
  have haccess := State.access_write_of_legal (lt_windowSize (b := s.build) (by omega)) hreset v
    (accessLegal_iv hmod hlo hhi)
  rw [targetOf_iv hlo hhi] at haccess
  exact ⟨_, haccess, vecWrite_word s.args.iv w v ((aligned_in_windows hmod).2 hlo hhi)⟩

theorem State.access_write_buf (v : Word32) (hlo : 0x10000 ≤ o) (hhi : o < 0x10000 + s.build.bufBytes) :
    s.access ⟨s.build.base + o, w, .write v⟩ =
      (s.hostWriteBuf (o - 0x10000) (toLe w.bytes v.toNat)).respond false 0#32 := by
  have haccess := State.access_write_of_legal (lt_windowSize (.inr hhi)) hreset v (accessLegal_buf hmod hlo hhi)
  rwa [targetOf_buf hlo hhi] at haccess

/-- A read of a window or of BUF answers the bytes it finds there, lane by lane. -/
theorem State.access_read_bytes
    (h : 0x080 ≤ o ∧ o < 0x0B0 ∨ 0x10000 ≤ o ∧ o < 0x10000 + s.build.bufBytes) : ∃ d : Word32,
    s.access ⟨s.build.base + o, w, .read⟩ =
      { s.respond false d with free := if s.busy then s.free + 1 else s.free } ∧
    (∀ k, w.bytes ≤ k → d.extractLsb' (8 * k) 8 = 0#8) ∧
    ∀ k, k < w.bytes → some (d.extractLsb' (8 * k) 8) =
      if o < 0x0A0 then s.args.key[o - 0x080 + k]? else if o < 0x0B0 then s.args.iv[o - 0x0A0 + k]?
      else some (s.hostByte (o - 0x10000 + k)) := by
  have ho : o < 0x20000 := lt_windowSize (b := s.build) (by omega)
  obtain ⟨hkey, hiv⟩ := aligned_in_windows hmod
  obtain ⟨hlo, hhi⟩ | ⟨hlo, hhi⟩ := h
  · obtain hlt | hge := lt_or_ge o 0x0A0
    · have haccess := State.access_read_of_legal ho hreset (accessLegal_key hmod hlo hlt)
      rw [targetOf_key hlo hlt] at haccess
      obtain ⟨hlen, hbytes⟩ := take_drop_window s.args.key w (hkey hlo hlt)
      simp only [if_pos hlt]
      exact ⟨_, haccess, extract_readBytes hlen hbytes⟩
    · have haccess := State.access_read_of_legal ho hreset (accessLegal_iv hmod hge hhi)
      rw [targetOf_iv hge hhi] at haccess
      obtain ⟨hlen, hbytes⟩ := take_drop_window s.args.iv w (hiv hge hhi)
      simp only [if_neg (not_lt.mpr hge), if_pos hhi]
      exact ⟨_, haccess, extract_readBytes hlen hbytes⟩
  · have haccess := State.access_read_of_legal ho hreset (accessLegal_buf hmod hlo hhi)
    rw [targetOf_buf hlo hhi] at haccess
    simp only [if_neg (show ¬ o < 0x0A0 by omega), if_neg (show ¬ o < 0x0B0 by omega)]
    refine ⟨_, haccess, extract_readBytes (l := (List.range' (o - 0x10000) w.bytes).map s.hostByte)
      (by rw [List.length_map, List.length_range']) fun k hk => ?_⟩
    rw [List.getElem?_map, List.getElem?_range' hk, Option.map_some, Nat.one_mul]

end

end Sys2Proof.Machine
end

section
/-! Accesses to an idle core (20_memory.md R72, R74; 60_exceptions.md R407). -/

namespace Sys2Proof.Machine

section
variable {s : State} {rest : List Input} {w : Width} {o : Nat}

/-- A step of an idle core is the access it serves, where that submits no command. -/
theorem step_idle_access {a : Access} {t : State} (hrun : s.running = none) (hin : s.inbox = .bus a :: rest)
    (h : State.access { s with inbox := rest } a = t) (ht : t.running = none) : step s = .next t := by
  rw [step_idle hrun hin]
  exact (congrArg finishDue h).trans (finishDue_idle ht)

/-! ## Bus errors and reserved offsets -/

/-- Settles O57: such an access is not legal at its target; a reserved target gives zeros and takes nothing. -/
theorem badAccessesAreBusErrors : Obligations.BadAccessesAreBusErrors := by
  unfold Obligations.BadAccessesAreBusErrors
  refine fun s rest w o op hrun hreset hin => ⟨fun hbad => ?_, fun hreserved hmod => ?_⟩
  · have hillegal : accessLegal (targetOf s.build o) w o = false := by
      obtain ⟨hlt, hwidth⟩ | ⟨hrange, hmod⟩ := hbad
      · obtain ⟨g, hg⟩ := targetOf_control (b := s.build) hlt
        rw [hg]
        exact accessLegal_control hwidth
      · have hwindow : ∀ g, targetOf s.build o ≠ .reg g := by
          obtain ⟨hlo, hhi⟩ | ⟨hlo, hhi⟩ := hrange
          · obtain hkey | hiv := lt_or_ge o 0x0A0
            · rw [targetOf_key hlo hkey]
              exact nofun
            · rw [targetOf_iv hiv hhi]
              exact nofun
          · rw [targetOf_buf hlo hhi]
            exact nofun
        rw [accessLegal_of_aligned hwindow]
        exact beq_false_of_ne hmod
    have ho : o < 0x20000 := lt_windowSize (b := s.build) (by omega)
    exact step_idle_access hrun hin
      (State.access_of_illegal (s := { s with inbox := rest }) ho hreset op hillegal) hrun
  · have htarget : targetOf s.build o = .reserved := targetOf_reserved (by omega)
    have hlegal : accessLegal (targetOf s.build o) w o = true := by
      rw [htarget, accessLegal, hmod]
      rfl
    obtain ⟨-, hle⟩ := s.build.bufBytes_form
    have ho : o < 0x20000 := by omega
    cases op with
    | write v =>
      have haccess := State.access_write_of_legal (s := { s with inbox := rest }) ho hreset v hlegal
      rw [htarget] at haccess
      exact step_idle_access hrun hin haccess hrun
    | read =>
      have haccess := State.access_read_of_legal (s := { s with inbox := rest }) ho hreset hlegal
      rw [htarget] at haccess
      have hzero : BitVec.ofNat 32 (leNat (List.replicate w.bytes 0#8)) = 0#32 := by cases w <;> decide
      have hread : State.busRead { s with inbox := rest } .reserved w =
          { s with inbox := rest, resp := some ⟨false, 0#32⟩ } := by
        simp only [State.busRead, State.readBytes, hzero, State.busy, hrun, Option.isSome_none]
        rfl
      exact step_idle_access hrun hin (haccess.trans hread) hrun

/-! ## The windows and BUF -/

/-- With no command in progress every byte of BUF reads as it is. -/
theorem State.hostByte_of_idle (h : s.running = none) (a : Nat) : s.hostByte a = s.buf.read a := by
  have hout : s.inOut a = false := by
    rw [State.inOut, Bool.and_eq_false_iff, decide_eq_false_iff_not, decide_eq_false_iff_not, State.runningMaxOut, h]
    dsimp only
    omega
  rw [State.hostByte, hout]
  rfl

/-- Settles O56: an access of a window or of BUF takes its target byte by byte, the lowest offset in the lowest lane. -/
theorem accessesAreLittleEndian : Obligations.AccessesAreLittleEndian := by
  unfold Obligations.AccessesAreLittleEndian
  refine fun s rest w o hrun hreset hmod => ⟨fun v hin => ⟨fun hlo hhi => ?_, fun hlo hhi => ?_, fun hlo hhi => ?_⟩,
    fun hin hlo hrange => ?_⟩
  · have haccess := State.access_write_buf (s := { s with inbox := rest }) hreset hmod v hlo hhi
    have hwrite : State.hostWriteBuf { s with inbox := rest } (o - 0x10000) (toLe w.bytes v.toNat) =
        { s with inbox := rest, buf := s.buf.writeN (o - 0x10000) (toLe w.bytes v.toNat) } := by
      simp only [State.hostWriteBuf, hrun]
    rw [hwrite] at haccess
    exact ⟨_, step_idle_access hrun hin haccess hrun, writeN_word s.buf (o - 0x10000) w v⟩
  · obtain ⟨y, haccess, hbytes⟩ := State.access_write_key (s := { s with inbox := rest }) hreset hmod v hlo hhi
    exact ⟨y, step_idle_access hrun hin haccess hrun, hbytes⟩
  · obtain ⟨y, haccess, hbytes⟩ := State.access_write_iv (s := { s with inbox := rest }) hreset hmod v hlo hhi
    exact ⟨y, step_idle_access hrun hin haccess hrun, hbytes⟩
  · obtain ⟨d, haccess, hzero, hbytes⟩ := State.access_read_bytes (s := { s with inbox := rest }) hreset hmod
      (hrange.imp_left fun hhi => ⟨hlo, hhi⟩)
    have hidle : State.busy { s with inbox := rest } = false := by rw [State.busy, hrun]; rfl
    rw [hidle] at haccess
    refine ⟨d, step_idle_access hrun hin haccess hrun, hzero, fun k hk => ?_⟩
    rw [hbytes k hk, State.hostByte_of_idle (by exact hrun)]

end

end Sys2Proof.Machine
end

section
/-! Accesses to a busy core (10_state.md R25, R31; 60_exceptions.md R408; 70_reset_and_hazards.md R460 to R462). -/

namespace Sys2Proof.Machine

section
variable {s : State} {r : Running} {n : Nat} {rest : List Input}

/-! ## The step -/

/-- A state whose command has run on for a cycle in which the oldest input was taken. -/
def State.ranOn (s : State) (r : Running) (n : Nat) (rest : List Input) : State :=
  { s with inbox := rest, running := some { r with left := n + 1 } }

/-- A step of a core whose command runs on is the access it serves, where that leaves the command its time. -/
theorem step_busy_access {a : Access} {t : State} {r' : Running} (hrun : s.running = some r) (hleft : r.left = n + 2)
    (hin : s.inbox = .bus a :: rest) (h : (s.ranOn r n rest).access a = t) (ht : t.running = some r')
    (hleft' : r'.left = n + 1) : step s = .next t := by
  rw [step_busy hrun hleft hin]
  exact (congrArg finishDue h).trans (finishDue_not_due ht (by omega))

/-- A register write to a core whose command runs on. -/
theorem step_busy_register_write {g : Reg} {v : Word32} {t : State} {r' : Running} (hrun : s.running = some r)
    (hleft : r.left = n + 2) (hreset : s.inReset = false)
    (hin : s.inbox = .bus ⟨s.build.base + g.offset, .w32, .write v⟩ :: rest)
    (h : ((s.ranOn r n rest).regWrite g v).respond false 0#32 = t) (ht : t.running = some r')
    (hleft' : r'.left = n + 1) : step s = .next t :=
  step_busy_access hrun hleft hin ((State.access_write_reg (s.ranOn r n rest) g v hreset).trans h) ht hleft'

/-! ## STATUS while BUSY -/

/-- The fields of STATUS that a completion does not write are current (70_reset_and_hazards.md R462). -/
theorem State.statusWith_fields (h : s.busy = true) (err err' : Bool) (code code' op op' : Byte) :
    (s.statusWith err code op).extractLsb' 0 1 = 1#1 ∧
      (s.statusWith err code op).extractLsb' 2 6 = (s.statusWith err' code' op').extractLsb' 2 6 ∧
      (s.statusWith err code op).extractLsb' 24 8 = 0#8 := by
  have hnum := s.statusWith_toNat err code op
  have hnum' := s.statusWith_toNat err' code' op'
  have herr := Bool.toNat_lt err
  have herr' := Bool.toNat_lt err'
  have hvalid := Bool.toNat_lt s.ctxValid
  have hkeyed := Bool.toNat_lt s.algKeyed
  rw [h, Bool.toNat_true] at hnum hnum'
  refine ⟨?_, ?_, ?_⟩
  all_goals
    apply BitVec.eq_of_toNat_eq
    simp only [BitVec.extractLsb'_toNat, Nat.shiftRight_eq_div_pow, hnum, hnum', BitVec.toNat_ofNat]
    omega

/-! ## The accesses -/

section
variable (hrun : s.running = some r)
include hrun

theorem State.hostByte_ranOn {a : Nat} (ha : a < s.dst ∨ s.dst + s.runningMaxOut ≤ a) :
    (s.ranOn r n rest).hostByte a = s.buf.read a := by
  obtain ⟨hdst, hmax⟩ := State.output_range_of_left hrun rest (n + 1)
  have hout : (s.ranOn r n rest).inOut a = false := by
    rw [State.inOut, Bool.and_eq_false_iff, decide_eq_false_iff_not, decide_eq_false_iff_not]
    unfold State.ranOn
    rw [hdst, hmax]
    omega
  rw [State.hostByte, hout]
  rfl

theorem State.ranOn_statusWith (err : Bool) (errcode lastop : Byte) :
    (s.ranOn r n rest).statusWith err errcode lastop = s.statusWith err errcode lastop := by
  have hbusy : (s.ranOn r n rest).busy = s.busy := by rw [State.busy, State.busy, hrun]; rfl
  rw [State.statusWith, hbusy]
  rfl

variable (hleft : r.left = n + 2) (hreset : s.inReset = false)
include hleft hreset

/-- A CMD write is dropped and sets OVERRUN (60_exceptions.md R408). -/
theorem step_busy_cmd_write {v : Word32} (hin : s.inbox = .bus ⟨s.build.base + Reg.cmd.offset, .w32, .write v⟩ :: rest) :
    step s = .next { s.ranOn r n rest with
      resp := some ⟨false, 0#32⟩, intStatus := s.intStatus ||| 0b100#3 } :=
  step_busy_register_write hrun hleft hreset hin rfl rfl rfl

/-- A write to an operand register is performed at once; the command keeps the values it latched (10_state.md R50). -/
theorem step_busy_operand_write {g : Reg} {v : Word32}
    (hg : g ∈ [Reg.src, .len, .dst, .cfg, .keylen, .ivlen, .gfA, .gfB, .gfMod, .gfCfg])
    (hin : s.inbox = .bus ⟨s.build.base + g.offset, .w32, .write v⟩ :: rest) :
    step s = .next { s.ranOn r n rest with
      resp := some ⟨false, 0#32⟩, args := s.args.regWrite g v } := by
  have hwrite : (s.ranOn r n rest).regWrite g v = { s.ranOn r n rest with args := s.args.regWrite g v } := by
    cases g with
    | id | ctrl | status | cmd | outlen | intStatus | intEnable | errinfo | gfRes | param => exact absurd hg (by decide)
    | _ => rfl
  exact step_busy_register_write hrun hleft hreset hin (by rw [hwrite]; rfl) rfl rfl

/-- A write that has no effect on its register. -/
theorem step_busy_ignored_write {g : Reg} {v : Word32}
    (hg : g ∈ [Reg.id, .status, .outlen, .errinfo, .gfRes, .param] ∨ g = .ctrl ∧ v.getLsbD 0 = false)
    (hin : s.inbox = .bus ⟨s.build.base + g.offset, .w32, .write v⟩ :: rest) :
    step s = .next { s.ranOn r n rest with resp := some ⟨false, 0#32⟩ } := by
  have hwrite : (s.ranOn r n rest).regWrite g v = s.ranOn r n rest := by
    obtain hg | ⟨rfl, hv⟩ := hg
    · exact State.regWrite_readOnly _ v g hg
    · rw [State.regWrite, if_neg (Bool.eq_false_iff.mp hv)]
  exact step_busy_register_write hrun hleft hreset hin (by rw [hwrite]; rfl) rfl rfl

/-- A BUF write is performed at once; of its bytes the command sees the old or the new (70_reset_and_hazards.md R460). -/
theorem step_busy_buf_write {w : Width} {o : Nat} {v : Word32} (hmod : o % w.bytes = 0)
    (hin : s.inbox = .bus ⟨s.build.base + o, w, .write v⟩ :: rest) (hlo : 0x10000 ≤ o)
    (hhi : o < 0x10000 + s.build.bufBytes) : ∃ m view k,
    step s = .next { s.ranOn r n rest with
      resp := some ⟨false, 0#32⟩, buf := m, free := k
      running := some { r with
        left := n + 1, view := view, hostWrote := List.range' (o - 0x10000) w.bytes ++ r.hostWrote } } ∧
    (∀ k, k < w.bytes → m.read (o - 0x10000 + k) = v.extractLsb' (8 * k) 8 ∧
      (view.read (o - 0x10000 + k) = r.view.read (o - 0x10000 + k) ∨
        view.read (o - 0x10000 + k) = v.extractLsb' (8 * k) 8)) ∧
    ∀ x, x < o - 0x10000 ∨ o - 0x10000 + w.bytes ≤ x →
      m.read x = s.buf.read x ∧ view.read x = r.view.read x := by
  have haccess := State.access_write_buf (s := s.ranOn r n rest) hreset hmod v hlo hhi
  have hwrite : (s.ranOn r n rest).hostWriteBuf (o - 0x10000) (toLe w.bytes v.toNat) =
      { s.ranOn r n rest with
        buf := s.buf.writeN (o - 0x10000) (toLe w.bytes v.toNat), free := s.free + 1
        running := some { r with
          left := n + 1, view := viewWrites s.free r.view (o - 0x10000) (toLe w.bytes v.toNat)
          hostWrote := List.range' (o - 0x10000) w.bytes ++ r.hostWrote } } := by
    simp only [State.hostWriteBuf, State.ranOn, toLe_length]
  rw [hwrite] at haccess
  obtain ⟨hbytes, hother⟩ := writeN_word s.buf (o - 0x10000) w v
  obtain ⟨hview, hviewOther⟩ := viewWrites_spec s.free r.view (o - 0x10000) (toLe w.bytes v.toNat)
  rw [toLe_length] at hviewOther
  refine ⟨_, _, _, step_busy_access hrun hleft hin haccess rfl rfl, fun k hk => ?_, fun x hx => ?_⟩
  · exact ⟨hbytes k hk, hview k _ (toLe_word_getElem? v hk)⟩
  · exact ⟨hother x hx, hviewOther x hx⟩

/-- A read of a window, and of BUF outside the output range, is current (70_reset_and_hazards.md R462). -/
theorem step_busy_read_bytes {w : Width} {o : Nat} (hmod : o % w.bytes = 0)
    (hin : s.inbox = .bus ⟨s.build.base + o, w, .read⟩ :: rest)
    (h : 0x080 ≤ o ∧ o < 0x0B0 ∨ 0x10000 ≤ o ∧ o < 0x10000 + s.build.bufBytes) : ∃ (d : Word32) (f : Nat),
    step s = .next { s.ranOn r n rest with resp := some ⟨false, d⟩, free := f } ∧
    (∀ k, w.bytes ≤ k → d.extractLsb' (8 * k) 8 = 0#8) ∧
    ∀ k, k < w.bytes →
      (o < 0x0A0 → some (d.extractLsb' (8 * k) 8) = s.args.key[o - 0x080 + k]?) ∧
      (0x0A0 ≤ o → o < 0x0B0 → some (d.extractLsb' (8 * k) 8) = s.args.iv[o - 0x0A0 + k]?) ∧
      (0x10000 ≤ o → o - 0x10000 + k < s.dst ∨ s.dst + s.runningMaxOut ≤ o - 0x10000 + k →
        d.extractLsb' (8 * k) 8 = s.buf.read (o - 0x10000 + k)) := by
  obtain ⟨d, haccess, hzero, hbytes⟩ := State.access_read_bytes (s := s.ranOn r n rest) hreset hmod h
  refine ⟨d, _, step_busy_access hrun hleft hin haccess rfl rfl, hzero, fun k hk => ?_⟩
  have hbyte := hbytes k hk
  refine ⟨fun hkey => ?_, fun hiv hhi => ?_, fun hbuf hout => ?_⟩
  · rwa [if_pos hkey] at hbyte
  · rwa [if_neg (not_lt.mpr hiv), if_pos hhi] at hbyte
  · rw [if_neg (by omega), if_neg (by omega), State.hostByte_ranOn hrun hout] at hbyte
    exact Option.some.inj hbyte

/-- A register read is current where a completion does not write the register (70_reset_and_hazards.md R462). -/
theorem step_busy_register_read {g : Reg}
    (hin : s.inbox = .bus ⟨s.build.base + g.offset, .w32, .read⟩ :: rest) : ∃ (d : Word32) (f : Nat),
    step s = .next { s.ranOn r n rest with resp := some ⟨false, d⟩, free := f } ∧
    (g ∉ [Reg.status, .outlen, .errinfo, .gfRes] → d = s.regRead g) ∧
    (g = .status → d.extractLsb' 0 1 = 1#1 ∧ d.extractLsb' 2 6 = (s.regRead .status).extractLsb' 2 6 ∧
      d.extractLsb' 24 8 = 0#8) := by
  have haccess := State.access_read_reg_busy (s.ranOn r n rest) g hreset (x := { r with left := n + 1 }) rfl
  refine ⟨_, _, step_busy_access hrun hleft hin haccess rfl rfl, fun hg => ?_, fun hg => ?_⟩
  · cases g with
    | status | outlen | errinfo | gfRes => exact absurd hg (by decide)
    | _ => rfl
  · subst hg
    have hbusy : s.busy = true := by rw [State.busy, hrun]; rfl
    rw [State.regReadBusy, State.ranOn_statusWith hrun]
    exact State.statusWith_fields hbusy _ s.err _ s.errcode _ s.lastop

end

end

/-- Settles O60: each access is served with the command's time to go left in place, so that nothing completes. -/
theorem accessesToABusyCore : Obligations.AccessesToABusyCore := by
  unfold Obligations.AccessesToABusyCore
  intro s r n rest hrun hleft hreset goesOn
  refine ⟨fun v hin => step_busy_cmd_write hrun hleft hreset hin,
    fun g v hg hin => step_busy_operand_write hrun hleft hreset hg hin,
    fun v hin => step_busy_register_write (g := .intEnable) hrun hleft hreset hin rfl rfl rfl,
    fun v hin => ⟨_, step_busy_register_write (g := .intStatus) hrun hleft hreset hin rfl rfl rfl, s.ackInt_getLsbD v⟩,
    fun g v hg hin => step_busy_ignored_write hrun hleft hreset hg hin,
    fun w o v hmod hin => ⟨fun hlo hhi => ?_, fun hlo hhi => ?_,
      fun hlo hhi => step_busy_buf_write hrun hleft hreset hmod hin hlo hhi⟩,
    fun w o hmod hin hlo hrange =>
      step_busy_read_bytes hrun hleft hreset hmod hin (hrange.imp_left fun hhi => ⟨hlo, hhi⟩),
    fun g hin => step_busy_register_read hrun hleft hreset hin⟩
  · obtain ⟨y, haccess, hbytes⟩ := State.access_write_key (s := s.ranOn r n rest) hreset hmod v hlo hhi
    exact ⟨y, step_busy_access hrun hleft hin haccess rfl rfl, hbytes⟩
  · obtain ⟨y, haccess, hbytes⟩ := State.access_write_iv (s := s.ranOn r n rest) hreset hmod v hlo hhi
    exact ⟨y, step_busy_access hrun hleft hin haccess rfl rfl, hbytes⟩

end Sys2Proof.Machine
end
